-- ==== Sys2Proof/Word.lean ====
section
/-! DEFINITION. The word types of the block: 64-bit descriptors, addresses and port values (spec/00_scope.md R8), bytes. -/

namespace Sys2Proof

/-- A descriptor, an address or a 64-bit port value (R8). -/
abbrev Word := BitVec 64

/-- One byte of physical memory (spec/10_state.md R25). -/
abbrev Byte := BitVec 8

end Sys2Proof
end

