-- ==== Sys2Proof/Syntax.lean ====
section
/-! DEFINITION. The commands of the block, one constructor per row of spec/opcode_table.json, and the closed sets their
operands come from. Operands arrive on input ports, so a command carries its page-size tag at most (spec/30_encoding.md R87, R88). -/

namespace Sys2Proof

/-- The page-size tag: "closed set {4KiB, 2MiB, 1GiB}" (spec/30_encoding.md R83). -/
inductive PageSize where
  | k4 | m2 | g1
deriving DecidableEq, Repr

/-- A table level, 4 (root) down to 1 (spec/00_scope.md R6, R18). -/
inductive Level where
  | l4 | l3 | l2 | l1
deriving DecidableEq, Repr

/-- The symbolic memory kinds (spec/44_memory_attributes.md R175). -/
inductive MemKind where
  | normal | device | normalNc
deriving DecidableEq, Repr

/-- The kind of access a hardware walk is made for (spec/42_recursive_walk.md R150). -/
inductive Access where
  | read | write
deriving DecidableEq, Repr

/-- The 26 commands (spec/30_encoding.md R84). -/
inductive Instr where
  | pteIsUnused
  | pteSetUnused
  | pteFlags
  | pteAddr
  | pteAttr
  | pteIsBlock
  | pteFrame
  | pteSetFrame
  | pteSetBlock (sz : PageSize)
  | pteSetFlags
  | pteSetAttr
  | mapMapTo (sz : PageSize)
  | mapIdentityMap (sz : PageSize)
  | mapGetEntry (sz : PageSize)
  | mapGetEntryMut (sz : PageSize)
  | mapUnmap (sz : PageSize)
  | mapUpdateFlags (sz : PageSize)
  | mapTranslatePage (sz : PageSize)
  | mapTranslate
  | mapTranslateAddr
  | rptBind
  | rptTableVa
  | rptCreateNextTable
  | tokFlush
  | tokIgnore
  | attrLookup
deriving DecidableEq, Repr

end Sys2Proof
end

