-- ==== Sys2Proof/Config.lean ====
section
/-! DEFINITION. The launch parameters the source leaves open (spec/00_scope.md R7, spec/70_reset_and_hazards.md R212), and the
free value of the model. The parameters are plain data that State holds, so a claim about every state holds for every value
of every parameter ("the model takes each one as an argument", R7). -/

namespace Sys2Proof

/-- How bits 63:48 of a computed virtual address are filled (spec/30_encoding.md R79, OPEN). -/
inductive VaCanon where
  | zero | sign47
deriving DecidableEq, Repr

/-- The parameters of a launch. None of them changes during a run (R212). -/
structure Config where
  /-- PA_BITS (D36). -/
  paBits : Nat
  /-- VA_CANON (D11). -/
  vaCanon : VaCanon
  /-- DEFAULT_TABLE_FLAGS (D18). -/
  tableFlags : Word
  /-- MAIR_IDX(NORMAL) (D19). -/
  mairNormal : BitVec 3
  /-- MAIR_IDX(DEVICE). -/
  mairDevice : BitVec 3
  /-- MAIR_IDX(NORMAL_NC). -/
  mairNormalNc : BitVec 3
  /-- SH(NORMAL) (D19). -/
  shNormal : BitVec 2
  /-- SH(DEVICE). -/
  shDevice : BitVec 2
  /-- SH(NORMAL_NC). -/
  shNormalNc : BitVec 2
  /-- PERM_OK, as the list of the chains and access kinds it denies (spec/42_recursive_walk.md R152, OPEN).
  A chain is one to four descriptors, so every predicate over chains is given by some such list.
  DESIGN CHOICE (log 9), safe: nothing is assumed of the list. -/
  permDenied : List (List Word × Access)
  /-- ROOT_PA (D20). -/
  rootPa : Word
  /-- N_OBS (D22). -/
  nObs : Nat
deriving DecidableEq, Repr

/-- The example configuration of spec/95_test_vectors.md section 0. DESIGN CHOICE (log 3), unsafe for a claim about
State.reset alone: the spec leaves each of these parameters open. -/
def Config.sample : Config where
  paBits := 48
  vaCanon := .zero
  tableFlags := 0x403
  mairNormal := 1
  mairDevice := 0
  mairNormalNc := 2
  shNormal := 3
  shDevice := 0
  shNormalNc := 3
  permDenied := []
  rootPa := 0x00100000
  nObs := 2

/-- The allocator's answer to the n-th Alloc() call for which the run's data lists none: a draw, `none` or a frame
(spec/10_state.md R31, spec/93_implementation_defined.md U11). A free value (log 7): it has no body, so nothing is
known of it. -/
opaque Config.allocDraw : Nat → Option Word

end Sys2Proof
end

