-- ==== Sys2Proof/Machine/State.lean ====
section
/-! DEFINITION. Everything the spec gives the machine, as plain data: the ports, the control registers, PMEM with its write
history, the observers' TLBs, the flush tokens, the event history, and the other agents' coming actions. -/

namespace Sys2Proof.Machine

/-- Physical memory PMEM (spec/10_state.md R25) as the list of the bytes that are not what an unlisted address reads as,
addresses strictly rising. -/
abbrev Memory := List Host.Cell

/-- What an unlisted byte of PMEM reads as. DESIGN CHOICE (log 5), unsafe: R36 leaves PMEM unspecified at launch. -/
abbrev Memory.unlisted : Byte := 0

/-- The input ports (spec/10_state.md R21). A command reads only the ports its rule names. -/
structure InPorts where
  cmd : BitVec 32
  e : Word
  page : Word
  frame : Word
  addr : Word
  flags : Word
  attr : Word
  kind : BitVec 2
  level : BitVec 3
  token : BitVec 32
  entryVa : Word
  nextVa : Word
  ridx : BitVec 9
deriving DecidableEq, Repr

/-- Every input port at 0. -/
def InPorts.zero : InPorts where
  cmd := 0
  e := 0
  page := 0
  frame := 0
  addr := 0
  flags := 0
  attr := 0
  kind := 0
  level := 0
  token := 0
  entryVa := 0
  nextVa := 0
  ridx := 0

/-- The output ports (spec/10_state.md R22). `none` is the spec's own "holds no value" (R38). -/
structure OutPorts where
  status : Option (BitVec 8) := none
  eOut : Option Word := none
  val : Option Word := none
  bool : Option Bool := none
  szOut : Option (BitVec 2) := none
  vaOut : Option Word := none
  tokenOut : Option (BitVec 32) := none
  idxOut : Option (BitVec 3) := none
deriving DecidableEq, Repr

/-- The names of the output ports (R22). -/
inductive OutPort where
  | status | eOut | val | bool | szOut | vaOut | tokenOut | idxOut
deriving DecidableEq, Repr

/-- The outcome codes of STATUS (spec/60_exceptions.md R185). -/
inductive Status where
  | okay
  | pageNotMapped
  | frameNotPresent
  | parentEntryHugePage
  | hugeFrame
  | invalidFrameAddress
  | frameAllocationFailed
  | pageAlreadyMapped
deriving DecidableEq, Repr

/-- Which precondition of a leaf setter was violated (spec/40_pte_codec.md R104, R106). -/
inductive Contract where
  | setFrameWithoutTop | setBlockWithTop
deriving DecidableEq, Repr

/-- FAULT_REASON (spec/60_exceptions.md R190, R192). -/
inductive FaultReason where
  | contractViolation (c : Contract)
  | malformedEntry (va : Word)
  | mmuFault (va : Word)
  | notRecursivelyMapped
deriving DecidableEq, Repr

/-- The refusal reasons of the interface (spec/60_exceptions.md R193). -/
inductive RefuseReason where
  | blockFaulted
  | concurrent
  | illegalCommand
  | notBound
  | operandRange
  | addressWidth
  | misaligned
  | recursiveWindow
  | tokenNotOutstanding
  | tokenExhausted
deriving DecidableEq, Repr

/-- How a token was discharged (spec/43_flush_token.md R167, R170). -/
inductive Discharge where
  | flush | ignore
deriving DecidableEq, Repr

/-- What the block did (spec/10_state.md R30). -/
inductive Act where
  | physRead (pa : Nat) (v : Word)
  /-- No command performs one: none has a PhysWrite in its pseudocode (log 23). -/
  | physWrite (pa : Nat) (v : Word)
  | memRead (va : Word) (pa : Nat) (v : Word)
  | memWrite (va : Word) (pa : Nat) (v : Word)
  | alloc (answer : Option Word)
  | barrier
  | tlbiAllIS
  | isb
  | tokenCreate (id : BitVec 32)
  | tokenDischarge (id : BitVec 32) (how : Discharge)
deriving DecidableEq, Repr

/-- An event of EV, tagged with its command: the position in the caller's sequence and the CMD word (R30, R34). -/
structure Event where
  pos : Nat
  cmd : BitVec 32
  act : Act
deriving DecidableEq, Repr

/-- One engine write of a descriptor, with its published flag (spec/10_state.md R26). -/
structure WriteRec where
  pa : Nat
  val : Word
  published : Bool
deriving DecidableEq, Repr

/-- A cached translation (va_page, S, pa_page) of TLB(obs) (spec/10_state.md R28). -/
structure TlbEntry where
  obs : Nat
  vaPage : Word
  size : PageSize
  paPage : Word
deriving DecidableEq, Repr

/-- An outstanding flush token (id, page, S) (spec/10_state.md R27). -/
structure Token where
  id : BitVec 32
  page : Word
  size : PageSize
deriving DecidableEq, Repr

/-- A translation an observer produced: the physical address, or none for a fault (spec/10_state.md R42). -/
structure Observation where
  obs : Nat
  va : Word
  kind : Access
  result : Option Word
deriving DecidableEq, Repr

/-- A walk an observer is in the middle of (spec/10_state.md R39): the descriptors it has read, the root's first. -/
structure OpenWalk where
  obs : Nat
  va : Word
  kind : Access
  read : List Word
deriving DecidableEq, Repr

/-- What another agent does in a gap between two events (spec/10_state.md R39). `picks` chooses, for each descriptor the
observer's walk reads, which write of the window of spec/20_memory.md R58 it gets (0 the newest); `unspec` is what the
hardware gives where the walk's result is UNSPECIFIED (spec/42_recursive_walk.md R153). No move writes PMEM: of live tables that is
NO_FOREIGN_WRITES (R213), of all other memory it is the model's own DESIGN CHOICE (log 20). -/
inductive Move where
  /-- Observer `o` caches the result of a walk it performs (spec/20_memory.md R59(a)). -/
  | fill (o : Nat) (va : Word) (kind : Access) (picks : List Nat) (unspec : Option Word)
  /-- An observer removes an entry of its TLB (R59(b)). -/
  | drop (e : TlbEntry)
  /-- Observer `o` translates `va`, with a cached entry or by a fresh walk (R59(c)). -/
  | translate (o : Nat) (va : Word) (kind : Access) (cached : Option TlbEntry) (picks : List Nat) (unspec : Option Word)
  /-- Observer `o` begins a walk whose reads may lie in different gaps (R39). -/
  | start (o : Nat) (va : Word) (kind : Access)
  /-- The `n`-th open walk reads its next descriptor (spec/20_memory.md R58). -/
  | look (n : Nat) (pick : Nat)
  /-- The `n`-th open walk reads what it lacks and ends: its result is cached (R59(a)), or is a translation (R59(c)). -/
  | finish (n : Nat) (cache : Bool) (picks : List Nat) (unspec : Option Word)
  /-- The caller, or a second engine, presents a command while one is active (spec/20_memory.md R67). -/
  | overlap
deriving DecidableEq, Repr

/-- The state of the machine. -/
structure State where
  /-- The launch parameters (spec/00_scope.md R7): fixed for the run. -/
  config : Config
  /-- The input ports of the current command (spec/10_state.md R21). -/
  inp : InPorts
  /-- The output ports (R22, R38). -/
  out : OutPorts
  /-- BOUND (R23). -/
  bound : Bool
  /-- RIDX_REG (R23). -/
  ridxReg : BitVec 9
  /-- FAULTED (R23). -/
  faulted : Bool
  /-- FAULT_REASON (R23). -/
  faultReason : Option FaultReason
  /-- PMEM (R25). -/
  mem : Memory
  /-- The launch contents of PMEM, the first write of every HIST(a) (R26). -/
  launchMem : Memory
  /-- The engine's descriptor writes, newest first, with their published flags: HIST without the launch writes (R26). -/
  writes : List WriteRec
  /-- TLB(o) for every observer o (R28). -/
  tlb : List TlbEntry
  /-- TOKENS (R27). -/
  tokens : List Token
  /-- NEXT_TOKEN (R27). -/
  nextToken : BitVec 32
  /-- EV, newest first (R30). -/
  ev : List Event
  /-- The mark REFUSED (spec/60_exceptions.md R193). -/
  refused : Bool
  /-- The reason of the latest refusal since a command was last admitted (R193). -/
  refusal : Option RefuseReason
  /-- A command is active (R193 check 2, spec/10_state.md R39). -/
  busy : Bool
  /-- The position in the caller's command sequence (R34). -/
  pos : Nat
  /-- The commands the caller has yet to present (R34). -/
  script : List InPorts
  /-- The allocator's coming answers (R31). -/
  answers : List (Option Word)
  /-- How many Alloc() calls have been made: the counter the free value Config.allocDraw is applied to. -/
  allocCalls : Nat
  /-- The other agents' moves, one list per gap between events (R39). -/
  slots : List (List Move)
  /-- The walks observers are in the middle of (R39). -/
  walks : List OpenWalk
  /-- The translations observers have produced, newest first (R42). -/
  seen : List Observation
deriving DecidableEq, Repr

/-- The reasons the MODEL stops. No step raises one: every command ends with OK, a typed error, a fault of the block or a refusal
of the interface (spec/60_exceptions.md R183), and each of these is a next state. -/
inductive Fault where
  /-- Raised by readPort, the caller's read of an output port that holds no value (R38). Safe. -/
  | portHoldsNoValue (p : OutPort)
deriving DecidableEq, Repr

/-- The reasons the model gives an instruction no meaning. The interface's refusals are not among them: they set the mark
REFUSED and the run goes on (spec/60_exceptions.md R193). -/
inductive Refusal where
  /-- Raised by an arm of exec whose instruction has no meaning yet. Safe. No arm raises it now. -/
  | notModelled (mnemonic : String)
deriving DecidableEq, Repr

/-- The state after reset (spec/10_state.md R36) of a launch with the parameters `c` and the PMEM contents `m`
(spec/70_reset_and_hazards.md R212), before the caller presents a command. -/
def State.launch (c : Config) (m : Memory) : State where
  config := c
  inp := InPorts.zero
  out := {}
  bound := false
  ridxReg := 0
  faulted := false
  faultReason := none
  mem := m
  launchMem := m
  writes := []
  tlb := []
  tokens := []
  nextToken := 0
  ev := []
  refused := false
  refusal := none
  busy := false
  pos := 0
  script := []
  answers := []
  allocCalls := 0
  slots := []
  walks := []
  seen := []

/-- The machine right after reset: the launch with the example configuration (log 3) and nothing listed in PMEM (log 5).
RIDX_REG, NEXT_TOKEN and the input ports are 0 (log 4). -/
def State.reset : State :=
  State.launch Config.sample []

end Sys2Proof.Machine
end

