-- ==== Sys2Proof/Machine/Flags.lean ====
section
/-! DEFINITION. What a command reports: the codes of STATUS and the output ports of an outcome. The block has no flag register
(spec/10_state.md R35); "flags written" in the spec's command rules always means STATUS. -/

namespace Sys2Proof.Machine

/-- The numeric STATUS codes (spec/60_exceptions.md R185). -/
def Status.code : Status → BitVec 8
  | .okay => 0x00
  | .pageNotMapped => 0x01
  | .frameNotPresent => 0x02
  | .parentEntryHugePage => 0x03
  | .hugeFrame => 0x04
  | .invalidFrameAddress => 0x05
  | .frameAllocationFailed => 0x06
  | .pageAlreadyMapped => 0x07

/-- The ports after a command that completes: its results, and STATUS = OK (R183). -/
def okPorts (results : OutPorts) : OutPorts := { results with status := some Status.okay.code }

/-- The ports after a typed error: STATUS and nothing else (R187). -/
def errPorts (c : Status) : OutPorts := { status := some c.code }

/-- UNMAP's conversion of the codec's errors into the mapper's (R186). -/
def mapperError : Status → Status
  | .frameNotPresent => .pageNotMapped
  | .hugeFrame => .parentEntryHugePage
  | .okay => .okay
  | .pageNotMapped => .pageNotMapped
  | .parentEntryHugePage => .parentEntryHugePage
  | .invalidFrameAddress => .invalidFrameAddress
  | .frameAllocationFailed => .frameAllocationFailed
  | .pageAlreadyMapped => .pageAlreadyMapped

end Sys2Proof.Machine
end

