-- ==== Sys2Proof/WellFormed.lean ====
section
/-! DEFINITION. Which terms of Instr are commands of the block. -/

namespace Sys2Proof

/-- Every term is a command but PTE.SET_BLOCK with the 4KiB tag: "a 4KiB block has no meaning" (spec/30_encoding.md R85). -/
def Instr.wf : Instr → Bool
  | .pteIsUnused => true
  | .pteSetUnused => true
  | .pteFlags => true
  | .pteAddr => true
  | .pteAttr => true
  | .pteIsBlock => true
  | .pteFrame => true
  | .pteSetFrame => true
  | .pteSetBlock sz => sz != .k4
  | .pteSetFlags => true
  | .pteSetAttr => true
  | .mapMapTo _ => true
  | .mapIdentityMap _ => true
  | .mapGetEntry _ => true
  | .mapGetEntryMut _ => true
  | .mapUnmap _ => true
  | .mapUpdateFlags _ => true
  | .mapTranslatePage _ => true
  | .mapTranslate => true
  | .mapTranslateAddr => true
  | .rptBind => true
  | .rptTableVa => true
  | .rptCreateNextTable => true
  | .tokFlush => true
  | .tokIgnore => true
  | .attrLookup => true

end Sys2Proof
end

