-- ==== Sys2Proof/Decode.lean ====
section
/-! DEFINITION. The command word: its decoder, total on every 32-bit word and rejecting by name, and after it the encoder
(spec/30_encoding.md R82-R87). -/

namespace Sys2Proof

/-- Why a word is no command. Each is refused as IllegalCommand (R82, R83, R85, R86). -/
inductive DecodeError where
  /-- CMD[31:10] is not zero (R82). -/
  | mustBeZero
  /-- An OPC value that R84 does not list (R86). -/
  | reservedOpcode
  /-- An SZ value the command does not allow (R83, R85). -/
  | sizeNotAllowed
deriving DecidableEq, Repr

/-- The page size an SZ field names; 11 is reserved (R83). -/
def PageSize.ofTag (tag : BitVec 2) : Option PageSize :=
  match tag.toNat with
  | 0 => some .k4
  | 1 => some .m2
  | 2 => some .g1
  | _ => none

/-- The SZ field of a page size, also what SZ_OUT holds (R83). -/
def PageSize.tag : PageSize → BitVec 2
  | .k4 => 0
  | .m2 => 1
  | .g1 => 2

/-- A command whose SZ column says "must be 00" (R85). -/
def decodePlain (tag : BitVec 2) (i : Instr) : Except DecodeError Instr :=
  if tag = 0 then .ok i else .error .sizeNotAllowed

/-- A command that takes a page size (R83, R84). -/
def decodeSized (tag : BitVec 2) (i : PageSize → Instr) : Except DecodeError Instr :=
  match PageSize.ofTag tag with
  | some sz => .ok (i sz)
  | none => .error .sizeNotAllowed

/-- PTE.SET_BLOCK takes 2MiB or 1GiB only (R85). -/
def decodeBlock (tag : BitVec 2) : Except DecodeError Instr :=
  match PageSize.ofTag tag with
  | some .m2 => .ok (.pteSetBlock .m2)
  | some .g1 => .ok (.pteSetBlock .g1)
  | some .k4 => .error .sizeNotAllowed
  | none => .error .sizeNotAllowed

/-- The opcode map (R84). -/
def decodeOpcode (opc : BitVec 8) (tag : BitVec 2) : Except DecodeError Instr :=
  match opc.toNat with
  | 0x01 => decodePlain tag .pteIsUnused
  | 0x02 => decodePlain tag .pteSetUnused
  | 0x03 => decodePlain tag .pteFlags
  | 0x04 => decodePlain tag .pteAddr
  | 0x05 => decodePlain tag .pteAttr
  | 0x06 => decodePlain tag .pteIsBlock
  | 0x07 => decodePlain tag .pteFrame
  | 0x08 => decodePlain tag .pteSetFrame
  | 0x09 => decodeBlock tag
  | 0x0A => decodePlain tag .pteSetFlags
  | 0x0B => decodePlain tag .pteSetAttr
  | 0x10 => decodeSized tag .mapMapTo
  | 0x11 => decodeSized tag .mapIdentityMap
  | 0x12 => decodeSized tag .mapGetEntry
  | 0x13 => decodeSized tag .mapGetEntryMut
  | 0x14 => decodeSized tag .mapUnmap
  | 0x15 => decodeSized tag .mapUpdateFlags
  | 0x16 => decodeSized tag .mapTranslatePage
  | 0x17 => decodePlain tag .mapTranslate
  | 0x18 => decodePlain tag .mapTranslateAddr
  | 0x20 => decodePlain tag .rptBind
  | 0x21 => decodePlain tag .rptTableVa
  | 0x22 => decodePlain tag .rptCreateNextTable
  | 0x30 => decodePlain tag .tokFlush
  | 0x31 => decodePlain tag .tokIgnore
  | 0x40 => decodePlain tag .attrLookup
  | _ => .error .reservedOpcode

/-- The decoder (R82): OPC in 7:0, SZ in 9:8, bits 31:10 zero. -/
def decode (w : BitVec 32) : Except DecodeError Instr :=
  if w.extractLsb' 10 22 = 0 then decodeOpcode (w.extractLsb' 0 8) (w.extractLsb' 8 2) else .error .mustBeZero

/-- The OPC field of a command (R84). -/
def Instr.opcode : Instr → BitVec 8
  | .pteIsUnused => 0x01
  | .pteSetUnused => 0x02
  | .pteFlags => 0x03
  | .pteAddr => 0x04
  | .pteAttr => 0x05
  | .pteIsBlock => 0x06
  | .pteFrame => 0x07
  | .pteSetFrame => 0x08
  | .pteSetBlock _ => 0x09
  | .pteSetFlags => 0x0A
  | .pteSetAttr => 0x0B
  | .mapMapTo _ => 0x10
  | .mapIdentityMap _ => 0x11
  | .mapGetEntry _ => 0x12
  | .mapGetEntryMut _ => 0x13
  | .mapUnmap _ => 0x14
  | .mapUpdateFlags _ => 0x15
  | .mapTranslatePage _ => 0x16
  | .mapTranslate => 0x17
  | .mapTranslateAddr => 0x18
  | .rptBind => 0x20
  | .rptTableVa => 0x21
  | .rptCreateNextTable => 0x22
  | .tokFlush => 0x30
  | .tokIgnore => 0x31
  | .attrLookup => 0x40

/-- The SZ field of a command: its page size, or 00 where it takes none (R84). -/
def Instr.sizeTag : Instr → BitVec 2
  | .pteIsUnused => 0
  | .pteSetUnused => 0
  | .pteFlags => 0
  | .pteAddr => 0
  | .pteAttr => 0
  | .pteIsBlock => 0
  | .pteFrame => 0
  | .pteSetFrame => 0
  | .pteSetBlock sz => sz.tag
  | .pteSetFlags => 0
  | .pteSetAttr => 0
  | .mapMapTo sz => sz.tag
  | .mapIdentityMap sz => sz.tag
  | .mapGetEntry sz => sz.tag
  | .mapGetEntryMut sz => sz.tag
  | .mapUnmap sz => sz.tag
  | .mapUpdateFlags sz => sz.tag
  | .mapTranslatePage sz => sz.tag
  | .mapTranslate => 0
  | .mapTranslateAddr => 0
  | .rptBind => 0
  | .rptTableVa => 0
  | .rptCreateNextTable => 0
  | .tokFlush => 0
  | .tokIgnore => 0
  | .attrLookup => 0

/-- The command word of a command (R82). -/
def encode (i : Instr) : BitVec 32 :=
  0#22 ++ i.sizeTag ++ i.opcode

/-- The command the decoder reads from a table row's word. A command is ONE 32-bit word on the port CMD (R82, R87), so
the word goes to the decoder as it stands; a longer word is none. -/
def decodeTableWord (nbits w : Nat) : Option Instr :=
  if nbits ≤ 32 ∧ w < 2 ^ 32 then (decode (BitVec.ofNat 32 w)).toOption else none

end Sys2Proof
end

