-- ==== Sys2Proof/Machine/Operands.lean ====
section
/-! DEFINITION. Every operand form: page sizes and alignment, the descriptor's fields and the codec's setters, the indices of a
virtual address, the recursive addresses, and the memory attributes of a kind. Pure functions of words. -/

namespace Sys2Proof.Machine

/-! ## Page sizes (spec/00_scope.md R6, R12) -/

/-- log2 of the page size. -/
def sizeBits : PageSize → Nat
  | .k4 => 12
  | .m2 => 21
  | .g1 => 30

/-- The page size S in bytes. -/
def sizeBytes (sz : PageSize) : Nat := 2 ^ sizeBits sz

/-- S - 1 as a word: the bits of the offset within an S-page. -/
def offsetMask : PageSize → Word
  | .k4 => 0xFFF
  | .m2 => 0x1FFFFF
  | .g1 => 0x3FFFFFFF

/-- `aligned(a, S)`: a mod S = 0 (R12). -/
def aligned (a : Word) (sz : PageSize) : Bool := a &&& offsetMask sz == 0

/-- `align_down(a, S)` (R12). -/
def alignDown (a : Word) (sz : PageSize) : Word := a &&& ~~~offsetMask sz

/-- `a mod S` (R8, R12). -/
def offsetIn (a : Word) (sz : PageSize) : Word := a &&& offsetMask sz

/-- `aligned(a, 8)`, for the address of a descriptor (spec/20_memory.md R50). -/
def aligned8 (a : Word) : Bool := a &&& 7 == 0

/-! ## Descriptor fields (spec/30_encoding.md R70-R76) -/

/-- ADDR_MASK, bits 47:12 (R72). -/
def addrMask : Word := 0x0000FFFFFFFFF000

/-- ATTR_MASK, bits 4:2 and 9:8 (R73). -/
def attrMask : Word := 0x000000000000031C

/-- FLAGS_MASK (R74). -/
def flagsMask : Word := 0xFFF8000000000CC3

/-- RSVD_MASK, bits 5 and 50:48 (R75). -/
def rsvdMask : Word := 0x0007000000000020

/-- VALID, bit 0 (R70). -/
def isValid (e : Word) : Bool := e.getLsbD 0

/-- TABLE_OR_PAGE, bit 1 (R70). -/
def isTop (e : Word) : Bool := e.getLsbD 1

/-- `addr(e)` (R72). -/
def pteAddr (e : Word) : Word := e &&& addrMask

/-- `attr(e)` (R73). -/
def pteAttr (e : Word) : Word := e &&& attrMask

/-- `flags(e)` (R74). -/
def pteFlags (e : Word) : Word := e &&& flagsMask

/-- The kinds of a descriptor (R71). -/
inductive EntryKind where
  | unused | malformed | block | tableOrPage
deriving DecidableEq, Repr

/-- `kind(e)` (R71). -/
def entryKind (e : Word) : EntryKind :=
  if e = 0 then .unused
  else if isValid e = false then .malformed
  else if isTop e = false then .block
  else .tableOrPage

/-! ## The codec's setters (spec/40_pte_codec.md) -/

/-- `set_flags` (R107): only the flags range is replaced. -/
def setFlags (e x : Word) : Word := (e &&& ~~~flagsMask) ||| x

/-- `set_attr` (R108): only the attribute range is replaced. -/
def setAttr (e a : Word) : Word := (e &&& ~~~attrMask) ||| a

/-- `set_frame(frame, flags, attr)` (R103), whose contract is that the flags include TABLE_OR_PAGE (R104). -/
def setFrame (f x a : Word) : Except FaultReason Word :=
  if isTop x then .ok ((f &&& addrMask) ||| x ||| a) else .error (.contractViolation .setFrameWithoutTop)

/-- `set_block(addr, flags, attr)` (R105), whose contract is that the flags do not include TABLE_OR_PAGE (R106). -/
def setBlock (ad : Word) (sz : PageSize) (x a : Word) : Except FaultReason Word :=
  if isTop x then .error (.contractViolation .setBlockWithTop)
  else .ok ((alignDown ad sz &&& addrMask) ||| x ||| a)

/-- The leaf descriptor map_to installs: a page for 4KiB, a block for 2MiB and 1GiB (spec/41_mapper_ops.md R120). -/
def leafDescriptor (sz : PageSize) (f x a : Word) : Except FaultReason Word :=
  match sz with
  | .k4 => setFrame f x a
  | .m2 => setBlock f .m2 x a
  | .g1 => setBlock f .g1 x a

/-- `frame()` (spec/40_pte_codec.md R102): VALID is tested before TOP. -/
def pteFrame (e : Word) : Except Status Word :=
  if isValid e = false then .error .frameNotPresent
  else if isTop e = false then .error .hugeFrame
  else .ok (pteAddr e)

/-! ## Levels (spec/00_scope.md R6, spec/30_encoding.md R78) -/

/-- The level a LEVEL port value names, 1..4; the rest is reserved (spec/30_encoding.md R86). -/
def levelOf (v : BitVec 3) : Option Level :=
  match v.toNat with
  | 1 => some .l1
  | 2 => some .l2
  | 3 => some .l3
  | 4 => some .l4
  | _ => none

/-- LEAF(S): 4KiB 1, 2MiB 2, 1GiB 3 (R83). -/
def leafLevel : PageSize → Level
  | .k4 => .l1
  | .m2 => .l2
  | .g1 => .l3

/-- The levels above the leaf, from the root down: 4 .. LEAF(S)+1 (spec/41_mapper_ops.md R117). -/
def nonLeafLevels : PageSize → List Level
  | .k4 => [.l4, .l3, .l2]
  | .m2 => [.l4, .l3]
  | .g1 => [.l4]

/-- The level below, which a level-L table descriptor links; level 1 has none and stays. -/
def levelBelow : Level → Level
  | .l4 => .l3
  | .l3 => .l2
  | .l2 => .l1
  | .l1 => .l1

/-- The size a block at this level maps; levels 4 and 1 have no block (spec/42_recursive_walk.md R150). -/
def blockSize : Level → Option PageSize
  | .l4 => none
  | .l3 => some .g1
  | .l2 => some .m2
  | .l1 => none

/-- `idx(L, va)` (spec/30_encoding.md R78). -/
def idx (l : Level) (va : Word) : BitVec 9 :=
  match l with
  | .l4 => va.extractLsb' 39 9
  | .l3 => va.extractLsb' 30 9
  | .l2 => va.extractLsb' 21 9
  | .l1 => va.extractLsb' 12 9

/-- Bits 47:0 of a virtual address, the bits the hardware walk uses (R78). -/
def va48 (va : Word) : Word := va &&& 0x0000FFFFFFFFFFFF

/-! ## Recursive addresses (spec/42_recursive_walk.md R146) -/

/-- `VA4(a, b, c, d)`, bits 63:48 zero. -/
def va4 (a b c d : BitVec 9) : Word := 0#16 ++ a ++ b ++ c ++ d ++ 0#12

/-- `canon(v)` (spec/30_encoding.md R79). -/
def canon (c : VaCanon) (v : Word) : Word :=
  match c with
  | .zero => v
  | .sign47 => (v.extractLsb' 0 48).signExtend 64

/-- `TableVA(L, P)` with the recursive index `r` (R146, the list of 90_conflicts.md C7). -/
def tableVa (c : VaCanon) (r : BitVec 9) (l : Level) (p : Word) : Word :=
  match l with
  | .l4 => canon c (va4 r r r r)
  | .l3 => canon c (va4 r r r (idx .l4 p))
  | .l2 => canon c (va4 r r (idx .l4 p) (idx .l3 p))
  | .l1 => canon c (va4 r (idx .l4 p) (idx .l3 p) (idx .l2 p))

/-- The address of the descriptor with index `i` in the table at `t` (spec/30_encoding.md R80). -/
def entryAt (t : Word) (i : Nat) : Word := t + BitVec.ofNat 64 (8 * i)

/-- `EVA(L, P)` (spec/41_mapper_ops.md R115). -/
def entryVa (c : VaCanon) (r : BitVec 9) (l : Level) (p : Word) : Word := entryAt (tableVa c r l p) (idx l p).toNat

/-! ## Memory attributes (spec/44_memory_attributes.md) -/

/-- The kind a KIND port value names; 3 is reserved (R175, spec/30_encoding.md R86). -/
def memKindOf (v : BitVec 2) : Option MemKind :=
  match v.toNat with
  | 0 => some .normal
  | 1 => some .device
  | 2 => some .normalNc
  | _ => none

/-- MAIR_IDX(k) (R177). -/
def mairIdx (c : Config) : MemKind → BitVec 3
  | .normal => c.mairNormal
  | .device => c.mairDevice
  | .normalNc => c.mairNormalNc

/-- SH(k) (R177). -/
def shareability (c : Config) : MemKind → BitVec 2
  | .normal => c.shNormal
  | .device => c.shDevice
  | .normalNc => c.shNormalNc

/-- `ATTR_BITS(k)`: the index at bits 4:2 and the shareability at bits 9:8 (R176). -/
def attrBits (c : Config) (k : MemKind) : Word :=
  ((mairIdx c k).setWidth 64 <<< 2) ||| ((shareability c k).setWidth 64 <<< 8)

/-- PERM_OK(chain, kind) (spec/42_recursive_walk.md R152). -/
def permOk (c : Config) (kind : Access) (chain : List Word) : Bool := !c.permDenied.contains (chain, kind)

end Sys2Proof.Machine
end

