-- ==== Sys2Proof/Machine/Ops.lean ====
section
/-! DEFINITION. The named operations: memory, the event record and the gaps in which other agents move, the hardware walk, the
engine's accesses, barriers, the allocator, flush tokens, table creation, the interface's checks, the end of a command, and
taking a fault. The meanings of the commands are written over these. -/

namespace Sys2Proof.Machine

/-! ## Physical memory (spec/10_state.md R25, spec/20_memory.md R48) -/

/-- The byte at an address. -/
def Memory.read : Memory → Nat → Byte
  | [], _ => Memory.unlisted
  | (k, v) :: m, a => if k = a then v else Memory.read m a

/-- A listed byte put in its place. -/
def Memory.insert : Memory → Nat → Byte → Memory
  | [], a, b => [(a, b)]
  | (k, v) :: m, a, b =>
    if a < k then (a, b) :: (k, v) :: m
    else if a = k then (a, b) :: m
    else (k, v) :: Memory.insert m a b

/-- A byte written: writing what an unlisted address reads as removes the entry. -/
def Memory.write (m : Memory) (a : Nat) (b : Byte) : Memory :=
  if b = Memory.unlisted then m.filter (fun c => c.1 != a) else Memory.insert m a b

/-- Addresses strictly rising from above `lo`, and no byte equal to what an unlisted address reads as. -/
def Memory.wfFrom : Option Nat → Memory → Bool
  | _, [] => true
  | none, (k, v) :: m => v != Memory.unlisted && Memory.wfFrom (some k) m
  | some lo, (k, v) :: m => lo < k && v != Memory.unlisted && Memory.wfFrom (some k) m

/-- The canonical form of memory. -/
def Memory.wf (m : Memory) : Bool := Memory.wfFrom none m

/-- The descriptor at `a`, little-endian: byte `a + k` holds bits `8k+7 : 8k` (R48). -/
def Memory.read64 (m : Memory) (a : Nat) : Word :=
  m.read (a + 7) ++ m.read (a + 6) ++ m.read (a + 5) ++ m.read (a + 4) ++
    m.read (a + 3) ++ m.read (a + 2) ++ m.read (a + 1) ++ m.read a

/-- A descriptor written at `a`, little-endian (R48). -/
def Memory.write64 (m : Memory) (a : Nat) (v : Word) : Memory :=
  ((((((((m.write a (v.extractLsb' 0 8)).write (a + 1) (v.extractLsb' 8 8)).write (a + 2) (v.extractLsb' 16 8)).write
    (a + 3) (v.extractLsb' 24 8)).write (a + 4) (v.extractLsb' 32 8)).write (a + 5) (v.extractLsb' 40 8)).write
    (a + 6) (v.extractLsb' 48 8)).write (a + 7) (v.extractLsb' 56 8))

/-- The 8 bytes at `a` exist: PMEM holds bytes 0 .. 2^PA_BITS-1 (spec/10_state.md R25). -/
def inPmem (c : Config) (a : Nat) : Bool := a + 8 ≤ 2 ^ c.paBits

/-! ## Write histories (spec/10_state.md R26, spec/20_memory.md R58) -/

/-- HIST(a), newest first: each value with its published flag, the launch value last and published (R26). -/
def histOf (s : State) (a : Nat) : List (Word × Bool) :=
  (s.writes.filter (fun w => w.pa == a)).map (fun w => (w.val, w.published)) ++ [(s.launchMem.read64 a, true)]

/-- The values from the newest back to the last published one, of a history newest first (R58). -/
def windowOf : List (Word × Bool) → List Word
  | [] => []
  | (v, published) :: rest => if published then [v] else v :: windowOf rest

/-- What an observer may read at `a` (R58), newest first. -/
def windowAt (s : State) (a : Nat) : List Word := windowOf (histOf s a)

/-- Every write marked as published (spec/20_memory.md R60, R61). -/
def publish (ws : List WriteRec) : List WriteRec := ws.map (fun w => { w with published := true })

/-! ## The hardware walk (spec/42_recursive_walk.md R150, R153) -/

/-- The kinds of a walk's fault (R153). -/
inductive WalkFault where
  | translation | permission
deriving DecidableEq, Repr

/-- The results of a walk (R153). -/
inductive WalkResult where
  | okay (pa : Word) (size : PageSize)
  | fault (k : WalkFault) (l : Level)
  | unspecified (l : Level)
deriving DecidableEq, Repr

/-- HwWalk from level `l` down (R150): `rest` are the levels below `l`, `t` is the table's address, `chain` the descriptors
read so far. `desc` is what Desc (R151) reads: it answers none where the address lies outside PMEM, which holds no value to
read, so that the walk's result is UNSPECIFIED (log 13), and threads the reader's own state. DEDUCED (log 25): past a 1GiB block
on P's path the walk of TableVA(2, P) reads that entry at level 1 and is FAULT(TRANSLATION, 1), as R150's pseudocode has it, where
R154 says that it is read as a level-2 block. -/
def walkFrom {σ : Type} (desc : Nat → σ → Option Word × σ) (perm : List Word → Bool) (va : Word)
    (l : Level) (rest : List Level) (t : Word) (chain : List Word) (st : σ) : WalkResult × σ :=
  match desc (t.toNat + 8 * (idx l va).toNat) st with
  | (none, st') => (.unspecified l, st')
  | (some d, st') =>
    if isValid d = false then (.fault .translation l, st')
    else if isTop d = false then
      match blockSize l with
      | none => (.fault .translation l, st')
      | some sz =>
        if aligned (pteAddr d) sz = false then (.unspecified l, st')
        else if perm (chain ++ [d]) = false then (.fault .permission l, st')
        else (.okay (pteAddr d + offsetIn va sz) sz, st')
    else
      match rest with
      | [] =>
        if perm (chain ++ [d]) = false then (.fault .permission l, st')
        else (.okay (pteAddr d + offsetIn va .k4) .k4, st')
      | l' :: rest' => walkFrom desc perm va l' rest' (pteAddr d) (chain ++ [d]) st'

/-! ## The other agents' moves (spec/10_state.md R33, R39; spec/20_memory.md R58, R59) -/

/-- What an observer reads at `a`: the write of the window its next pick names, the oldest of the window where the pick
goes past it (R58). -/
def observerDesc (s : State) (a : Nat) (picks : List Nat) : Option Word × List Nat :=
  if inPmem s.config a then
    (some ((windowAt s a).getD (picks.headD 0) ((windowAt s a).getLastD 0)), picks.tail)
  else (none, picks.tail)

/-- A fresh walk by an observer (R59(c), spec/42_recursive_walk.md R151). -/
def observerWalk (s : State) (kind : Access) (va : Word) (picks : List Nat) : WalkResult :=
  (walkFrom (observerDesc s) (permOk s.config kind) va .l4 [.l3, .l2, .l1] s.config.rootPa [] picks).1

/-- The translation a walk gives an observer. UNSPECIFIED "means any pa or a fault" (spec/42_recursive_walk.md R153), which
`unspec` gives (log 12). -/
def settle (r : WalkResult) (unspec : Option Word) : Option (Word × PageSize) :=
  match r with
  | .okay pa sz => some (pa, sz)
  | .fault _ _ => none
  | .unspecified l => unspec.map (fun pa => (pa, (blockSize l).getD .k4))

/-- The cached entry covers the address: its S-page contains it (R59(c)). -/
def covers (e : TlbEntry) (va : Word) : Bool := e.vaPage == alignDown (va48 va) e.size

/-- The entry that caches the translation of `va` to `pa` by an S-page (spec/10_state.md R28). -/
def cacheEntry (o : Nat) (va pa : Word) (sz : PageSize) : TlbEntry :=
  { obs := o, vaPage := alignDown (va48 va) sz, size := sz, paPage := alignDown pa sz }

/-- TLB with an entry added; it is a set. -/
def addEntry (tlb : List TlbEntry) (e : TlbEntry) : List TlbEntry := if e ∈ tlb then tlb else e :: tlb

/-- The physical address an observer's translation gives, or none for a fault (R59(c)). -/
def translation (s : State) (o : Nat) (va : Word) (kind : Access) (cached : Option TlbEntry) (picks : List Nat)
    (unspec : Option Word) : Option Word :=
  match cached with
  | some e =>
    if e ∈ s.tlb ∧ e.obs = o ∧ covers e va = true then some (e.paPage + offsetIn va e.size)
    else (settle (observerWalk s kind va picks) unspec).map Prod.fst
  | none => (settle (observerWalk s kind va picks) unspec).map Prod.fst

/-- What an open walk reads: the descriptors it has read already, then live ones. -/
def resumedDesc (s : State) (a : Nat) (st : List Word × List Nat) : Option Word × List Word × List Nat :=
  match st.1 with
  | v :: rest => (some v, rest, st.2)
  | [] => ((observerDesc s a st.2).1, [], (observerDesc s a st.2).2)

/-- An open walk carried to its end. -/
def resumedWalk (s : State) (w : OpenWalk) (picks : List Nat) : WalkResult :=
  (walkFrom (resumedDesc s) (permOk s.config w.kind) w.va .l4 [.l3, .l2, .l1] s.config.rootPa [] (w.read, picks)).1

/-- What an open walk has read already, noting the first address beyond it. -/
def readSoFar (a : Nat) (st : List Word × Option Nat) : Option Word × List Word × Option Nat :=
  match st.1 with
  | v :: rest => (some v, rest, st.2)
  | [] => (none, [], some (st.2.getD a))

/-- The address of the descriptor an open walk reads next, none where it needs no more. -/
def nextDesc (s : State) (w : OpenWalk) : Option Nat :=
  (walkFrom readSoFar (permOk s.config w.kind) w.va .l4 [.l3, .l2, .l1] s.config.rootPa [] (w.read, none)).2.2

/-- An open walk that has read its next descriptor. -/
def lookWalk (s : State) (w : OpenWalk) (pick : Nat) : OpenWalk :=
  match nextDesc s w with
  | some a =>
    match (observerDesc s a [pick]).1 with
    | some v => { w with read := w.read ++ [v] }
    | none => w
  | none => w

/-- The result of observer `o`'s walk of `va` goes into TLB(o), if it is one and `o` is an observer (R59(a), (d)). -/
def cacheResult (o : Nat) (va : Word) (r : Option (Word × PageSize)) (s : State) : State :=
  match r with
  | some (pa, sz) => if o < s.config.nObs then { s with tlb := addEntry s.tlb (cacheEntry o va pa sz) } else s
  | none => s

/-- Observer `o` has translated `va`, to a physical address or to a fault (R59(c)). -/
def observe (o : Nat) (va : Word) (kind : Access) (r : Option Word) (s : State) : State :=
  if o < s.config.nObs then { s with seen := { obs := o, va := va, kind := kind, result := r } :: s.seen } else s

/-- An open walk ends and is open no more. -/
def finishWalk (n : Nat) (w : OpenWalk) (cache : Bool) (r : Option (Word × PageSize)) (s : State) : State :=
  if cache then cacheResult w.obs w.va r { s with walks := s.walks.eraseIdx n }
  else observe w.obs w.va w.kind (r.map Prod.fst) { s with walks := s.walks.eraseIdx n }

/-- A command presented while one is active is refused (spec/20_memory.md R67, spec/60_exceptions.md R193 checks 1 and 2).
The active command is not touched. DESIGN CHOICE (log 17): it takes no place in the caller's sequence, so `pos` and `script`
stay, where R34 is silent. -/
def refuseOverlap (s : State) : State :=
  if s.busy then
    { s with refused := true, refusal := some (if s.faulted then .blockFaulted else .concurrent) }
  else s

/-- One move of another agent. An observer number at or above N_OBS names no observer. -/
def applyMove (s : State) (m : Move) : State :=
  match m with
  | .fill o va kind picks unspec => cacheResult o va (settle (observerWalk s kind va picks) unspec) s
  | .drop e => { s with tlb := s.tlb.filter (fun x => x != e) }
  | .translate o va kind cached picks unspec => observe o va kind (translation s o va kind cached picks unspec) s
  | .start o va kind =>
    if o < s.config.nObs then { s with walks := s.walks ++ [{ obs := o, va := va, kind := kind, read := [] }] } else s
  | .look n pick => { s with walks := s.walks.modify n (fun w => lookWalk s w pick) }
  | .finish n cache picks unspec =>
    match s.walks[n]? with
    | some w => finishWalk n w cache (settle (resumedWalk s w picks) unspec) s
    | none => s
  | .overlap => refuseOverlap s

/-- A gap between two events: the other agents' moves of this gap are made (spec/10_state.md R39). -/
def turn (s : State) : State :=
  match s.slots with
  | [] => s
  | ms :: rest => ms.foldl applyMove { s with slots := rest }

/-- An event of the block is recorded in EV, tagged with its command (spec/10_state.md R30), and a gap follows it. -/
def record (act : Act) (s : State) : State :=
  turn { s with ev := { pos := s.pos, cmd := s.inp.cmd, act := act } :: s.ev }

/-! ## How a command proceeds (spec/00_scope.md R11) -/

/-- A command's progress: it goes on with a result, has returned a typed error, or has raised a fault of the block. -/
inductive Res (α : Type) where
  | done (a : α) (s : State)
  | error (c : Status) (s : State)
  | fault (r : FaultReason) (s : State)

/-- The next part of a command, run only if the one before it goes on. -/
def Res.bind {α β : Type} (r : Res α) (f : α → State → Res β) : Res β :=
  match r with
  | .done a s => f a s
  | .error c s => .error c s
  | .fault q s => .fault q s

/-- A codec setter inside a command: its contract violation is a fault of the block (spec/60_exceptions.md R190). -/
def ofSetter (e : Except FaultReason Word) (s : State) : Res Word :=
  match e with
  | .ok v => .done v s
  | .error r => .fault r s

/-! ## The engine's own accesses (spec/00_scope.md R10, spec/20_memory.md R51, R55) -/

/-- PhysRead(pa, 8): the last value of HIST(pa), which PMEM holds (spec/10_state.md R26; log 6). -/
def physRead (a : Nat) (s : State) : Option Word × State :=
  if inPmem s.config a then (some (s.mem.read64 a), record (.physRead a (s.mem.read64 a)) s) else (none, s)

/-- The write at a resolved address: (v, unpublished) is appended to HIST(pa) and PMEM holds v (R55). -/
def store64 (pa : Nat) (v : Word) (s : State) : State :=
  { s with mem := s.mem.write64 pa v, writes := { pa := pa, val := v, published := false } :: s.writes }

/-- PhysWrite(pa, 8, v) (spec/00_scope.md R10). It completes the spec's four primitives: no command performs one (log 23). -/
def physWrite (a : Nat) (v : Word) (s : State) : State :=
  if inPmem s.config a then record (.physWrite a v) (store64 a v s) else s

/-- HwWalk(0, va, kind) for an engine access: a fresh walk over the last values, with no TLB (R55, R57, R151). -/
def hwWalk (kind : Access) (va : Word) (s : State) : WalkResult × State :=
  walkFrom physRead (permOk s.config kind) va .l4 [.l3, .l2, .l1] s.config.rootPa [] s

/-- MemRead(va, 8) (R55). Every walk that is not OK is the fault MmuFault(va) (spec/42_recursive_walk.md R153), and so is one that
ends outside PMEM (log 13). -/
def memRead (va : Word) (s : State) : Res Word :=
  match hwWalk .read va s with
  | (.okay pa _, s') =>
    if inPmem s'.config pa.toNat then
      .done (s'.mem.read64 pa.toNat) (record (.memRead va pa.toNat (s'.mem.read64 pa.toNat)) s')
    else .fault (.mmuFault va) s'
  | (.fault _ _, s') => .fault (.mmuFault va) s'
  | (.unspecified _, s') => .fault (.mmuFault va) s'

/-- MemWrite(va, 8, v) (R55), which resolves the address the same way. -/
def memWrite (va v : Word) (s : State) : Res Unit :=
  match hwWalk .write va s with
  | (.okay pa _, s') =>
    if inPmem s'.config pa.toNat then .done () (record (.memWrite va pa.toNat v) (store64 pa.toNat v s'))
    else .fault (.mmuFault va) s'
  | (.fault _ _, s') => .fault (.mmuFault va) s'
  | (.unspecified _, s') => .fault (.mmuFault va) s'

/-! ## Ordering actions (spec/00_scope.md R14) -/

/-- Barrier(ISHST): every earlier engine write becomes published (spec/20_memory.md R60). -/
def barrier (s : State) : State := record .barrier { s with writes := publish s.writes }

/-- TlbiAllIS(): every earlier engine write becomes published and every TLB is emptied (R61, spec/43_flush_token.md R168).
One event, so no move falls inside it, and the walks begun before it leave nothing behind it (log 11). -/
def tlbiAllIS (s : State) : State := record .tlbiAllIS { s with writes := publish s.writes, tlb := [], walks := [] }

/-- Isb(): recorded, no other effect (R62). -/
def isb (s : State) : State := record .isb s

/-! ## The allocator (spec/10_state.md R31) -/

/-- An answer as R31 constrains it: 4096-aligned, and the frame inside PMEM. Every such frame is its own image. -/
def lawfulFrame (c : Config) (f : Word) : Word := f &&& addrMask &&& BitVec.ofNat 64 (2 ^ c.paBits - 1)

/-- The allocator's next answer: the next one listed, or the free value (log 7). -/
def nextAnswer (s : State) : Option Word :=
  match s.answers with
  | a :: _ => a.map (lawfulFrame s.config)
  | [] => (Config.allocDraw s.allocCalls).map (lawfulFrame s.config)

/-- Alloc() (spec/00_scope.md R15, R31). It leaves PMEM as it is, so a returned frame holds its launch bytes or what the engine has
written there: no other agent writes PMEM (DESIGN CHOICE, log 20). -/
def alloc (s : State) : Option Word × State :=
  (nextAnswer s, record (.alloc (nextAnswer s)) { s with answers := s.answers.tail, allocCalls := s.allocCalls + 1 })

/-! ## Flush tokens (spec/43_flush_token.md) -/

/-- The identifier is that of an outstanding token. -/
def outstanding (s : State) (t : BitVec 32) : Bool := s.tokens.any (fun k => k.id == t)

/-- NewToken(P, S) (R165). -/
def newToken (page : Word) (sz : PageSize) (s : State) : BitVec 32 × State :=
  (s.nextToken,
    record (.tokenCreate s.nextToken)
      { s with
        nextToken := s.nextToken + 1
        tokens := { id := s.nextToken, page := alignDown page sz, size := sz } :: s.tokens })

/-- TOKENS without (t, _, _), recorded as discharged (R167, R170). -/
def discharge (t : BitVec 32) (how : Discharge) (s : State) : State :=
  record (.tokenDischarge t how) { s with tokens := s.tokens.filter (fun k => k.id != t) }

/-! ## Tables (spec/42_recursive_walk.md) -/

/-- TableVA(L, P) of the bound address space (R146). -/
def tableVaOf (s : State) (l : Level) (p : Word) : Word := tableVa s.config.vaCanon s.ridxReg l p

/-- EVA(L, P) of the bound address space (spec/41_mapper_ops.md R115). -/
def entryVaOf (s : State) (l : Level) (p : Word) : Word := entryVa s.config.vaCanon s.ridxReg l p

/-- The link create_next_table installs (R156). -/
def tableLink (c : Config) (f : Word) : Except FaultReason Word := setFrame f c.tableFlags (attrBits c .normal)

/-- The zeroing of `n` entries of the table at `t`, from index `i` up, in ascending order (R157, R158). -/
def zeroFrom (t : Word) : Nat → Nat → State → Res Unit
  | _, 0, s => .done () s
  | i, n + 1, s => (memWrite (entryAt t i) 0 s).bind fun _ s' => zeroFrom t (i + 1) n s'

/-- CreateNextTable(entryVA, nextVA) (R155): unused is tested before block, block before malformed. -/
def createNextTable (eva nva : Word) (s : State) : Res Unit :=
  (memRead eva s).bind fun e s1 =>
    if e = 0 then
      match alloc s1 with
      | (none, s2) => .error .frameAllocationFailed s2
      | (some f, s2) =>
        (ofSetter (tableLink s2.config f) s2).bind fun link s3 =>
          (memWrite eva link s3).bind fun _ s4 => zeroFrom nva 0 512 (barrier s4)
    else if isTop e = false then .error .parentEntryHugePage s1
    else if isValid e = false then .fault (.malformedEntry eva) s1
    else .done () s1

/-! ## Walks of the mapper (spec/41_mapper_ops.md) -/

/-- NonLeaf(e, onBlock): none where the walk descends, else the error (R116). -/
def nonLeaf (onBlock : Status) (e : Word) : Option Status :=
  if isValid e = false then some .pageNotMapped
  else if isTop e = false then some onBlock
  else none

/-- What `classify` says of each entry on P's path at the levels, top-down; the first level that stops the walk decides (R117,
R143). -/
def readPath (classify : Word → Option Status) (p : Word) : List Level → State → Res Unit
  | [], s => .done () s
  | l :: rest, s =>
    (memRead (entryVaOf s l p) s).bind fun e s' =>
      match classify e with
      | some c => .error c s'
      | none => readPath classify p rest s'

/-- ReadWalk(P, S, onBlock): the leaf descriptor's address (R117). -/
def readWalk (onBlock : Status) (p : Word) (sz : PageSize) (s : State) : Res Word :=
  (readPath (nonLeaf onBlock) p (nonLeafLevels sz) s).bind fun _ s' => .done (entryVaOf s' (leafLevel sz) p) s'

/-- map_to's descent: CreateNextTable at each level above the leaf (R120). -/
def createPath (p : Word) : List Level → State → Res Unit
  | [], s => .done () s
  | l :: rest, s =>
    (createNextTable (entryVaOf s l p) (tableVaOf s (levelBelow l) p) s).bind fun _ s' => createPath p rest s'

/-! ## The interface's checks (spec/60_exceptions.md R193) -/

/-- What a command asks the interface to check. -/
structure Checks where
  /-- The word, KIND or LEVEL is none the command allows (check 3). -/
  illegal : Bool := false
  /-- The command needs a binding (check 4). -/
  needsBound : Bool := false
  /-- The FLAGS operand, if the command reads it (check 5). -/
  flags : Option Word := none
  /-- The ATTR operand, if the command reads it (check 5). -/
  attr : Option Word := none
  /-- The FRAME or ADDR operand, if the command reads one (check 6). -/
  address : Option Word := none
  /-- An operand is misaligned (check 7). -/
  misaligned : Bool := false
  /-- The page of a mutation, which may not lie in the recursive window (check 8). -/
  mutated : Option Word := none
  /-- The token to discharge (check 9). -/
  token : Option (BitVec 32) := none
  /-- The command creates a token when it completes (check 10; log 14). -/
  makesToken : Bool := false
deriving DecidableEq, Repr

/-- A FLAGS or ATTR operand holds a bit outside its mask (spec/30_encoding.md R88). -/
def outOfMask (mask : Word) (v : Option Word) : Bool :=
  match v with
  | some x => x &&& ~~~mask != 0
  | none => false

/-- A FRAME or ADDR operand is not below 2^PA_BITS (R88). -/
def tooWide (c : Config) (v : Option Word) : Bool :=
  match v with
  | some a => 2 ^ c.paBits ≤ a.toNat
  | none => false

/-- The page lies in the recursive window: i4 = RIDX_REG (spec/20_memory.md R53). -/
def inWindow (s : State) (v : Option Word) : Bool :=
  match v with
  | some p => idx .l4 p == s.ridxReg
  | none => false

/-- The token to discharge is not outstanding (spec/43_flush_token.md R171). -/
def notOutstanding (s : State) (v : Option (BitVec 32)) : Bool :=
  match v with
  | some t => !outstanding s t
  | none => false

/-- The first failing check of R193, in its order. -/
def refusalOf (c : Checks) (s : State) : Option RefuseReason :=
  if s.faulted then some .blockFaulted
  else if s.busy then some .concurrent
  else if c.illegal then some .illegalCommand
  else if c.needsBound && !s.bound then some .notBound
  else if outOfMask flagsMask c.flags || outOfMask attrMask c.attr then some .operandRange
  else if tooWide s.config c.address then some .addressWidth
  else if c.misaligned then some .misaligned
  else if inWindow s c.mutated then some .recursiveWindow
  else if notOutstanding s c.token then some .tokenNotOutstanding
  else if c.makesToken && outstanding s s.nextToken then some .tokenExhausted
  else none

/-! ## The start and the ends of a command -/

/-- An admitted command starts: it is active, and no output port holds a value yet (spec/10_state.md R38, R39). -/
def beginCommand (s : State) : State := { s with busy := true, out := {}, refusal := none }

/-- The command completes (spec/60_exceptions.md R183). -/
def completeCommand (results : OutPorts) (s : State) : State :=
  { s with out := okPorts results, busy := false, pos := s.pos + 1 }

/-- The command returns a typed error: STATUS and no other port (R183, R187). -/
def returnError (c : Status) (s : State) : State :=
  { s with out := errPorts c, busy := false, pos := s.pos + 1 }

/-- Taking a fault of the block, the block's one kind of exception: FAULTED and FAULT_REASON are set, the command ends, no
output port holds a value, memory writes made before it stay (R190, R192). There is no return from a fault: only
reset clears it (R199). -/
def takeFault (r : FaultReason) (s : State) : State :=
  { s with faulted := true, faultReason := some r, out := {}, busy := false, pos := s.pos + 1 }

/-- A refusal: the command is not performed, the mark REFUSED is set, no output port holds a value (R193,
spec/10_state.md R38). -/
def refuseCommand (r : RefuseReason) (s : State) : State :=
  { s with refused := true, refusal := some r, out := {}, pos := s.pos + 1 }

/-- The end of a command's body. -/
def conclude (r : Res OutPorts) : Host.Outcome State Fault Refusal :=
  match r with
  | .done results s => .next (completeCommand results s)
  | .error c s => .next (returnError c s)
  | .fault q s => .next (takeFault q s)

/-- A command: the checks, then the body. -/
def command (c : Checks) (body : State → Res OutPorts) (s : State) : Host.Outcome State Fault Refusal :=
  match refusalOf c s with
  | some r => .next (refuseCommand r s)
  | none => conclude (body (beginCommand s))

/-- A word that is no command is refused as IllegalCommand, unless an earlier check fails (R193; spec/30_encoding.md R82,
R85, R86). -/
def refuseWord (s : State) : Host.Outcome State Fault Refusal :=
  command { illegal := true } (fun s' => .done {} s') s

/-! ## The caller (spec/10_state.md R34, spec/70_reset_and_hazards.md R226) -/

/-- The caller presents its next command: its word and operands stand on the input ports. -/
def present (p : InPorts) (rest : List InPorts) (s : State) : State := { s with inp := p, script := rest }

/-- The value of an output port as a 64-bit number, none where it holds no value. -/
def portValue (o : OutPorts) : OutPort → Option Word
  | .status => o.status.map (fun v => v.setWidth 64)
  | .eOut => o.eOut
  | .val => o.val
  | .bool => o.bool.map (fun b => if b then 1 else 0)
  | .szOut => o.szOut.map (fun v => v.setWidth 64)
  | .vaOut => o.vaOut
  | .tokenOut => o.tokenOut.map (fun v => v.setWidth 64)
  | .idxOut => o.idxOut.map (fun v => v.setWidth 64)

/-- The caller reads an output port: "a model reading it gets a fault, not a value" where it holds none (R38). -/
def readPort (p : OutPort) (s : State) : Host.Outcome Word Fault Refusal :=
  match portValue s.out p with
  | some v => .next v
  | none => .fault (.portHoldsNoValue p)

end Sys2Proof.Machine
end

