-- ==== Sys2Proof/Machine/Attr.lean ====
section
/-! DEFINITION. ATTR.LOOKUP, the memory-attribute mapping (spec/44_memory_attributes.md). -/

namespace Sys2Proof.Machine

/-- ATTR.LOOKUP (R175). KIND = 3 is refused as IllegalCommand (spec/30_encoding.md R86). -/
def execAttrLookup (s : State) : Host.Outcome State Fault Refusal :=
  match memKindOf s.inp.kind with
  | none => refuseWord s
  | some k =>
    command {} (fun t => .done { idxOut := some (mairIdx t.config k), val := some (attrBits t.config k) } t) s

end Sys2Proof.Machine
end

