-- ==== Sys2Proof/Machine/Map.lean ====
section
/-! DEFINITION. The MAP.* mapper commands (spec/41_mapper_ops.md). -/

namespace Sys2Proof.Machine

/-- What MAP.MAP_TO and MAP.IDENTITY_MAP do once admitted: create the tables on the page's path, install the leaf, create the
token (R120). The leaf's "in use" test comes before the contract check (spec/60_exceptions.md R195). -/
def mapLeaf (sz : PageSize) (page frame : Word) (s : State) : Res OutPorts :=
  (createPath page (nonLeafLevels sz) s).bind fun _ s1 =>
    (memRead (entryVaOf s1 (leafLevel sz) page) s1).bind fun e s2 =>
      if e = 0 then
        (ofSetter (leafDescriptor sz frame s2.inp.flags s2.inp.attr) s2).bind fun new s3 =>
          (memWrite (entryVaOf s3 (leafLevel sz) page) new s3).bind fun _ s4 =>
            .done { tokenOut := some (newToken page sz s4).1 } (newToken page sz s4).2
      else .error .pageAlreadyMapped s2

/-- The checks of MAP.MAP_TO.S (R120): PAGE and FRAME are S-aligned. -/
def mapChecks (sz : PageSize) (page : Word) (s : State) : Checks :=
  { needsBound := true, flags := some s.inp.flags, attr := some s.inp.attr, address := some s.inp.frame,
    misaligned := !aligned page sz || !aligned s.inp.frame sz, mutated := some page, makesToken := true }

/-- MAP.MAP_TO.S (R120). -/
def execMapMapTo (sz : PageSize) (s : State) : Host.Outcome State Fault Refusal :=
  command (mapChecks sz s.inp.page s) (fun t => mapLeaf sz t.inp.page t.inp.frame t) s

/-- MAP.IDENTITY_MAP.S (R124): the page is the frame's address; the PAGE port is not read. -/
def execMapIdentityMap (sz : PageSize) (s : State) : Host.Outcome State Fault Refusal :=
  command (mapChecks sz s.inp.frame s) (fun t => mapLeaf sz t.inp.frame t.inp.frame t) s

/-- The lookup of the final descriptor (R126): a nonzero leaf of any kind is returned, with its address. -/
def lookupLeaf (sz : PageSize) (s : State) : Res OutPorts :=
  (readWalk .parentEntryHugePage s.inp.page sz s).bind fun r s1 =>
    (memRead r s1).bind fun e s2 =>
      if e = 0 then .error .pageNotMapped s2 else .done { eOut := some e, vaOut := some r } s2

/-- The checks of a lookup of an S-page (R115, R126, R137). -/
def pageChecks (sz : PageSize) (s : State) : Checks :=
  { needsBound := true, misaligned := !aligned s.inp.page sz }

/-- MAP.GET_ENTRY.S (R126). -/
def execMapGetEntry (sz : PageSize) (s : State) : Host.Outcome State Fault Refusal :=
  command (pageChecks sz s) (lookupLeaf sz) s

/-- MAP.GET_ENTRY_MUT.S (R128): the same; VA_OUT is the handle. The block itself writes nothing. -/
def execMapGetEntryMut (sz : PageSize) (s : State) : Host.Outcome State Fault Refusal :=
  command (pageChecks sz s) (lookupLeaf sz) s

/-- UNMAP at a non-leaf level calls `frame()` and converts its error (R130, spec/60_exceptions.md R186). -/
def unmapClassify (e : Word) : Option Status :=
  match pteFrame e with
  | .ok _ => none
  | .error c => some (mapperError c)

/-- UNMAP at the leaf: the frame of a 4KiB page by `frame()`, of a huge page by `addr()` (R130, R132). -/
def unmapFrame (sz : PageSize) (e : Word) : Except Status Word :=
  match sz with
  | .k4 =>
    match pteFrame e with
    | .ok f => .ok f
    | .error c => .error (mapperError c)
  | .m2 => hugeFrame .m2 e
  | .g1 => hugeFrame .g1 e
where
  /-- The frame of a 2MiB or 1GiB leaf. -/
  hugeFrame (sz : PageSize) (e : Word) : Except Status Word :=
    if isValid e = false then .error .pageNotMapped
    else if isTop e then .error .pageNotMapped
    else if aligned (pteAddr e) sz then .ok (pteAddr e)
    else .error .invalidFrameAddress

/-- What MAP.UNMAP.S does once admitted (R130, R131): the leaf alone is written. -/
def unmapLeaf (sz : PageSize) (s : State) : Res OutPorts :=
  (readPath unmapClassify s.inp.page (nonLeafLevels sz) s).bind fun _ s1 =>
    (memRead (entryVaOf s1 (leafLevel sz) s1.inp.page) s1).bind fun e s2 =>
      match unmapFrame sz e with
      | .error c => .error c s2
      | .ok f =>
        (memWrite (entryVaOf s2 (leafLevel sz) s2.inp.page) 0 s2).bind fun _ s3 =>
          .done { val := some f, tokenOut := some (newToken s3.inp.page sz s3).1 } (newToken s3.inp.page sz s3).2

/-- MAP.UNMAP.S (R130). -/
def execMapUnmap (sz : PageSize) (s : State) : Host.Outcome State Fault Refusal :=
  command { pageChecks sz s with mutated := some s.inp.page, makesToken := true } (unmapLeaf sz) s

/-- What MAP.UPDATE_FLAGS.S does once admitted (R134, R135): the new flags are not checked against the leaf's size. -/
def updateLeaf (sz : PageSize) (s : State) : Res OutPorts :=
  (readWalk .parentEntryHugePage s.inp.page sz s).bind fun r s1 =>
    (memRead r s1).bind fun e s2 =>
      if e = 0 then .error .pageNotMapped s2
      else
        (memWrite r (setFlags e s2.inp.flags) s2).bind fun _ s3 =>
          .done { tokenOut := some (newToken s3.inp.page sz s3).1 } (newToken s3.inp.page sz s3).2

/-- MAP.UPDATE_FLAGS.S (R134). -/
def execMapUpdateFlags (sz : PageSize) (s : State) : Host.Outcome State Fault Refusal :=
  command { pageChecks sz s with flags := some s.inp.flags, mutated := some s.inp.page, makesToken := true }
    (updateLeaf sz) s

/-- The frame translate_page finds in an S-leaf (R137). -/
def translateLeaf (sz : PageSize) (e : Word) : Except Status Word :=
  if isValid e = false then .error .pageNotMapped
  else if sz = .k4 ∧ isTop e = false then .error .pageNotMapped
  else if sz ≠ .k4 ∧ isTop e = true then .error .pageNotMapped
  else if aligned (pteAddr e) sz then .ok (pteAddr e)
  else .error .invalidFrameAddress

/-- MAP.TRANSLATE_PAGE.S (R137). A page in the recursive window is admitted. -/
def execMapTranslatePage (sz : PageSize) (s : State) : Host.Outcome State Fault Refusal :=
  command (pageChecks sz s)
    (fun t =>
      (readWalk .pageNotMapped t.inp.page sz t).bind fun r t1 =>
        (memRead r t1).bind fun e t2 =>
          match translateLeaf sz e with
          | .ok f => .done { val := some f } t2
          | .error c => .error c t2) s

/-- MAP.TRANSLATE's descent (R140): `rest` are the levels below `l`. The first block or page found decides the size. -/
def translateFrom (v : Word) (l : Level) (rest : List Level) (s : State) : Res (PageSize × Word) :=
  (memRead (entryVaOf s l v) s).bind fun e s' =>
    if isValid e = false then .error .pageNotMapped s'
    else if isTop e = false then
      match blockSize l with
      | none => .error .pageNotMapped s'
      | some sz => if aligned (pteAddr e) sz then .done (sz, pteAddr e) s' else .error .invalidFrameAddress s'
    else
      match rest with
      | [] => .done (.k4, pteAddr e) s'
      | l' :: rest' => translateFrom v l' rest' s'

/-- MAP.TRANSLATE (R140). -/
def execMapTranslate (s : State) : Host.Outcome State Fault Refusal :=
  command { needsBound := true }
    (fun t => (translateFrom t.inp.page .l4 [.l3, .l2, .l1] t).bind fun r t' =>
      .done { szOut := some r.1.tag, val := some r.2 } t') s

/-- MAP.TRANSLATE_ADDR (R142): the frame and the offset within it. -/
def execMapTranslateAddr (s : State) : Host.Outcome State Fault Refusal :=
  command { needsBound := true }
    (fun t => (translateFrom t.inp.page .l4 [.l3, .l2, .l1] t).bind fun r t' =>
      .done { szOut := some r.1.tag, val := some (r.2 + offsetIn t'.inp.page r.1) } t') s

end Sys2Proof.Machine
end

