-- ==== Sys2Proof/Machine/Pte.lean ====
section
/-! DEFINITION. The eleven PTE.* codec commands (spec/40_pte_codec.md). They read input ports and write output ports only. -/

namespace Sys2Proof.Machine

/-- PTE.IS_UNUSED (R95). -/
def execPteIsUnused (s : State) : Host.Outcome State Fault Refusal :=
  command {} (fun t => .done { bool := some (t.inp.e == 0) } t) s

/-- PTE.SET_UNUSED (R96). E is ignored. -/
def execPteSetUnused (s : State) : Host.Outcome State Fault Refusal :=
  command {} (fun t => .done { eOut := some 0 } t) s

/-- PTE.FLAGS (R97). -/
def execPteFlags (s : State) : Host.Outcome State Fault Refusal :=
  command {} (fun t => .done { val := some (pteFlags t.inp.e) } t) s

/-- PTE.ADDR (R98). -/
def execPteAddr (s : State) : Host.Outcome State Fault Refusal :=
  command {} (fun t => .done { val := some (pteAddr t.inp.e) } t) s

/-- PTE.ATTR (R99). -/
def execPteAttr (s : State) : Host.Outcome State Fault Refusal :=
  command {} (fun t => .done { val := some (pteAttr t.inp.e) } t) s

/-- PTE.IS_BLOCK (R101). VALID is not examined. -/
def execPteIsBlock (s : State) : Host.Outcome State Fault Refusal :=
  command {} (fun t => .done { bool := some (!isTop t.inp.e) } t) s

/-- PTE.FRAME (R102). -/
def execPteFrame (s : State) : Host.Outcome State Fault Refusal :=
  command {} (fun t =>
    match pteFrame t.inp.e with
    | .ok f => .done { val := some f } t
    | .error c => .error c t) s

/-- PTE.SET_FRAME (R103, R104). -/
def execPteSetFrame (s : State) : Host.Outcome State Fault Refusal :=
  command
    { flags := some s.inp.flags, attr := some s.inp.attr, address := some s.inp.frame,
      misaligned := !aligned s.inp.frame .k4 }
    (fun t => (ofSetter (setFrame t.inp.frame t.inp.flags t.inp.attr) t).bind fun v t' => .done { eOut := some v } t') s

/-- PTE.SET_BLOCK.S (R105, R106); the 4KiB tag is no command (spec/30_encoding.md R85). -/
def execPteSetBlock (sz : PageSize) (s : State) : Host.Outcome State Fault Refusal :=
  command
    { illegal := sz == .k4, flags := some s.inp.flags, attr := some s.inp.attr, address := some s.inp.addr }
    (fun t => (ofSetter (setBlock t.inp.addr sz t.inp.flags t.inp.attr) t).bind fun v t' => .done { eOut := some v } t') s

/-- PTE.SET_FLAGS (R107). -/
def execPteSetFlags (s : State) : Host.Outcome State Fault Refusal :=
  command { flags := some s.inp.flags } (fun t => .done { eOut := some (setFlags t.inp.e t.inp.flags) } t) s

/-- PTE.SET_ATTR (R108). -/
def execPteSetAttr (s : State) : Host.Outcome State Fault Refusal :=
  command { attr := some s.inp.attr } (fun t => .done { eOut := some (setAttr t.inp.e t.inp.attr) } t) s

end Sys2Proof.Machine
end

