-- ==== Sys2Proof/Machine/Rpt.lean ====
section
/-! DEFINITION. The RPT.* commands: binding, the table-address computation, table creation (spec/42_recursive_walk.md). -/

namespace Sys2Proof.Machine

/-- The slot holds a VALID table-or-page descriptor that points at the root (R160). -/
def slotPointsAt (d rootPa : Word) : Bool := isValid d && isTop d && pteAddr d == rootPa

/-- RPT.BIND (R160). A slot outside PMEM holds no descriptor; R24 keeps ROOT_PA below 2^PA_BITS, so no launch has one. -/
def execRptBind (s : State) : Host.Outcome State Fault Refusal :=
  command {}
    (fun t =>
      match physRead (t.config.rootPa.toNat + 8 * t.inp.ridx.toNat) t with
      | (none, t') => .fault .notRecursivelyMapped t'
      | (some d, t') =>
        if slotPointsAt d t'.config.rootPa then .done {} { t' with ridxReg := t'.inp.ridx, bound := true }
        else .fault .notRecursivelyMapped t') s

/-- RPT.TABLE_VA (R147). LEVEL outside 1..4 is refused as IllegalCommand (spec/30_encoding.md R86). -/
def execRptTableVa (s : State) : Host.Outcome State Fault Refusal :=
  match levelOf s.inp.level with
  | none => refuseWord s
  | some l => command { needsBound := true } (fun t => .done { vaOut := some (tableVaOf t l t.inp.page) } t) s

/-- RPT.CREATE_NEXT_TABLE (R155). It creates no token (spec/43_flush_token.md R165). -/
def execRptCreateNextTable (s : State) : Host.Outcome State Fault Refusal :=
  command { needsBound := true, misaligned := !aligned8 s.inp.entryVa || !aligned s.inp.nextVa .k4 }
    (fun t => (createNextTable t.inp.entryVa t.inp.nextVa t).bind fun _ t' => .done { vaOut := some t'.inp.nextVa } t') s

end Sys2Proof.Machine
end

