-- ==== Sys2Proof/Machine/Tok.lean ====
section
/-! DEFINITION. The TOK.* commands: the two discharges of a flush token (spec/43_flush_token.md). -/

namespace Sys2Proof.Machine

/-- TOK.FLUSH (R167, R168). It needs no binding. -/
def execTokFlush (s : State) : Host.Outcome State Fault Refusal :=
  command { token := some s.inp.token } (fun t => .done {} (discharge t.inp.token .flush (isb (tlbiAllIS t)))) s

/-- TOK.IGNORE (R170): nothing is invalidated and nothing is published. -/
def execTokIgnore (s : State) : Host.Outcome State Fault Refusal :=
  command { token := some s.inp.token } (fun t => .done {} (discharge t.inp.token .ignore t)) s

end Sys2Proof.Machine
end

