-- ==== Sys2Proof/Machine/Dispatch.lean ====
section
/-! DEFINITION. exec: one arm per command, each a direct call of its meaning. -/

namespace Sys2Proof.Machine

/-- The meaning of a command whose operands stand on the input ports (spec/30_encoding.md R84). -/
def exec (i : Instr) (s : State) : Host.Outcome State Fault Refusal :=
  match i with
  | .pteIsUnused => Sys2Proof.Machine.execPteIsUnused s
  | .pteSetUnused => Sys2Proof.Machine.execPteSetUnused s
  | .pteFlags => Sys2Proof.Machine.execPteFlags s
  | .pteAddr => Sys2Proof.Machine.execPteAddr s
  | .pteAttr => Sys2Proof.Machine.execPteAttr s
  | .pteIsBlock => Sys2Proof.Machine.execPteIsBlock s
  | .pteFrame => Sys2Proof.Machine.execPteFrame s
  | .pteSetFrame => Sys2Proof.Machine.execPteSetFrame s
  | .pteSetBlock sz => Sys2Proof.Machine.execPteSetBlock sz s
  | .pteSetFlags => Sys2Proof.Machine.execPteSetFlags s
  | .pteSetAttr => Sys2Proof.Machine.execPteSetAttr s
  | .mapMapTo sz => Sys2Proof.Machine.execMapMapTo sz s
  | .mapIdentityMap sz => Sys2Proof.Machine.execMapIdentityMap sz s
  | .mapGetEntry sz => Sys2Proof.Machine.execMapGetEntry sz s
  | .mapGetEntryMut sz => Sys2Proof.Machine.execMapGetEntryMut sz s
  | .mapUnmap sz => Sys2Proof.Machine.execMapUnmap sz s
  | .mapUpdateFlags sz => Sys2Proof.Machine.execMapUpdateFlags sz s
  | .mapTranslatePage sz => Sys2Proof.Machine.execMapTranslatePage sz s
  | .mapTranslate => Sys2Proof.Machine.execMapTranslate s
  | .mapTranslateAddr => Sys2Proof.Machine.execMapTranslateAddr s
  | .rptBind => Sys2Proof.Machine.execRptBind s
  | .rptTableVa => Sys2Proof.Machine.execRptTableVa s
  | .rptCreateNextTable => Sys2Proof.Machine.execRptCreateNextTable s
  | .tokFlush => Sys2Proof.Machine.execTokFlush s
  | .tokIgnore => Sys2Proof.Machine.execTokIgnore s
  | .attrLookup => Sys2Proof.Machine.execAttrLookup s

end Sys2Proof.Machine
end

