-- ==== Sys2Proof/Machine/Step.lean ====
section
/-! DEFINITION. One step: a gap in which the other agents may move, then the command the caller presents next, if any. -/

namespace Sys2Proof.Machine

/-- One step of the machine. The block fetches nothing: it runs the command the caller presents and then waits for the next
(spec/10_state.md R34, R39); with no command presented it is idle and holds its state (spec/60_exceptions.md R206). -/
def step (s : State) : Host.Outcome State Fault Refusal :=
  match (turn s).script with
  | [] => .next (turn s)
  | p :: rest =>
    match decode p.cmd with
    | .ok i => exec i (present p rest (turn s))
    | .error _ => refuseWord (present p rest (turn s))

/-- The state with the command whose word is `w` presented next, its operands the values on the input ports (log 2). -/
def State.withFetchWord (s : State) (nbits w : Nat) : State :=
  { s with script := { s.inp with cmd := BitVec.ofNat 32 (w % 2 ^ nbits) } :: s.script }

end Sys2Proof.Machine
end

