-- ==== Sys2Proof/Machine/Assembly.lean ====
section
/-! DEFINITION. The textual form of a command: a mnemonic, a size suffix and named port values (spec/30_encoding.md R89). -/

namespace Sys2Proof.Machine

/-- The symbolic flag names and the bits they stand for (R89). -/
def flagSymbols : List (String × Nat) :=
  [("VALID", 0), ("TOP", 1), ("AP6", 6), ("AP7", 7), ("AF", 10), ("NG", 11), ("DBM", 51), ("CONT", 52), ("PXN", 53),
    ("XN", 54), ("SW0", 55), ("SW1", 56), ("SW2", 57), ("SW3", 58), ("TBL0", 59), ("TBL1", 60), ("TBL2", 61),
    ("TBL3", 62), ("TBL4", 63)]

/-- The value of one symbolic flag name; a name that is none gives no value (R89). -/
def flagSymbol (name : String) : Option Word :=
  (flagSymbols.find? (fun p => p.1 == name)).map (fun p => 1#64 <<< p.2)

/-- The value of a symbolic flags sum such as VALID|TOP|AF (R89). -/
def flagSum : List String → Option Word
  | [] => some 0
  | n :: rest =>
    match flagSymbol n, flagSum rest with
    | some v, some w => some (v ||| w)
    | some _, none => none
    | none, _ => none

/-- One `<port>=<value>` of a line (R89). -/
inductive PortArg where
  | e (v : Word)
  | page (v : Word)
  | frame (v : Word)
  | addr (v : Word)
  | flags (v : Word)
  | attr (v : Word)
  | kind (v : BitVec 2)
  | level (v : BitVec 3)
  | token (v : BitVec 32)
  | entryVa (v : Word)
  | nextVa (v : Word)
  | ridx (v : BitVec 9)
deriving DecidableEq, Repr

/-- The input ports with one more named value. -/
def setPort (p : InPorts) : PortArg → InPorts
  | .e v => { p with e := v }
  | .page v => { p with page := v }
  | .frame v => { p with frame := v }
  | .addr v => { p with addr := v }
  | .flags v => { p with flags := v }
  | .attr v => { p with attr := v }
  | .kind v => { p with kind := v }
  | .level v => { p with level := v }
  | .token v => { p with token := v }
  | .entryVa v => { p with entryVa := v }
  | .nextVa v => { p with nextVa := v }
  | .ridx v => { p with ridx := v }

/-- "A line assembles to one CMD word plus the named port values" (R89); a port that is not named is 0. -/
def assemble (i : Instr) (args : List PortArg) : InPorts :=
  args.foldl setPort { InPorts.zero with cmd := encode i }

/-- The size suffix (R89). -/
def sizeSuffix : PageSize → String
  | .k4 => ".4K"
  | .m2 => ".2M"
  | .g1 => ".1G"

/-- `<GROUP>.<OP>[.<SZ>]` (R89). -/
def instrText : Instr → String
  | .pteIsUnused => "PTE.IS_UNUSED"
  | .pteSetUnused => "PTE.SET_UNUSED"
  | .pteFlags => "PTE.FLAGS"
  | .pteAddr => "PTE.ADDR"
  | .pteAttr => "PTE.ATTR"
  | .pteIsBlock => "PTE.IS_BLOCK"
  | .pteFrame => "PTE.FRAME"
  | .pteSetFrame => "PTE.SET_FRAME"
  | .pteSetBlock sz => "PTE.SET_BLOCK" ++ sizeSuffix sz
  | .pteSetFlags => "PTE.SET_FLAGS"
  | .pteSetAttr => "PTE.SET_ATTR"
  | .mapMapTo sz => "MAP.MAP_TO" ++ sizeSuffix sz
  | .mapIdentityMap sz => "MAP.IDENTITY_MAP" ++ sizeSuffix sz
  | .mapGetEntry sz => "MAP.GET_ENTRY" ++ sizeSuffix sz
  | .mapGetEntryMut sz => "MAP.GET_ENTRY_MUT" ++ sizeSuffix sz
  | .mapUnmap sz => "MAP.UNMAP" ++ sizeSuffix sz
  | .mapUpdateFlags sz => "MAP.UPDATE_FLAGS" ++ sizeSuffix sz
  | .mapTranslatePage sz => "MAP.TRANSLATE_PAGE" ++ sizeSuffix sz
  | .mapTranslate => "MAP.TRANSLATE"
  | .mapTranslateAddr => "MAP.TRANSLATE_ADDR"
  | .rptBind => "RPT.BIND"
  | .rptTableVa => "RPT.TABLE_VA"
  | .rptCreateNextTable => "RPT.CREATE_NEXT_TABLE"
  | .tokFlush => "TOK.FLUSH"
  | .tokIgnore => "TOK.IGNORE"
  | .attrLookup => "ATTR.LOOKUP"

end Sys2Proof.Machine
end

