-- ==== Sys2Proof/Safety.lean ====
section
/-! DEFINITION. The terms claims are stated in: when a command can run, what the engine's accesses reach, the launch premises of
spec/70_reset_and_hazards.md R213, the invariants, and a run that ends clean. -/

namespace Sys2Proof.Machine

/-! ## What the engine's behaviour depends on -/

/-- The part of the state that the engine's behaviour depends on: everything but the event history, the TLBs, the open walks, the
observations, the coming moves and the refusal marks. -/
def coreOf (s : State) : State :=
  { s with ev := [], tlb := [], slots := [], walks := [], seen := [], refused := false, refusal := none }

/-! ## Legal command words (spec/30_encoding.md R82-R86) -/

/-- The opcode map: each OPC with the SZ values it takes (R84, R85). -/
def opcodeMap : List (Nat × List Nat) :=
  [(0x01, [0]), (0x02, [0]), (0x03, [0]), (0x04, [0]), (0x05, [0]), (0x06, [0]), (0x07, [0]), (0x08, [0]),
    (0x09, [1, 2]), (0x0A, [0]), (0x0B, [0])] ++
  [(0x10, [0, 1, 2]), (0x11, [0, 1, 2]), (0x12, [0, 1, 2]), (0x13, [0, 1, 2]), (0x14, [0, 1, 2]), (0x15, [0, 1, 2]),
    (0x16, [0, 1, 2]), (0x17, [0]), (0x18, [0])] ++
  [(0x20, [0]), (0x21, [0]), (0x22, [0]), (0x30, [0]), (0x31, [0]), (0x40, [0])]

/-- The word is a command of R84: OPC in 7:0, an SZ the command allows in 9:8, zero above. -/
abbrev LegalWord (w : BitVec 32) : Prop := ∃ row ∈ opcodeMap, ∃ sz ∈ row.2, w.toNat = row.1 + 256 * sz

/-! ## When a command is admitted -/

/-- No fault has stopped the block and no command is active: checks 1 and 2 of spec/60_exceptions.md R193 pass. -/
abbrev Ready (s : State) : Prop := s.faulted = false ∧ s.busy = false

/-- A mapper is bound as well: check 4 of R193 passes. -/
abbrev ReadyBound (s : State) : Prop := Ready s ∧ s.bound = true

/-- A flags operand is a subset of FLAGS_MASK (spec/30_encoding.md R74). -/
abbrev FlagsOk (x : Word) : Prop := x &&& ~~~flagsMask = 0

/-- An attribute operand is a subset of ATTR_MASK (spec/30_encoding.md R73). -/
abbrev AttrOk (a : Word) : Prop := a &&& ~~~attrMask = 0

/-- A mutation's page lies outside the recursive window and a fresh token identifier is free (checks 8 and 10 of R193). -/
abbrev MayMutate (s : State) (page : Word) : Prop :=
  idx .l4 page ≠ s.ridxReg ∧ outstanding s s.nextToken = false

/-- A lookup of an S-page passes every check of R193. -/
abbrev AdmittedLookup (s : State) (sz : PageSize) : Prop := ReadyBound s ∧ aligned s.inp.page sz = true

/-- MAP.UNMAP passes every check of R193. -/
abbrev AdmittedUnmap (s : State) (sz : PageSize) : Prop := AdmittedLookup s sz ∧ MayMutate s s.inp.page

/-- MAP.UPDATE_FLAGS passes every check of R193. -/
abbrev AdmittedUpdate (s : State) (sz : PageSize) : Prop := AdmittedUnmap s sz ∧ FlagsOk s.inp.flags

/-- MAP.MAP_TO (of the page on PAGE) and MAP.IDENTITY_MAP (of the page FRAME) pass every check of R193. -/
abbrev AdmittedMap (s : State) (sz : PageSize) (page : Word) : Prop :=
  ReadyBound s ∧ aligned page sz = true ∧ aligned s.inp.frame sz = true ∧ FlagsOk s.inp.flags ∧ AttrOk s.inp.attr ∧
    s.inp.frame.toNat < 2 ^ s.config.paBits ∧ MayMutate s page

/-- RPT.CREATE_NEXT_TABLE passes every check of R193. -/
abbrev AdmittedTable (s : State) : Prop :=
  ReadyBound s ∧ aligned8 s.inp.entryVa = true ∧ aligned s.inp.nextVa .k4 = true

/-! ## The interface's checks, command by command (spec/60_exceptions.md R193) -/

/-- The commands that read FLAGS (spec/10_state.md R21). -/
def readsFlags : Instr → Bool
  | .pteSetFrame | .pteSetBlock _ | .pteSetFlags | .mapMapTo _ | .mapIdentityMap _ | .mapUpdateFlags _ => true
  | .pteIsUnused | .pteSetUnused | .pteFlags | .pteAddr | .pteAttr | .pteIsBlock | .pteFrame | .pteSetAttr
  | .mapGetEntry _ | .mapGetEntryMut _ | .mapUnmap _ | .mapTranslatePage _ | .mapTranslate | .mapTranslateAddr
  | .rptBind | .rptTableVa | .rptCreateNextTable | .tokFlush | .tokIgnore | .attrLookup => false

/-- The commands that read ATTR (R21). -/
def readsAttr : Instr → Bool
  | .pteSetFrame | .pteSetBlock _ | .pteSetAttr | .mapMapTo _ | .mapIdentityMap _ => true
  | .pteIsUnused | .pteSetUnused | .pteFlags | .pteAddr | .pteAttr | .pteIsBlock | .pteFrame | .pteSetFlags
  | .mapGetEntry _ | .mapGetEntryMut _ | .mapUnmap _ | .mapUpdateFlags _ | .mapTranslatePage _ | .mapTranslate
  | .mapTranslateAddr | .rptBind | .rptTableVa | .rptCreateNextTable | .tokFlush | .tokIgnore | .attrLookup => false

/-- The commands that read FRAME (R21). -/
def readsFrame : Instr → Bool
  | .pteSetFrame | .mapMapTo _ | .mapIdentityMap _ => true
  | .pteIsUnused | .pteSetUnused | .pteFlags | .pteAddr | .pteAttr | .pteIsBlock | .pteFrame | .pteSetBlock _
  | .pteSetFlags | .pteSetAttr | .mapGetEntry _ | .mapGetEntryMut _ | .mapUnmap _ | .mapUpdateFlags _
  | .mapTranslatePage _ | .mapTranslate | .mapTranslateAddr | .rptBind | .rptTableVa | .rptCreateNextTable | .tokFlush
  | .tokIgnore | .attrLookup => false

/-- Check 7's alignment rules. -/
def misalignedFor (s : State) : Instr → Bool
  | .pteSetFrame => s.inp.frame.toNat % 4096 != 0
  | .mapMapTo sz => s.inp.page.toNat % sizeBytes sz != 0 || s.inp.frame.toNat % sizeBytes sz != 0
  | .mapIdentityMap sz => s.inp.frame.toNat % sizeBytes sz != 0
  | .mapGetEntry sz | .mapGetEntryMut sz | .mapUnmap sz | .mapUpdateFlags sz | .mapTranslatePage sz =>
    s.inp.page.toNat % sizeBytes sz != 0
  | .rptCreateNextTable => s.inp.entryVa.toNat % 8 != 0 || s.inp.nextVa.toNat % 4096 != 0
  | .pteIsUnused | .pteSetUnused | .pteFlags | .pteAddr | .pteAttr | .pteIsBlock | .pteFrame | .pteSetBlock _
  | .pteSetFlags | .pteSetAttr | .mapTranslate | .mapTranslateAddr | .rptBind | .rptTableVa | .tokFlush | .tokIgnore
  | .attrLookup => false

/-- Check 8: the page of a mutation has i4 = RIDX_REG. -/
def inWindowFor (s : State) : Instr → Bool
  | .mapMapTo _ | .mapUnmap _ | .mapUpdateFlags _ => s.inp.page.extractLsb' 39 9 == s.ridxReg
  | .mapIdentityMap _ => s.inp.frame.extractLsb' 39 9 == s.ridxReg
  | .pteIsUnused | .pteSetUnused | .pteFlags | .pteAddr | .pteAttr | .pteIsBlock | .pteFrame | .pteSetFrame
  | .pteSetBlock _ | .pteSetFlags | .pteSetAttr | .mapGetEntry _ | .mapGetEntryMut _ | .mapTranslatePage _
  | .mapTranslate | .mapTranslateAddr | .rptBind | .rptTableVa | .rptCreateNextTable | .tokFlush | .tokIgnore
  | .attrLookup => false

/-- Check 3, for a word the decoder accepts: KIND = 3, LEVEL outside 1..4, a 4KiB block (spec/30_encoding.md R85, R86). -/
def illegalFor (s : State) : Instr → Bool
  | .attrLookup => s.inp.kind == 3
  | .rptTableVa => s.inp.level == 0 || 4 < s.inp.level.toNat
  | .pteSetBlock sz => sz == .k4
  | .pteIsUnused | .pteSetUnused | .pteFlags | .pteAddr | .pteAttr | .pteIsBlock | .pteFrame | .pteSetFrame
  | .pteSetFlags | .pteSetAttr | .mapMapTo _ | .mapIdentityMap _ | .mapGetEntry _ | .mapGetEntryMut _ | .mapUnmap _
  | .mapUpdateFlags _ | .mapTranslatePage _ | .mapTranslate | .mapTranslateAddr | .rptBind | .rptCreateNextTable
  | .tokFlush | .tokIgnore => false

/-! ## What the engine's accesses reach, in a state as it stands -/

/-- Desc (spec/42_recursive_walk.md R151) in a state as it stands, noting the addresses read. -/
def descNow (s : State) (a : Nat) (read : List Nat) : Option Word × List Nat :=
  (if inPmem s.config a then some (s.mem.read64 a) else none, read ++ [a])

/-- The walk of an engine access to `va`, in a state as it stands, with the descriptor addresses it reads. -/
def walkNow (s : State) (kind : Access) (va : Word) : WalkResult × List Nat :=
  walkFrom (descNow s) (permOk s.config kind) va .l4 [.l3, .l2, .l1] s.config.rootPa [] []

/-- The physical address an engine access to `va` reaches, if it reaches one. -/
def reach (s : State) (kind : Access) (va : Word) : Option Nat :=
  match (walkNow s kind va).1 with
  | .okay pa _ => if inPmem s.config pa.toNat then some pa.toNat else none
  | .fault _ _ => none
  | .unspecified _ => none

/-- The descriptor an engine read of `va` gives, if it gives one. -/
def readNow (s : State) (va : Word) : Option Word := (reach s .read va).map s.mem.read64

/-- The level-L entry on P's path is a VALID table descriptor the engine can read. -/
abbrev LinksTable (s : State) (p : Word) (l : Level) : Prop :=
  ((readNow s (entryVaOf s l p)).map (fun e => isValid e && isTop e)) = some true

/-- The levels whose entries a walk for an S-page reads, top-down, the leaf last. -/
def pathLevels (sz : PageSize) : List Level := nonLeafLevels sz ++ [leafLevel sz]

/-- Every entry above the S-leaf on P's path is a VALID table descriptor the engine can read. -/
abbrev PathLinked (s : State) (sz : PageSize) (p : Word) : Prop := ∀ l ∈ nonLeafLevels sz, LinksTable s p l

/-- The address of the S-leaf of P. -/
def leafVa (s : State) (sz : PageSize) (p : Word) : Word := entryVaOf s (leafLevel sz) p

/-- The accesses and actions of a command that R228 counts: its events but PhysReads and the tokens' records. -/
def countedEvent (e : Event) : Bool :=
  match e.act with
  | .physRead _ _ => false
  | .physWrite _ _ => false
  | .memRead _ _ _ => true
  | .memWrite _ _ _ => true
  | .alloc _ => true
  | .barrier => true
  | .tlbiAllIS => true
  | .isb => true
  | .tokenCreate _ => false
  | .tokenDischarge _ _ => false

/-- How many such events EV holds. -/
def eventCount (s : State) : Nat := s.ev.countP countedEvent

/-- An event is a PhysRead. -/
def isPhysRead (e : Event) : Bool :=
  match e.act with
  | .physRead _ _ => true
  | .physWrite _ _ | .memRead _ _ _ | .memWrite _ _ _ | .alloc _ | .barrier | .tlbiAllIS | .isb | .tokenCreate _
  | .tokenDischarge _ _ => false

/-- How many PhysReads EV holds. -/
def physReadCount (s : State) : Nat := s.ev.countP isPhysRead

/-- An event is the record of a token's creation or discharge. -/
def isTokenRecord (e : Event) : Bool :=
  match e.act with
  | .tokenCreate _ | .tokenDischarge _ _ => true
  | .physRead _ _ | .physWrite _ _ | .memRead _ _ _ | .memWrite _ _ _ | .alloc _ | .barrier | .tlbiAllIS | .isb => false

/-- How many events of EV R228 counts for a command. A PhysRead counts where the command makes it itself, which RPT.BIND does;
"the counts exclude the hardware walks' PhysReads", and every other command's PhysReads are its walks'. -/
def commandEvents (i : Instr) (s : State) : Nat := if i = .rptBind then eventCount s + physReadCount s else eventCount s

/-- R228's maxima. -/
def maxEvents : Instr → Nat
  | .pteIsUnused => 0
  | .pteSetUnused => 0
  | .pteFlags => 0
  | .pteAddr => 0
  | .pteAttr => 0
  | .pteIsBlock => 0
  | .pteFrame => 0
  | .pteSetFrame => 0
  | .pteSetBlock _ => 0
  | .pteSetFlags => 0
  | .pteSetAttr => 0
  | .mapMapTo sz => (nonLeafLevels sz).length * 516 + 2
  | .mapIdentityMap sz => (nonLeafLevels sz).length * 516 + 2
  | .mapGetEntry sz => (nonLeafLevels sz).length + 1
  | .mapGetEntryMut sz => (nonLeafLevels sz).length + 1
  | .mapUnmap sz => (nonLeafLevels sz).length + 2
  | .mapUpdateFlags sz => (nonLeafLevels sz).length + 2
  | .mapTranslatePage sz => (nonLeafLevels sz).length + 1
  | .mapTranslate => 4
  | .mapTranslateAddr => 4
  | .rptBind => 1
  | .rptTableVa => 0
  | .rptCreateNextTable => 516
  | .tokFlush => 2
  | .tokIgnore => 0
  | .attrLookup => 0

/-- The engine accesses, MemRead and MemWrite, among R228's maxima: 514 of the 516 events of a new table. -/
def maxAccesses : Instr → Nat
  | .mapMapTo sz => (nonLeafLevels sz).length * 514 + 2
  | .mapIdentityMap sz => (nonLeafLevels sz).length * 514 + 2
  | .mapGetEntry sz => (nonLeafLevels sz).length + 1
  | .mapGetEntryMut sz => (nonLeafLevels sz).length + 1
  | .mapUnmap sz => (nonLeafLevels sz).length + 2
  | .mapUpdateFlags sz => (nonLeafLevels sz).length + 2
  | .mapTranslatePage sz => (nonLeafLevels sz).length + 1
  | .mapTranslate => 4
  | .mapTranslateAddr => 4
  | .rptCreateNextTable => 514
  | .pteIsUnused | .pteSetUnused | .pteFlags | .pteAddr | .pteAttr | .pteIsBlock | .pteFrame | .pteSetFrame
  | .pteSetBlock _ | .pteSetFlags | .pteSetAttr | .rptBind | .rptTableVa | .tokFlush | .tokIgnore | .attrLookup => 0

/-- The state a command's progress has reached, whether it goes on or not. -/
def resState {α : Type} : Res α → State
  | .done _ s => s
  | .error _ s => s
  | .fault _ s => s

/-! ## What each command may do (spec/10_state.md R37) -/

/-- The commands that store to PMEM through MemWrite. -/
def storesMemory : Instr → Bool
  | .mapMapTo _ => true
  | .mapIdentityMap _ => true
  | .mapUnmap _ => true
  | .mapUpdateFlags _ => true
  | .rptCreateNextTable => true
  | .pteIsUnused | .pteSetUnused | .pteFlags | .pteAddr | .pteAttr | .pteIsBlock | .pteFrame | .pteSetFrame
  | .pteSetBlock _ | .pteSetFlags | .pteSetAttr | .mapGetEntry _ | .mapGetEntryMut _ | .mapTranslatePage _
  | .mapTranslate | .mapTranslateAddr | .rptBind | .rptTableVa | .tokFlush | .tokIgnore | .attrLookup => false

/-- The commands that may ask the allocator for a frame and issue a barrier: those that run create_next_table. -/
def createsTables : Instr → Bool
  | .mapMapTo _ => true
  | .mapIdentityMap _ => true
  | .rptCreateNextTable => true
  | .pteIsUnused | .pteSetUnused | .pteFlags | .pteAddr | .pteAttr | .pteIsBlock | .pteFrame | .pteSetFrame
  | .pteSetBlock _ | .pteSetFlags | .pteSetAttr | .mapGetEntry _ | .mapGetEntryMut _ | .mapUnmap _ | .mapUpdateFlags _
  | .mapTranslatePage _ | .mapTranslate | .mapTranslateAddr | .rptBind | .rptTableVa | .tokFlush | .tokIgnore
  | .attrLookup => false

/-- The commands that create a flush token when they complete (spec/43_flush_token.md R165). -/
def createsToken : Instr → Bool
  | .mapMapTo _ => true
  | .mapIdentityMap _ => true
  | .mapUnmap _ => true
  | .mapUpdateFlags _ => true
  | .pteIsUnused | .pteSetUnused | .pteFlags | .pteAddr | .pteAttr | .pteIsBlock | .pteFrame | .pteSetFrame
  | .pteSetBlock _ | .pteSetFlags | .pteSetAttr | .mapGetEntry _ | .mapGetEntryMut _ | .mapTranslatePage _
  | .mapTranslate | .mapTranslateAddr | .rptBind | .rptTableVa | .rptCreateNextTable | .tokFlush | .tokIgnore
  | .attrLookup => false

/-- The commands that read descriptors through MemRead. -/
def readsTables : Instr → Bool
  | .mapMapTo _ => true
  | .mapIdentityMap _ => true
  | .mapGetEntry _ => true
  | .mapGetEntryMut _ => true
  | .mapUnmap _ => true
  | .mapUpdateFlags _ => true
  | .mapTranslatePage _ => true
  | .mapTranslate => true
  | .mapTranslateAddr => true
  | .rptCreateNextTable => true
  | .pteIsUnused | .pteSetUnused | .pteFlags | .pteAddr | .pteAttr | .pteIsBlock | .pteFrame | .pteSetFrame
  | .pteSetBlock _ | .pteSetFlags | .pteSetAttr | .rptBind | .rptTableVa | .tokFlush | .tokIgnore | .attrLookup => false

/-- The commands that need a binding (check 4 of spec/60_exceptions.md R193). -/
def needsBinding : Instr → Bool
  | .rptTableVa => true
  | .mapMapTo _ => true
  | .mapIdentityMap _ => true
  | .mapGetEntry _ => true
  | .mapGetEntryMut _ => true
  | .mapUnmap _ => true
  | .mapUpdateFlags _ => true
  | .mapTranslatePage _ => true
  | .mapTranslate => true
  | .mapTranslateAddr => true
  | .rptCreateNextTable => true
  | .pteIsUnused | .pteSetUnused | .pteFlags | .pteAddr | .pteAttr | .pteIsBlock | .pteFrame | .pteSetFrame
  | .pteSetBlock _ | .pteSetFlags | .pteSetAttr | .rptBind | .tokFlush | .tokIgnore | .attrLookup => false

/-- The codec commands (spec/40_pte_codec.md). -/
def isCodec : Instr → Bool
  | .pteIsUnused | .pteSetUnused | .pteFlags | .pteAddr | .pteAttr | .pteIsBlock | .pteFrame | .pteSetFrame
  | .pteSetBlock _ | .pteSetFlags | .pteSetAttr => true
  | .mapMapTo _ | .mapIdentityMap _ | .mapGetEntry _ | .mapGetEntryMut _ | .mapUnmap _ | .mapUpdateFlags _
  | .mapTranslatePage _ | .mapTranslate | .mapTranslateAddr | .rptBind | .rptTableVa | .rptCreateNextTable | .tokFlush
  | .tokIgnore | .attrLookup => false

/-- The check that has this reason fails for the command (R193). -/
def checkFails (i : Instr) (s : State) : RefuseReason → Bool
  | .blockFaulted => s.faulted
  | .concurrent => s.busy
  | .illegalCommand => illegalFor s i
  | .notBound => needsBinding i && !s.bound
  | .operandRange => readsFlags i && s.inp.flags &&& ~~~flagsMask != 0 || readsAttr i && s.inp.attr &&& ~~~attrMask != 0
  | .addressWidth =>
    readsFrame i && decide (2 ^ s.config.paBits ≤ s.inp.frame.toNat) ||
      (i == .pteSetBlock .m2 || i == .pteSetBlock .g1) && decide (2 ^ s.config.paBits ≤ s.inp.addr.toNat)
  | .misaligned => misalignedFor s i
  | .recursiveWindow => inWindowFor s i
  | .tokenNotOutstanding => (i == .tokFlush || i == .tokIgnore) && !(s.tokens.any fun k => k.id == s.inp.token)
  | .tokenExhausted => createsToken i && s.tokens.any fun k => k.id == s.nextToken

/-- The reasons, in the order of R193's checks. -/
def checkOrder : List RefuseReason :=
  [.blockFaulted, .concurrent, .illegalCommand, .notBound, .operandRange, .addressWidth, .misaligned, .recursiveWindow,
    .tokenNotOutstanding, .tokenExhausted]

/-- "The first failing check refuses the command" (R193). -/
def firstRefusal (i : Instr) (s : State) : Option RefuseReason := checkOrder.find? (checkFails i s)

/-- The input ports with every port the command does not read at 0 (spec/10_state.md R21). CMD is read by every command. -/
def portsRead (i : Instr) (p : InPorts) : InPorts :=
  { InPorts.zero with
    cmd := p.cmd
    e := if readsEntry i then p.e else 0
    page := if readsPage i then p.page else 0
    frame := if readsFrame i then p.frame else 0
    addr := if i == .pteSetBlock .m2 || i == .pteSetBlock .g1 then p.addr else 0
    flags := if readsFlags i then p.flags else 0
    attr := if readsAttr i then p.attr else 0
    kind := if i == .attrLookup then p.kind else 0
    level := if i == .rptTableVa then p.level else 0
    token := if i == .tokFlush || i == .tokIgnore then p.token else 0
    entryVa := if i == .rptCreateNextTable then p.entryVa else 0
    nextVa := if i == .rptCreateNextTable then p.nextVa else 0
    ridx := if i == .rptBind then p.ridx else 0 }
where
  /-- The commands that read E. -/
  readsEntry : Instr → Bool
    | .pteIsUnused | .pteFlags | .pteAddr | .pteAttr | .pteIsBlock | .pteFrame | .pteSetFlags | .pteSetAttr => true
    | .pteSetUnused | .pteSetFrame | .pteSetBlock _ | .mapMapTo _ | .mapIdentityMap _ | .mapGetEntry _
    | .mapGetEntryMut _ | .mapUnmap _ | .mapUpdateFlags _ | .mapTranslatePage _ | .mapTranslate | .mapTranslateAddr
    | .rptBind | .rptTableVa | .rptCreateNextTable | .tokFlush | .tokIgnore | .attrLookup => false
  /-- The commands that read PAGE: MAP.IDENTITY_MAP does not (spec/41_mapper_ops.md R124). -/
  readsPage : Instr → Bool
    | .mapMapTo _ | .mapGetEntry _ | .mapGetEntryMut _ | .mapUnmap _ | .mapUpdateFlags _ | .mapTranslatePage _
    | .mapTranslate | .mapTranslateAddr | .rptTableVa => true
    | .pteIsUnused | .pteSetUnused | .pteFlags | .pteAddr | .pteAttr | .pteIsBlock | .pteFrame | .pteSetFrame
    | .pteSetBlock _ | .pteSetFlags | .pteSetAttr | .mapIdentityMap _ | .rptBind | .rptCreateNextTable | .tokFlush
    | .tokIgnore | .attrLookup => false

/-! ## Launch premises (spec/00_scope.md R7, spec/70_reset_and_hazards.md R213) -/

/-- The constraints R7 puts on the parameters. -/
abbrev ConfigLawful (c : Config) : Prop :=
  12 < c.paBits ∧ c.paBits ≤ 48 ∧ FlagsOk c.tableFlags ∧ isValid c.tableFlags = true ∧ isTop c.tableFlags = true ∧
    aligned c.rootPa .k4 = true ∧ c.rootPa.toNat < 2 ^ c.paBits ∧ 1 ≤ c.nObs

/-- NO_FAULT. -/
abbrev NoFault (s : State) : Prop := s.faulted = false ∧ s.tokens = [] ∧ s.bound = false

/-- ROOT_TABLE. -/
abbrev RootTable (c : Config) : Prop := aligned c.rootPa .k4 = true ∧ c.rootPa.toNat + 4096 ≤ 2 ^ c.paBits

/-- The descriptor in the root's slot `r`. -/
def rootSlot (s : State) (r : BitVec 9) : Word := s.mem.read64 (s.config.rootPa.toNat + 8 * r.toNat)

/-- RECURSIVE_SLOT(r): VALID, TOP = 1 and address ROOT_PA. -/
abbrev RecursiveSlot (s : State) (r : BitVec 9) : Prop :=
  isValid (rootSlot s r) = true ∧ isTop (rootSlot s r) = true ∧ pteAddr (rootSlot s r) = s.config.rootPa

/-- `t` is the address of a table of level `l` reachable from the root, other than through the recursive slot `r`. -/
inductive TableAt (s : State) (r : BitVec 9) : Level → Nat → Prop where
  | root : TableAt s r .l4 s.config.rootPa.toNat
  | link (l : Level) (t : Nat) (i : BitVec 9) :
      TableAt s r l t → l ≠ .l1 → (l = .l4 → i ≠ r) → isValid (s.mem.read64 (t + 8 * i.toNat)) = true →
      isTop (s.mem.read64 (t + 8 * i.toNat)) = true →
      TableAt s r (levelBelow l) (pteAddr (s.mem.read64 (t + 8 * i.toNat))).toNat

/-- An entry of a reachable table that R213 allows: 0, a VALID table-or-page descriptor, or a VALID block at level 3 or 2. -/
def EntryLegal (l : Level) (e : Word) : Prop :=
  e = 0 ∨ (isValid e = true ∧ isTop e = true) ∨ (isValid e = true ∧ isTop e = false ∧ (l = .l3 ∨ l = .l2))

/-- `f` is the address of some descriptor in use, other than the one at `t + 8 * i`: "the target of any other descriptor" (R213).
DEDUCED (log 26): a descriptor's target is the address it holds, so a block whose bytes hold `f` without beginning there does not
count. -/
def TargetElsewhere (s : State) (r : BitVec 9) (f : Word) (t : Nat) (i : BitVec 9) : Prop :=
  ∃ l' t' i', TableAt s r l' t' ∧ (t', i') ≠ (t, i) ∧ isValid (s.mem.read64 (t' + 8 * i'.toNat)) = true ∧
    pteAddr (s.mem.read64 (t' + 8 * i'.toNat)) = f

/-- TREE_SHAPED. -/
def TreeShaped (s : State) (r : BitVec 9) : Prop :=
  ∀ l t (i : BitVec 9), TableAt s r l t →
    EntryLegal l (s.mem.read64 (t + 8 * i.toNat)) ∧
    (l ≠ .l1 → (l = .l4 → i ≠ r) → isValid (s.mem.read64 (t + 8 * i.toNat)) = true →
      isTop (s.mem.read64 (t + 8 * i.toNat)) = true →
      pteAddr (s.mem.read64 (t + 8 * i.toNat)) ≠ s.config.rootPa ∧
      ¬ TargetElsewhere s r (pteAddr (s.mem.read64 (t + 8 * i.toNat))) t i)

/-- CLEAN_TLB. -/
abbrev CleanTlb (s : State) : Prop := s.tlb = []

/-- A descriptor of the chains RECURSIVE_ACCESSIBLE speaks of: the recursive slot, a DEFAULT_TABLE_FLAGS table descriptor,
or a table descriptor of a reachable table. -/
def RecursiveChainEntry (s : State) (r : BitVec 9) (d : Word) : Prop :=
  d = rootSlot s r ∨ (∃ f, tableLink s.config f = .ok d) ∨
    ∃ l t, ∃ i : BitVec 9, TableAt s r l t ∧ l ≠ .l1 ∧ d = s.mem.read64 (t + 8 * i.toNat) ∧ isValid d = true ∧ isTop d = true

/-- RECURSIVE_ACCESSIBLE. -/
def RecursiveAccessible (s : State) (r : BitVec 9) : Prop :=
  ∀ kind chain, (∀ d ∈ chain, RecursiveChainEntry s r d) → permOk s.config kind chain = true

/-- The bytes a VALID descriptor of level `l` maps or links: a table or page for TOP = 1, a block of the level's size for
TOP = 0. -/
def targetBytes (l : Level) (e : Word) : Nat := if isTop e then 4096 else ((blockSize l).map sizeBytes).getD 4096

/-- The byte ranges of `n` bytes at `a` and `m` bytes at `b` share no byte. -/
abbrev Apart (a n b m : Nat) : Prop := a + n ≤ b ∨ b + m ≤ a

/-- The `n` bytes at `f` are in no reachable table, and in no page or block that a reachable descriptor maps. DEDUCED (log 26): a
mapping is a VALID descriptor, so a malformed leaf, which maps nothing, does not hold its frame in use. -/
def Unused (s : State) (r : BitVec 9) (f : Word) (n : Nat) : Prop :=
  (∀ l t, TableAt s r l t → Apart f.toNat n t 4096) ∧
    ∀ l t (i : BitVec 9), TableAt s r l t → isValid (s.mem.read64 (t + 8 * i.toNat)) = true →
      Apart f.toNat n (pteAddr (s.mem.read64 (t + 8 * i.toNat))).toNat (targetBytes l (s.mem.read64 (t + 8 * i.toNat)))

/-- The events a command has recorded on its way from `s` to `t`, newest first. -/
def newEvents (s t : State) : List Event := t.ev.take (t.ev.length - s.ev.length)

/-- PMEM after these events, newest first, from the contents `m` (spec/10_state.md R25, R30): the writes among them, in order. -/
def memAfter (m : Memory) : List Event → Memory
  | [] => m
  | e :: before =>
    match e.act with
    | .memWrite _ pa v => (memAfter m before).write64 pa v
    | .physWrite pa v => (memAfter m before).write64 pa v
    | .physRead _ _ | .memRead _ _ _ | .alloc _ | .barrier | .tlbiAllIS | .isb | .tokenCreate _ | .tokenDischarge _ _ =>
      memAfter m before

/-- The frames answered among these events, newest first, each with the events that came before its answer. -/
def framesAnswered : List Event → List (Word × List Event)
  | [] => []
  | e :: before =>
    match e.act with
    | .alloc (some f) => (f, before) :: framesAnswered before
    | .alloc none | .physRead _ _ | .physWrite _ _ | .memRead _ _ _ | .memWrite _ _ _ | .barrier | .tlbiAllIS | .isb
    | .tokenCreate _ | .tokenDischarge _ _ => framesAnswered before

/-- The state as it stood inside a command that began in `s`, once these events of it had happened. -/
def stateAfter (s : State) (before : List Event) : State := { s with mem := memAfter s.mem before, ev := before ++ s.ev }

/-- The command's FRAME is to be mapped by an S-page (spec/41_mapper_ops.md R119, R124). -/
def mapsFrame : Instr → Option PageSize
  | .mapMapTo sz => some sz
  | .mapIdentityMap sz => some sz
  | .pteIsUnused | .pteSetUnused | .pteFlags | .pteAddr | .pteAttr | .pteIsBlock | .pteFrame | .pteSetFrame
  | .pteSetBlock _ | .pteSetFlags | .pteSetAttr | .mapGetEntry _ | .mapGetEntryMut _ | .mapUnmap _ | .mapUpdateFlags _
  | .mapTranslatePage _ | .mapTranslate | .mapTranslateAddr | .rptBind | .rptTableVa | .rptCreateNextTable | .tokFlush
  | .tokIgnore | .attrLookup => none

/-- ALLOC_TRUST, for the command `i` presented in `s`: every frame the allocator returns to it, at the moment it returns it, is in
no table and no mapping, and below 2^PA_BITS. It is in no "outstanding object" either, which the spec does not define and the model
reads as two things (DEDUCED, log 8): no earlier answer of the run was the same frame, since "ownership of a frame returned by it
transfers" and the block frees no table (R223), and no byte of it is in the FRAME that the command is about to map. -/
def AllocTrust (s : State) (i : Instr) (r : BitVec 9) : Prop :=
  ∀ t, exec i s = .next t → ∀ x ∈ framesAnswered (newEvents s t),
    Unused (stateAfter s x.2) r x.1 4096 ∧ x.1.toNat < 2 ^ s.config.paBits ∧
      x.1 ∉ (framesAnswered (stateAfter s x.2).ev).map Prod.fst ∧
      ∀ sz, mapsFrame i = some sz → Apart x.1.toNat 4096 s.inp.frame.toNat (sizeBytes sz)

/-- FRAME_EXCLUSIVE, for the command `i` presented in `s`: no byte of the FRAME it maps is in a table or another mapping, and none
is in a frame that the allocator has returned earlier in the run or returns to this command (spec/41_mapper_ops.md R125). DEDUCED
(log 26): a mapping of FRAME that stands already is another one, at the page of the command too, so a repeated map_to, which
answers PageAlreadyMapped, breaks the premise. -/
def FrameExclusive (s : State) (i : Instr) (r : BitVec 9) : Prop :=
  ∀ sz, mapsFrame i = some sz → Unused s r s.inp.frame (sizeBytes sz) ∧
    ∀ t, exec i s = .next t → ∀ x ∈ framesAnswered t.ev, Apart x.1.toNat 4096 s.inp.frame.toNat (sizeBytes sz)

/-- ALLOC_ZEROED (optional, R217), for the command `i` presented in `s`: every frame the allocator returns to it holds only zero
bytes at that moment. -/
def AllocZeroed (s : State) (i : Instr) : Prop :=
  ∀ t, exec i s = .next t → ∀ x ∈ framesAnswered (newEvents s t), ∀ k, k < 4096 →
    (stateAfter s x.2).mem.read (x.1.toNat + k) = 0

/-- The states that a run from `s` passes between its steps. -/
inductive Reached (s : State) : State → Prop where
  | start : Reached s s
  | step (t u : State) : Reached s t → step t = .next u → Reached s u

/-- A run from `s` presents the command `i` in the state `c`. -/
def Presented (s : State) (i : Instr) (c : State) : Prop :=
  ∃ t p rest, Reached s t ∧ (turn t).script = p :: rest ∧ decode p.cmd = .ok i ∧ c = present p rest (turn t)

/-- The launch premises of R213 for a run from the launch `s` whose caller binds the slot `r`: those of the launch, and those of
the run at every command it presents. The other five have nothing in the model that could break them (log 20). -/
structure LaunchPremises (s : State) (r : BitVec 9) : Prop where
  noFault : NoFault s
  rootTable : RootTable s.config
  recursiveSlot : RecursiveSlot s r
  treeShaped : TreeShaped s r
  cleanTlb : CleanTlb s
  recursiveAccessible : RecursiveAccessible s r
  allocTrust : ∀ i c, Presented s i c → AllocTrust c i r
  frameExclusive : ∀ i c, Presented s i c → FrameExclusive c i r

/-- A fully empty launch (R215): the slot `r` is the root's only nonzero entry. -/
def FullyEmpty (s : State) (r : BitVec 9) : Prop :=
  ∀ i : BitVec 9, i ≠ r → s.mem.read64 (s.config.rootPa.toNat + 8 * i.toNat) = 0

/-- A run ends clean (R221), with no command left to present. -/
abbrev EndsClean (s : State) : Prop :=
  s.script = [] ∧ s.busy = false ∧ s.faulted = false ∧ s.refused = false ∧ s.tokens = []

/-! ## How a command ends, field by field -/

/-- The state after a command that completes without any event: STATUS = OK and the results on the output ports. -/
def afterOk (results : OutPorts) (s : State) : State :=
  { s with out := { results with status := some 0x00 }, refusal := none, busy := false, pos := s.pos + 1 }

/-- The state after a typed error without any event: STATUS and no other port. -/
def afterError (code : BitVec 8) (s : State) : State :=
  { s with out := { status := some code }, refusal := none, busy := false, pos := s.pos + 1 }

/-- The state after a fault of the block without any event. -/
def afterFault (r : FaultReason) (s : State) : State :=
  { s with faulted := true, faultReason := some r, out := {}, refusal := none, busy := false, pos := s.pos + 1 }

/-- The state after a refusal. -/
def afterRefusal (r : RefuseReason) (s : State) : State :=
  { s with refused := true, refusal := some r, out := {}, pos := s.pos + 1 }

/-- The control registers, the launch data and the caller's sequence are unchanged, and the position has advanced. -/
abbrev RegistersKept (s t : State) : Prop :=
  t.config = s.config ∧ t.inp = s.inp ∧ t.bound = s.bound ∧ t.ridxReg = s.ridxReg ∧ t.faulted = s.faulted ∧
    t.faultReason = s.faultReason ∧ t.launchMem = s.launchMem ∧ t.script = s.script ∧ t.pos = s.pos + 1

/-- Every byte of PMEM and every write history is unchanged. -/
abbrev MemoryKept (s t : State) : Prop := (∀ a, t.mem.read a = s.mem.read a) ∧ t.writes = s.writes

/-- TOKENS and NEXT_TOKEN are unchanged. -/
abbrev TokensKept (s t : State) : Prop := t.tokens = s.tokens ∧ t.nextToken = s.nextToken

/-- The allocator has not been called. -/
abbrev AllocatorKept (s t : State) : Prop := t.answers = s.answers ∧ t.allocCalls = s.allocCalls

/-- The descriptor at `pa` holds `v`, written last and unpublished, and every byte outside it is unchanged. -/
abbrev OnlyStored (s t : State) (pa : Nat) (v : Word) : Prop :=
  t.mem.read64 pa = v ∧ (∀ x, (x < pa ∨ pa + 8 ≤ x) → t.mem.read x = s.mem.read x) ∧
    t.writes = { pa := pa, val := v, published := false } :: s.writes

/-- The token (NEXT_TOKEN, align_down(P, S), S) has been created (spec/43_flush_token.md R165). -/
abbrev TokenCreated (s t : State) (page : Word) (sz : PageSize) : Prop :=
  t.tokens = { id := s.nextToken, page := alignDown page sz, size := sz } :: s.tokens ∧ t.nextToken = s.nextToken + 1

/-- A leaf that an S-mapping produces: a page for 4KiB, a block for 2MiB and 1GiB (spec/41_mapper_ops.md R119), S-aligned. -/
abbrev MatchingLeaf (sz : PageSize) (e : Word) : Prop :=
  isValid e = true ∧ isTop e = (sz == .k4) ∧ aligned (pteAddr e) sz = true

/-- The command returns the typed error with this code and leaves everything else (R187, R188). -/
def FailsWith (i : Instr) (s : State) (code : BitVec 8) : Prop :=
  ∃ t, exec i s = .next t ∧ t.out = { status := some code } ∧ RegistersKept s t ∧ MemoryKept s t ∧ TokensKept s t ∧
    AllocatorKept s t

/-- The command raises this fault of the block before it has written anything (R190, R192). -/
def StopsBlock (i : Instr) (s : State) (r : FaultReason) : Prop :=
  ∃ t, exec i s = .next t ∧ t.faulted = true ∧ t.faultReason = some r ∧ t.out = {} ∧ MemoryKept s t ∧ TokensKept s t ∧
    AllocatorKept s t ∧ t.bound = s.bound ∧ t.ridxReg = s.ridxReg

/-- The descriptor at `pa` is apart from everything the engine reads to look up the S-leaf of `p`: the descriptors of the
walks to the entries on the path and the entries above the leaf. -/
def PathApart (s : State) (sz : PageSize) (p : Word) (pa : Nat) : Prop :=
  (∀ l ∈ leafLevel sz :: nonLeafLevels sz, ∀ kind, ∀ a ∈ (walkNow s kind (entryVaOf s l p)).2, a + 8 ≤ pa ∨ pa + 8 ≤ a) ∧
    ∀ l ∈ nonLeafLevels sz, ∀ a, reach s .read (entryVaOf s l p) = some a → a + 8 ≤ pa ∨ pa + 8 ≤ a

/-- The physical address of the level-L table on P's path, where the entries above it are VALID table descriptors. -/
def tableBase (s : State) (p : Word) : Level → Option Word
  | .l4 => some s.config.rootPa
  | .l3 => below s.config.rootPa .l4
  | .l2 => (below s.config.rootPa .l4).bind fun t => below t .l3
  | .l1 => ((below s.config.rootPa .l4).bind fun t => below t .l3).bind fun t => below t .l2
where
  /-- The table that P's entry in the table at `t`, of level `l`, links. -/
  below (t : Word) (l : Level) : Option Word :=
    if isValid (s.mem.read64 (t.toNat + 8 * (idx l p).toNat)) && isTop (s.mem.read64 (t.toNat + 8 * (idx l p).toNat)) then
      some (pteAddr (s.mem.read64 (t.toNat + 8 * (idx l p).toNat)))
    else none

/-- P's entry in the level-L table on its path, 0 where there is no such table. -/
def pathEntry (s : State) (p : Word) (l : Level) : Word :=
  match tableBase s p l with
  | some t => s.mem.read64 (t.toNat + 8 * (idx l p).toNat)
  | none => 0

/-- The descriptors the walk of TableVA(L, P) reads: the recursive slot once for each leading R, then P's entries from the
root down (spec/42_recursive_walk.md R149, R162). -/
def recursiveChain (s : State) (r : BitVec 9) (p : Word) : Level → List Word
  | .l4 => [rootSlot s r, rootSlot s r, rootSlot s r, rootSlot s r]
  | .l3 => [rootSlot s r, rootSlot s r, rootSlot s r, pathEntry s p .l4]
  | .l2 => [rootSlot s r, rootSlot s r, pathEntry s p .l4, pathEntry s p .l3]
  | .l1 => [rootSlot s r, pathEntry s p .l4, pathEntry s p .l3, pathEntry s p .l2]

/-- The store to a new table's entries reaches the frame `f` through `nva`, whatever the frame holds, once `link` stands at
`pa`: the frame is not among the tables its own address is resolved through (ALLOC_TRUST). -/
def ReachesFrame (s : State) (pa : Nat) (link nva f : Word) : Prop :=
  ∀ m : Memory, (∀ x, (x < f.toNat ∨ f.toNat + 4096 ≤ x) → m.read x = (s.mem.write64 pa link).read x) →
    ∀ i, i < 512 → reach { s with mem := m } .write (entryAt nva i) = some (f.toNat + 8 * i)

/-- Creating a table at an unused entry (spec/42_recursive_walk.md R155): the entry at `eva` reads 0, the allocator answers the
frame `f`, `link` is its table descriptor (R156), the entry stands at `pa`, outside the frame, and `nva` reaches the frame. -/
abbrev NewTable (s : State) (eva nva : Word) (pa : Nat) (f link : Word) : Prop :=
  readNow s eva = some 0 ∧ nextAnswer s = some f ∧ tableLink s.config f = .ok link ∧ reach s .write eva = some pa ∧
    (pa + 8 ≤ f.toNat ∨ f.toNat + 4096 ≤ pa) ∧ ReachesFrame s pa link nva f

/-- The command has raised MmuFault for `va` after `calls` Alloc() calls, with every byte and every history still as it was. -/
def FaultsAt (i : Instr) (s : State) (va : Word) (calls : Nat) : Prop :=
  ∃ t, exec i s = .next t ∧ t.faulted = true ∧ t.faultReason = some (.mmuFault va) ∧ t.out = {} ∧ MemoryKept s t ∧
    TokensKept s t ∧ t.bound = s.bound ∧ t.ridxReg = s.ridxReg ∧ t.allocCalls = s.allocCalls + calls

/-- The command has raised MmuFault for `va` after one Alloc() call and with one store made and published: `v` at `pa`. -/
def FaultsAfterStore (i : Instr) (s : State) (va : Word) (pa : Nat) (v : Word) : Prop :=
  ∃ t, exec i s = .next t ∧ t.faulted = true ∧ t.faultReason = some (.mmuFault va) ∧ t.out = {} ∧
    t.mem.read64 pa = v ∧ (∀ x, (x < pa ∨ pa + 8 ≤ x) → t.mem.read x = s.mem.read x) ∧
    t.writes = { pa := pa, val := v, published := true } :: publish s.writes ∧ TokensKept s t ∧ t.bound = s.bound ∧
    t.ridxReg = s.ridxReg ∧ t.allocCalls = s.allocCalls + 1

/-- The levels from the root down to `l`. -/
def levelsDownTo : Level → List Level
  | .l4 => [.l4]
  | .l3 => [.l4, .l3]
  | .l2 => [.l4, .l3, .l2]
  | .l1 => [.l4, .l3, .l2, .l1]

/-! ## Creating the tables of a path (spec/41_mapper_ops.md R120, spec/70_reset_and_hazards.md R224) -/

/-- The command is a mapping of the S-page `page`: MAP.MAP_TO of PAGE, or MAP.IDENTITY_MAP of FRAME. -/
abbrev Maps (s : State) (i : Instr) (sz : PageSize) (page : Word) : Prop :=
  i = .mapMapTo sz ∧ page = s.inp.page ∨ i = .mapIdentityMap sz ∧ page = s.inp.frame

/-- P's path is linked down to the level-L table, and its tables lie in PMEM and are distinct (TREE_SHAPED). -/
abbrev PathTables (s : State) (p : Word) (l : Level) : Prop :=
  (∀ l' ∈ levelsDownTo l, (tableBase s p l').any (fun t => t.toNat + 4096 ≤ 2 ^ s.config.paBits) = true) ∧
    ((levelsDownTo l).map (tableBase s p)).Nodup

/-- The frames are as R31 constrains answers, distinct, and none is a table on P's path down to level L (ALLOC_TRUST). -/
abbrev FreshFrames (s : State) (p : Word) (l : Level) (fs : List Word) : Prop :=
  fs.Nodup ∧ fs.all (fun f => aligned f .k4 && decide (f.toNat + 4096 ≤ 2 ^ s.config.paBits) &&
    !((levelsDownTo l).map (tableBase s p)).contains (some f)) = true

/-- From the table at `base` down, each level's entry on P's path links the next of the frames, every other entry of each frame
is 0, and the entry on P's path in the last table is `e`. -/
def LinkedDown (c : Config) (m : Memory) (p e : Word) (base : Word) : Level → List Word → Prop
  | l, [] => m.read64 (base.toNat + 8 * (idx l p).toNat) = e
  | l, f :: fs =>
    tableLink c f = .ok (m.read64 (base.toNat + 8 * (idx l p).toNat)) ∧
      (∀ i : BitVec 9, i ≠ idx (levelBelow l) p → m.read64 (f.toNat + 8 * i.toNat) = 0) ∧
      LinkedDown c m p e f (levelBelow l) fs

/-- P's path is linked down to the table at `base`, of level L above the S-leaf, whose entry on the path is unused, and the
allocator's coming answers are these frames and then `rest`. -/
abbrev UnusedAt (s : State) (sz : PageSize) (p : Word) (l : Level) (base : Word) (fs : List Word)
    (rest : List (Option Word)) : Prop :=
  ConfigLawful s.config ∧ RootTable s.config ∧ RecursiveSlot s s.ridxReg ∧ l ∈ nonLeafLevels sz ∧
    PathTables s p l ∧ tableBase s p l = some base ∧
    s.mem.read64 (base.toNat + 8 * (idx l p).toNat) = 0 ∧ FreshFrames s p l fs ∧ s.answers = fs.map some ++ rest

/-- How many tables an S-mapping creates when the first unused entry on its path is at level L. -/
def missingTables (sz : PageSize) (l : Level) : Nat := ((nonLeafLevels sz).dropWhile (fun l' => l' != l)).length

/-- The tables at `fs` have been created below the entry at `base`, with `e` the entry on P's path in the last of them; every byte
outside that entry and the frames is unchanged. -/
def TablesCreated (s t : State) (p : Word) (l : Level) (base : Word) (fs : List Word) (e : Word) : Prop :=
  LinkedDown s.config t.mem p e base l fs ∧
    ∀ x, (x < base.toNat + 8 * (idx l p).toNat ∨ base.toNat + 8 * (idx l p).toNat + 8 ≤ x) →
      (∀ f ∈ fs, x < f.toNat ∨ f.toNat + 4096 ≤ x) → t.mem.read x = s.mem.read x

/-! ## Invariants -/

/-- PMEM and its launch contents are in canonical form. -/
abbrev MemoryCanonical (s : State) : Prop := s.mem.wf = true ∧ s.launchMem.wf = true

/-- "The value of PMEM at `a` is the last value in HIST(a)" (spec/10_state.md R26), and every engine write is to an 8-aligned
address (spec/20_memory.md R50). -/
def HistoryAgrees (s : State) : Prop :=
  (∀ w ∈ s.writes, w.pa % 8 = 0) ∧ ∀ a, a % 8 = 0 → (histOf s a).head?.map Prod.fst = some (s.mem.read64 a)

/-- No two outstanding tokens share an identifier (spec/43_flush_token.md R165). -/
abbrev TokensDistinct (s : State) : Prop := (s.tokens.map Token.id).Nodup

/-- FAULT_REASON is written with FAULTED (spec/10_state.md R23), and a block that has stopped holds no output value
(spec/60_exceptions.md R190). -/
abbrev FaultStateLegal (s : State) : Prop :=
  s.faulted = s.faultReason.isSome ∧ (s.faulted = true → s.out = {})

/-- The numeric codes that STATUS can hold (spec/60_exceptions.md R185), and the rule that an error writes no other port
(R187). -/
abbrev OutputsLegal (s : State) : Prop :=
  (∀ c, s.out.status = some c → c.toNat ≤ 7 ∧ (c ≠ 0 → s.out = { status := some c })) ∧
    (s.out.status = none → s.out = {})

/-- Every cached translation is an observer's, of an S-page (spec/10_state.md R28). -/
abbrev TlbLegal (s : State) : Prop :=
  ∀ e ∈ s.tlb, e.obs < s.config.nObs ∧ aligned e.vaPage e.size = true ∧ aligned e.paPage e.size = true ∧
    va48 e.vaPage = e.vaPage

end Sys2Proof.Machine
end

