-- ==== Sys2Proof/Certificates/Slice0/Obligations.lean ====
section
/-! DEFINITION. The statements for the provers, from the numbered rules of spec/. A state quantified over is any state, whatever the
launch parameters it holds; `slots` holds the other agents' moves, so a statement about every state holds however the
observers move between the command's events. A refusal's and a fault's next state follow logs 1 and 18, and the position
`pos` plays the role of a pc (spec/10_state.md R34). -/

open Sys2Proof Sys2Proof.Machine

/-! ## Encoding (spec/30_encoding.md) -/

/-- Words written out from the opcode map of R84 decode to the commands it names.
Rests on the spec's own decisions D2, D40 of spec/92_eei_decisions.md. -/
def Obligations.SampleWordsDecode : Prop :=
  decode 0x00000001 = .ok .pteIsUnused ∧ decode 0x00000209 = .ok (.pteSetBlock .g1) ∧
    decode 0x00000010 = .ok (.mapMapTo .k4) ∧ decode 0x00000114 = .ok (.mapUnmap .m2) ∧
    decode 0x00000216 = .ok (.mapTranslatePage .g1) ∧ decode 0x00000018 = .ok .mapTranslateAddr ∧
    decode 0x00000022 = .ok .rptCreateNextTable ∧ decode 0x00000030 = .ok .tokFlush ∧
    decode 0x00000040 = .ok .attrLookup ∧ (decode 0x00000009).toOption = none ∧ (decode 0x00000310).toOption = none ∧
    (decode 0x00000101).toOption = none ∧ (decode 0x00000410).toOption = none ∧ (decode 0x00000019).toOption = none

/-- Decode and encode agree: every word that decodes is the encoding of the well-formed command it decodes to, and every
well-formed command's encoding decodes to it (R82, R83, R84, R85, R87).
Rests on the spec's own decisions D2, D40 of spec/92_eei_decisions.md. -/
def Obligations.DecodeInvertsEncode : Prop :=
  ∀ (w : BitVec 32) (i : Instr), decode w = .ok i ↔ i.wf = true ∧ encode i = w

/-- A word that is none of R84's commands is refused as IllegalCommand and is not performed, and every word of R84 decodes to
a command (R82, R85, R86).
Rests on the spec's own decisions D2, D7, D40 of spec/92_eei_decisions.md.
Rests on the model's log 1, log 18. -/
def Obligations.IllegalWordsRefused : Prop :=
  (∀ w : BitVec 32, LegalWord w ↔ ∃ i, decode w = .ok i) ∧
    ∀ (s : State) (p : InPorts) (rest : List InPorts), s.script = p :: rest → Ready s → ¬ LegalWord p.cmd →
      step s = .next (afterRefusal .illegalCommand (present p rest (turn s)))

/-- A step runs the decoded command. One step is a gap for the other agents, which touches nothing the engine reads, and then
exec of the command whose word the caller presents, with its operands on the input ports; with nothing presented the
block is idle (spec/10_state.md R34, R39; spec/60_exceptions.md R206).
Rests on the spec's own decisions D30 of spec/92_eei_decisions.md.
Rests on the model's log 2, log 10. -/
def Obligations.StepRunsPresentedCommand : Prop :=
  (∀ (s : State) (p : InPorts) (rest : List InPorts) (i : Instr), s.script = p :: rest → decode p.cmd = .ok i →
      step s = exec i { turn s with inp := p, script := rest }) ∧
    (∀ s : State, s.script = [] → step s = .next (turn s)) ∧
    (∀ s : State, coreOf (turn s) = coreOf s ∧ (turn s).ev = s.ev) ∧
    ∀ (s : State) (w : Nat) (i : Instr), decodeTableWord 32 w = some i →
      step (s.withFetchWord 32 w) =
        exec i { turn (s.withFetchWord 32 w) with inp := { s.inp with cmd := BitVec.ofNat 32 w }, script := s.script }

/-- A line of the textual form assembles to the command's word and the named port values (R89).
Rests on the spec's own decisions D31 of spec/92_eei_decisions.md.
Rests on the model's log 4. -/
def Obligations.AssemblyLines : Prop :=
  flagSum ["VALID", "TOP", "AF"] = some 0x403 ∧ flagSum ["VALID", "AF", "PXN", "XN"] = some 0x0060000000000401 ∧
    flagSum ["AP6", "AP7", "NG", "DBM", "CONT", "SW0", "SW3", "TBL0", "TBL4"] = some 0x8C980000000008C0 ∧
    assemble (.mapMapTo .k4) [.page 0x1000, .frame 0x2000, .flags 0x403, .attr 0x304] =
      { InPorts.zero with cmd := 0x10, page := 0x1000, frame := 0x2000, flags := 0x403, attr := 0x304 } ∧
    ∀ (i : Instr) (args : List PortArg), (assemble i args).cmd = encode i

/-! ## The codec (spec/40_pte_codec.md) -/

/-- PTE.IS_UNUSED, PTE.SET_UNUSED, PTE.FLAGS, PTE.ADDR, PTE.ATTR and PTE.IS_BLOCK: their words, their results on the output
ports, STATUS = OK, and nothing else changed (R95, R96, R97, R98, R99, R101).
Rests on the spec's own decisions D5, D7 of spec/92_eei_decisions.md and inferences of R73, R101. -/
def Obligations.PteAccessorsAnswer : Prop :=
  (encode .pteIsUnused = 0x01 ∧ encode .pteSetUnused = 0x02 ∧ encode .pteFlags = 0x03 ∧ encode .pteAddr = 0x04 ∧
    encode .pteAttr = 0x05 ∧ encode .pteIsBlock = 0x06) ∧
  ∀ s : State, Ready s →
    exec .pteIsUnused s = .next (afterOk { bool := some (s.inp.e == 0) } s) ∧
    exec .pteSetUnused s = .next (afterOk { eOut := some 0 } s) ∧
    exec .pteFlags s = .next (afterOk { val := some (s.inp.e &&& 0xFFF8000000000CC3) } s) ∧
    exec .pteAddr s = .next (afterOk { val := some (s.inp.e &&& 0x0000FFFFFFFFF000) } s) ∧
    exec .pteAttr s = .next (afterOk { val := some (s.inp.e &&& 0x000000000000031C) } s) ∧
    exec .pteIsBlock s = .next (afterOk { bool := some (!s.inp.e.getLsbD 1) } s)

/-- PTE.FRAME: VALID is tested first, then TOP; else the address is returned (R102). The kinds of R71 decide the answer. -/
def Obligations.PteFrameAnswers : Prop :=
  encode .pteFrame = 0x07 ∧
  (∀ s : State, Ready s → exec .pteFrame s =
    if s.inp.e.getLsbD 0 = false then .next (afterError 0x02 s)
    else if s.inp.e.getLsbD 1 = false then .next (afterError 0x04 s)
    else .next (afterOk { val := some (s.inp.e &&& 0x0000FFFFFFFFF000) } s)) ∧
  ∀ e : Word, Machine.pteFrame e =
    match entryKind e with
    | .unused => .error .frameNotPresent
    | .malformed => .error .frameNotPresent
    | .block => .error .hugeFrame
    | .tableOrPage => .ok (pteAddr e)

/-- PTE.SET_FRAME: the refusals in their order, the contract violation, else the encoded descriptor (R103, R104).
Rests on the spec's own decisions D6, D7, D8 of spec/92_eei_decisions.md.
Rests on the model's log 1, log 18. -/
def Obligations.PteSetFrameAnswers : Prop :=
  encode .pteSetFrame = 0x08 ∧ ∀ s : State, Ready s → exec .pteSetFrame s =
    if ¬ (FlagsOk s.inp.flags ∧ AttrOk s.inp.attr) then .next (afterRefusal .operandRange s)
    else if 2 ^ s.config.paBits ≤ s.inp.frame.toNat then .next (afterRefusal .addressWidth s)
    else if s.inp.frame.toNat % 4096 ≠ 0 then .next (afterRefusal .misaligned s)
    else if s.inp.flags.getLsbD 1 = false then .next (afterFault (.contractViolation .setFrameWithoutTop) s)
    else .next (afterOk
      { eOut := some ((s.inp.frame &&& 0x0000FFFFFFFFF000) ||| s.inp.flags ||| s.inp.attr) } s)

/-- PTE.SET_BLOCK.2M and .1G: the refusals in their order, the contract violation, else the encoded descriptor with the
address truncated to the block size; the 4KiB tag is refused (R105, R106).
Rests on the spec's own decisions D7, D8, D40 of spec/92_eei_decisions.md.
Rests on the model's log 1, log 18, log 22. -/
def Obligations.PteSetBlockAnswers : Prop :=
  encode (.pteSetBlock .m2) = 0x109 ∧ encode (.pteSetBlock .g1) = 0x209 ∧
  (∀ s : State, Ready s → exec (.pteSetBlock .k4) s = .next (afterRefusal .illegalCommand s)) ∧
  ∀ (s : State) (sz : PageSize), sz ≠ .k4 → Ready s → exec (.pteSetBlock sz) s =
    if ¬ (FlagsOk s.inp.flags ∧ AttrOk s.inp.attr) then .next (afterRefusal .operandRange s)
    else if 2 ^ s.config.paBits ≤ s.inp.addr.toNat then .next (afterRefusal .addressWidth s)
    else if s.inp.flags.getLsbD 1 = true then .next (afterFault (.contractViolation .setBlockWithTop) s)
    else .next (afterOk
      { eOut := some ((s.inp.addr &&& ~~~(BitVec.ofNat 64 (sizeBytes sz - 1)) &&& 0x0000FFFFFFFFF000) |||
          s.inp.flags ||| s.inp.attr) } s)

/-- PTE.SET_FLAGS and PTE.SET_ATTR: an operand outside its mask is refused, else only its bit range is replaced (R107, R108).
Rests on the spec's own decisions D6, D7 of spec/92_eei_decisions.md.
Rests on the model's log 1, log 18. -/
def Obligations.PteFieldSettersAnswer : Prop :=
  encode .pteSetFlags = 0x0A ∧ encode .pteSetAttr = 0x0B ∧ ∀ s : State, Ready s →
    (exec .pteSetFlags s =
      if s.inp.flags &&& ~~~0xFFF8000000000CC3 ≠ 0 then .next (afterRefusal .operandRange s)
      else .next (afterOk { eOut := some ((s.inp.e &&& ~~~0xFFF8000000000CC3) ||| s.inp.flags) } s)) ∧
    (exec .pteSetAttr s =
      if s.inp.attr &&& ~~~0x000000000000031C ≠ 0 then .next (afterRefusal .operandRange s)
      else .next (afterOk { eOut := some ((s.inp.e &&& ~~~0x000000000000031C) ||| s.inp.attr) } s))

/-- The codec's round trips: a setter's field reads back, the other fields keep their values, and the two leaf setters keep
the address (R109); the reserved bits are preserved by the field setters and zero in a built entry (R75).
Rests on the spec's own decisions D6 of spec/92_eei_decisions.md and inferences of R109. -/
def Obligations.CodecRoundTrips : Prop :=
  (∀ e f a : Word, FlagsOk f → AttrOk a →
    pteFlags (setFlags e f) = f ∧ pteAttr (setAttr e a) = a ∧ pteAttr (setFlags e f) = pteAttr e ∧
    pteFlags (setAttr e a) = pteFlags e ∧ pteAddr (setFlags e f) = pteAddr e ∧ pteAddr (setAttr e a) = pteAddr e ∧
    setFlags e f &&& rsvdMask = e &&& rsvdMask ∧ setAttr e a &&& rsvdMask = e &&& rsvdMask) ∧
  (∀ F x a v : Word, FlagsOk x → AttrOk a → F.toNat < 2 ^ 48 → aligned F .k4 = true → setFrame F x a = .ok v →
    pteAddr v = F ∧ pteFlags v = x ∧ Machine.pteAttr v = a ∧ v &&& rsvdMask = 0) ∧
  ∀ (A x a v : Word) (sz : PageSize), FlagsOk x → AttrOk a → A.toNat < 2 ^ 48 → setBlock A sz x a = .ok v →
    pteAddr v = alignDown A sz ∧ pteFlags v = x ∧ Machine.pteAttr v = a ∧ v &&& rsvdMask = 0

/-- The fields partition a descriptor: the accessors' values are pairwise disjoint, their OR is the entry without its reserved
bits, and with those bits it is the entry (R76, R100).
Rests on the spec's own inferences of R76, R100. -/
def Obligations.FieldsPartition : Prop :=
  (addrMask &&& attrMask = 0 ∧ addrMask &&& flagsMask = 0 ∧ addrMask &&& rsvdMask = 0 ∧ attrMask &&& flagsMask = 0 ∧
    attrMask &&& rsvdMask = 0 ∧ flagsMask &&& rsvdMask = 0 ∧
    addrMask ||| attrMask ||| flagsMask ||| rsvdMask = 0xFFFFFFFFFFFFFFFF) ∧
  ∀ e : Word, pteFlags e &&& pteAddr e = 0 ∧ pteFlags e &&& pteAttr e = 0 ∧ pteAddr e &&& pteAttr e = 0 ∧
    pteFlags e ||| pteAddr e ||| pteAttr e = e &&& ~~~rsvdMask ∧
    e = pteAddr e ||| pteAttr e ||| pteFlags e ||| (e &&& rsvdMask)

/-! ## Memory attributes (spec/44_memory_attributes.md) -/

/-- ATTR.LOOKUP: KIND = 3 is refused, else the kind's index and attribute bits are returned, a subset of ATTR_MASK (R175, R176).
Rests on the spec's own decisions D2 of spec/92_eei_decisions.md and inferences of R176.
Rests on the model's log 1, log 18. -/
def Obligations.AttrLookupAnswers : Prop :=
  encode .attrLookup = 0x40 ∧
  (∀ s : State, Ready s → exec .attrLookup s =
    if s.inp.kind = 0 then .next (afterOk
      { idxOut := some s.config.mairNormal
        val := some ((s.config.mairNormal.setWidth 64 <<< 2) ||| (s.config.shNormal.setWidth 64 <<< 8)) } s)
    else if s.inp.kind = 1 then .next (afterOk
      { idxOut := some s.config.mairDevice
        val := some ((s.config.mairDevice.setWidth 64 <<< 2) ||| (s.config.shDevice.setWidth 64 <<< 8)) } s)
    else if s.inp.kind = 2 then .next (afterOk
      { idxOut := some s.config.mairNormalNc
        val := some ((s.config.mairNormalNc.setWidth 64 <<< 2) ||| (s.config.shNormalNc.setWidth 64 <<< 8)) } s)
    else .next (afterRefusal .illegalCommand s)) ∧
  ∀ (c : Config) (k : MemKind), AttrOk (attrBits c k)

/-! ## Recursive addressing and binding (spec/42_recursive_walk.md) -/

/-- RPT.TABLE_VA: LEVEL outside 1..4 is refused, then an unbound block; else TableVA(LEVEL, PAGE) is returned (R146, R147).
Rests on the spec's own decisions D7 of spec/92_eei_decisions.md and inferences of R146.
Rests on the model's log 1, log 18. -/
def Obligations.TableVaAnswers : Prop :=
  encode .rptTableVa = 0x21 ∧ ∀ s : State, Ready s → exec .rptTableVa s =
    if s.inp.level = 0 ∨ 4 < s.inp.level.toNat then .next (afterRefusal .illegalCommand s)
    else if s.bound = false then .next (afterRefusal .notBound s)
    else .next (afterOk
      { vaOut := some (canon s.config.vaCanon
          (if s.inp.level = 4 then va4 s.ridxReg s.ridxReg s.ridxReg s.ridxReg
           else if s.inp.level = 3 then va4 s.ridxReg s.ridxReg s.ridxReg (s.inp.page.extractLsb' 39 9)
           else if s.inp.level = 2 then
             va4 s.ridxReg s.ridxReg (s.inp.page.extractLsb' 39 9) (s.inp.page.extractLsb' 30 9)
           else va4 s.ridxReg (s.inp.page.extractLsb' 39 9) (s.inp.page.extractLsb' 30 9)
             (s.inp.page.extractLsb' 21 9))) } s)

/-- The closed forms of TableVA with R = 511 and VA_CANON = ZERO, and the level-1 descriptor's address for P = 0x1000 (R148).
Rests on the spec's own inferences of R148. -/
def Obligations.TableVaClosedForms : Prop :=
  (∀ p : Word,
    tableVa .zero 511 .l4 p = 0xFFFFFFFFF000 ∧
    tableVa .zero 511 .l3 p = 0xFFFFFFE00000 + (p.extractLsb' 39 9).setWidth 64 * 0x1000 ∧
    tableVa .zero 511 .l2 p =
      0xFFFFC0000000 + (p.extractLsb' 39 9).setWidth 64 * 0x200000 + (p.extractLsb' 30 9).setWidth 64 * 0x1000 ∧
    tableVa .zero 511 .l1 p =
      0xFF8000000000 + (p.extractLsb' 39 9).setWidth 64 * 0x40000000 + (p.extractLsb' 30 9).setWidth 64 * 0x200000 +
        (p.extractLsb' 21 9).setWidth 64 * 0x1000) ∧
  ((0x1000 : Word).extractLsb' 39 9 = 0 ∧ (0x1000 : Word).extractLsb' 30 9 = 0 ∧ (0x1000 : Word).extractLsb' 21 9 = 0 ∧
    (0x1000 : Word).extractLsb' 12 9 = 1 ∧ entryVa .zero 511 .l1 0x1000 = 0xFF8000000000 + 8)

/-- RPT.BIND: the slot is read once; if it holds a VALID table-or-page descriptor of the root the block is bound with RIDX,
else it faults with NotRecursivelyMapped. Nothing else changes (R160, R145).
Rests on the spec's own decisions D20 of spec/92_eei_decisions.md.
Rests on the model's log 1, log 23, log 24. -/
def Obligations.BindAnswers : Prop :=
  encode .rptBind = 0x20 ∧ ∀ (s : State), Ready s → RootTable s.config →
    (RecursiveSlot s s.inp.ridx → ∃ t, exec .rptBind s = .next t ∧ t.bound = true ∧ t.ridxReg = s.inp.ridx ∧
      t.out = { status := some 0x00 } ∧ t.faulted = false ∧ t.faultReason = s.faultReason ∧ t.config = s.config ∧
      t.inp = s.inp ∧ MemoryKept s t ∧ TokensKept s t ∧ AllocatorKept s t ∧ t.pos = s.pos + 1 ∧
      t.ev = { pos := s.pos, cmd := s.inp.cmd,
               act := .physRead (s.config.rootPa.toNat + 8 * s.inp.ridx.toNat) (rootSlot s s.inp.ridx) } :: s.ev) ∧
    (¬ RecursiveSlot s s.inp.ridx → StopsBlock .rptBind s .notRecursivelyMapped)

/-- The resolution law: through a recursive slot, the walk of TableVA(L, P) gives the physical base of the level-L table on
P's path, and the walk of its entry i gives that table's entry i (R149, R162, R80).
Rests on the spec's own decisions D12 of spec/92_eei_decisions.md and inferences of R149, R162. -/
def Obligations.RecursiveAddressesResolve : Prop :=
  ∀ (s : State) (kind : Access) (p : Word) (l : Level) (base : Word),
    RootTable s.config → RecursiveSlot s s.ridxReg → tableBase s p l = some base →
    (∀ l' ∈ levelsDownTo l, ∀ t, tableBase s p l' = some t → t.toNat + 4096 ≤ 2 ^ s.config.paBits) →
    permOk s.config kind (recursiveChain s s.ridxReg p l) = true →
    (walkNow s kind (tableVaOf s l p)).1 = .okay base .k4 ∧
      ∀ i : BitVec 9, reach s kind (entryAt (tableVaOf s l p) i.toNat) = some (base.toNat + 8 * i.toNat)

/-! ## Creating a table (spec/42_recursive_walk.md, spec/10_state.md R31) -/

/-- The allocator's answer is none or a frame that is 4096-aligned and inside PMEM, every such listed frame is answered as it
stands, and each call is one Alloc event (spec/10_state.md R31).
Rests on the spec's own decisions D27 of spec/92_eei_decisions.md.
Rests on the model's log 7, log 24. -/
def Obligations.AllocatorAnswersLawful : Prop :=
  ∀ s : State, ConfigLawful s.config →
    (∀ f, nextAnswer s = some f → aligned f .k4 = true ∧ f.toNat + 4096 ≤ 2 ^ s.config.paBits) ∧
    (∀ f rest, s.answers = some f :: rest → aligned f .k4 = true → f.toNat + 4096 ≤ 2 ^ s.config.paBits →
      nextAnswer s = some f) ∧
    (∀ rest, s.answers = none :: rest → nextAnswer s = none) ∧
    (alloc s).1 = nextAnswer s ∧
      (alloc s).2.ev = { pos := s.pos, cmd := s.inp.cmd, act := .alloc (nextAnswer s) } :: s.ev

/-- RPT.CREATE_NEXT_TABLE at an unused entry: the frame's link is written and published by the barrier, then 512 zero entries
are written in ascending order and stay unpublished, VA_OUT = NEXT_VA, no token; every byte outside the entry and the
frame is unchanged (R155, R156, R157, R158).
Rests on the spec's own decisions D18, D28 of spec/92_eei_decisions.md.
Rests on the model's log 7. -/
def Obligations.CreateNextTableLinks : Prop :=
  encode .rptCreateNextTable = 0x22 ∧ ∀ (s : State) (pa : Nat) (f link : Word), AdmittedTable s →
    NewTable s s.inp.entryVa s.inp.nextVa pa f link →
    link = (f &&& 0x0000FFFFFFFFF000) ||| s.config.tableFlags ||| attrBits s.config .normal ∧
    ∃ t, exec .rptCreateNextTable s = .next t ∧ t.out = { status := some 0x00, vaOut := some s.inp.nextVa } ∧
      t.mem.read64 pa = link ∧ (∀ i, i < 512 → t.mem.read64 (f.toNat + 8 * i) = 0) ∧
      (∀ x, (x < pa ∨ pa + 8 ≤ x) → (x < f.toNat ∨ f.toNat + 4096 ≤ x) → t.mem.read x = s.mem.read x) ∧
      t.writes = (List.range 512).reverse.map (fun i => { pa := f.toNat + 8 * i, val := 0, published := false }) ++
        { pa := pa, val := link, published := true } :: publish s.writes ∧
      TokensKept s t ∧ RegistersKept s t ∧ t.answers = s.answers.tail ∧ t.allocCalls = s.allocCalls + 1

/-- RPT.CREATE_NEXT_TABLE otherwise: a valid table is left as it is, a block is ParentEntryHugePage, TOP without VALID is
the fault MalformedEntry, and no frame is FrameAllocationFailed (R155, R159).
Rests on the spec's own decisions D15 of spec/92_eei_decisions.md.
Rests on the model's log 1. -/
def Obligations.CreateNextTableOutcomes : Prop :=
  ∀ (s : State) (e : Word), AdmittedTable s → readNow s s.inp.entryVa = some e →
    (isValid e = true → isTop e = true → ∃ t, exec .rptCreateNextTable s = .next t ∧
      t.out = { status := some 0x00, vaOut := some s.inp.nextVa } ∧ RegistersKept s t ∧ MemoryKept s t ∧ TokensKept s t ∧
      AllocatorKept s t) ∧
    (e ≠ 0 → isTop e = false → FailsWith .rptCreateNextTable s 0x03) ∧
    (isValid e = false → isTop e = true → StopsBlock .rptCreateNextTable s (.malformedEntry s.inp.entryVa)) ∧
    (e = 0 → nextAnswer s = none → ∃ t, exec .rptCreateNextTable s = .next t ∧ t.out = { status := some 0x06 } ∧
      RegistersKept s t ∧ MemoryKept s t ∧ TokensKept s t ∧ t.allocCalls = s.allocCalls + 1)

/-- The half-built-table race: once create_next_table has ended, an observer that reads the entry sees the link, and one that
reads the new table may see zero or the descriptor the frame held before, at every index (spec/70_reset_and_hazards.md
R217; spec/20_memory.md R58, R60).
Rests on the spec's own decisions D22, D28 of spec/92_eei_decisions.md.
Rests on the model's log 6, log 10. -/
def Obligations.NewTableRace : Prop :=
  ∀ (s : State) (pa : Nat) (f link : Word), AdmittedTable s → HistoryAgrees s → f.toNat % 8 = 0 →
    NewTable s s.inp.entryVa s.inp.nextVa pa f link →
    ∃ t, exec .rptCreateNextTable s = .next t ∧ windowAt t pa = [link] ∧
      ∀ i, i < 512 → windowAt t (f.toNat + 8 * i) = [0, s.mem.read64 (f.toNat + 8 * i)]

/-! ## map_to and identity_map (spec/41_mapper_ops.md) -/

/-- MAP.MAP_TO and MAP.IDENTITY_MAP where the tables exist: the leaf alone is written, TOKEN_OUT names the new token and no
frame is asked for (R120, R121, R124, R165).
Rests on the spec's own decisions D25, D32 of spec/92_eei_decisions.md and inferences of R121.
Rests on the model's log 15. -/
def Obligations.MapInstallsLeaf : Prop :=
  (∀ (s : State) (sz : PageSize) (pa : Nat), AdmittedMap s sz s.inp.page → PathLinked s sz s.inp.page →
    readNow s (leafVa s sz s.inp.page) = some 0 → isTop s.inp.flags = (sz == .k4) →
    reach s .write (leafVa s sz s.inp.page) = some pa →
    ∃ t, exec (.mapMapTo sz) s = .next t ∧ t.out = { status := some 0x00, tokenOut := some s.nextToken } ∧
      OnlyStored s t pa ((s.inp.frame &&& 0x0000FFFFFFFFF000) ||| s.inp.flags ||| s.inp.attr) ∧
      TokenCreated s t s.inp.page sz ∧ RegistersKept s t ∧ AllocatorKept s t) ∧
  ∀ (s : State) (sz : PageSize) (pa : Nat), AdmittedMap s sz s.inp.frame → PathLinked s sz s.inp.frame →
    readNow s (leafVa s sz s.inp.frame) = some 0 → isTop s.inp.flags = (sz == .k4) →
    reach s .write (leafVa s sz s.inp.frame) = some pa →
    ∃ t, exec (.mapIdentityMap sz) s = .next t ∧ t.out = { status := some 0x00, tokenOut := some s.nextToken } ∧
      OnlyStored s t pa ((s.inp.frame &&& 0x0000FFFFFFFFF000) ||| s.inp.flags ||| s.inp.attr) ∧
      TokenCreated s t s.inp.frame sz ∧ RegistersKept s t ∧ AllocatorKept s t

/-- Outcomes of MAP.MAP_TO and MAP.IDENTITY_MAP at the leaf: a leaf in use, whatever FLAGS, is PageAlreadyMapped and nothing is
written; an unused one with the wrong kind of FLAGS is the contract violation (R119, R120, R122; R195(5)).
Rests on the spec's own decisions D16 of spec/92_eei_decisions.md and inferences of R122.
Rests on the model's log 1. -/
def Obligations.MapLeafOutcomes : Prop :=
  ∀ (s : State) (sz : PageSize) (i : Instr) (page e : Word),
    (i = .mapMapTo sz ∧ page = s.inp.page ∨ i = .mapIdentityMap sz ∧ page = s.inp.frame) → AdmittedMap s sz page →
    PathLinked s sz page → readNow s (leafVa s sz page) = some e →
    (e ≠ 0 → FailsWith i s 0x07) ∧
    (e = 0 → sz = .k4 → isTop s.inp.flags = false → StopsBlock i s (.contractViolation .setFrameWithoutTop)) ∧
    (e = 0 → sz ≠ .k4 → isTop s.inp.flags = true → StopsBlock i s (.contractViolation .setBlockWithTop))

/-- MAP.MAP_TO and MAP.IDENTITY_MAP stop at the first level whose entry is a block (ParentEntryHugePage), is malformed with TOP
set (MalformedEntry), or is unused while the allocator has no frame (FrameAllocationFailed) (R120, R123, R143, R155).
Rests on the spec's own inferences of R123.
Rests on the model's log 1. -/
def Obligations.MapPathStops : Prop :=
  ∀ (s : State) (sz : PageSize) (i : Instr) (page e : Word) (before : List Level) (l : Level) (after : List Level),
    (i = .mapMapTo sz ∧ page = s.inp.page ∨ i = .mapIdentityMap sz ∧ page = s.inp.frame) → AdmittedMap s sz page →
    nonLeafLevels sz = before ++ l :: after → (∀ l' ∈ before, LinksTable s page l') →
    readNow s (entryVaOf s l page) = some e →
    (e ≠ 0 → isTop e = false → FailsWith i s 0x03) ∧
    (isValid e = false → isTop e = true → StopsBlock i s (.malformedEntry (entryVaOf s l page))) ∧
    (e = 0 → nextAnswer s = none → ∃ t, exec i s = .next t ∧ t.out = { status := some 0x06 } ∧
      RegistersKept s t ∧ MemoryKept s t ∧ TokensKept s t ∧ t.allocCalls = s.allocCalls + 1)

/-- MAP.MAP_TO and MAP.IDENTITY_MAP of every size where the path ends, at whatever level: from its first unused entry down,
each level gets one frame, linked in order and zeroed, and the leaf; so "a single 4KiB mapping into a fully empty address space allocates
exactly 3 intermediate frames". Where the allocator fails, or the leaf setter faults, after some tables were created, they stay,
linked and zeroed (R118, R120, R121; spec/70_reset_and_hazards.md R215, R224).
Rests on the spec's own inferences of R118, R121, R215, R224.
Rests on the model's log 1, log 15. -/
def Obligations.MapCreatesTables : Prop :=
  (missingTables .k4 .l4 = 3 ∧ missingTables .m2 .l4 = 2 ∧ missingTables .g1 .l4 = 1) ∧
  (∀ (s : State) (page : Word), FullyEmpty s s.ridxReg → idx .l4 page ≠ s.ridxReg →
    tableBase s page .l4 = some s.config.rootPa ∧
      s.mem.read64 (s.config.rootPa.toNat + 8 * (idx .l4 page).toNat) = 0) ∧
  ∀ (s : State) (i : Instr) (sz : PageSize) (page : Word) (l : Level) (base : Word) (fs : List Word)
    (rest : List (Option Word)), Maps s i sz page → AdmittedMap s sz page → UnusedAt s sz page l base fs rest →
    RecursiveAccessible s s.ridxReg →
    (fs.length = missingTables sz l → isTop s.inp.flags = (sz == .k4) →
      ∃ t, exec i s = .next t ∧ t.out = { status := some 0x00, tokenOut := some s.nextToken } ∧
        TablesCreated s t page l base fs ((s.inp.frame &&& 0x0000FFFFFFFFF000) ||| s.inp.flags ||| s.inp.attr) ∧
        t.allocCalls = s.allocCalls + missingTables sz l ∧ t.answers = rest ∧ TokenCreated s t page sz ∧
        RegistersKept s t) ∧
    (fs.length < missingTables sz l → rest.head? = some none →
      ∃ t, exec i s = .next t ∧ t.out = { status := some 0x06 } ∧ TablesCreated s t page l base fs 0 ∧
        t.allocCalls = s.allocCalls + fs.length + 1 ∧ t.answers = rest.tail ∧ TokensKept s t ∧ RegistersKept s t) ∧
    (fs.length = missingTables sz l → isTop s.inp.flags ≠ (sz == .k4) →
      ∃ t, exec i s = .next t ∧ t.faulted = true ∧ t.out = {} ∧
        t.faultReason = some (.contractViolation (if sz = .k4 then .setFrameWithoutTop else .setBlockWithTop)) ∧
        TablesCreated s t page l base fs 0 ∧ t.allocCalls = s.allocCalls + missingTables sz l ∧ t.answers = rest ∧
        TokensKept s t ∧ t.bound = s.bound ∧ t.ridxReg = s.ridxReg)

/-! ## Lookups, updates and unmaps (spec/41_mapper_ops.md) -/

/-- MAP.GET_ENTRY and MAP.GET_ENTRY_MUT: a nonzero leaf of any kind is returned with its address; nothing is written (R126,
R127, R128).
Rests on the spec's own inferences of R127. -/
def Obligations.GetEntryAnswers : Prop :=
  ∀ (s : State) (sz : PageSize) (i : Instr) (e : Word), (i = .mapGetEntry sz ∨ i = .mapGetEntryMut sz) →
    AdmittedLookup s sz → PathLinked s sz s.inp.page → readNow s (leafVa s sz s.inp.page) = some e → e ≠ 0 →
    ∃ t, exec i s = .next t ∧
      t.out = { status := some 0x00, eOut := some e, vaOut := some (leafVa s sz s.inp.page) } ∧
      RegistersKept s t ∧ MemoryKept s t ∧ TokensKept s t ∧ AllocatorKept s t

/-- MAP.TRANSLATE_PAGE: a matching, aligned leaf's address is returned; nothing is written. A page in the recursive window is
admitted (R137).
Rests on the spec's own decisions D14 of spec/92_eei_decisions.md. -/
def Obligations.TranslatePageAnswers : Prop :=
  ∀ (s : State) (sz : PageSize) (e : Word), AdmittedLookup s sz → PathLinked s sz s.inp.page →
    readNow s (leafVa s sz s.inp.page) = some e → MatchingLeaf sz e →
    ∃ t, exec (.mapTranslatePage sz) s = .next t ∧
      t.out = { status := some 0x00, val := some (e &&& 0x0000FFFFFFFFF000) } ∧
      RegistersKept s t ∧ MemoryKept s t ∧ TokensKept s t ∧ AllocatorKept s t

/-- MAP.TRANSLATE and MAP.TRANSLATE_ADDR of any address: the first block or page on the path gives the size, the frame, and
the frame plus the offset (R140, R142).
Rests on the spec's own decisions D33 of spec/92_eei_decisions.md and inferences of R142. -/
def Obligations.TranslateAnswers : Prop :=
  ∀ (s : State) (sz : PageSize) (e : Word), ReadyBound s → PathLinked s sz s.inp.page →
    readNow s (leafVa s sz s.inp.page) = some e → MatchingLeaf sz e →
    (∃ t, exec .mapTranslate s = .next t ∧
      t.out = { status := some 0x00, szOut := some sz.tag, val := some (e &&& 0x0000FFFFFFFFF000) } ∧
      RegistersKept s t ∧ MemoryKept s t ∧ TokensKept s t ∧ AllocatorKept s t) ∧
    ∃ t, exec .mapTranslateAddr s = .next t ∧
      t.out = { status := some 0x00, szOut := some sz.tag,
                val := some ((e &&& 0x0000FFFFFFFFF000) + BitVec.ofNat 64 (s.inp.page.toNat % sizeBytes sz)) } ∧
      RegistersKept s t ∧ MemoryKept s t ∧ TokensKept s t ∧ AllocatorKept s t

/-- MAP.TRANSLATE and MAP.TRANSLATE_ADDR stop at the first entry that is not VALID, is a block of level 4 or 1
(PageNotMapped), or is a misaligned block (InvalidFrameAddress) (R140, R142).
Rests on the spec's own decisions D33 of spec/92_eei_decisions.md and inferences of R142. -/
def Obligations.TranslateStops : Prop :=
  ∀ (s : State) (i : Instr) (e : Word) (before : List Level) (l : Level) (after : List Level),
    (i = .mapTranslate ∨ i = .mapTranslateAddr) → ReadyBound s → [.l4, .l3, .l2, .l1] = before ++ l :: after →
    (∀ l' ∈ before, LinksTable s s.inp.page l') → readNow s (entryVaOf s l s.inp.page) = some e →
    (isValid e = false → FailsWith i s 0x01) ∧
    (isTop e = false → l = .l4 ∨ l = .l1 → FailsWith i s 0x01) ∧
    (isValid e = true → isTop e = false → l = .l3 → aligned (pteAddr e) .g1 = false → FailsWith i s 0x05) ∧
    (isValid e = true → isTop e = false → l = .l2 → aligned (pteAddr e) .m2 = false → FailsWith i s 0x05)

/-- MAP.UPDATE_FLAGS: the flags of a nonzero leaf of any kind are replaced, its other bits kept, a token created; the new flags
are not checked against the size (R134, R135, R119).
Rests on the spec's own decisions D16 of spec/92_eei_decisions.md.
Rests on the model's log 15. -/
def Obligations.UpdateFlagsAnswers : Prop :=
  ∀ (s : State) (sz : PageSize) (e : Word) (pa : Nat), AdmittedUpdate s sz → PathLinked s sz s.inp.page →
    readNow s (leafVa s sz s.inp.page) = some e → e ≠ 0 → reach s .write (leafVa s sz s.inp.page) = some pa →
    ∃ t, exec (.mapUpdateFlags sz) s = .next t ∧ t.out = { status := some 0x00, tokenOut := some s.nextToken } ∧
      OnlyStored s t pa ((e &&& ~~~0xFFF8000000000CC3) ||| s.inp.flags) ∧ TokenCreated s t s.inp.page sz ∧
      RegistersKept s t ∧ AllocatorKept s t

/-- MAP.UNMAP: a matching, aligned leaf is cleared whole, its frame returned and a token created; no table is freed and the
allocator is not called (R130, R131).
Rests on the spec's own inferences of R130.
Rests on the model's log 15. -/
def Obligations.UnmapAnswers : Prop :=
  ∀ (s : State) (sz : PageSize) (e : Word) (pa : Nat), AdmittedUnmap s sz → PathLinked s sz s.inp.page →
    readNow s (leafVa s sz s.inp.page) = some e → MatchingLeaf sz e →
    reach s .write (leafVa s sz s.inp.page) = some pa →
    ∃ t, exec (.mapUnmap sz) s = .next t ∧
      t.out = { status := some 0x00, val := some (e &&& 0x0000FFFFFFFFF000), tokenOut := some s.nextToken } ∧
      OnlyStored s t pa 0 ∧ TokenCreated s t s.inp.page sz ∧ RegistersKept s t ∧ AllocatorKept s t

/-- The walks that create nothing stop at the first level above the leaf whose entry is not VALID (PageNotMapped) or is a
block (ParentEntryHugePage; PageNotMapped for translate_page); no lower level is read (R116, R117, R143).
Rests on the spec's own decisions D14 of spec/92_eei_decisions.md. -/
def Obligations.WalkStops : Prop :=
  ∀ (s : State) (sz : PageSize) (e : Word) (before : List Level) (l : Level) (after : List Level),
    AdmittedLookup s sz → nonLeafLevels sz = before ++ l :: after → (∀ l' ∈ before, LinksTable s s.inp.page l') →
    readNow s (entryVaOf s l s.inp.page) = some e →
    (isValid e = false → FailsWith (.mapGetEntry sz) s 0x01 ∧ FailsWith (.mapGetEntryMut sz) s 0x01 ∧
      FailsWith (.mapTranslatePage sz) s 0x01 ∧ (AdmittedUnmap s sz → FailsWith (.mapUnmap sz) s 0x01) ∧
      (AdmittedUpdate s sz → FailsWith (.mapUpdateFlags sz) s 0x01)) ∧
    (isValid e = true → isTop e = false → FailsWith (.mapGetEntry sz) s 0x03 ∧ FailsWith (.mapGetEntryMut sz) s 0x03 ∧
      FailsWith (.mapTranslatePage sz) s 0x01 ∧ (AdmittedUnmap s sz → FailsWith (.mapUnmap sz) s 0x03) ∧
      (AdmittedUpdate s sz → FailsWith (.mapUpdateFlags sz) s 0x03))

/-- The leaf outcomes that are errors, for get_entry, get_entry_mut, update_flags, unmap and translate_page (R119, R126, R130,
R132, R134, R137).
Rests on the spec's own decisions D14, D16, D17 of spec/92_eei_decisions.md and inferences of R130. -/
def Obligations.LeafErrors : Prop :=
  ∀ (s : State) (sz : PageSize) (e : Word), AdmittedLookup s sz → PathLinked s sz s.inp.page →
    readNow s (leafVa s sz s.inp.page) = some e →
    (e = 0 → FailsWith (.mapGetEntry sz) s 0x01 ∧ FailsWith (.mapGetEntryMut sz) s 0x01 ∧
      (AdmittedUpdate s sz → FailsWith (.mapUpdateFlags sz) s 0x01)) ∧
    (isValid e = false → FailsWith (.mapTranslatePage sz) s 0x01 ∧
      (AdmittedUnmap s sz → FailsWith (.mapUnmap sz) s 0x01)) ∧
    (isValid e = true → isTop e = false → sz = .k4 → FailsWith (.mapTranslatePage sz) s 0x01 ∧
      (AdmittedUnmap s sz → FailsWith (.mapUnmap sz) s 0x03)) ∧
    (isValid e = true → isTop e = true → sz ≠ .k4 → FailsWith (.mapTranslatePage sz) s 0x01 ∧
      (AdmittedUnmap s sz → FailsWith (.mapUnmap sz) s 0x01)) ∧
    (isValid e = true → isTop e = false → sz ≠ .k4 → aligned (pteAddr e) sz = false →
      FailsWith (.mapTranslatePage sz) s 0x05 ∧ (AdmittedUnmap s sz → FailsWith (.mapUnmap sz) s 0x05))

/-- An engine read or write whose address does not resolve ends the command there with MmuFault and that address, and the command
has made its earlier writes (spec/20_memory.md R55; spec/42_recursive_walk.md R153; R143, R195(6)). That an access which
leaves PMEM does not resolve is the model's choice (log 13).
Rests on the spec's own decisions D12, D21 of spec/92_eei_decisions.md and inferences of R130.
Rests on the model's log 1, log 13. -/
def Obligations.UnresolvedAccessFaults : Prop :=
  (∀ (s : State) (sz : PageSize) (before : List Level) (l : Level) (after : List Level), AdmittedLookup s sz →
    pathLevels sz = before ++ l :: after → (∀ l' ∈ before, LinksTable s s.inp.page l') →
    reach s .read (entryVaOf s l s.inp.page) = none →
    StopsBlock (.mapGetEntry sz) s (.mmuFault (entryVaOf s l s.inp.page)) ∧
    StopsBlock (.mapGetEntryMut sz) s (.mmuFault (entryVaOf s l s.inp.page)) ∧
    StopsBlock (.mapTranslatePage sz) s (.mmuFault (entryVaOf s l s.inp.page)) ∧
    (AdmittedUnmap s sz → StopsBlock (.mapUnmap sz) s (.mmuFault (entryVaOf s l s.inp.page))) ∧
    (AdmittedUpdate s sz → StopsBlock (.mapUpdateFlags sz) s (.mmuFault (entryVaOf s l s.inp.page)))) ∧
  (∀ (s : State) (i : Instr) (before : List Level) (l : Level) (after : List Level),
    (i = .mapTranslate ∨ i = .mapTranslateAddr) → ReadyBound s → [.l4, .l3, .l2, .l1] = before ++ l :: after →
    (∀ l' ∈ before, LinksTable s s.inp.page l') → reach s .read (entryVaOf s l s.inp.page) = none →
    StopsBlock i s (.mmuFault (entryVaOf s l s.inp.page))) ∧
  (∀ (s : State) (i : Instr) (sz : PageSize) (page : Word) (before : List Level) (l : Level) (after : List Level),
    Maps s i sz page → AdmittedMap s sz page → pathLevels sz = before ++ l :: after →
    (∀ l' ∈ before, LinksTable s page l') →
    (reach s .read (entryVaOf s l page) = none → StopsBlock i s (.mmuFault (entryVaOf s l page))) ∧
    (∀ f link, after ≠ [] → readNow s (entryVaOf s l page) = some 0 → nextAnswer s = some f →
      tableLink s.config f = .ok link →
      (reach s .write (entryVaOf s l page) = none → FaultsAt i s (entryVaOf s l page) 1) ∧
      ∀ pa, reach s .write (entryVaOf s l page) = some pa →
        reach { s with mem := s.mem.write64 pa link } .write (tableVaOf s (levelBelow l) page) = none →
        FaultsAfterStore i s (tableVaOf s (levelBelow l) page) pa link)) ∧
  (∀ (s : State) (i : Instr) (sz : PageSize) (page : Word), Maps s i sz page → AdmittedMap s sz page →
    PathLinked s sz page → readNow s (leafVa s sz page) = some 0 → isTop s.inp.flags = (sz == .k4) →
    reach s .write (leafVa s sz page) = none → StopsBlock i s (.mmuFault (leafVa s sz page))) ∧
  (∀ (s : State) (sz : PageSize) (e : Word), PathLinked s sz s.inp.page →
    readNow s (leafVa s sz s.inp.page) = some e → reach s .write (leafVa s sz s.inp.page) = none →
    (AdmittedUnmap s sz → MatchingLeaf sz e → StopsBlock (.mapUnmap sz) s (.mmuFault (leafVa s sz s.inp.page))) ∧
    (AdmittedUpdate s sz → e ≠ 0 → StopsBlock (.mapUpdateFlags sz) s (.mmuFault (leafVa s sz s.inp.page)))) ∧
  ∀ s : State, AdmittedTable s →
    (reach s .read s.inp.entryVa = none → StopsBlock .rptCreateNextTable s (.mmuFault s.inp.entryVa)) ∧
    ∀ f link, readNow s s.inp.entryVa = some 0 → nextAnswer s = some f → tableLink s.config f = .ok link →
      (reach s .write s.inp.entryVa = none → FaultsAt .rptCreateNextTable s s.inp.entryVa 1) ∧
      ∀ pa, reach s .write s.inp.entryVa = some pa →
        reach { s with mem := s.mem.write64 pa link } .write s.inp.nextVa = none →
        FaultsAfterStore .rptCreateNextTable s s.inp.nextVa pa link

/-- map then translate: after a map_to whose FLAGS include VALID, translate_page gives the frame; without VALID it reports
PageNotMapped. The leaf's descriptor is apart from what its own lookup reads (TREE_SHAPED) (R138).
Rests on the spec's own inferences of R138. -/
def Obligations.MapThenTranslate : Prop :=
  ∀ (s : State) (sz : PageSize) (pa : Nat), AdmittedMap s sz s.inp.page → s.config.paBits ≤ 48 →
    PathLinked s sz s.inp.page → readNow s (leafVa s sz s.inp.page) = some 0 → isTop s.inp.flags = (sz == .k4) →
    reach s .write (leafVa s sz s.inp.page) = some pa → PathApart s sz s.inp.page pa →
    ∃ t, exec (.mapMapTo sz) s = .next t ∧ t.out.status = some 0x00 ∧
      (isValid s.inp.flags = true → ∃ u, exec (.mapTranslatePage sz) t = .next u ∧
        u.out = { status := some 0x00, val := some s.inp.frame }) ∧
      (isValid s.inp.flags = false → FailsWith (.mapTranslatePage sz) t 0x01)

/-- The unmap round trip: unmap after a mapping returns the frame that was mapped, and get_entry then reports PageNotMapped
(R133).
Rests on the spec's own inferences of R133. -/
def Obligations.UnmapRoundTrip : Prop :=
  ∀ (s : State) (sz : PageSize) (pa : Nat), AdmittedMap s sz s.inp.page → s.config.paBits ≤ 48 →
    outstanding s (s.nextToken + 1) = false → PathLinked s sz s.inp.page →
    readNow s (leafVa s sz s.inp.page) = some 0 → isTop s.inp.flags = (sz == .k4) → isValid s.inp.flags = true →
    reach s .write (leafVa s sz s.inp.page) = some pa → PathApart s sz s.inp.page pa →
    ∃ t u, exec (.mapMapTo sz) s = .next t ∧ exec (.mapUnmap sz) t = .next u ∧
      u.out = { status := some 0x00, val := some s.inp.frame, tokenOut := some (s.nextToken + 1) } ∧
      FailsWith (.mapGetEntry sz) u 0x01 ∧ ∀ x, u.mem.read x = s.mem.read x

/-- translate and translate_page agree on the S-page of the address (R141).
Rests on the spec's own inferences of R141. -/
def Obligations.TranslateAgreesWithPages : Prop :=
  ∀ (s t : State), exec .mapTranslate s = .next t →
    (∀ (sz : PageSize) (f : Word), t.out = { status := some 0x00, szOut := some sz.tag, val := some f } →
      ∃ u, exec (.mapTranslatePage sz) { s with inp := { s.inp with page := alignDown s.inp.page sz } } = .next u ∧
        u.out = { status := some 0x00, val := some f }) ∧
    (t.out = { status := some 0x01 } → ∀ sz,
      ∃ u, exec (.mapTranslatePage sz) { s with inp := { s.inp with page := alignDown s.inp.page sz } } = .next u ∧
        (u.out = { status := some 0x01 } ∨ u.out = { status := some 0x05 }))

/-! ## Flush tokens (spec/43_flush_token.md) -/

/-- TOK.FLUSH of an outstanding token: TlbiAllIS, then Isb, then the discharge; every write is published, the token is removed
and no other, and with no move of an observer to come every TLB is empty and no walk is open
(R167, R168; spec/20_memory.md R61).
Rests on the spec's own decisions D24 of spec/92_eei_decisions.md.
Rests on the model's log 10, log 11, log 24. -/
def Obligations.FlushAnswers : Prop :=
  encode .tokFlush = 0x30 ∧ ∀ s : State, Ready s → outstanding s s.inp.token = true →
    ∃ t, exec .tokFlush s = .next t ∧ t.out = { status := some 0x00 } ∧
      t.tokens = s.tokens.filter (fun k => k.id != s.inp.token) ∧ t.nextToken = s.nextToken ∧
      t.writes = publish s.writes ∧ t.mem = s.mem ∧ RegistersKept s t ∧ AllocatorKept s t ∧
      t.ev = { pos := s.pos, cmd := s.inp.cmd, act := .tokenDischarge s.inp.token .flush } ::
        { pos := s.pos, cmd := s.inp.cmd, act := .isb } ::
        { pos := s.pos, cmd := s.inp.cmd, act := .tlbiAllIS } :: s.ev ∧
      (s.slots = [] → t.tlb = [] ∧ t.walks = [])

/-- TOK.IGNORE of an outstanding token: it is removed; nothing is invalidated and nothing is published (R170).
Rests on the model's log 10, log 24. -/
def Obligations.IgnoreAnswers : Prop :=
  encode .tokIgnore = 0x31 ∧ ∀ s : State, Ready s → outstanding s s.inp.token = true →
    ∃ t, exec .tokIgnore s = .next t ∧ t.out = { status := some 0x00 } ∧
      t.tokens = s.tokens.filter (fun k => k.id != s.inp.token) ∧ t.nextToken = s.nextToken ∧
      t.writes = s.writes ∧ t.mem = s.mem ∧ RegistersKept s t ∧ AllocatorKept s t ∧
      t.ev = { pos := s.pos, cmd := s.inp.cmd, act := .tokenDischarge s.inp.token .ignore } :: s.ev ∧
      (s.slots = [] → t.tlb = s.tlb ∧ t.walks = s.walks)

/-- A token is discharged once: after its discharge, and whenever it is not outstanding, TOK.FLUSH and TOK.IGNORE of it are
refused (R171).
Rests on the spec's own decisions D25 of spec/92_eei_decisions.md.
Rests on the model's log 1, log 18. -/
def Obligations.DischargeOnce : Prop :=
  (∀ s : State, Ready s → outstanding s s.inp.token = false →
    exec .tokFlush s = .next (afterRefusal .tokenNotOutstanding s) ∧
    exec .tokIgnore s = .next (afterRefusal .tokenNotOutstanding s)) ∧
  ∀ (s t : State) (i : Instr), (i = .tokFlush ∨ i = .tokIgnore) → exec i s = .next t → t.out.status = some 0x00 →
    outstanding t s.inp.token = false ∧ ∀ k, k ≠ s.inp.token → outstanding t k = outstanding s k

/-- After TOK.FLUSH completes, every observer's fresh walk of any address, whatever it reads, is the walk over the current
table contents, and with no move of an observer to come so is its translation (R169; spec/20_memory.md R63(5)).
Rests on the spec's own inferences of R63, R169.
Rests on the model's log 6, log 10, log 11, log 12. -/
def Obligations.FlushMakesWritesVisible : Prop :=
  ∀ s t : State, HistoryAgrees s → RootTable s.config → exec .tokFlush s = .next t → t.out.status = some 0x00 →
    ∀ (o : Nat) (kind : Access) (va : Word) (picks : List Nat) (cached : Option TlbEntry) (unspec : Option Word),
      observerWalk t kind va picks = (walkNow t kind va).1 ∧
      (s.slots = [] → translation t o va kind cached picks unspec =
        (settle (walkNow t kind va).1 unspec).map Prod.fst)

/-! ## Observers (spec/20_memory.md) -/

/-- What an observer reads: exactly the values from the last published write onward, whichever it picks (R58); the window is
one value once that write is the newest. The TLB rules: a fill caches the result of a successful walk and nothing else, a
drop removes an entry, a translation changes no TLB, and a command presented while one is active is refused without
touching it; an open walk reads its next descriptor by the same rule, and its end caches its own result (R59, R67).
Rests on the spec's own decisions D22, D23, D29 of spec/92_eei_decisions.md.
Rests on the model's log 10, log 12, log 16, log 17. -/
def Obligations.ObserverRules : Prop :=
  (∀ (s : State) (a : Nat) (v : Word), inPmem s.config a = true →
    ((∃ picks, (observerDesc s a picks).1 = some v) ↔ v ∈ windowAt s a)) ∧
  (∀ (s : State) (a : Nat) (v : Word), v ∈ windowAt s a ↔ ∃ older newer : List (Word × Bool),
    histOf s a = newer ++ older ∧ (∀ w ∈ newer, w.2 = false) ∧ (older.head?.map Prod.snd = some true) ∧
      (v ∈ newer.map Prod.fst ∨ older.head?.map Prod.fst = some v)) ∧
  (∀ (s : State) (o : Nat) (va : Word) (kind : Access) (picks : List Nat) (unspec : Option Word) (e : TlbEntry),
    e ∈ (applyMove s (.fill o va kind picks unspec)).tlb → e ∈ s.tlb ∨
      ∃ pa sz, settle (observerWalk s kind va picks) unspec = some (pa, sz) ∧ e = cacheEntry o va pa sz ∧
        o < s.config.nObs) ∧
  (∀ (s : State) (n pick : Nat) (w' : OpenWalk), w' ∈ (applyMove s (.look n pick)).walks → w' ∈ s.walks ∨
    ∃ w ∈ s.walks, ∃ a v, nextDesc s w = some a ∧ v ∈ windowAt s a ∧ w' = { w with read := w.read ++ [v] }) ∧
  (∀ (s : State) (n : Nat) (cache : Bool) (picks : List Nat) (unspec : Option Word) (e : TlbEntry),
    e ∈ (applyMove s (.finish n cache picks unspec)).tlb → e ∈ s.tlb ∨
      ∃ w ∈ s.walks, ∃ pa sz, settle (resumedWalk s w picks) unspec = some (pa, sz) ∧
        e = cacheEntry w.obs w.va pa sz ∧ w.obs < s.config.nObs) ∧
  (∀ (s : State) (o : Nat) (kind : Access) (va : Word) (picks : List Nat),
    resumedWalk s { obs := o, va := va, kind := kind, read := [] } picks = observerWalk s kind va picks) ∧
  (∀ (s : State) (e e' : TlbEntry), e' ∈ (applyMove s (.drop e)).tlb ↔ e' ∈ s.tlb ∧ e' ≠ e) ∧
  (∀ (s : State) (o : Nat) (va : Word) (kind : Access) (cached : Option TlbEntry) (picks : List Nat)
    (unspec : Option Word), (applyMove s (.translate o va kind cached picks unspec)).tlb = s.tlb) ∧
  ∀ s : State, s.busy = true → s.faulted = false →
    applyMove s .overlap = { s with refused := true, refusal := some .concurrent }

/-- "Only TOK.FLUSH forces removal": where no observer drops an entry of its own accord, every cached translation survives
every other command (R59(e)).
Rests on the spec's own decisions D23 of spec/92_eei_decisions.md.
Rests on the model's log 10. -/
def Obligations.OnlyFlushEvicts : Prop :=
  ∀ (i : Instr) (s t : State), i ≠ .tokFlush → (∀ ms ∈ s.slots, ∀ m ∈ ms, ∀ e, m ≠ .drop e) →
    exec i s = .next t → ∀ e ∈ s.tlb, e ∈ t.tlb

/-- The observers do not interfere with the block: whatever their moves, their TLBs and what they saw, a command has the same
outcome, events and effect (spec/60_exceptions.md R196; spec/20_memory.md R65).
Rests on the spec's own decisions D44 of spec/92_eei_decisions.md.
Rests on the model's log 10, log 17. -/
def Obligations.ObserversDoNotInterfere : Prop :=
  ∀ (i : Instr) (s s' : State), coreOf s = coreOf s' → s.ev = s'.ev →
    match exec i s with
    | .next t => ∃ t', exec i s' = .next t' ∧ coreOf t' = coreOf t ∧ t'.ev = t.ev
    | .fault f => exec i s' = .fault f
    | .refused r => exec i s' = .refused r

/-! ## Outcomes (spec/60_exceptions.md) -/

/-- Every command ends in exactly one of four outcomes: the first failing check refuses it and nothing is performed; else it
completes with STATUS = OK, or returns a code 1..7 with no other port, no token and the binding kept, or faults with no
port holding a value (R183, R187, R188, R190, R193).
Rests on the spec's own decisions D4, D7, D8 of spec/92_eei_decisions.md.
Rests on the model's log 1, log 14, log 18. -/
def Obligations.EveryOutcomeIsOneOfFour : Prop :=
  (∀ (i : Instr) (s : State) (r : RefuseReason), firstRefusal i s = some r → exec i s = .next (afterRefusal r s)) ∧
  ∀ (i : Instr) (s t : State), firstRefusal i s = none → exec i s = .next t →
    (t.out.status = some 0x00 ∧ t.faulted = false) ∨
    (∃ c : BitVec 8, c ≠ 0 ∧ c.toNat ≤ 7 ∧ t.out = { status := some c } ∧ t.faulted = false ∧ TokensKept s t ∧
      t.bound = s.bound ∧ t.ridxReg = s.ridxReg) ∨
    (t.faulted = true ∧ t.faultReason ≠ none ∧ t.out = {} ∧ TokensKept s t ∧ t.bound = s.bound ∧
      t.ridxReg = s.ridxReg)

/-- The fault state is sticky: once FAULTED is 1 every command is refused with BlockFaulted, and a step changes no control
register, no memory, no token and no history (spec/10_state.md R43; R199). A command presented to a busy block is refused
with Concurrent.
Rests on the spec's own decisions D7, D34 of spec/92_eei_decisions.md.
Rests on the model's log 1, log 17, log 18. -/
def Obligations.FaultedBlockRefusesAll : Prop :=
  (∀ (i : Instr) (s : State), s.faulted = true → exec i s = .next (afterRefusal .blockFaulted s)) ∧
  (∀ (i : Instr) (s : State), s.faulted = false → s.busy = true → exec i s = .next (afterRefusal .concurrent s)) ∧
  ∀ s t : State, s.faulted = true → step s = .next t → t.faulted = true ∧ t.faultReason = s.faultReason ∧
    t.bound = s.bound ∧ t.ridxReg = s.ridxReg ∧ t.mem = s.mem ∧ t.writes = s.writes ∧ t.tokens = s.tokens ∧
    t.nextToken = s.nextToken ∧ t.ev = s.ev ∧ AllocatorKept s t ∧ (s.out = {} → t.out = {})

/-! ## Frames (spec/10_state.md R37) -/

/-- What a command leaves unchanged: the launch parameters, the input ports and the caller's sequence always; BOUND and
RIDX_REG but for RPT.BIND; memory but for the mutations and RPT.CREATE_NEXT_TABLE, and the histories but for TOK.FLUSH;
the allocator but for the commands that create tables; TOKENS but for mutations and discharges; FAULT_REASON but for a
fault; and the TLBs and the open walks but for TOK.FLUSH, where the observers make no move (R23, R27, R37).
Rests on the spec's own decisions D25 of spec/92_eei_decisions.md.
Rests on the model's log 2, log 10, log 18, log 24. -/
def Obligations.FrameOfEveryCommand : Prop :=
  ∀ (i : Instr) (s t : State), exec i s = .next t →
    (t.config = s.config ∧ t.inp = s.inp ∧ t.launchMem = s.launchMem ∧ t.script = s.script ∧ t.busy = s.busy ∧
      t.pos = s.pos + 1) ∧
    (i ≠ .rptBind → t.bound = s.bound ∧ t.ridxReg = s.ridxReg) ∧
    (storesMemory i = false → ∀ a, t.mem.read a = s.mem.read a) ∧
    (storesMemory i = false → i ≠ .tokFlush → t.writes = s.writes) ∧
    (createsTables i = false → AllocatorKept s t) ∧
    (createsToken i = false → i ≠ .tokFlush → i ≠ .tokIgnore → TokensKept s t) ∧
    (t.faulted = s.faulted → t.faultReason = s.faultReason) ∧
    (s.slots = [] → i ≠ .tokFlush → t.tlb = s.tlb ∧ t.walks = s.walks) ∧ (s.slots = [] → t.slots = [] ∧ t.seen = s.seen)

/-- What a command stores: the history grows by the descriptors it writes, each 8 bytes at an 8-aligned address inside PMEM,
and every byte outside them is unchanged, whatever its outcome; no write is undone (spec/20_memory.md R50, R51;
spec/41_mapper_ops.md R118; spec/10_state.md R26).
Rests on the spec's own decisions D7, D10, D22 of spec/92_eei_decisions.md and inferences of R50, R118. -/
def Obligations.MemoryChangesByWritesOnly : Prop :=
  ∀ (i : Instr) (s t : State), exec i s = .next t → ∃ new old : List WriteRec,
    t.writes = new ++ old ∧ (old = s.writes ∨ old = publish s.writes) ∧
    (∀ w ∈ new, w.pa % 8 = 0 ∧ w.pa + 8 ≤ 2 ^ s.config.paBits) ∧
    ∀ x, (∀ w ∈ new, x < w.pa ∨ w.pa + 8 ≤ x) → t.mem.read x = s.mem.read x

/-- A command reads only the ports its rule names: the others do not change what it does (spec/10_state.md R21;
spec/41_mapper_ops.md R124).
Rests on the spec's own decisions D3 of spec/92_eei_decisions.md. -/
def Obligations.UnreadPortsIgnored : Prop :=
  ∀ (i : Instr) (s t : State) (q : InPorts), portsRead i q = portsRead i s.inp → exec i s = .next t →
    exec i { s with inp := q } = .next { t with inp := q }

/-- MAP.IDENTITY_MAP has exactly the effect of MAP.MAP_TO with PAGE = FRAME (spec/30_encoding.md R90). -/
def Obligations.IdentityMapIsMapTo : Prop :=
  ∀ (s t : State) (sz : PageSize), exec (.mapIdentityMap sz) s = .next t →
    exec (.mapMapTo sz) { s with inp := { s.inp with page := s.inp.frame } } =
      .next { t with inp := { s.inp with page := s.inp.frame } }

/-! ## Memory (spec/20_memory.md) -/

/-- A descriptor is stored little-endian in 8 bytes, and a store leaves every other byte (R48, R51).
Rests on the spec's own decisions D9, D10 of spec/92_eei_decisions.md.
Rests on the model's log 19. -/
def Obligations.DescriptorByteOrder : Prop :=
  (∀ (m : Memory) (a k : Nat) (v : Word), k < 8 → (m.write64 a v).read (a + k) = v.extractLsb' (8 * k) 8) ∧
  (∀ (m : Memory) (a x : Nat) (v : Word), (x < a ∨ a + 8 ≤ x) → (m.write64 a v).read x = m.read x) ∧
  ∀ (m : Memory) (a k : Nat), k < 8 → (m.read64 a).extractLsb' (8 * k) 8 = m.read (a + k)

/-- MemWrite and MemRead: a write that completes puts its value last in the history of the address reached, unpublished, and in
PMEM, and every later read by the engine that reaches the address gives it (R55, R57, R63(1)).
Rests on the spec's own decisions D21 of spec/92_eei_decisions.md and inferences of R63.
Rests on the model's log 6. -/
def Obligations.OwnWritesVisible : Prop :=
  ∀ (va v : Word) (s s' : State), memWrite va v s = .done () s' → ∃ pa, reach s .write va = some pa ∧
    s'.mem.read64 pa = v ∧ histOf s' pa = (v, false) :: histOf s pa ∧
    ∀ va', reach s' .read va' = some pa → ∃ u, memRead va' s' = .done v u

/-! ## Bounds (spec/70_reset_and_hazards.md, spec/41_mapper_ops.md) -/

/-- Every command performs at most the events of R228, RPT.BIND's PhysRead among them; each engine access adds at most 4
PhysReads of its walk, so a command's PhysReads are bounded too; at most one token record; and a size-S mapping calls Alloc
at most 4 - LEAF(S) times (R228; spec/41_mapper_ops.md R121).
Rests on the spec's own inferences of R121, R228.
Rests on the model's log 23. -/
def Obligations.EventsAreBounded : Prop :=
  (∀ (va v : Word) (s : State), physReadCount (resState (memRead va s)) ≤ physReadCount s + 4 ∧
    physReadCount (resState (memWrite va v s)) ≤ physReadCount s + 4) ∧
  ∀ (i : Instr) (s t : State), exec i s = .next t → commandEvents i t ≤ commandEvents i s + maxEvents i ∧
    (i ≠ .rptBind → physReadCount t ≤ physReadCount s + 4 * maxAccesses i) ∧
    t.ev.countP isTokenRecord ≤ s.ev.countP isTokenRecord + 1 ∧
    t.allocCalls ≤ s.allocCalls +
      (match i with
        | .mapMapTo .k4 => 3
        | .mapMapTo .m2 => 2
        | .mapMapTo .g1 => 1
        | .mapIdentityMap .k4 => 3
        | .mapIdentityMap .m2 => 2
        | .mapIdentityMap .g1 => 1
        | .rptCreateNextTable => 1
        | .pteIsUnused | .pteSetUnused | .pteFlags | .pteAddr | .pteAttr | .pteIsBlock | .pteFrame | .pteSetFrame
        | .pteSetBlock _ | .pteSetFlags | .pteSetAttr | .mapGetEntry _ | .mapGetEntryMut _ | .mapUnmap _
        | .mapUpdateFlags _ | .mapTranslatePage _ | .mapTranslate | .mapTranslateAddr | .rptBind | .rptTableVa
        | .tokFlush | .tokIgnore | .attrLookup => 0)

/-- Every step answers a next state, whatever the state: no step is a stop or a refusal of the model, and "every command
ends". A step with a command to present takes it, and the block is as ready for the next as it was (spec/60_exceptions.md R183,
spec/70_reset_and_hazards.md R227). An access that leaves PMEM is a fault of the block (log 13).
Rests on the model's log 1, log 2, log 13, log 24. -/
def Obligations.EveryStepAnswers : Prop :=
  ∀ s : State, ∃ t, step s = .next t ∧ t.busy = s.busy ∧ t.script = s.script.tail ∧
    t.pos = s.pos + (if s.script = [] then 0 else 1)

/-! ## Invariants of every step, and the launch (spec/10_state.md, spec/70_reset_and_hazards.md) -/

/-- STATUS holds a code of R185, an error writes no other port, FAULT_REASON is written with FAULTED, and a block that has
stopped holds no output value (R185, R187, R190; spec/10_state.md R23).
Rests on the spec's own decisions D4, D8 of spec/92_eei_decisions.md.
Rests on the model's log 1, log 18. -/
def Obligations.StepKeepsOutcomePortsLegal : Prop :=
  ∀ s t : State, OutputsLegal s → FaultStateLegal s → step s = .next t → OutputsLegal t ∧ FaultStateLegal t

/-- No two outstanding tokens share an identifier (spec/43_flush_token.md R165), and memory keeps its canonical form.
Rests on the spec's own decisions D25 of spec/92_eei_decisions.md. -/
def Obligations.StepKeepsTokensAndMemoryLegal : Prop :=
  (∀ s t : State, TokensDistinct s → step s = .next t → TokensDistinct t) ∧
    ∀ s t : State, MemoryCanonical s → step s = .next t → MemoryCanonical t

/-- "The value of PMEM at `a` is the last value in HIST(a)" (spec/10_state.md R26): every step keeps it, at every 8-aligned
address. It is what lets the model's engine read PMEM for the last value of HIST (log 6).
Rests on the spec's own decisions D22 of spec/92_eei_decisions.md.
Rests on the model's log 6. -/
def Obligations.StepKeepsHistoryAgrees : Prop :=
  ∀ s t : State, HistoryAgrees s → step s = .next t → HistoryAgrees t

/-- Every cached translation is of an S-page, by an observer of the launch (spec/10_state.md R28).
Rests on the spec's own decisions D23 of spec/92_eei_decisions.md.
Rests on the model's log 16. -/
def Obligations.StepKeepsTlbLegal : Prop :=
  ∀ s t : State, TlbLegal s → step s = .next t → TlbLegal t

/-- The launch fixes the parameters and the launch contents, and none of them changes during a run; the mark REFUSED stays set
and EV only grows (R212; spec/60_exceptions.md R193; spec/10_state.md R30).
Rests on the spec's own decisions D7, D26 of spec/92_eei_decisions.md.
Rests on the model's log 3. -/
def Obligations.RunKeepsLaunchAndMarks : Prop :=
  ∀ s t : State, step s = .next t → t.config = s.config ∧ t.launchMem = s.launchMem ∧
    (s.refused = true → t.refused = true) ∧ ∃ new, t.ev = new ++ s.ev

/-- The state after reset, for every launch and for State.reset: the values of R36, the launch contents as one published
write, and every invariant above. RIDX_REG and NEXT_TOKEN, which R36 leaves unspecified, are the model's choice (log 4),
so no clause names them.
Rests on the spec's own decisions D22, D26 of spec/92_eei_decisions.md.
Rests on the model's log 3, log 4, log 5. -/
def Obligations.LaunchState : Prop :=
  (∀ (c : Config) (m : Memory), m.wf = true →
    (State.launch c m).bound = false ∧ (State.launch c m).faulted = false ∧ (State.launch c m).faultReason = none ∧
    (State.launch c m).tokens = [] ∧ (State.launch c m).out = {} ∧ (State.launch c m).tlb = [] ∧
    (State.launch c m).refused = false ∧ (∀ a, histOf (State.launch c m) a = [(m.read64 a, true)]) ∧
    OutputsLegal (State.launch c m) ∧ FaultStateLegal (State.launch c m) ∧ TokensDistinct (State.launch c m) ∧
    MemoryCanonical (State.launch c m) ∧ HistoryAgrees (State.launch c m) ∧ TlbLegal (State.launch c m)) ∧
  State.reset = State.launch Config.sample []
end

