-- ==== Sys2Proof/Laws/Agents.lean ====
section
/-! SUPPORT. What a gap between two events can do (spec/10_state.md R39): the other agents' moves touch the TLBs, the
open walks, the observations, the remaining moves and the refusal of an overlapping command, and nothing the engine reads. -/

namespace Sys2Proof.Machine

/-- What is cached, observed or left open is nothing of the engine's. -/
@[simp] theorem coreOf_cacheResult (o : Nat) (va : Word) (r : Option (Word × PageSize)) (s : State) :
    coreOf (cacheResult o va r s) = coreOf s := by
  unfold cacheResult
  split
  · split <;> rfl
  · rfl

@[simp] theorem coreOf_observe (o : Nat) (va : Word) (kind : Access) (r : Option Word) (s : State) :
    coreOf (observe o va kind r s) = coreOf s := by
  unfold observe
  split <;> rfl

@[simp] theorem coreOf_finishWalk (n : Nat) (w : OpenWalk) (cache : Bool) (r : Option (Word × PageSize)) (s : State) :
    coreOf (finishWalk n w cache r s) = coreOf s := by
  unfold finishWalk
  split
  · rw [coreOf_cacheResult]; rfl
  · rw [coreOf_observe]; rfl

/-- A move changes nothing of the engine's. -/
@[simp] theorem coreOf_applyMove (s : State) (m : Move) : coreOf (applyMove s m) = coreOf s := by
  cases m with
  | fill o va kind picks unspec => exact coreOf_cacheResult _ _ _ _
  | drop e => rfl
  | translate o va kind cached picks unspec => exact coreOf_observe _ _ _ _ _
  | start o va kind =>
    simp only [applyMove]
    split <;> rfl
  | look n pick => rfl
  | finish n cache picks unspec =>
    simp only [applyMove]
    split
    · exact coreOf_finishWalk _ _ _ _ _
    · rfl
  | overlap =>
    simp only [applyMove, refuseOverlap]
    split <;> rfl

theorem coreOf_foldl_applyMove (ms : List Move) (s : State) : coreOf (ms.foldl applyMove s) = coreOf s := by
  induction ms generalizing s with
  | nil => rfl
  | cons m ms ih => rw [List.foldl_cons, ih, coreOf_applyMove]

/-- A gap changes nothing of the engine's. -/
@[simp] theorem coreOf_turn (s : State) : coreOf (turn s) = coreOf s := by
  unfold turn
  split
  · rfl
  · rw [coreOf_foldl_applyMove]
    rfl

/-- Recording an event changes nothing of the engine's. -/
@[simp] theorem coreOf_record (a : Act) (s : State) : coreOf (record a s) = coreOf s := by
  rw [record, coreOf_turn]
  rfl

/-- What two states with the same core agree on. -/
theorem coreOf_eq_iff (s t : State) :
    coreOf s = coreOf t ↔
      s.config = t.config ∧ s.inp = t.inp ∧ s.out = t.out ∧ s.bound = t.bound ∧ s.ridxReg = t.ridxReg ∧
        s.faulted = t.faulted ∧ s.faultReason = t.faultReason ∧ s.mem = t.mem ∧ s.launchMem = t.launchMem ∧
        s.writes = t.writes ∧ s.tokens = t.tokens ∧ s.nextToken = t.nextToken ∧ s.busy = t.busy ∧ s.pos = t.pos ∧
        s.script = t.script ∧ s.answers = t.answers ∧ s.allocCalls = t.allocCalls := by
  cases s
  cases t
  simp [coreOf]

/-! ## The fields of the core -/

section
variable {s t : State} (h : coreOf s = coreOf t)
include h

theorem core_config : s.config = t.config := by
  have e := congrArg State.config h
  exact e

theorem core_inp : s.inp = t.inp := by
  have e := congrArg State.inp h
  exact e

theorem core_out : s.out = t.out := by
  have e := congrArg State.out h
  exact e

theorem core_bound : s.bound = t.bound := by
  have e := congrArg State.bound h
  exact e

theorem core_ridxReg : s.ridxReg = t.ridxReg := by
  have e := congrArg State.ridxReg h
  exact e

theorem core_faulted : s.faulted = t.faulted := by
  have e := congrArg State.faulted h
  exact e

theorem core_faultReason : s.faultReason = t.faultReason := by
  have e := congrArg State.faultReason h
  exact e

theorem core_mem : s.mem = t.mem := by
  have e := congrArg State.mem h
  exact e

theorem core_launchMem : s.launchMem = t.launchMem := by
  have e := congrArg State.launchMem h
  exact e

theorem core_writes : s.writes = t.writes := by
  have e := congrArg State.writes h
  exact e

theorem core_tokens : s.tokens = t.tokens := by
  have e := congrArg State.tokens h
  exact e

theorem core_nextToken : s.nextToken = t.nextToken := by
  have e := congrArg State.nextToken h
  exact e

theorem core_busy : s.busy = t.busy := by
  have e := congrArg State.busy h
  exact e

theorem core_pos : s.pos = t.pos := by
  have e := congrArg State.pos h
  exact e

theorem core_script : s.script = t.script := by
  have e := congrArg State.script h
  exact e

theorem core_answers : s.answers = t.answers := by
  have e := congrArg State.answers h
  exact e

theorem core_allocCalls : s.allocCalls = t.allocCalls := by
  have e := congrArg State.allocCalls h
  exact e

end

section
variable (s : State) (a : Act)

@[simp] theorem turn_config : (turn s).config = s.config := core_config (coreOf_turn s)
@[simp] theorem turn_inp : (turn s).inp = s.inp := core_inp (coreOf_turn s)
@[simp] theorem turn_out : (turn s).out = s.out := core_out (coreOf_turn s)
@[simp] theorem turn_bound : (turn s).bound = s.bound := core_bound (coreOf_turn s)
@[simp] theorem turn_ridxReg : (turn s).ridxReg = s.ridxReg := core_ridxReg (coreOf_turn s)
@[simp] theorem turn_faulted : (turn s).faulted = s.faulted := core_faulted (coreOf_turn s)
@[simp] theorem turn_faultReason : (turn s).faultReason = s.faultReason := core_faultReason (coreOf_turn s)
@[simp] theorem turn_mem : (turn s).mem = s.mem := core_mem (coreOf_turn s)
@[simp] theorem turn_launchMem : (turn s).launchMem = s.launchMem := core_launchMem (coreOf_turn s)
@[simp] theorem turn_writes : (turn s).writes = s.writes := core_writes (coreOf_turn s)
@[simp] theorem turn_tokens : (turn s).tokens = s.tokens := core_tokens (coreOf_turn s)
@[simp] theorem turn_nextToken : (turn s).nextToken = s.nextToken := core_nextToken (coreOf_turn s)
@[simp] theorem turn_busy : (turn s).busy = s.busy := core_busy (coreOf_turn s)
@[simp] theorem turn_pos : (turn s).pos = s.pos := core_pos (coreOf_turn s)
@[simp] theorem turn_script : (turn s).script = s.script := core_script (coreOf_turn s)
@[simp] theorem turn_answers : (turn s).answers = s.answers := core_answers (coreOf_turn s)
@[simp] theorem turn_allocCalls : (turn s).allocCalls = s.allocCalls := core_allocCalls (coreOf_turn s)
@[simp] theorem record_config : (record a s).config = s.config := core_config (coreOf_record a s)
@[simp] theorem record_inp : (record a s).inp = s.inp := core_inp (coreOf_record a s)
@[simp] theorem record_out : (record a s).out = s.out := core_out (coreOf_record a s)
@[simp] theorem record_bound : (record a s).bound = s.bound := core_bound (coreOf_record a s)
@[simp] theorem record_ridxReg : (record a s).ridxReg = s.ridxReg := core_ridxReg (coreOf_record a s)
@[simp] theorem record_faulted : (record a s).faulted = s.faulted := core_faulted (coreOf_record a s)
@[simp] theorem record_faultReason : (record a s).faultReason = s.faultReason := core_faultReason (coreOf_record a s)
@[simp] theorem record_mem : (record a s).mem = s.mem := core_mem (coreOf_record a s)
@[simp] theorem record_launchMem : (record a s).launchMem = s.launchMem := core_launchMem (coreOf_record a s)
@[simp] theorem record_writes : (record a s).writes = s.writes := core_writes (coreOf_record a s)
@[simp] theorem record_tokens : (record a s).tokens = s.tokens := core_tokens (coreOf_record a s)
@[simp] theorem record_nextToken : (record a s).nextToken = s.nextToken := core_nextToken (coreOf_record a s)
@[simp] theorem record_busy : (record a s).busy = s.busy := core_busy (coreOf_record a s)
@[simp] theorem record_pos : (record a s).pos = s.pos := core_pos (coreOf_record a s)
@[simp] theorem record_script : (record a s).script = s.script := core_script (coreOf_record a s)
@[simp] theorem record_answers : (record a s).answers = s.answers := core_answers (coreOf_record a s)
@[simp] theorem record_allocCalls : (record a s).allocCalls = s.allocCalls := core_allocCalls (coreOf_record a s)

end

/-! ## The event history -/

theorem cacheResult_keeps (o : Nat) (va : Word) (r : Option (Word × PageSize)) (s : State) :
    (cacheResult o va r s).ev = s.ev ∧ (cacheResult o va r s).refused = s.refused := by
  unfold cacheResult
  split
  · split <;> exact ⟨rfl, rfl⟩
  · exact ⟨rfl, rfl⟩

theorem observe_keeps (o : Nat) (va : Word) (kind : Access) (r : Option Word) (s : State) :
    (observe o va kind r s).ev = s.ev ∧ (observe o va kind r s).refused = s.refused ∧
      (observe o va kind r s).tlb = s.tlb := by
  unfold observe
  split <;> exact ⟨rfl, rfl, rfl⟩

theorem finishWalk_keeps (n : Nat) (w : OpenWalk) (cache : Bool) (r : Option (Word × PageSize)) (s : State) :
    (finishWalk n w cache r s).ev = s.ev ∧ (finishWalk n w cache r s).refused = s.refused := by
  unfold finishWalk
  split
  · exact cacheResult_keeps _ _ _ _
  · exact ⟨(observe_keeps _ _ _ _ _).1, (observe_keeps _ _ _ _ _).2.1⟩

@[simp] theorem applyMove_ev (s : State) (m : Move) : (applyMove s m).ev = s.ev := by
  cases m with
  | fill o va kind picks unspec => exact (cacheResult_keeps _ _ _ _).1
  | drop e => rfl
  | translate o va kind cached picks unspec => exact (observe_keeps _ _ _ _ _).1
  | start o va kind =>
    simp only [applyMove]
    split <;> rfl
  | look n pick => rfl
  | finish n cache picks unspec =>
    simp only [applyMove]
    split
    · exact (finishWalk_keeps _ _ _ _ _).1
    · rfl
  | overlap =>
    simp only [applyMove, refuseOverlap]
    split <;> rfl

theorem foldl_applyMove_ev (ms : List Move) (s : State) : (ms.foldl applyMove s).ev = s.ev := by
  induction ms generalizing s with
  | nil => rfl
  | cons m ms ih => rw [List.foldl_cons, ih, applyMove_ev]

/-- The other agents' moves are no events of the block. -/
@[simp] theorem turn_ev (s : State) : (turn s).ev = s.ev := by
  unfold turn
  split
  · rfl
  · exact foldl_applyMove_ev _ _

/-- Recording an event puts it in EV, tagged with its command. -/
@[simp] theorem record_ev (a : Act) (s : State) : (record a s).ev = { pos := s.pos, cmd := s.inp.cmd, act := a } :: s.ev := by
  rw [record, turn_ev]

/-- Where no move is to come, a gap changes nothing. -/
theorem turn_of_no_moves (s : State) (h : s.slots = []) : turn s = s := by
  unfold turn
  rw [h]

/-! ## The invariants of the TLBs and of the refusal mark -/

theorem alignDown_aligned (a : Word) (sz : PageSize) : aligned (alignDown a sz) sz = true := by
  simp only [aligned, alignDown, beq_iff_eq, BitVec.and_assoc]
  cases sz <;> simp [offsetMask]

theorem va48_alignDown (a : Word) (sz : PageSize) : va48 (alignDown (va48 a) sz) = alignDown (va48 a) sz := by
  simp only [va48, alignDown]
  rw [BitVec.and_assoc, BitVec.and_comm (~~~offsetMask sz), ← BitVec.and_assoc, BitVec.and_assoc a, BitVec.and_self]

theorem cacheResult_keeps_TlbLegal (o : Nat) (va : Word) (r : Option (Word × PageSize)) (s : State) (h : TlbLegal s) :
    TlbLegal (cacheResult o va r s) := by
  unfold cacheResult
  split
  · split
    · rename_i ho
      intro e he
      simp only [addEntry] at he
      split at he
      · exact h e he
      · rcases List.mem_cons.1 he with rfl | he
        · exact ⟨ho, alignDown_aligned _ _, alignDown_aligned _ _, va48_alignDown _ _⟩
        · exact h e he
    · exact h
  · exact h

theorem observe_keeps_TlbLegal (o : Nat) (va : Word) (kind : Access) (r : Option Word) (s : State) (h : TlbLegal s) :
    TlbLegal (observe o va kind r s) := by
  unfold observe
  split <;> exact h

theorem applyMove_keeps_TlbLegal (s : State) (m : Move) (h : TlbLegal s) : TlbLegal (applyMove s m) := by
  cases m with
  | fill o va kind picks unspec => exact cacheResult_keeps_TlbLegal _ _ _ _ h
  | drop e =>
    intro e' he
    exact h e' (List.mem_filter.1 he).1
  | translate o va kind cached picks unspec => exact observe_keeps_TlbLegal _ _ _ _ _ h
  | start o va kind =>
    simp only [applyMove]
    split <;> exact h
  | look n pick => exact h
  | finish n cache picks unspec =>
    simp only [applyMove, finishWalk]
    split
    · split
      · exact cacheResult_keeps_TlbLegal _ _ _ _ h
      · exact observe_keeps_TlbLegal _ _ _ _ _ h
    · exact h
  | overlap =>
    simp only [applyMove, refuseOverlap]
    split <;> exact h

theorem foldl_applyMove_keeps_TlbLegal (ms : List Move) (s : State) (h : TlbLegal s) : TlbLegal (ms.foldl applyMove s) := by
  induction ms generalizing s with
  | nil => exact h
  | cons m ms ih => exact ih _ (applyMove_keeps_TlbLegal s m h)

/-- A gap keeps every cached translation legal. -/
theorem turn_keeps_TlbLegal (s : State) (h : TlbLegal s) : TlbLegal (turn s) := by
  unfold turn
  split
  · exact h
  · exact foldl_applyMove_keeps_TlbLegal _ _ h

theorem applyMove_keeps_refused (s : State) (m : Move) (h : s.refused = true) : (applyMove s m).refused = true := by
  cases m with
  | fill o va kind picks unspec => exact (cacheResult_keeps _ _ _ _).2.trans h
  | drop e => exact h
  | translate o va kind cached picks unspec => exact (observe_keeps _ _ _ _ _).2.1.trans h
  | start o va kind =>
    simp only [applyMove]
    split <;> exact h
  | look n pick => exact h
  | finish n cache picks unspec =>
    simp only [applyMove]
    split
    · exact (finishWalk_keeps _ _ _ _ _).2.trans h
    · exact h
  | overlap =>
    simp only [applyMove, refuseOverlap]
    split
    · rfl
    · exact h

theorem foldl_applyMove_keeps_refused (ms : List Move) (s : State) (h : s.refused = true) :
    (ms.foldl applyMove s).refused = true := by
  induction ms generalizing s with
  | nil => exact h
  | cons m ms ih => exact ih _ (applyMove_keeps_refused s m h)

/-- The mark REFUSED is a whole-run mark: no gap clears it. -/
theorem turn_keeps_refused (s : State) (h : s.refused = true) : (turn s).refused = true := by
  unfold turn
  split
  · exact h
  · exact foldl_applyMove_keeps_refused _ _ h

end Sys2Proof.Machine
end

