-- ==== Sys2Proof/Laws/Memory.lean ====
section
/-! SUPPORT. What memory does: a read after a write, and the canonical form that every write keeps (spec/10_state.md R25,
spec/20_memory.md R48). -/

namespace Sys2Proof.Machine

theorem Memory.read_insert (m : Memory) (a x : Nat) (b : Byte) :
    (Memory.insert m a b).read x = if x = a then b else m.read x := by
  induction m with
  | nil =>
    by_cases h : x = a
    · simp [Memory.insert, Memory.read, h]
    · simp [Memory.insert, Memory.read, h, Ne.symm h]
  | cons c m ih =>
    obtain ⟨k, v⟩ := c
    simp only [Memory.insert]
    split
    · by_cases h : x = a
      · simp [Memory.read, h]
      · simp [Memory.read, h, Ne.symm h]
    · split
      · rename_i h1 h2
        subst h2
        by_cases h : x = a
        · simp [Memory.read, h]
        · simp [Memory.read, h, Ne.symm h]
      · rename_i h1 h2
        simp only [Memory.read, ih]
        by_cases h : k = x
        · subst h
          simp [Ne.symm h2]
        · simp [h]

theorem Memory.read_filter (m : Memory) (a x : Nat) :
    Memory.read (m.filter (fun c => c.1 != a)) x = if x = a then Memory.unlisted else m.read x := by
  induction m with
  | nil => simp [Memory.read]
  | cons c m ih =>
    obtain ⟨k, v⟩ := c
    by_cases hk : k = a
    · subst hk
      simp only [List.filter, bne_self_eq_false, ih, Memory.read]
      by_cases h : x = k
      · simp [h]
      · simp [h, Ne.symm h]
    · have : (k != a) = true := by simp [hk]
      simp only [List.filter, this, Memory.read, ih]
      by_cases h : k = x
      · subst h
        simp [hk]
      · simp [h]

/-- A read after a write gives the byte written at that address and leaves every other address alone. -/
@[simp] theorem Memory.read_write (m : Memory) (a x : Nat) (b : Byte) :
    (Memory.write m a b).read x = if x = a then b else m.read x := by
  unfold Memory.write
  split
  · rename_i h
    rw [Memory.read_filter, h]
  · exact Memory.read_insert m a x b

/-! ## The canonical form -/

theorem Memory.wfFrom_mono (m : Memory) {lo lo' : Nat} (h : lo ≤ lo') (hm : Memory.wfFrom (some lo') m = true) :
    Memory.wfFrom (some lo) m = true := by
  cases m with
  | nil => rfl
  | cons c m =>
    obtain ⟨k, v⟩ := c
    simp only [Memory.wfFrom, Bool.and_eq_true, decide_eq_true_eq] at hm ⊢
    exact ⟨⟨by omega, hm.1.2⟩, hm.2⟩

theorem Memory.wfFrom_insert (m : Memory) (lo : Option Nat) (a : Nat) (b : Byte) (hb : b ≠ Memory.unlisted)
    (ha : ∀ l, lo = some l → l < a) (hm : Memory.wfFrom lo m = true) : Memory.wfFrom lo (Memory.insert m a b) = true := by
  induction m generalizing lo with
  | nil => cases lo <;> simp_all [Memory.insert, Memory.wfFrom]
  | cons c m ih =>
    obtain ⟨k, v⟩ := c
    have hk : v ≠ Memory.unlisted ∧ Memory.wfFrom (some k) m = true ∧ ∀ l, lo = some l → l < k := by
      cases lo <;> simp_all [Memory.wfFrom]
    simp only [Memory.insert]
    split
    · rename_i h1
      cases lo <;> simp_all [Memory.wfFrom]
    · split
      · rename_i h1 h2
        subst h2
        cases lo <;> simp_all [Memory.wfFrom]
      · rename_i h1 h2
        have := ih (some k) (by intro l hl; cases hl; omega) hk.2.1
        cases lo <;> simp_all [Memory.wfFrom]

theorem Memory.wfFrom_filter (m : Memory) (lo : Option Nat) (p : Host.Cell → Bool) (hm : Memory.wfFrom lo m = true) :
    Memory.wfFrom lo (m.filter p) = true := by
  induction m generalizing lo with
  | nil => exact hm
  | cons c m ih =>
    obtain ⟨k, v⟩ := c
    have hk : v ≠ Memory.unlisted ∧ Memory.wfFrom (some k) m = true ∧ ∀ l, lo = some l → l < k := by
      cases lo <;> simp_all [Memory.wfFrom]
    simp only [List.filter]
    split
    · have := ih (some k) hk.2.1
      cases lo <;> simp_all [Memory.wfFrom]
    · cases lo with
      | none =>
        have := ih (some k) hk.2.1
        revert this
        cases m.filter p <;> simp +contextual [Memory.wfFrom]
      | some l => exact ih (some l) (Memory.wfFrom_mono m (Nat.le_of_lt (hk.2.2 l rfl)) hk.2.1)

/-- A write keeps the canonical form. -/
theorem Memory.wf_write (m : Memory) (a : Nat) (b : Byte) (hm : m.wf = true) : (Memory.write m a b).wf = true := by
  unfold Memory.write
  split
  · exact Memory.wfFrom_filter m none _ hm
  · rename_i h
    exact Memory.wfFrom_insert m none a b h (by simp) hm

/-- A descriptor write keeps the canonical form. -/
theorem Memory.wf_write64 (m : Memory) (a : Nat) (v : Word) (hm : m.wf = true) : (m.write64 a v).wf = true := by
  unfold Memory.write64
  repeat apply Memory.wf_write
  exact hm

/-! ## Descriptors -/

/-- The byte at `x` after a descriptor write: byte `x - a` of the value inside the 8 bytes, the old byte outside. -/
theorem Memory.read_write64 (m : Memory) (a x : Nat) (v : Word) :
    (m.write64 a v).read x = if a ≤ x ∧ x < a + 8 then v.extractLsb' (8 * (x - a)) 8 else m.read x := by
  unfold Memory.write64
  simp only [Memory.read_write]
  by_cases h : a ≤ x ∧ x < a + 8
  · obtain ⟨k, rfl⟩ : ∃ k, x = a + k := ⟨x - a, by omega⟩
    have hk : k < 8 := by omega
    rcases k with _ | _ | _ | _ | _ | _ | _ | _ | k <;> first | omega | simp
  · rw [if_neg h]
    repeat rw [if_neg (by omega)]

/-- A byte outside the 8 bytes written is unchanged. -/
theorem Memory.read_write64_outside (m : Memory) (a x : Nat) (v : Word) (h : x < a ∨ a + 8 ≤ x) :
    (m.write64 a v).read x = m.read x := by
  rw [Memory.read_write64, if_neg (by omega)]

/-- A descriptor is its eight bytes, little-endian. -/
theorem Memory.read64_eq_of_read (m m' : Memory) (a : Nat) (h : ∀ k, k < 8 → m.read (a + k) = m'.read (a + k)) :
    m.read64 a = m'.read64 a := by
  unfold Memory.read64
  rw [h 7 (by omega), h 6 (by omega), h 5 (by omega), h 4 (by omega), h 3 (by omega), h 2 (by omega), h 1 (by omega)]
  have := h 0 (by omega)
  simp only [Nat.add_zero] at this
  rw [this]

theorem bytes_join (v : Word) :
    (v.extractLsb' 56 8 ++ v.extractLsb' 48 8 ++ v.extractLsb' 40 8 ++ v.extractLsb' 32 8 ++ v.extractLsb' 24 8 ++
      v.extractLsb' 16 8 ++ v.extractLsb' 8 8 ++ v.extractLsb' 0 8 : BitVec 64) = v := by
  ext i hi
  simp only [BitVec.getElem_append, BitVec.getElem_extractLsb']
  repeat' split
  all_goals
    rw [← BitVec.getLsbD_eq_getElem hi]
    congr 1
    omega

/-- A descriptor read after it was written at the same address. -/
@[simp] theorem Memory.read64_write64_same (m : Memory) (a : Nat) (v : Word) : (m.write64 a v).read64 a = v := by
  conv_rhs => rw [← bytes_join v]
  unfold Memory.read64
  simp only [Memory.read_write64]
  simp

/-- A descriptor at another 8-aligned address is unchanged. -/
theorem Memory.read64_write64_other (m : Memory) (a x : Nat) (v : Word) (h : x + 8 ≤ a ∨ a + 8 ≤ x) :
    (m.write64 a v).read64 x = m.read64 x :=
  Memory.read64_eq_of_read _ _ _ fun k hk => Memory.read_write64_outside m a (x + k) v (by omega)

end Sys2Proof.Machine
end

