-- ==== Sys2Proof/Laws/State.lean ====
section
/-! SUPPORT. Beside State: what each field is after each named update, one lemma per field per update. -/

namespace Sys2Proof.Machine

/-! ## beginCommand -/

@[simp] theorem beginCommand_config (s : State) : (beginCommand s).config = s.config := rfl
@[simp] theorem beginCommand_inp (s : State) : (beginCommand s).inp = s.inp := rfl
@[simp] theorem beginCommand_out (s : State) : (beginCommand s).out = {} := rfl
@[simp] theorem beginCommand_bound (s : State) : (beginCommand s).bound = s.bound := rfl
@[simp] theorem beginCommand_ridxReg (s : State) : (beginCommand s).ridxReg = s.ridxReg := rfl
@[simp] theorem beginCommand_faulted (s : State) : (beginCommand s).faulted = s.faulted := rfl
@[simp] theorem beginCommand_faultReason (s : State) : (beginCommand s).faultReason = s.faultReason := rfl
@[simp] theorem beginCommand_mem (s : State) : (beginCommand s).mem = s.mem := rfl
@[simp] theorem beginCommand_launchMem (s : State) : (beginCommand s).launchMem = s.launchMem := rfl
@[simp] theorem beginCommand_writes (s : State) : (beginCommand s).writes = s.writes := rfl
@[simp] theorem beginCommand_tlb (s : State) : (beginCommand s).tlb = s.tlb := rfl
@[simp] theorem beginCommand_tokens (s : State) : (beginCommand s).tokens = s.tokens := rfl
@[simp] theorem beginCommand_nextToken (s : State) : (beginCommand s).nextToken = s.nextToken := rfl
@[simp] theorem beginCommand_ev (s : State) : (beginCommand s).ev = s.ev := rfl
@[simp] theorem beginCommand_refused (s : State) : (beginCommand s).refused = s.refused := rfl
@[simp] theorem beginCommand_refusal (s : State) : (beginCommand s).refusal = none := rfl
@[simp] theorem beginCommand_busy (s : State) : (beginCommand s).busy = true := rfl
@[simp] theorem beginCommand_pos (s : State) : (beginCommand s).pos = s.pos := rfl
@[simp] theorem beginCommand_script (s : State) : (beginCommand s).script = s.script := rfl
@[simp] theorem beginCommand_answers (s : State) : (beginCommand s).answers = s.answers := rfl
@[simp] theorem beginCommand_allocCalls (s : State) : (beginCommand s).allocCalls = s.allocCalls := rfl
@[simp] theorem beginCommand_slots (s : State) : (beginCommand s).slots = s.slots := rfl
@[simp] theorem beginCommand_walks (s : State) : (beginCommand s).walks = s.walks := rfl
@[simp] theorem beginCommand_seen (s : State) : (beginCommand s).seen = s.seen := rfl

/-! ## completeCommand -/

@[simp] theorem completeCommand_config (r : OutPorts) (s : State) : (completeCommand r s).config = s.config := rfl
@[simp] theorem completeCommand_inp (r : OutPorts) (s : State) : (completeCommand r s).inp = s.inp := rfl
@[simp] theorem completeCommand_out (r : OutPorts) (s : State) : (completeCommand r s).out = okPorts r := rfl
@[simp] theorem completeCommand_bound (r : OutPorts) (s : State) : (completeCommand r s).bound = s.bound := rfl
@[simp] theorem completeCommand_ridxReg (r : OutPorts) (s : State) : (completeCommand r s).ridxReg = s.ridxReg := rfl
@[simp] theorem completeCommand_faulted (r : OutPorts) (s : State) : (completeCommand r s).faulted = s.faulted := rfl
@[simp] theorem completeCommand_faultReason (r : OutPorts) (s : State) : (completeCommand r s).faultReason = s.faultReason := rfl
@[simp] theorem completeCommand_mem (r : OutPorts) (s : State) : (completeCommand r s).mem = s.mem := rfl
@[simp] theorem completeCommand_launchMem (r : OutPorts) (s : State) : (completeCommand r s).launchMem = s.launchMem := rfl
@[simp] theorem completeCommand_writes (r : OutPorts) (s : State) : (completeCommand r s).writes = s.writes := rfl
@[simp] theorem completeCommand_tlb (r : OutPorts) (s : State) : (completeCommand r s).tlb = s.tlb := rfl
@[simp] theorem completeCommand_tokens (r : OutPorts) (s : State) : (completeCommand r s).tokens = s.tokens := rfl
@[simp] theorem completeCommand_nextToken (r : OutPorts) (s : State) : (completeCommand r s).nextToken = s.nextToken := rfl
@[simp] theorem completeCommand_ev (r : OutPorts) (s : State) : (completeCommand r s).ev = s.ev := rfl
@[simp] theorem completeCommand_refused (r : OutPorts) (s : State) : (completeCommand r s).refused = s.refused := rfl
@[simp] theorem completeCommand_refusal (r : OutPorts) (s : State) : (completeCommand r s).refusal = s.refusal := rfl
@[simp] theorem completeCommand_busy (r : OutPorts) (s : State) : (completeCommand r s).busy = false := rfl
@[simp] theorem completeCommand_pos (r : OutPorts) (s : State) : (completeCommand r s).pos = s.pos + 1 := rfl
@[simp] theorem completeCommand_script (r : OutPorts) (s : State) : (completeCommand r s).script = s.script := rfl
@[simp] theorem completeCommand_answers (r : OutPorts) (s : State) : (completeCommand r s).answers = s.answers := rfl
@[simp] theorem completeCommand_allocCalls (r : OutPorts) (s : State) : (completeCommand r s).allocCalls = s.allocCalls := rfl
@[simp] theorem completeCommand_slots (r : OutPorts) (s : State) : (completeCommand r s).slots = s.slots := rfl
@[simp] theorem completeCommand_walks (r : OutPorts) (s : State) : (completeCommand r s).walks = s.walks := rfl
@[simp] theorem completeCommand_seen (r : OutPorts) (s : State) : (completeCommand r s).seen = s.seen := rfl

/-! ## returnError -/

@[simp] theorem returnError_config (c : Status) (s : State) : (returnError c s).config = s.config := rfl
@[simp] theorem returnError_inp (c : Status) (s : State) : (returnError c s).inp = s.inp := rfl
@[simp] theorem returnError_out (c : Status) (s : State) : (returnError c s).out = errPorts c := rfl
@[simp] theorem returnError_bound (c : Status) (s : State) : (returnError c s).bound = s.bound := rfl
@[simp] theorem returnError_ridxReg (c : Status) (s : State) : (returnError c s).ridxReg = s.ridxReg := rfl
@[simp] theorem returnError_faulted (c : Status) (s : State) : (returnError c s).faulted = s.faulted := rfl
@[simp] theorem returnError_faultReason (c : Status) (s : State) : (returnError c s).faultReason = s.faultReason := rfl
@[simp] theorem returnError_mem (c : Status) (s : State) : (returnError c s).mem = s.mem := rfl
@[simp] theorem returnError_launchMem (c : Status) (s : State) : (returnError c s).launchMem = s.launchMem := rfl
@[simp] theorem returnError_writes (c : Status) (s : State) : (returnError c s).writes = s.writes := rfl
@[simp] theorem returnError_tlb (c : Status) (s : State) : (returnError c s).tlb = s.tlb := rfl
@[simp] theorem returnError_tokens (c : Status) (s : State) : (returnError c s).tokens = s.tokens := rfl
@[simp] theorem returnError_nextToken (c : Status) (s : State) : (returnError c s).nextToken = s.nextToken := rfl
@[simp] theorem returnError_ev (c : Status) (s : State) : (returnError c s).ev = s.ev := rfl
@[simp] theorem returnError_refused (c : Status) (s : State) : (returnError c s).refused = s.refused := rfl
@[simp] theorem returnError_refusal (c : Status) (s : State) : (returnError c s).refusal = s.refusal := rfl
@[simp] theorem returnError_busy (c : Status) (s : State) : (returnError c s).busy = false := rfl
@[simp] theorem returnError_pos (c : Status) (s : State) : (returnError c s).pos = s.pos + 1 := rfl
@[simp] theorem returnError_script (c : Status) (s : State) : (returnError c s).script = s.script := rfl
@[simp] theorem returnError_answers (c : Status) (s : State) : (returnError c s).answers = s.answers := rfl
@[simp] theorem returnError_allocCalls (c : Status) (s : State) : (returnError c s).allocCalls = s.allocCalls := rfl
@[simp] theorem returnError_slots (c : Status) (s : State) : (returnError c s).slots = s.slots := rfl
@[simp] theorem returnError_walks (c : Status) (s : State) : (returnError c s).walks = s.walks := rfl
@[simp] theorem returnError_seen (c : Status) (s : State) : (returnError c s).seen = s.seen := rfl

/-! ## takeFault -/

@[simp] theorem takeFault_config (r : FaultReason) (s : State) : (takeFault r s).config = s.config := rfl
@[simp] theorem takeFault_inp (r : FaultReason) (s : State) : (takeFault r s).inp = s.inp := rfl
@[simp] theorem takeFault_out (r : FaultReason) (s : State) : (takeFault r s).out = {} := rfl
@[simp] theorem takeFault_bound (r : FaultReason) (s : State) : (takeFault r s).bound = s.bound := rfl
@[simp] theorem takeFault_ridxReg (r : FaultReason) (s : State) : (takeFault r s).ridxReg = s.ridxReg := rfl
@[simp] theorem takeFault_faulted (r : FaultReason) (s : State) : (takeFault r s).faulted = true := rfl
@[simp] theorem takeFault_faultReason (r : FaultReason) (s : State) : (takeFault r s).faultReason = some r := rfl
@[simp] theorem takeFault_mem (r : FaultReason) (s : State) : (takeFault r s).mem = s.mem := rfl
@[simp] theorem takeFault_launchMem (r : FaultReason) (s : State) : (takeFault r s).launchMem = s.launchMem := rfl
@[simp] theorem takeFault_writes (r : FaultReason) (s : State) : (takeFault r s).writes = s.writes := rfl
@[simp] theorem takeFault_tlb (r : FaultReason) (s : State) : (takeFault r s).tlb = s.tlb := rfl
@[simp] theorem takeFault_tokens (r : FaultReason) (s : State) : (takeFault r s).tokens = s.tokens := rfl
@[simp] theorem takeFault_nextToken (r : FaultReason) (s : State) : (takeFault r s).nextToken = s.nextToken := rfl
@[simp] theorem takeFault_ev (r : FaultReason) (s : State) : (takeFault r s).ev = s.ev := rfl
@[simp] theorem takeFault_refused (r : FaultReason) (s : State) : (takeFault r s).refused = s.refused := rfl
@[simp] theorem takeFault_refusal (r : FaultReason) (s : State) : (takeFault r s).refusal = s.refusal := rfl
@[simp] theorem takeFault_busy (r : FaultReason) (s : State) : (takeFault r s).busy = false := rfl
@[simp] theorem takeFault_pos (r : FaultReason) (s : State) : (takeFault r s).pos = s.pos + 1 := rfl
@[simp] theorem takeFault_script (r : FaultReason) (s : State) : (takeFault r s).script = s.script := rfl
@[simp] theorem takeFault_answers (r : FaultReason) (s : State) : (takeFault r s).answers = s.answers := rfl
@[simp] theorem takeFault_allocCalls (r : FaultReason) (s : State) : (takeFault r s).allocCalls = s.allocCalls := rfl
@[simp] theorem takeFault_slots (r : FaultReason) (s : State) : (takeFault r s).slots = s.slots := rfl
@[simp] theorem takeFault_walks (r : FaultReason) (s : State) : (takeFault r s).walks = s.walks := rfl
@[simp] theorem takeFault_seen (r : FaultReason) (s : State) : (takeFault r s).seen = s.seen := rfl

/-! ## refuseCommand -/

@[simp] theorem refuseCommand_config (r : RefuseReason) (s : State) : (refuseCommand r s).config = s.config := rfl
@[simp] theorem refuseCommand_inp (r : RefuseReason) (s : State) : (refuseCommand r s).inp = s.inp := rfl
@[simp] theorem refuseCommand_out (r : RefuseReason) (s : State) : (refuseCommand r s).out = {} := rfl
@[simp] theorem refuseCommand_bound (r : RefuseReason) (s : State) : (refuseCommand r s).bound = s.bound := rfl
@[simp] theorem refuseCommand_ridxReg (r : RefuseReason) (s : State) : (refuseCommand r s).ridxReg = s.ridxReg := rfl
@[simp] theorem refuseCommand_faulted (r : RefuseReason) (s : State) : (refuseCommand r s).faulted = s.faulted := rfl
@[simp] theorem refuseCommand_faultReason (r : RefuseReason) (s : State) : (refuseCommand r s).faultReason = s.faultReason := rfl
@[simp] theorem refuseCommand_mem (r : RefuseReason) (s : State) : (refuseCommand r s).mem = s.mem := rfl
@[simp] theorem refuseCommand_launchMem (r : RefuseReason) (s : State) : (refuseCommand r s).launchMem = s.launchMem := rfl
@[simp] theorem refuseCommand_writes (r : RefuseReason) (s : State) : (refuseCommand r s).writes = s.writes := rfl
@[simp] theorem refuseCommand_tlb (r : RefuseReason) (s : State) : (refuseCommand r s).tlb = s.tlb := rfl
@[simp] theorem refuseCommand_tokens (r : RefuseReason) (s : State) : (refuseCommand r s).tokens = s.tokens := rfl
@[simp] theorem refuseCommand_nextToken (r : RefuseReason) (s : State) : (refuseCommand r s).nextToken = s.nextToken := rfl
@[simp] theorem refuseCommand_ev (r : RefuseReason) (s : State) : (refuseCommand r s).ev = s.ev := rfl
@[simp] theorem refuseCommand_refused (r : RefuseReason) (s : State) : (refuseCommand r s).refused = true := rfl
@[simp] theorem refuseCommand_refusal (r : RefuseReason) (s : State) : (refuseCommand r s).refusal = some r := rfl
@[simp] theorem refuseCommand_busy (r : RefuseReason) (s : State) : (refuseCommand r s).busy = s.busy := rfl
@[simp] theorem refuseCommand_pos (r : RefuseReason) (s : State) : (refuseCommand r s).pos = s.pos + 1 := rfl
@[simp] theorem refuseCommand_script (r : RefuseReason) (s : State) : (refuseCommand r s).script = s.script := rfl
@[simp] theorem refuseCommand_answers (r : RefuseReason) (s : State) : (refuseCommand r s).answers = s.answers := rfl
@[simp] theorem refuseCommand_allocCalls (r : RefuseReason) (s : State) : (refuseCommand r s).allocCalls = s.allocCalls := rfl
@[simp] theorem refuseCommand_slots (r : RefuseReason) (s : State) : (refuseCommand r s).slots = s.slots := rfl
@[simp] theorem refuseCommand_walks (r : RefuseReason) (s : State) : (refuseCommand r s).walks = s.walks := rfl
@[simp] theorem refuseCommand_seen (r : RefuseReason) (s : State) : (refuseCommand r s).seen = s.seen := rfl

/-! ## present -/

@[simp] theorem present_config (p : InPorts) (l : List InPorts) (s : State) : (present p l s).config = s.config := rfl
@[simp] theorem present_inp (p : InPorts) (l : List InPorts) (s : State) : (present p l s).inp = p := rfl
@[simp] theorem present_out (p : InPorts) (l : List InPorts) (s : State) : (present p l s).out = s.out := rfl
@[simp] theorem present_bound (p : InPorts) (l : List InPorts) (s : State) : (present p l s).bound = s.bound := rfl
@[simp] theorem present_ridxReg (p : InPorts) (l : List InPorts) (s : State) : (present p l s).ridxReg = s.ridxReg := rfl
@[simp] theorem present_faulted (p : InPorts) (l : List InPorts) (s : State) : (present p l s).faulted = s.faulted := rfl
@[simp] theorem present_faultReason (p : InPorts) (l : List InPorts) (s : State) : (present p l s).faultReason = s.faultReason := rfl
@[simp] theorem present_mem (p : InPorts) (l : List InPorts) (s : State) : (present p l s).mem = s.mem := rfl
@[simp] theorem present_launchMem (p : InPorts) (l : List InPorts) (s : State) : (present p l s).launchMem = s.launchMem := rfl
@[simp] theorem present_writes (p : InPorts) (l : List InPorts) (s : State) : (present p l s).writes = s.writes := rfl
@[simp] theorem present_tlb (p : InPorts) (l : List InPorts) (s : State) : (present p l s).tlb = s.tlb := rfl
@[simp] theorem present_tokens (p : InPorts) (l : List InPorts) (s : State) : (present p l s).tokens = s.tokens := rfl
@[simp] theorem present_nextToken (p : InPorts) (l : List InPorts) (s : State) : (present p l s).nextToken = s.nextToken := rfl
@[simp] theorem present_ev (p : InPorts) (l : List InPorts) (s : State) : (present p l s).ev = s.ev := rfl
@[simp] theorem present_refused (p : InPorts) (l : List InPorts) (s : State) : (present p l s).refused = s.refused := rfl
@[simp] theorem present_refusal (p : InPorts) (l : List InPorts) (s : State) : (present p l s).refusal = s.refusal := rfl
@[simp] theorem present_busy (p : InPorts) (l : List InPorts) (s : State) : (present p l s).busy = s.busy := rfl
@[simp] theorem present_pos (p : InPorts) (l : List InPorts) (s : State) : (present p l s).pos = s.pos := rfl
@[simp] theorem present_script (p : InPorts) (l : List InPorts) (s : State) : (present p l s).script = l := rfl
@[simp] theorem present_answers (p : InPorts) (l : List InPorts) (s : State) : (present p l s).answers = s.answers := rfl
@[simp] theorem present_allocCalls (p : InPorts) (l : List InPorts) (s : State) : (present p l s).allocCalls = s.allocCalls := rfl
@[simp] theorem present_slots (p : InPorts) (l : List InPorts) (s : State) : (present p l s).slots = s.slots := rfl
@[simp] theorem present_walks (p : InPorts) (l : List InPorts) (s : State) : (present p l s).walks = s.walks := rfl
@[simp] theorem present_seen (p : InPorts) (l : List InPorts) (s : State) : (present p l s).seen = s.seen := rfl

/-! ## store64 -/

@[simp] theorem store64_config (a : Nat) (v : Word) (s : State) : (store64 a v s).config = s.config := rfl
@[simp] theorem store64_inp (a : Nat) (v : Word) (s : State) : (store64 a v s).inp = s.inp := rfl
@[simp] theorem store64_out (a : Nat) (v : Word) (s : State) : (store64 a v s).out = s.out := rfl
@[simp] theorem store64_bound (a : Nat) (v : Word) (s : State) : (store64 a v s).bound = s.bound := rfl
@[simp] theorem store64_ridxReg (a : Nat) (v : Word) (s : State) : (store64 a v s).ridxReg = s.ridxReg := rfl
@[simp] theorem store64_faulted (a : Nat) (v : Word) (s : State) : (store64 a v s).faulted = s.faulted := rfl
@[simp] theorem store64_faultReason (a : Nat) (v : Word) (s : State) : (store64 a v s).faultReason = s.faultReason := rfl
@[simp] theorem store64_mem (a : Nat) (v : Word) (s : State) : (store64 a v s).mem = s.mem.write64 a v := rfl
@[simp] theorem store64_launchMem (a : Nat) (v : Word) (s : State) : (store64 a v s).launchMem = s.launchMem := rfl
@[simp] theorem store64_writes (a : Nat) (v : Word) (s : State) : (store64 a v s).writes = { pa := a, val := v, published := false } :: s.writes := rfl
@[simp] theorem store64_tlb (a : Nat) (v : Word) (s : State) : (store64 a v s).tlb = s.tlb := rfl
@[simp] theorem store64_tokens (a : Nat) (v : Word) (s : State) : (store64 a v s).tokens = s.tokens := rfl
@[simp] theorem store64_nextToken (a : Nat) (v : Word) (s : State) : (store64 a v s).nextToken = s.nextToken := rfl
@[simp] theorem store64_ev (a : Nat) (v : Word) (s : State) : (store64 a v s).ev = s.ev := rfl
@[simp] theorem store64_refused (a : Nat) (v : Word) (s : State) : (store64 a v s).refused = s.refused := rfl
@[simp] theorem store64_refusal (a : Nat) (v : Word) (s : State) : (store64 a v s).refusal = s.refusal := rfl
@[simp] theorem store64_busy (a : Nat) (v : Word) (s : State) : (store64 a v s).busy = s.busy := rfl
@[simp] theorem store64_pos (a : Nat) (v : Word) (s : State) : (store64 a v s).pos = s.pos := rfl
@[simp] theorem store64_script (a : Nat) (v : Word) (s : State) : (store64 a v s).script = s.script := rfl
@[simp] theorem store64_answers (a : Nat) (v : Word) (s : State) : (store64 a v s).answers = s.answers := rfl
@[simp] theorem store64_allocCalls (a : Nat) (v : Word) (s : State) : (store64 a v s).allocCalls = s.allocCalls := rfl
@[simp] theorem store64_slots (a : Nat) (v : Word) (s : State) : (store64 a v s).slots = s.slots := rfl
@[simp] theorem store64_walks (a : Nat) (v : Word) (s : State) : (store64 a v s).walks = s.walks := rfl
@[simp] theorem store64_seen (a : Nat) (v : Word) (s : State) : (store64 a v s).seen = s.seen := rfl

/-! ## State.launch -/

@[simp] theorem launch_config (c : Config) (m : Memory) : (State.launch c m).config = c := rfl
@[simp] theorem launch_inp (c : Config) (m : Memory) : (State.launch c m).inp = InPorts.zero := rfl
@[simp] theorem launch_out (c : Config) (m : Memory) : (State.launch c m).out = {} := rfl
@[simp] theorem launch_bound (c : Config) (m : Memory) : (State.launch c m).bound = false := rfl
@[simp] theorem launch_ridxReg (c : Config) (m : Memory) : (State.launch c m).ridxReg = 0 := rfl
@[simp] theorem launch_faulted (c : Config) (m : Memory) : (State.launch c m).faulted = false := rfl
@[simp] theorem launch_faultReason (c : Config) (m : Memory) : (State.launch c m).faultReason = none := rfl
@[simp] theorem launch_mem (c : Config) (m : Memory) : (State.launch c m).mem = m := rfl
@[simp] theorem launch_launchMem (c : Config) (m : Memory) : (State.launch c m).launchMem = m := rfl
@[simp] theorem launch_writes (c : Config) (m : Memory) : (State.launch c m).writes = [] := rfl
@[simp] theorem launch_tlb (c : Config) (m : Memory) : (State.launch c m).tlb = [] := rfl
@[simp] theorem launch_tokens (c : Config) (m : Memory) : (State.launch c m).tokens = [] := rfl
@[simp] theorem launch_nextToken (c : Config) (m : Memory) : (State.launch c m).nextToken = 0 := rfl
@[simp] theorem launch_ev (c : Config) (m : Memory) : (State.launch c m).ev = [] := rfl
@[simp] theorem launch_refused (c : Config) (m : Memory) : (State.launch c m).refused = false := rfl
@[simp] theorem launch_refusal (c : Config) (m : Memory) : (State.launch c m).refusal = none := rfl
@[simp] theorem launch_busy (c : Config) (m : Memory) : (State.launch c m).busy = false := rfl
@[simp] theorem launch_pos (c : Config) (m : Memory) : (State.launch c m).pos = 0 := rfl
@[simp] theorem launch_script (c : Config) (m : Memory) : (State.launch c m).script = [] := rfl
@[simp] theorem launch_answers (c : Config) (m : Memory) : (State.launch c m).answers = [] := rfl
@[simp] theorem launch_allocCalls (c : Config) (m : Memory) : (State.launch c m).allocCalls = 0 := rfl
@[simp] theorem launch_slots (c : Config) (m : Memory) : (State.launch c m).slots = [] := rfl
@[simp] theorem launch_walks (c : Config) (m : Memory) : (State.launch c m).walks = [] := rfl
@[simp] theorem launch_seen (c : Config) (m : Memory) : (State.launch c m).seen = [] := rfl

end Sys2Proof.Machine
end

