-- ==== Sys2Proof/Laws/Engine.lean ====
section
/-! SUPPORT. The engine's accesses: one lemma per shared operation that says everything it can do. -/

namespace Sys2Proof.Machine

/-! ## Alignment (spec/20_memory.md R50) -/

theorem and_seven_iff (a : Word) : a &&& 7 = 0 ↔ a.toNat % 8 = 0 := by
  rw [← BitVec.toNat_inj, BitVec.toNat_and]
  exact (Nat.and_two_pow_sub_one_eq_mod a.toNat 3) ▸ Iff.rfl

theorem aligned8_iff (a : Word) : aligned8 a = true ↔ a.toNat % 8 = 0 := by
  rw [aligned8, beq_iff_eq, and_seven_iff]

theorem aligned8_add {a b : Word} (ha : aligned8 a = true) (hb : aligned8 b = true) : aligned8 (a + b) = true := by
  rw [aligned8_iff] at *
  rw [BitVec.toNat_add]
  omega

theorem aligned8_pteAddr (d : Word) : aligned8 (pteAddr d) = true := by
  rw [aligned8, beq_iff_eq, pteAddr, BitVec.and_assoc]
  have : addrMask &&& 7 = 0 := by decide
  rw [this]
  exact BitVec.and_zero

theorem aligned8_offsetIn (a : Word) (sz : PageSize) (h : aligned8 a = true) : aligned8 (offsetIn a sz) = true := by
  rw [aligned8, beq_iff_eq] at *
  rw [offsetIn, BitVec.and_assoc, BitVec.and_comm (offsetMask sz), ← BitVec.and_assoc, h]
  exact BitVec.zero_and

theorem aligned8_mul8 (i : Nat) : aligned8 (BitVec.ofNat 64 (8 * i)) = true := by
  rw [aligned8_iff, BitVec.toNat_ofNat]
  omega

theorem aligned8_entryAt (t : Word) (i : Nat) (h : aligned8 t = true) : aligned8 (entryAt t i) = true :=
  aligned8_add h (aligned8_mul8 i)

theorem aligned8_of_aligned {a : Word} {sz : PageSize} (h : aligned a sz = true) : aligned8 a = true := by
  rw [aligned, beq_iff_eq] at h
  rw [aligned8, beq_iff_eq]
  have : (7 : Word) = offsetMask sz &&& 7 := by cases sz <;> decide
  rw [this, ← BitVec.and_assoc, h]
  exact BitVec.zero_and

theorem aligned_va4 (a b c d : BitVec 9) : va4 a b c d &&& 0xFFF = 0 := by
  ext i hi
  simp only [va4, BitVec.getElem_and, BitVec.getElem_zero, BitVec.getElem_append]
  by_cases h : i < 12
  · simp [h]
  · have : (0xFFF#64)[i] = false := by
      rw [← BitVec.getLsbD_eq_getElem]
      have : (0xFFF#64).getLsbD i = (4095#64).getLsbD i := rfl
      simp only [BitVec.getLsbD_ofNat]
      have h2 : Nat.testBit 4095 i = false := by
        apply Nat.testBit_lt_two_pow
        calc 4095 < 2 ^ 12 := by decide
          _ ≤ 2 ^ i := Nat.pow_le_pow_right (by decide) (by omega)
      simp [h2]
    simp [this]

theorem canon_and_low (c : VaCanon) (v : Word) (h : v &&& 0xFFF = 0) : canon c v &&& 0xFFF = 0 := by
  cases c with
  | zero => exact h
  | sign47 =>
    rw [← h]
    ext i hi
    simp only [canon, BitVec.getElem_and]
    by_cases h12 : i < 12
    · congr 1
      rw [← BitVec.getLsbD_eq_getElem, ← BitVec.getLsbD_eq_getElem, BitVec.getLsbD_signExtend]
      simp [show i < 64 by omega, show i < 48 by omega]
    · have : (0xFFF#64)[i] = false := by
        rw [← BitVec.getLsbD_eq_getElem]
        simp only [BitVec.getLsbD_ofNat]
        have h2 : Nat.testBit 4095 i = false := by
          apply Nat.testBit_lt_two_pow
          calc 4095 < 2 ^ 12 := by decide
            _ ≤ 2 ^ i := Nat.pow_le_pow_right (by decide) (by omega)
        simp [h2]
      simp [this]

/-- Every TableVA is 4096-aligned (spec/42_recursive_walk.md R146). -/
theorem tableVa_aligned (c : VaCanon) (r : BitVec 9) (l : Level) (p : Word) : aligned (tableVa c r l p) .k4 = true := by
  rw [aligned, beq_iff_eq]
  cases l <;> exact canon_and_low _ _ (aligned_va4 _ _ _ _)

theorem aligned8_entryVa (c : VaCanon) (r : BitVec 9) (l : Level) (p : Word) : aligned8 (entryVa c r l p) = true :=
  aligned8_entryAt _ _ (aligned8_of_aligned (tableVa_aligned c r l p))

/-! ## The walk -/

/-- A walk that reaches an address reaches the target of a descriptor plus an offset of the virtual address. -/
theorem walkFrom_okay {σ : Type} {desc : Nat → σ → Option Word × σ} {perm : List Word → Bool} {va : Word} {rest : List Level}
    {l : Level} {t : Word} {chain : List Word} {st : σ} {pa : Word} {sz : PageSize}
    (h : (walkFrom desc perm va l rest t chain st).1 = .okay pa sz) : ∃ d, pa = pteAddr d + offsetIn va sz := by
  induction rest generalizing l t chain st with
  | nil =>
    unfold walkFrom at h
    split at h
    · simp at h
    · split at h
      · simp at h
      · split at h
        · split at h
          · simp at h
          · split at h
            · simp at h
            · split at h
              · simp at h
              · simp only [WalkResult.okay.injEq] at h
                obtain ⟨rfl, rfl⟩ := h
                exact ⟨_, rfl⟩
        · simp only at h
          split at h
          · simp at h
          · simp only [WalkResult.okay.injEq] at h
            obtain ⟨rfl, rfl⟩ := h
            exact ⟨_, rfl⟩
  | cons l' rest ih =>
    unfold walkFrom at h
    split at h
    · simp at h
    · split at h
      · simp at h
      · split at h
        · split at h
          · simp at h
          · split at h
            · simp at h
            · split at h
              · simp at h
              · simp only [WalkResult.okay.injEq] at h
                obtain ⟨rfl, rfl⟩ := h
                exact ⟨_, rfl⟩
        · exact ih h

/-- An 8-aligned virtual address reaches an 8-aligned physical address. -/
theorem reach_aligned {s : State} {kind : Access} {va : Word} {a : Nat} (hva : aligned8 va = true)
    (h : reach s kind va = some a) : a % 8 = 0 := by
  unfold reach at h
  split at h
  · rename_i pa sz hw
    split at h
    · obtain ⟨d, hd⟩ := walkFrom_okay hw
      have := aligned8_add (aligned8_pteAddr d) (aligned8_offsetIn va sz hva)
      rw [← hd, aligned8_iff] at this
      simp only [Option.some.injEq] at h
      omega
    · simp at h
  · simp at h
  · simp at h

theorem reach_inPmem {s : State} {kind : Access} {va : Word} {a : Nat} (h : reach s kind va = some a) :
    inPmem s.config a = true := by
  unfold reach at h
  split at h
  · split at h
    · simp only [Option.some.injEq] at h
      subst h
      assumption
    · simp at h
  · simp at h
  · simp at h

/-- What an engine access reaches depends on the core of the state only. -/
theorem walkNow_core {s t : State} (h : coreOf s = coreOf t) (kind : Access) (va : Word) :
    walkNow s kind va = walkNow t kind va := by
  have e : ∀ a acc, descNow s a acc = descNow t a acc := by
    intro a acc
    simp only [descNow, core_config h, core_mem h]
  simp only [walkNow, core_config h, funext fun a => funext (e a)]

theorem reach_core {s t : State} (h : coreOf s = coreOf t) (kind : Access) (va : Word) : reach s kind va = reach t kind va := by
  simp only [reach, walkNow_core h, core_config h]

theorem readNow_core {s t : State} (h : coreOf s = coreOf t) (va : Word) : readNow s va = readNow t va := by
  simp only [readNow, reach_core h, core_mem h]

theorem entryVaOf_core {s t : State} (h : coreOf s = coreOf t) (l : Level) (p : Word) : entryVaOf s l p = entryVaOf t l p := by
  simp only [entryVaOf, core_config h, core_ridxReg h]

theorem tableVaOf_core {s t : State} (h : coreOf s = coreOf t) (l : Level) (p : Word) : tableVaOf s l p = tableVaOf t l p := by
  simp only [tableVaOf, core_config h, core_ridxReg h]

/-! ## Counting events (spec/70_reset_and_hazards.md R228) -/

@[simp] theorem eventCount_record (a : Act) (s : State) :
    eventCount (record a s) = eventCount s + if countedEvent { pos := s.pos, cmd := s.inp.cmd, act := a } then 1 else 0 := by
  simp [eventCount, List.countP_cons]

/-- The walks of an engine access only record PhysReads: the state after them has the same core and the same count. -/
theorem walkFrom_physRead (perm : List Word → Bool) (va : Word) (rest : List Level) (l : Level) (t : Word) (chain : List Word)
    (s0 s : State) (acc : List Nat) (h : coreOf s = coreOf s0) :
    (walkFrom physRead perm va l rest t chain s).1 = (walkFrom (descNow s0) perm va l rest t chain acc).1 ∧
      coreOf (walkFrom physRead perm va l rest t chain s).2 = coreOf s0 ∧
      eventCount (walkFrom physRead perm va l rest t chain s).2 = eventCount s := by
  have hd : ∀ a, (physRead a s).1 = (descNow s0 a acc).1 := by
    intro a
    simp only [physRead, descNow, core_config h, core_mem h]
    split <;> rfl
  have hc : ∀ a, coreOf (physRead a s).2 = coreOf s0 := by
    intro a
    simp only [physRead]
    split
    · rw [coreOf_record, h]
    · exact h
  have hn : ∀ a, eventCount (physRead a s).2 = eventCount s := by
    intro a
    simp only [physRead]
    split
    · simp [countedEvent]
    · rfl
  induction rest generalizing l t chain s acc with
  | nil =>
    have hd' := hd (t.toNat + 8 * (idx l va).toNat)
    have hc' := hc (t.toNat + 8 * (idx l va).toNat)
    have hn' := hn (t.toNat + 8 * (idx l va).toNat)
    unfold walkFrom
    generalize physRead (t.toNat + 8 * (idx l va).toNat) s = r at *
    generalize descNow s0 (t.toNat + 8 * (idx l va).toNat) acc = q at *
    obtain ⟨r1, r2⟩ := r
    obtain ⟨q1, q2⟩ := q
    simp only at hd' hc' hn'
    subst hd'
    cases r1 with
    | none => exact ⟨rfl, hc', hn'⟩
    | some d =>
      simp only
      split
      · exact ⟨rfl, hc', hn'⟩
      · split
        · split
          · exact ⟨rfl, hc', hn'⟩
          · split
            · exact ⟨rfl, hc', hn'⟩
            · split <;> exact ⟨rfl, hc', hn'⟩
        · split <;> exact ⟨rfl, hc', hn'⟩
  | cons l' rest ih =>
    have hd' := hd (t.toNat + 8 * (idx l va).toNat)
    have hc' := hc (t.toNat + 8 * (idx l va).toNat)
    have hn' := hn (t.toNat + 8 * (idx l va).toNat)
    unfold walkFrom
    generalize physRead (t.toNat + 8 * (idx l va).toNat) s = r at *
    generalize descNow s0 (t.toNat + 8 * (idx l va).toNat) acc = q at *
    obtain ⟨r1, r2⟩ := r
    obtain ⟨q1, q2⟩ := q
    simp only at hd' hc' hn'
    subst hd'
    cases r1 with
    | none => exact ⟨rfl, hc', hn'⟩
    | some d =>
      simp only
      split
      · exact ⟨rfl, hc', hn'⟩
      · split
        · split
          · exact ⟨rfl, hc', hn'⟩
          · split
            · exact ⟨rfl, hc', hn'⟩
            · split <;> exact ⟨rfl, hc', hn'⟩
        · have := ih l' (pteAddr d) (chain ++ [d]) r2 q2 hc'
            (by intro a; simp only [physRead, descNow, core_config hc', core_mem hc']; split <;> rfl)
            (by
              intro a
              simp only [physRead]
              split
              · rw [coreOf_record, hc']
              · exact hc')
            (by
              intro a
              simp only [physRead]
              split
              · simp [countedEvent]
              · rfl)
          exact ⟨this.1, this.2.1, this.2.2.trans hn'⟩

/-- Everything the walk of an engine access does. -/
theorem hwWalk_spec (kind : Access) (va : Word) (s : State) :
    (hwWalk kind va s).1 = (walkNow s kind va).1 ∧ coreOf (hwWalk kind va s).2 = coreOf s ∧
      eventCount (hwWalk kind va s).2 = eventCount s :=
  walkFrom_physRead _ _ _ _ _ _ s s [] rfl

/-! ## MemRead and MemWrite (spec/20_memory.md R55) -/

/-- Everything MemRead does: it gives the descriptor the address reaches, or raises MmuFault. -/
theorem memRead_cases (va : Word) (s : State) :
    (∃ pa u, reach s .read va = some pa ∧ coreOf u = coreOf s ∧ eventCount u = eventCount s ∧
      memRead va s = .done (s.mem.read64 pa) (record (.memRead va pa (s.mem.read64 pa)) u)) ∨
    (∃ u, reach s .read va = none ∧ coreOf u = coreOf s ∧ eventCount u = eventCount s ∧
      memRead va s = .fault (.mmuFault va) u) := by
  obtain ⟨h1, h2, h3⟩ := hwWalk_spec .read va s
  unfold memRead reach
  rw [← h1]
  generalize hwWalk .read va s = r at *
  obtain ⟨r, u⟩ := r
  simp only at h2 h3
  cases r with
  | okay pa sz =>
    simp only [core_config h2, core_mem h2]
    by_cases hp : inPmem s.config pa.toNat = true
    · simp only [hp, if_true]
      exact .inl ⟨_, u, rfl, h2, h3, rfl⟩
    · simp only [hp]
      exact .inr ⟨u, rfl, h2, h3, rfl⟩
  | fault k l => exact .inr ⟨u, rfl, h2, h3, rfl⟩
  | unspecified l => exact .inr ⟨u, rfl, h2, h3, rfl⟩

/-- Everything MemWrite does. -/
theorem memWrite_cases (va v : Word) (s : State) :
    (∃ pa u, reach s .write va = some pa ∧ coreOf u = coreOf s ∧ eventCount u = eventCount s ∧
      memWrite va v s = .done () (record (.memWrite va pa v) (store64 pa v u))) ∨
    (∃ u, reach s .write va = none ∧ coreOf u = coreOf s ∧ eventCount u = eventCount s ∧
      memWrite va v s = .fault (.mmuFault va) u) := by
  obtain ⟨h1, h2, h3⟩ := hwWalk_spec .write va s
  unfold memWrite reach
  rw [← h1]
  generalize hwWalk .write va s = r at *
  obtain ⟨r, u⟩ := r
  simp only at h2 h3
  cases r with
  | okay pa sz =>
    simp only [core_config h2]
    by_cases hp : inPmem s.config pa.toNat = true
    · simp only [hp, if_true]
      exact .inl ⟨_, u, rfl, h2, h3, rfl⟩
    · simp only [hp]
      exact .inr ⟨u, rfl, h2, h3, rfl⟩
  | fault k l => exact .inr ⟨u, rfl, h2, h3, rfl⟩
  | unspecified l => exact .inr ⟨u, rfl, h2, h3, rfl⟩

/-- MemRead where the address is readable. -/
theorem memRead_of_readNow {va e : Word} {s : State} (h : readNow s va = some e) :
    ∃ u, coreOf u = coreOf s ∧ eventCount u = eventCount s + 1 ∧ memRead va s = .done e u := by
  rcases memRead_cases va s with ⟨pa, u, hr, hc, hn, hm⟩ | ⟨u, hr, _⟩
  · simp only [readNow, hr, Option.map_some, Option.some.injEq] at h
    subst h
    exact ⟨_, (coreOf_record _ _).trans hc, by simp [countedEvent, hn], hm⟩
  · simp [readNow, hr] at h

/-- The store and its record, over a state with the same core. -/
theorem coreOf_store64 {s u : State} (h : coreOf u = coreOf s) (pa : Nat) (v : Word) :
    coreOf (store64 pa v u) = coreOf (store64 pa v s) := by
  have : ∀ x : State, coreOf (store64 pa v x) = store64 pa v (coreOf x) := fun _ => rfl
  rw [this, this, h]

/-- MemWrite where the address is reached. -/
theorem memWrite_of_reach {va v : Word} {s : State} {pa : Nat} (h : reach s .write va = some pa) :
    ∃ u, coreOf u = coreOf (store64 pa v s) ∧ eventCount u = eventCount s + 1 ∧ memWrite va v s = .done () u := by
  rcases memWrite_cases va v s with ⟨pa', u, hr, hc, hn, hm⟩ | ⟨u, hr, _⟩
  · rw [hr, Option.some.injEq] at h
    subst h
    refine ⟨_, (coreOf_record _ _).trans (coreOf_store64 hc _ _), ?_, hm⟩
    have : eventCount (store64 pa' v u) = eventCount u := rfl
    simp [countedEvent, hn, this]
  · simp [hr] at h

end Sys2Proof.Machine
end

