-- ==== Sys2Proof/Laws/Trace.lean ====
section
/-! SUPPORT. What one command can do to the state: every command that is admitted is a sequence of primitive actions of the
block, and its rule says which (exec_traced). An invariant is proved once per primitive action. -/

namespace Sys2Proof.Machine

/-! ## Primitive actions -/

/-- The primitive actions of the block, each with the gap that follows its event. -/
inductive Prim where
  | physRead (pa : Nat) (v : Word)
  | memRead (va : Word) (pa : Nat) (v : Word)
  | store (va : Word) (pa : Nat) (v : Word)
  | barrier
  | tlbi
  | isb
  | alloc
  | token (page : Word) (sz : PageSize)
  | discharge (t : BitVec 32) (how : Discharge)
  | bind

/-- What a primitive action does. -/
def applyPrim (p : Prim) (s : State) : State :=
  match p with
  | .physRead pa v => record (.physRead pa v) s
  | .memRead va pa v => record (.memRead va pa v) s
  | .store va pa v => record (.memWrite va pa v) (store64 pa v s)
  | .barrier => barrier s
  | .tlbi => tlbiAllIS s
  | .isb => isb s
  | .alloc => (alloc s).2
  | .token page sz => (newToken page sz s).2
  | .discharge t how => discharge t how s
  | .bind => { s with ridxReg := s.inp.ridx, bound := true }

/-- What holds of the state when a primitive action is taken. -/
def legalPrim (p : Prim) (s : State) : Prop :=
  match p with
  | .physRead pa v => inPmem s.config pa = true ∧ v = s.mem.read64 pa
  | .memRead va pa v => reach s .read va = some pa ∧ v = s.mem.read64 pa
  | .store va pa _ => reach s .write va = some pa ∧ pa % 8 = 0
  | .barrier => True
  | .tlbi => True
  | .isb => True
  | .alloc => True
  | .token _ _ => outstanding s s.nextToken = false
  | .discharge _ _ => True
  | .bind => True

/-- `t` is reached from `s` by primitive actions that `A` allows. -/
inductive Trace (A : Prim → Prop) : State → State → Prop where
  | refl (s : State) : Trace A s s
  | snoc {s u : State} (p : Prim) : Trace A s u → A p → legalPrim p u → Trace A s (applyPrim p u)

theorem Trace.trans {A : Prim → Prop} {s u t : State} (h1 : Trace A s u) (h2 : Trace A u t) : Trace A s t := by
  induction h2 with
  | refl => exact h1
  | snoc p _ ha hl ih => exact .snoc p ih ha hl

theorem Trace.mono {A B : Prim → Prop} (h : ∀ p, A p → B p) {s t : State} (ht : Trace A s t) : Trace B s t := by
  induction ht with
  | refl => exact .refl _
  | snoc p _ ha hl ih => exact .snoc p ih (h p ha) hl

/-- An invariant that every allowed primitive action keeps holds at the end. -/
theorem Trace.invariant {A : Prim → Prop} {Inv : State → Prop}
    (h : ∀ p u, A p → legalPrim p u → Inv u → Inv (applyPrim p u)) {s t : State} (ht : Trace A s t) (hs : Inv s) : Inv t := by
  induction ht with
  | refl => exact hs
  | snoc p _ ha hl ih => exact h p _ ha hl ih

/-! ## What every primitive action leaves unchanged -/

section
variable (p : Prim) (s : State)

@[simp] theorem applyPrim_config : (applyPrim p s).config = s.config := by
  cases p <;> simp [applyPrim, barrier, tlbiAllIS, isb, alloc, newToken, discharge]

@[simp] theorem applyPrim_inp : (applyPrim p s).inp = s.inp := by
  cases p <;> simp [applyPrim, barrier, tlbiAllIS, isb, alloc, newToken, discharge]

@[simp] theorem applyPrim_out : (applyPrim p s).out = s.out := by
  cases p <;> simp [applyPrim, barrier, tlbiAllIS, isb, alloc, newToken, discharge]

@[simp] theorem applyPrim_faulted : (applyPrim p s).faulted = s.faulted := by
  cases p <;> simp [applyPrim, barrier, tlbiAllIS, isb, alloc, newToken, discharge]

@[simp] theorem applyPrim_faultReason : (applyPrim p s).faultReason = s.faultReason := by
  cases p <;> simp [applyPrim, barrier, tlbiAllIS, isb, alloc, newToken, discharge]

@[simp] theorem applyPrim_launchMem : (applyPrim p s).launchMem = s.launchMem := by
  cases p <;> simp [applyPrim, barrier, tlbiAllIS, isb, alloc, newToken, discharge]

@[simp] theorem applyPrim_busy : (applyPrim p s).busy = s.busy := by
  cases p <;> simp [applyPrim, barrier, tlbiAllIS, isb, alloc, newToken, discharge]

@[simp] theorem applyPrim_pos : (applyPrim p s).pos = s.pos := by
  cases p <;> simp [applyPrim, barrier, tlbiAllIS, isb, alloc, newToken, discharge]

@[simp] theorem applyPrim_script : (applyPrim p s).script = s.script := by
  cases p <;> simp [applyPrim, barrier, tlbiAllIS, isb, alloc, newToken, discharge]

end

section
variable {A : Prim → Prop} {s t : State} (h : Trace A s t)
include h

theorem Trace.config_eq : t.config = s.config := by
  induction h with
  | refl => rfl
  | snoc p _ _ _ ih => rw [applyPrim_config, ih]

theorem Trace.inp_eq : t.inp = s.inp := by
  induction h with
  | refl => rfl
  | snoc p _ _ _ ih => rw [applyPrim_inp, ih]

theorem Trace.out_eq : t.out = s.out := by
  induction h with
  | refl => rfl
  | snoc p _ _ _ ih => rw [applyPrim_out, ih]

theorem Trace.faulted_eq : t.faulted = s.faulted := by
  induction h with
  | refl => rfl
  | snoc p _ _ _ ih => rw [applyPrim_faulted, ih]

theorem Trace.faultReason_eq : t.faultReason = s.faultReason := by
  induction h with
  | refl => rfl
  | snoc p _ _ _ ih => rw [applyPrim_faultReason, ih]

theorem Trace.launchMem_eq : t.launchMem = s.launchMem := by
  induction h with
  | refl => rfl
  | snoc p _ _ _ ih => rw [applyPrim_launchMem, ih]

theorem Trace.busy_eq : t.busy = s.busy := by
  induction h with
  | refl => rfl
  | snoc p _ _ _ ih => rw [applyPrim_busy, ih]

theorem Trace.pos_eq : t.pos = s.pos := by
  induction h with
  | refl => rfl
  | snoc p _ _ _ ih => rw [applyPrim_pos, ih]

theorem Trace.script_eq : t.script = s.script := by
  induction h with
  | refl => rfl
  | snoc p _ _ _ ih => rw [applyPrim_script, ih]

end

/-- An action that neither creates nor discharges a token. -/
def keepsTokens : Prim → Prop
  | .token _ _ => False
  | .discharge _ _ => False
  | .physRead _ _ | .memRead _ _ _ | .store _ _ _ | .barrier | .tlbi | .isb | .alloc | .bind => True

/-- Only creating and discharging a token change TOKENS and NEXT_TOKEN (spec/10_state.md R27). -/
theorem Trace.tokens_eq {A : Prim → Prop} (hA : ∀ p, A p → keepsTokens p) {s t : State} (h : Trace A s t) :
    t.tokens = s.tokens ∧ t.nextToken = s.nextToken := by
  induction h with
  | refl => exact ⟨rfl, rfl⟩
  | snoc p _ ha _ ih =>
    have := hA p ha
    cases p <;> simp_all [keepsTokens, applyPrim, barrier, tlbiAllIS, isb, alloc]

/-! ## The shared operations as traces -/

/-- A command's progress `r` from `s` is made of primitive actions that `A` allows. -/
def ResTraced {α : Type} (A : Prim → Prop) (s : State) (r : Res α) : Prop :=
  match r with
  | .done _ u => Trace A s u
  | .error _ u => Trace A s u
  | .fault _ u => Trace A s u

theorem ResTraced.bind {α β : Type} {A : Prim → Prop} {s : State} {r : Res α} {f : α → State → Res β}
    (hr : ResTraced A s r) (hf : ∀ a u, r = .done a u → Trace A s u → ResTraced A u (f a u)) :
    ResTraced A s (r.bind f) := by
  cases r with
  | done a u =>
    have := hf a u rfl hr
    simp only [Res.bind]
    generalize f a u = q at this
    cases q with
    | done b v => exact Trace.trans hr this
    | error c v => exact Trace.trans hr this
    | fault q v => exact Trace.trans hr this
  | error c u => exact hr
  | fault q u => exact hr

theorem ResTraced.mono {α : Type} {A B : Prim → Prop} (h : ∀ p, A p → B p) {s : State} {r : Res α} (hr : ResTraced A s r) :
    ResTraced B s r := by
  cases r with
  | done a u => exact Trace.mono h hr
  | error c u => exact Trace.mono h hr
  | fault q u => exact Trace.mono h hr

/-- The reads of a walk. -/
def walkPrim : Prim → Prop
  | .physRead _ _ => True
  | .memRead _ _ _ | .store _ _ _ | .barrier | .tlbi | .isb | .alloc | .token _ _ | .discharge _ _ | .bind => False

/-- The actions of a read-only walk of the mapper. -/
def readPrim : Prim → Prop
  | .physRead _ _ => True
  | .memRead _ _ _ => True
  | .store _ _ _ | .barrier | .tlbi | .isb | .alloc | .token _ _ | .discharge _ _ | .bind => False

/-- The actions of a walk that may also store. -/
def storePrim : Prim → Prop
  | .physRead _ _ => True
  | .memRead _ _ _ => True
  | .store _ _ _ => True
  | .barrier | .tlbi | .isb | .alloc | .token _ _ | .discharge _ _ | .bind => False

/-- The actions of create_next_table. -/
def tablePrim : Prim → Prop
  | .physRead _ _ => True
  | .memRead _ _ _ => True
  | .store _ _ _ => True
  | .barrier => True
  | .alloc => True
  | .tlbi | .isb | .token _ _ | .discharge _ _ | .bind => False

theorem walkPrim_read (p : Prim) (h : walkPrim p) : readPrim p := by cases p <;> trivial
theorem readPrim_store (p : Prim) (h : readPrim p) : storePrim p := by cases p <;> trivial
theorem storePrim_table (p : Prim) (h : storePrim p) : tablePrim p := by cases p <;> trivial
theorem tablePrim_keepsTokens (p : Prim) (h : tablePrim p) : keepsTokens p := by cases p <;> trivial

theorem physRead_traced (a : Nat) (s : State) : Trace walkPrim s (physRead a s).2 := by
  simp only [physRead]
  split
  · exact Trace.snoc (.physRead a (s.mem.read64 a)) (.refl s) trivial ⟨by assumption, rfl⟩
  · exact .refl s

theorem walkFrom_traced (perm : List Word → Bool) (va : Word) (rest : List Level) (l : Level) (t : Word) (chain : List Word)
    (s : State) : Trace walkPrim s (walkFrom physRead perm va l rest t chain s).2 := by
  induction rest generalizing l t chain s with
  | nil =>
    have h := physRead_traced (t.toNat + 8 * (idx l va).toNat) s
    unfold walkFrom
    generalize physRead (t.toNat + 8 * (idx l va).toNat) s = r at *
    obtain ⟨r, u⟩ := r
    cases r with
    | none => exact h
    | some d =>
      simp only
      repeat' split
      all_goals exact h
  | cons l' rest ih =>
    have h := physRead_traced (t.toNat + 8 * (idx l va).toNat) s
    unfold walkFrom
    generalize physRead (t.toNat + 8 * (idx l va).toNat) s = r at *
    obtain ⟨r, u⟩ := r
    cases r with
    | none => exact h
    | some d =>
      simp only
      repeat' split
      all_goals first | exact h | exact Trace.trans h (ih _ _ _ _)

theorem hwWalk_traced (kind : Access) (va : Word) (s : State) : Trace walkPrim s (hwWalk kind va s).2 :=
  walkFrom_traced _ _ _ _ _ _ _

theorem memRead_traced (va : Word) (s : State) : ResTraced readPrim s (memRead va s) := by
  have hw := Trace.mono walkPrim_read (hwWalk_traced .read va s)
  obtain ⟨h1, h2, -⟩ := hwWalk_spec .read va s
  have hr : reach (hwWalk .read va s).2 .read va = reach s .read va := reach_core h2 _ _
  unfold memRead
  unfold reach at hr
  rw [← h1, walkNow_core h2, ← h1] at hr
  generalize hwWalk .read va s = r at *
  obtain ⟨r, u⟩ := r
  simp only at h1 h2
  cases r with
  | okay pa sz =>
    simp only
    split
    · rename_i hp
      refine Trace.snoc (.memRead va pa.toNat (u.mem.read64 pa.toNat)) hw trivial ⟨?_, rfl⟩
      rw [reach, walkNow_core h2, ← h1]
      simp [hp]
    · exact hw
  | fault k l => exact hw
  | unspecified l => exact hw

theorem memWrite_traced (va v : Word) (s : State) (hva : aligned8 va = true) : ResTraced storePrim s (memWrite va v s) := by
  have hw := Trace.mono (fun p h => readPrim_store p (walkPrim_read p h)) (hwWalk_traced .write va s)
  obtain ⟨h1, h2, -⟩ := hwWalk_spec .write va s
  unfold memWrite
  generalize hwWalk .write va s = r at *
  obtain ⟨r, u⟩ := r
  simp only at h1 h2
  cases r with
  | okay pa sz =>
    simp only
    split
    · rename_i hp
      have hr : reach u .write va = some pa.toNat := by
        rw [reach, walkNow_core h2, ← h1]
        simp [hp]
      exact Trace.snoc (.store va pa.toNat v) hw trivial ⟨hr, reach_aligned hva hr⟩
    · exact hw
  | fault k l => exact hw
  | unspecified l => exact hw

theorem ofSetter_traced (A : Prim → Prop) (e : Except FaultReason Word) (s : State) : ResTraced A s (ofSetter e s) := by
  cases e <;> exact .refl s

theorem zeroFrom_traced (t : Word) (ht : aligned8 t = true) (n i : Nat) (s : State) :
    ResTraced storePrim s (zeroFrom t i n s) := by
  induction n generalizing i s with
  | zero => exact .refl s
  | succ n ih => exact ResTraced.bind (memWrite_traced _ _ _ (aligned8_entryAt t i ht)) fun _ u _ _ => ih (i + 1) u

theorem createNextTable_traced (eva nva : Word) (he : aligned8 eva = true) (hn : aligned8 nva = true) (s : State) :
    ResTraced tablePrim s (createNextTable eva nva s) := by
  have hrt : ∀ p, readPrim p → tablePrim p := fun p h => storePrim_table p (readPrim_store p h)
  refine ResTraced.bind ((memRead_traced eva s).mono hrt) fun e u _ _ => ?_
  split
  · have ha : Trace tablePrim u (alloc u).2 := Trace.snoc .alloc (.refl u) trivial trivial
    generalize hr : alloc u = r at *
    obtain ⟨r, w⟩ := r
    cases r with
    | none => exact ha
    | some f =>
      have hrest : ResTraced tablePrim w ((ofSetter (tableLink w.config f) w).bind fun link s3 =>
          (memWrite eva link s3).bind fun _ s4 => zeroFrom nva 0 512 (barrier s4)) := by
        refine ResTraced.bind (ofSetter_traced _ _ _) fun link s3 _ _ => ?_
        refine ResTraced.bind ((memWrite_traced eva link s3 he).mono storePrim_table) fun _ s4 _ _ => ?_
        have hb : Trace tablePrim s4 (barrier s4) := Trace.snoc .barrier (.refl s4) trivial trivial
        have hz := (zeroFrom_traced nva hn 512 0 (barrier s4)).mono storePrim_table
        generalize zeroFrom nva 0 512 (barrier s4) = q at *
        cases q with
        | done _ v => exact hb.trans hz
        | error c v => exact hb.trans hz
        | fault c v => exact hb.trans hz
      simp only
      generalize ((ofSetter (tableLink w.config f) w).bind fun link s3 =>
          (memWrite eva link s3).bind fun _ s4 => zeroFrom nva 0 512 (barrier s4)) = q at *
      cases q with
      | done _ v => exact ha.trans hrest
      | error c v => exact ha.trans hrest
      | fault c v => exact ha.trans hrest
  · split
    · exact .refl u
    · split <;> exact .refl u

theorem readPath_traced (classify : Word → Option Status) (p : Word) (ls : List Level) (s : State) :
    ResTraced readPrim s (readPath classify p ls s) := by
  induction ls generalizing s with
  | nil => exact .refl s
  | cons l ls ih =>
    refine ResTraced.bind (memRead_traced _ s) fun e u _ _ => ?_
    split
    · exact .refl u
    · exact ih u

theorem readWalk_traced (onBlock : Status) (p : Word) (sz : PageSize) (s : State) :
    ResTraced readPrim s (readWalk onBlock p sz s) :=
  ResTraced.bind (readPath_traced _ _ _ s) fun _ u _ _ => .refl u

theorem createPath_traced (p : Word) (ls : List Level) (s : State) : ResTraced tablePrim s (createPath p ls s) := by
  induction ls generalizing s with
  | nil => exact .refl s
  | cons l ls ih =>
    exact ResTraced.bind
      (createNextTable_traced _ _ (aligned8_entryVa _ _ _ _) (aligned8_of_aligned (tableVa_aligned _ _ _ _)) s)
      fun _ u _ _ => ih u

theorem translateFrom_traced (v : Word) (rest : List Level) (l : Level) (s : State) :
    ResTraced readPrim s (translateFrom v l rest s) := by
  induction rest generalizing l s with
  | nil =>
    refine ResTraced.bind (memRead_traced _ s) fun e u _ _ => ?_
    repeat' split
    all_goals exact .refl u
  | cons l' rest ih =>
    refine ResTraced.bind (memRead_traced _ s) fun e u _ _ => ?_
    repeat' split
    all_goals first | exact .refl u | exact ih _ _

/-! ## What each command may do (spec/10_state.md R37) -/

/-- The primitive actions of a command. -/
def mayDo (i : Instr) : Prim → Prop
  | .physRead _ _ => readsTables i = true ∨ i = .rptBind
  | .memRead _ _ _ => readsTables i = true
  | .store _ _ _ => storesMemory i = true
  | .barrier => createsTables i = true
  | .tlbi => i = .tokFlush
  | .isb => i = .tokFlush
  | .alloc => createsTables i = true
  | .token _ _ => createsToken i = true
  | .discharge _ _ => i = .tokFlush ∨ i = .tokIgnore
  | .bind => i = .rptBind

/-- How an admitted command ends, from the state `u` its last action left. -/
def endsAs (t u : State) : Prop :=
  (∃ res, t = completeCommand res u) ∨ (∃ c, t = returnError c u) ∨ ∃ q, t = takeFault q u

theorem command_traced {A : Prim → Prop} {c : Checks} {body : State → Res OutPorts} {s t : State}
    (hb : refusalOf c s = none → ResTraced A (beginCommand s) (body (beginCommand s)))
    (h : command c body s = .next t) :
    (∃ r, refusalOf c s = some r ∧ t = refuseCommand r s) ∨
      (refusalOf c s = none ∧ ∃ u, Trace A (beginCommand s) u ∧ endsAs t u) := by
  unfold command at h
  split at h
  · rename_i r hr
    simp only [Host.Outcome.next.injEq] at h
    exact .inl ⟨r, hr, h.symm⟩
  · rename_i hr
    have hb := hb hr
    refine .inr ⟨hr, ?_⟩
    generalize body (beginCommand s) = q at *
    cases q with
    | done res u =>
      simp only [conclude, Host.Outcome.next.injEq] at h
      exact ⟨u, hb, .inl ⟨res, h.symm⟩⟩
    | error c u =>
      simp only [conclude, Host.Outcome.next.injEq] at h
      exact ⟨u, hb, .inr (.inl ⟨c, h.symm⟩)⟩
    | fault c u =>
      simp only [conclude, Host.Outcome.next.injEq] at h
      exact ⟨u, hb, .inr (.inr ⟨c, h.symm⟩)⟩

/-- A command that is not refused finds the block ready. -/
theorem ready_of_admitted {c : Checks} {s : State} (h : refusalOf c s = none) : Ready s := by
  unfold refusalOf at h
  split at h
  · simp at h
  · split at h
    · simp at h
    · rename_i h1 h2
      exact ⟨by simpa using h1, by simpa using h2⟩

/-- A mutation that is not refused may create its token. -/
theorem tokenFree_of_admitted {c : Checks} {s : State} (hc : c.makesToken = true) (h : refusalOf c s = none) :
    outstanding s s.nextToken = false := by
  unfold refusalOf at h
  repeat (split at h; · simp at h)
  rename_i hx
  simpa [hc] using hx

/-- The last action of a mutation: its token is created after actions that kept TOKENS. -/
theorem token_traced {A : Prim → Prop} (hA : ∀ p, tablePrim p → A p) (hT : ∀ pg sz, A (.token pg sz)) {s0 s u : State}
    (ht : Trace tablePrim s0 s) (hu : Trace tablePrim s u) (h0 : outstanding s0 s0.nextToken = false) (pg : Word)
    (sz : PageSize) : Trace A s (newToken pg sz u).2 := by
  refine Trace.snoc (.token pg sz) (hu.mono hA) (hT pg sz) ?_
  obtain ⟨h1, h2⟩ := Trace.tokens_eq tablePrim_keepsTokens (ht.trans hu)
  simp only [legalPrim, outstanding, h1, h2]
  exact h0

end Sys2Proof.Machine
end

