-- ==== Sys2Proof/Laws/Exec.lean ====
section
/-! SUPPORT. exec_traced: everything a command can do, for every command. -/

namespace Sys2Proof.Machine

/-- A command is refused, or it is admitted and its actions are those its rule allows. -/
def Explained (i : Instr) (s t : State) : Prop :=
  (∃ r, t = refuseCommand r s) ∨ (Ready s ∧ ∃ u, Trace (mayDo i) (beginCommand s) u ∧ endsAs t u)

theorem explained_of_command {i : Instr} {c : Checks} {body : State → Res OutPorts} {s t : State}
    (h : command c body s = .next t)
    (hb : refusalOf c s = none → ResTraced (mayDo i) (beginCommand s) (body (beginCommand s))) : Explained i s t := by
  rcases command_traced hb h with ⟨r, -, hr⟩ | ⟨hc, u, hu, he⟩
  · exact .inl ⟨r, hr⟩
  · exact .inr ⟨ready_of_admitted hc, u, hu, he⟩

theorem refuseWord_explained (i : Instr) {s t : State} (h : refuseWord s = .next t) : Explained i s t :=
  explained_of_command h fun _ => Trace.refl _

theorem ofSetter_done_traced {A : Prim → Prop} (e : Except FaultReason Word) (s : State) (f : Word → OutPorts) :
    ResTraced A s ((ofSetter e s).bind fun v u => .done (f v) u) :=
  ResTraced.bind (ofSetter_traced A e s) fun _ u _ _ => .refl u

/-! ## The mapper's bodies -/

theorem readPrim_mayDo {i : Instr} (h : readsTables i = true) (p : Prim) (hp : readPrim p) : mayDo i p := by
  cases p <;> simp_all [readPrim, mayDo]

theorem storePrim_mayDo {i : Instr} (h1 : readsTables i = true) (h2 : storesMemory i = true) (p : Prim) (hp : storePrim p) :
    mayDo i p := by
  cases p <;> simp_all [storePrim, mayDo]

theorem tablePrim_mayDo {i : Instr} (h1 : readsTables i = true) (h2 : storesMemory i = true) (h3 : createsTables i = true)
    (p : Prim) (hp : tablePrim p) : mayDo i p := by
  cases p <;> simp_all [tablePrim, mayDo]

theorem lookupLeaf_traced (sz : PageSize) (s : State) : ResTraced readPrim s (lookupLeaf sz s) := by
  refine ResTraced.bind (readWalk_traced _ _ _ s) fun r u _ _ => ?_
  refine ResTraced.bind (memRead_traced r u) fun e w _ _ => ?_
  split <;> exact .refl w

/-- A first part made of actions of `B`, a rest made of actions of `A`, which `B`'s are among. -/
theorem ResTraced.bind_from {α β : Type} {A B : Prim → Prop} (hBA : ∀ p, B p → A p) {s : State} {r : Res α}
    {f : α → State → Res β} (hr : ResTraced B s r) (hf : ∀ a u, Trace B s u → ResTraced A u (f a u)) :
    ResTraced A s (r.bind f) :=
  ResTraced.bind (hr.mono hBA) fun a u he _ => hf a u (by rw [he] at hr; exact hr)

theorem mapLeaf_traced {A : Prim → Prop} (hA : ∀ p, tablePrim p → A p) (hT : ∀ pg sz, A (.token pg sz)) (sz : PageSize)
    (page frame : Word) (s : State) (h0 : outstanding s s.nextToken = false) : ResTraced A s (mapLeaf sz page frame s) := by
  have hrt : ∀ p, readPrim p → tablePrim p := fun p h => storePrim_table p (readPrim_store p h)
  refine ResTraced.bind_from hA (createPath_traced page _ s) fun _ s1 t1 => ?_
  refine ResTraced.bind_from hA ((memRead_traced _ s1).mono hrt) fun e s2 t2 => ?_
  split
  · refine ResTraced.bind_from hA (ofSetter_traced _ _ s2) fun new s3 t3 => ?_
    refine ResTraced.bind_from hA ((memWrite_traced _ _ s3 (aligned8_entryVa _ _ _ _)).mono storePrim_table)
      fun _ s4 t4 => ?_
    exact token_traced hA hT (t1.trans (t2.trans (t3.trans t4))) (.refl s4) h0 page sz
  · exact .refl s2

theorem unmapLeaf_traced {A : Prim → Prop} (hA : ∀ p, storePrim p → A p) (hT : ∀ pg sz, A (.token pg sz)) (sz : PageSize)
    (s : State) (h0 : outstanding s s.nextToken = false) : ResTraced A s (unmapLeaf sz s) := by
  have hTok := fun {s0 s u : State} (ht : Trace storePrim s0 s) (hu : Trace storePrim s u)
      (h0 : outstanding s0 s0.nextToken = false) (pg : Word) (sz : PageSize) =>
    show Trace A s (newToken pg sz u).2 from by
      refine Trace.snoc (.token pg sz) (hu.mono hA) (hT pg sz) ?_
      obtain ⟨h1, h2⟩ := Trace.tokens_eq (fun p h => tablePrim_keepsTokens p (storePrim_table p h)) (ht.trans hu)
      simp only [legalPrim, outstanding, h1, h2]
      exact h0
  refine ResTraced.bind_from hA ((readPath_traced _ _ _ s).mono readPrim_store) fun _ s1 t1 => ?_
  refine ResTraced.bind_from hA ((memRead_traced _ s1).mono readPrim_store) fun e s2 t2 => ?_
  split
  · exact .refl s2
  · refine ResTraced.bind_from hA (memWrite_traced _ _ s2 (aligned8_entryVa _ _ _ _)) fun _ s3 t3 => ?_
    exact hTok (t1.trans (t2.trans t3)) (.refl s3) h0 _ sz

theorem updateLeaf_traced {A : Prim → Prop} (hA : ∀ p, storePrim p → A p) (hT : ∀ pg sz, A (.token pg sz)) (sz : PageSize)
    (s : State) (h0 : outstanding s s.nextToken = false) : ResTraced A s (updateLeaf sz s) := by
  have hTok := fun {s0 s u : State} (ht : Trace storePrim s0 s) (hu : Trace storePrim s u)
      (h0 : outstanding s0 s0.nextToken = false) (pg : Word) (sz : PageSize) =>
    show Trace A s (newToken pg sz u).2 from by
      refine Trace.snoc (.token pg sz) (hu.mono hA) (hT pg sz) ?_
      obtain ⟨h1, h2⟩ := Trace.tokens_eq (fun p h => tablePrim_keepsTokens p (storePrim_table p h)) (ht.trans hu)
      simp only [legalPrim, outstanding, h1, h2]
      exact h0
  have hw := readWalk_traced .parentEntryHugePage s.inp.page sz s
  have hal : ∀ r u, readWalk .parentEntryHugePage s.inp.page sz s = .done r u → aligned8 r = true := by
    intro r u he
    unfold readWalk at he
    generalize readPath (nonLeaf .parentEntryHugePage) s.inp.page (nonLeafLevels sz) s = q at he
    cases q with
    | done a v =>
      simp only [Res.bind, Res.done.injEq] at he
      rw [← he.1]
      exact aligned8_entryVa _ _ _ _
    | error c v => simp [Res.bind] at he
    | fault c v => simp [Res.bind] at he
  refine ResTraced.bind (hw.mono fun p h => hA p (readPrim_store p h)) fun r s1 hr1 _ => ?_
  have t1 : Trace storePrim s s1 := by
    rw [hr1] at hw
    exact Trace.mono readPrim_store hw
  refine ResTraced.bind_from hA ((memRead_traced _ s1).mono readPrim_store) fun e s2 t2 => ?_
  split
  · exact .refl s2
  · refine ResTraced.bind_from hA (memWrite_traced _ _ s2 (hal r s1 hr1)) fun _ s3 t3 => ?_
    exact hTok (t1.trans (t2.trans t3)) (.refl s3) h0 _ sz

/-! ## Every command -/

/-- Everything a command can do: it is refused, or its actions are those its rule allows and it completes, returns a typed
error or raises a fault of the block. -/
theorem exec_traced (i : Instr) (s t : State) (h : exec i s = .next t) : Explained i s t := by
  cases i with
  | pteIsUnused =>
    simp only [exec, execPteIsUnused] at h
    exact explained_of_command h fun _ => Trace.refl _
  | pteSetUnused =>
    simp only [exec, execPteSetUnused] at h
    exact explained_of_command h fun _ => Trace.refl _
  | pteFlags =>
    simp only [exec, execPteFlags] at h
    exact explained_of_command h fun _ => Trace.refl _
  | pteAddr =>
    simp only [exec, execPteAddr] at h
    exact explained_of_command h fun _ => Trace.refl _
  | pteAttr =>
    simp only [exec, execPteAttr] at h
    exact explained_of_command h fun _ => Trace.refl _
  | pteIsBlock =>
    simp only [exec, execPteIsBlock] at h
    exact explained_of_command h fun _ => Trace.refl _
  | pteFrame =>
    simp only [exec, execPteFrame] at h
    refine explained_of_command h (fun _ => ?_)
    split <;> exact .refl _
  | pteSetFrame =>
    simp only [exec, execPteSetFrame] at h
    exact explained_of_command h (fun _ => ofSetter_done_traced _ _ _)
  | pteSetBlock sz =>
    simp only [exec, execPteSetBlock] at h
    exact explained_of_command h (fun _ => ofSetter_done_traced _ _ _)
  | pteSetFlags =>
    simp only [exec, execPteSetFlags] at h
    exact explained_of_command h fun _ => Trace.refl _
  | pteSetAttr =>
    simp only [exec, execPteSetAttr] at h
    exact explained_of_command h fun _ => Trace.refl _
  | mapMapTo sz =>
    simp only [exec, execMapMapTo] at h
    refine explained_of_command h fun hc => ?_
    have hf := tokenFree_of_admitted rfl hc
    exact mapLeaf_traced (tablePrim_mayDo rfl rfl rfl) (fun _ _ => by simp [mayDo, createsToken]) _ _ _ _ hf
  | mapIdentityMap sz =>
    simp only [exec, execMapIdentityMap] at h
    refine explained_of_command h fun hc => ?_
    have hf := tokenFree_of_admitted rfl hc
    exact mapLeaf_traced (tablePrim_mayDo rfl rfl rfl) (fun _ _ => by simp [mayDo, createsToken]) _ _ _ _ hf
  | mapGetEntry sz =>
    simp only [exec, execMapGetEntry] at h
    exact explained_of_command h (fun _ => (lookupLeaf_traced _ _).mono (readPrim_mayDo rfl))
  | mapGetEntryMut sz =>
    simp only [exec, execMapGetEntryMut] at h
    exact explained_of_command h (fun _ => (lookupLeaf_traced _ _).mono (readPrim_mayDo rfl))
  | mapUnmap sz =>
    simp only [exec, execMapUnmap] at h
    refine explained_of_command h fun hc => ?_
    have hf := tokenFree_of_admitted rfl hc
    exact unmapLeaf_traced (storePrim_mayDo rfl rfl) (fun _ _ => by simp [mayDo, createsToken]) _ _ hf
  | mapUpdateFlags sz =>
    simp only [exec, execMapUpdateFlags] at h
    refine explained_of_command h fun hc => ?_
    have hf := tokenFree_of_admitted rfl hc
    exact updateLeaf_traced (storePrim_mayDo rfl rfl) (fun _ _ => by simp [mayDo, createsToken]) _ _ hf
  | mapTranslatePage sz =>
    simp only [exec, execMapTranslatePage] at h
    refine explained_of_command h (fun _ => ResTraced.mono (readPrim_mayDo rfl) ?_)
    refine ResTraced.bind (readWalk_traced _ _ _ _) fun r u _ _ => ?_
    refine ResTraced.bind (memRead_traced r u) fun e w _ _ => ?_
    split <;> exact .refl w
  | mapTranslate =>
    simp only [exec, execMapTranslate] at h
    refine explained_of_command h (fun _ => ResTraced.mono (readPrim_mayDo rfl) ?_)
    exact ResTraced.bind (translateFrom_traced _ _ _ _) fun r u _ _ => .refl u
  | mapTranslateAddr =>
    simp only [exec, execMapTranslateAddr] at h
    refine explained_of_command h (fun _ => ResTraced.mono (readPrim_mayDo rfl) ?_)
    exact ResTraced.bind (translateFrom_traced _ _ _ _) fun r u _ _ => .refl u
  | rptBind =>
    simp only [exec, execRptBind] at h
    refine explained_of_command h (fun _ => ?_)
    have hp := Trace.mono (B := mayDo .rptBind) (fun p h => by cases p <;> simp_all [walkPrim, mayDo])
      (physRead_traced ((beginCommand s).config.rootPa.toNat + 8 * (beginCommand s).inp.ridx.toNat) (beginCommand s))
    generalize physRead _ (beginCommand s) = q at *
    obtain ⟨q, u⟩ := q
    cases q with
    | none => trivial
    | some d =>
      simp only
      split
      · exact Trace.snoc .bind hp rfl trivial
      · exact hp
  | rptTableVa =>
    simp only [exec, execRptTableVa] at h
    split at h
    · exact refuseWord_explained _ h
    · exact explained_of_command h fun _ => Trace.refl _
  | rptCreateNextTable =>
    simp only [exec, execRptCreateNextTable] at h
    refine explained_of_command h (fun hc => ResTraced.mono (tablePrim_mayDo rfl rfl rfl) ?_)
    have hal : aligned8 s.inp.entryVa = true ∧ aligned s.inp.nextVa .k4 = true := by
      unfold refusalOf at hc
      repeat (split at hc; · simp at hc)
      simp_all
    exact ResTraced.bind (createNextTable_traced _ _ hal.1 (aligned8_of_aligned hal.2) _) fun _ u _ _ => .refl u
  | tokFlush =>
    simp only [exec, execTokFlush] at h
    refine explained_of_command h (fun _ => ?_)
    exact Trace.snoc (.discharge _ .flush)
      (Trace.snoc .isb (Trace.snoc .tlbi (.refl (beginCommand s)) rfl trivial) rfl trivial) (.inl rfl) trivial
  | tokIgnore =>
    simp only [exec, execTokIgnore] at h
    refine explained_of_command h (fun _ => ?_)
    exact Trace.snoc (.discharge _ .ignore) (.refl (beginCommand s)) (.inr rfl) trivial
  | attrLookup =>
    simp only [exec, execAttrLookup] at h
    split at h
    · exact refuseWord_explained _ h
    · exact explained_of_command h fun _ => Trace.refl _

/-! ## PMEM follows from the events (spec/10_state.md R25, R30) -/

/-- `u` has recorded these events since PMEM held `m` and EV was `ev`, and its PMEM is what they make of `m`. -/
def Recorded (m : Memory) (ev new : List Event) (u : State) : Prop := u.ev = new ++ ev ∧ u.mem = memAfter m new

/-- Recording an event extends EV, where PMEM already holds what the event makes of it. -/
theorem record_recorded {m : Memory} {ev new : List Event} {w : State} (a : Act) (hev : w.ev = new ++ ev)
    (hm : ∀ e : Event, e.act = a → w.mem = memAfter m (e :: new)) : ∃ new', Recorded m ev new' (record a w) :=
  ⟨{ pos := w.pos, cmd := w.inp.cmd, act := a } :: new, by simp [hev], by rw [record_mem]; exact hm _ rfl⟩

/-- A primitive action extends EV by what it does to PMEM. -/
theorem applyPrim_recorded {m : Memory} {ev : List Event} (p : Prim) (u : State) (h : ∃ new, Recorded m ev new u) :
    ∃ new, Recorded m ev new (applyPrim p u) := by
  obtain ⟨new, h1, h2⟩ := h
  cases p with
  | bind => exact ⟨new, h1, h2⟩
  | _ => exact record_recorded _ h1 fun e he => by simp [memAfter, he, ← h2, store64]

/-- The events a command records tell what it does to PMEM: `memAfter` of all of them is the PMEM it leaves. -/
theorem exec_recorded {i : Instr} {s t : State} (h : exec i s = .next t) :
    t.ev = newEvents s t ++ s.ev ∧ t.mem = memAfter s.mem (newEvents s t) := by
  suffices hs : ∃ new, Recorded s.mem s.ev new t by
    obtain ⟨new, h1, h2⟩ := hs
    have : newEvents s t = new := by simp [newEvents, h1]
    exact ⟨this ▸ h1, this ▸ h2⟩
  obtain ⟨r, rfl⟩ | ⟨-, u, hu, ht⟩ := exec_traced i s t h
  · exact ⟨[], rfl, rfl⟩
  · obtain ⟨new, hn⟩ := Trace.invariant (Inv := fun u => ∃ new, Recorded s.mem s.ev new u)
      (fun p u _ _ => applyPrim_recorded p u) hu ⟨[], rfl, rfl⟩
    obtain ⟨_, rfl⟩ | ⟨_, rfl⟩ | ⟨_, rfl⟩ := ht <;> exact ⟨new, hn⟩

/-- The frames answered in two stretches of events are those of each. -/
@[simp] theorem framesAnswered_append (new old : List Event) :
    (framesAnswered (new ++ old)).map Prod.fst = (framesAnswered new).map Prod.fst ++ (framesAnswered old).map Prod.fst := by
  induction new with
  | nil => rfl
  | cons e new ih =>
    simp only [List.cons_append, framesAnswered]
    split <;> simp [ih]

/-! ## Which tables are reachable -/

/-- A list that holds the root and, with each table, every table it links holds every reachable table. -/
theorem tableAt_mem {s : State} {r : BitVec 9} {ts : List (Level × Nat)} (hroot : (.l4, s.config.rootPa.toNat) ∈ ts)
    (hlink : ∀ x ∈ ts, x.1 ≠ .l1 → ∀ i : BitVec 9, (x.1 = .l4 → i ≠ r) →
      isValid (s.mem.read64 (x.2 + 8 * i.toNat)) = true → isTop (s.mem.read64 (x.2 + 8 * i.toNat)) = true →
      (levelBelow x.1, (pteAddr (s.mem.read64 (x.2 + 8 * i.toNat))).toNat) ∈ ts)
    {l : Level} {t : Nat} (h : TableAt s r l t) : (l, t) ∈ ts := by
  induction h with
  | root => exact hroot
  | link l t i _ hl hr hv ht ih => exact hlink _ ih hl i hr hv ht

/-- The first bytes of an unused stretch are unused. -/
theorem Unused.mono {s : State} {r : BitVec 9} {f : Word} {n k : Nat} (h : Unused s r f n) (hk : k ≤ n) : Unused s r f k :=
  ⟨fun l t ht => (h.1 l t ht).imp_left (by omega), fun l t i ht hv => (h.2 l t i ht hv).imp_left (by omega)⟩

end Sys2Proof.Machine
end

