-- ==== Sys2Proof/Laws/PerInstr.lean ====
section
/-! SUPPORT. One lemma per command about its encoded word (spec/30_encoding.md R82-R87). -/

namespace Sys2Proof.Laws

/-- The encoded word of a command: bits 31:10 are zero, it is a word of the opcode map, and the decoder reads the command back. -/
def EncodedFields.Statement (i : Instr) : Prop :=
  i.wf = true →
    (encode i).extractLsb' 10 22 = 0 ∧ (encode i).extractLsb' 0 8 = i.opcode ∧ (encode i).extractLsb' 8 2 = i.sizeTag ∧
      Machine.LegalWord (encode i) ∧ decodeTableWord 32 (encode i).toNat = some i

theorem EncodedFields.pteIsUnused : EncodedFields.Statement .pteIsUnused := by
  unfold EncodedFields.Statement
  decide

theorem EncodedFields.pteSetUnused : EncodedFields.Statement .pteSetUnused := by
  unfold EncodedFields.Statement
  decide

theorem EncodedFields.pteFlags : EncodedFields.Statement .pteFlags := by
  unfold EncodedFields.Statement
  decide

theorem EncodedFields.pteAddr : EncodedFields.Statement .pteAddr := by
  unfold EncodedFields.Statement
  decide

theorem EncodedFields.pteAttr : EncodedFields.Statement .pteAttr := by
  unfold EncodedFields.Statement
  decide

theorem EncodedFields.pteIsBlock : EncodedFields.Statement .pteIsBlock := by
  unfold EncodedFields.Statement
  decide

theorem EncodedFields.pteFrame : EncodedFields.Statement .pteFrame := by
  unfold EncodedFields.Statement
  decide

theorem EncodedFields.pteSetFrame : EncodedFields.Statement .pteSetFrame := by
  unfold EncodedFields.Statement
  decide

theorem EncodedFields.pteSetBlock (sz : PageSize) : EncodedFields.Statement (.pteSetBlock sz) := by
  cases sz <;> (unfold EncodedFields.Statement; decide)

theorem EncodedFields.pteSetFlags : EncodedFields.Statement .pteSetFlags := by
  unfold EncodedFields.Statement
  decide

theorem EncodedFields.pteSetAttr : EncodedFields.Statement .pteSetAttr := by
  unfold EncodedFields.Statement
  decide

theorem EncodedFields.mapMapTo (sz : PageSize) : EncodedFields.Statement (.mapMapTo sz) := by
  cases sz <;> (unfold EncodedFields.Statement; decide)

theorem EncodedFields.mapIdentityMap (sz : PageSize) : EncodedFields.Statement (.mapIdentityMap sz) := by
  cases sz <;> (unfold EncodedFields.Statement; decide)

theorem EncodedFields.mapGetEntry (sz : PageSize) : EncodedFields.Statement (.mapGetEntry sz) := by
  cases sz <;> (unfold EncodedFields.Statement; decide)

theorem EncodedFields.mapGetEntryMut (sz : PageSize) : EncodedFields.Statement (.mapGetEntryMut sz) := by
  cases sz <;> (unfold EncodedFields.Statement; decide)

theorem EncodedFields.mapUnmap (sz : PageSize) : EncodedFields.Statement (.mapUnmap sz) := by
  cases sz <;> (unfold EncodedFields.Statement; decide)

theorem EncodedFields.mapUpdateFlags (sz : PageSize) : EncodedFields.Statement (.mapUpdateFlags sz) := by
  cases sz <;> (unfold EncodedFields.Statement; decide)

theorem EncodedFields.mapTranslatePage (sz : PageSize) : EncodedFields.Statement (.mapTranslatePage sz) := by
  cases sz <;> (unfold EncodedFields.Statement; decide)

theorem EncodedFields.mapTranslate : EncodedFields.Statement .mapTranslate := by
  unfold EncodedFields.Statement
  decide

theorem EncodedFields.mapTranslateAddr : EncodedFields.Statement .mapTranslateAddr := by
  unfold EncodedFields.Statement
  decide

theorem EncodedFields.rptBind : EncodedFields.Statement .rptBind := by
  unfold EncodedFields.Statement
  decide

theorem EncodedFields.rptTableVa : EncodedFields.Statement .rptTableVa := by
  unfold EncodedFields.Statement
  decide

theorem EncodedFields.rptCreateNextTable : EncodedFields.Statement .rptCreateNextTable := by
  unfold EncodedFields.Statement
  decide

theorem EncodedFields.tokFlush : EncodedFields.Statement .tokFlush := by
  unfold EncodedFields.Statement
  decide

theorem EncodedFields.tokIgnore : EncodedFields.Statement .tokIgnore := by
  unfold EncodedFields.Statement
  decide

theorem EncodedFields.attrLookup : EncodedFields.Statement .attrLookup := by
  unfold EncodedFields.Statement
  decide

end Sys2Proof.Laws
end

