-- ==== Sys2Proof/Laws/Walk.lean ====
section
/-! SUPPORT. What the mapper's walks do in a state whose entries are known: one lemma per shared operation, over the core of the
state, so that a proof about a command cites it and never unfolds the operation. -/

namespace Sys2Proof.Machine

/-! ## Admission -/

/-- Every check of spec/60_exceptions.md R193 passes. -/
theorem refusalOf_eq_none_iff (c : Checks) (s : State) :
    refusalOf c s = none ↔
      s.faulted = false ∧ s.busy = false ∧ c.illegal = false ∧ (c.needsBound && !s.bound) = false ∧
        (outOfMask flagsMask c.flags || outOfMask attrMask c.attr) = false ∧ tooWide s.config c.address = false ∧
        c.misaligned = false ∧ inWindow s c.mutated = false ∧ notOutstanding s c.token = false ∧
        (c.makesToken && outstanding s s.nextToken) = false := by
  unfold refusalOf
  constructor
  · intro h
    repeat (split at h; · simp at h)
    simp_all
  · rintro ⟨h1, h2, h3, h4, h5, h6, h7, h8, h9, h10⟩
    simp [h1, h2, h3, h4, h5, h6, h7, h8, h9, h10]

/-- An admitted command runs its body. -/
theorem command_of_admitted {c : Checks} {s : State} (h : refusalOf c s = none) (body : State → Res OutPorts) :
    command c body s = conclude (body (beginCommand s)) := by
  simp only [command, h]

/-- A refused command is not performed. -/
theorem command_of_refused {c : Checks} {s : State} {r : RefuseReason} (h : refusalOf c s = some r)
    (body : State → Res OutPorts) : command c body s = .next (refuseCommand r s) := by
  simp only [command, h]

/-! ## The memory an access reaches depends on the memory, the root and the permissions -/

/-- What an engine access reaches depends on PMEM and the launch parameters only. -/
theorem walkNow_of_mem {s t : State} (hc : t.config = s.config) (hm : t.mem = s.mem) (kind : Access) (va : Word) :
    walkNow t kind va = walkNow s kind va := by
  have e : ∀ a acc, descNow t a acc = descNow s a acc := by
    intro a acc
    simp only [descNow, hc, hm]
  simp only [walkNow, hc, funext fun a => funext (e a)]

theorem reach_of_mem {s t : State} (hc : t.config = s.config) (hm : t.mem = s.mem) (kind : Access) (va : Word) :
    reach t kind va = reach s kind va := by
  simp only [reach, walkNow_of_mem hc hm, hc]

theorem readNow_of_mem {s t : State} (hc : t.config = s.config) (hm : t.mem = s.mem) (va : Word) :
    readNow t va = readNow s va := by
  simp only [readNow, reach_of_mem hc hm, hm]

@[simp] theorem reach_beginCommand (s : State) (kind : Access) (va : Word) :
    reach (beginCommand s) kind va = reach s kind va := reach_of_mem rfl rfl _ _

@[simp] theorem readNow_beginCommand (s : State) (va : Word) : readNow (beginCommand s) va = readNow s va :=
  readNow_of_mem rfl rfl _

@[simp] theorem entryVaOf_beginCommand (s : State) (l : Level) (p : Word) :
    entryVaOf (beginCommand s) l p = entryVaOf s l p := rfl

@[simp] theorem tableVaOf_beginCommand (s : State) (l : Level) (p : Word) :
    tableVaOf (beginCommand s) l p = tableVaOf s l p := rfl

@[simp] theorem nextAnswer_beginCommand (s : State) : nextAnswer (beginCommand s) = nextAnswer s := rfl

theorem nextAnswer_core {s t : State} (h : coreOf s = coreOf t) : nextAnswer s = nextAnswer t := by
  simp only [nextAnswer, core_config h, core_answers h, core_allocCalls h]

/-! ## The walks -/

/-- A read walk whose every entry lets it descend ends, having changed nothing of the core. -/
theorem readPath_descends {classify : Word → Option Status} {p : Word} {ls : List Level} {s : State}
    (h : ∀ l ∈ ls, ∃ e, readNow s (entryVaOf s l p) = some e ∧ classify e = none) :
    ∃ u, coreOf u = coreOf s ∧ readPath classify p ls s = .done () u := by
  induction ls generalizing s with
  | nil => exact ⟨s, rfl, rfl⟩
  | cons l ls ih =>
    obtain ⟨e, he, hc⟩ := h l (List.mem_cons_self ..)
    obtain ⟨u, hu, -, hm⟩ := memRead_of_readNow he
    have h' : ∀ l' ∈ ls, ∃ e, readNow u (entryVaOf u l' p) = some e ∧ classify e = none := by
      intro l' hl'
      rw [entryVaOf_core hu, readNow_core hu]
      exact h l' (List.mem_cons_of_mem _ hl')
    obtain ⟨w, hw, hr⟩ := ih h'
    refine ⟨w, hw.trans hu, ?_⟩
    simp only [readPath, hm, Res.bind, hc, hr]

/-- A read walk stops at the first entry that its rule stops at. -/
theorem readPath_stops {classify : Word → Option Status} {p : Word} {before after : List Level} {l : Level} {e : Word}
    {c : Status} {s : State} (h : ∀ l' ∈ before, ∃ e, readNow s (entryVaOf s l' p) = some e ∧ classify e = none)
    (he : readNow s (entryVaOf s l p) = some e) (hc : classify e = some c) :
    ∃ u, coreOf u = coreOf s ∧ readPath classify p (before ++ l :: after) s = .error c u := by
  induction before generalizing s with
  | nil =>
    obtain ⟨u, hu, -, hm⟩ := memRead_of_readNow he
    refine ⟨u, hu, ?_⟩
    simp only [List.nil_append, readPath, hm, Res.bind, hc]
  | cons l' before ih =>
    obtain ⟨e', he', hc'⟩ := h l' (List.mem_cons_self ..)
    obtain ⟨u, hu, -, hm⟩ := memRead_of_readNow he'
    have h' : ∀ l'' ∈ before, ∃ e, readNow u (entryVaOf u l'' p) = some e ∧ classify e = none := by
      intro l'' hl''
      rw [entryVaOf_core hu, readNow_core hu]
      exact h l'' (List.mem_cons_of_mem _ hl'')
    rw [← entryVaOf_core hu, ← readNow_core hu] at he
    obtain ⟨w, hw, hr⟩ := ih h' he
    refine ⟨w, hw.trans hu, ?_⟩
    simp only [List.cons_append, readPath, hm, Res.bind, hc', hr]

/-- A linked level is an entry that lets every walk descend. -/
theorem entry_of_linksTable {s : State} {p : Word} {l : Level} (h : LinksTable s p l) :
    ∃ e, readNow s (entryVaOf s l p) = some e ∧ isValid e = true ∧ isTop e = true := by
  unfold LinksTable at h
  cases hr : readNow s (entryVaOf s l p) with
  | none => simp [hr] at h
  | some e =>
    simp only [hr, Option.map_some, Option.some.injEq, Bool.and_eq_true] at h
    exact ⟨e, rfl, h.1, h.2⟩

theorem nonLeaf_table {onBlock : Status} {e : Word} (hv : isValid e = true) (ht : isTop e = true) :
    nonLeaf onBlock e = none := by
  simp [nonLeaf, hv, ht]

theorem unmapClassify_table {e : Word} (hv : isValid e = true) (ht : isTop e = true) : unmapClassify e = none := by
  simp [unmapClassify, pteFrame, hv, ht]

theorem ne_zero_of_isValid {e : Word} (h : isValid e = true) : e ≠ 0 := by
  rintro rfl
  simp [isValid] at h

/-! ## create_next_table (spec/42_recursive_walk.md R155) -/

/-- A valid table is left as it is: nothing of the core changes. -/
theorem createNextTable_of_table {eva nva e : Word} {s : State} (he : readNow s eva = some e) (hv : isValid e = true)
    (ht : isTop e = true) : ∃ u, coreOf u = coreOf s ∧ createNextTable eva nva s = .done () u := by
  obtain ⟨u, hu, -, hm⟩ := memRead_of_readNow he
  refine ⟨u, hu, ?_⟩
  have h0 := ne_zero_of_isValid hv
  rw [createNextTable, hm, Res.bind]
  simp only [h0, ht, hv, if_false, Bool.true_eq_false]

/-- An entry that references a block is ParentEntryHugePage. -/
theorem createNextTable_of_block {eva nva e : Word} {s : State} (he : readNow s eva = some e) (h0 : e ≠ 0)
    (ht : isTop e = false) : ∃ u, coreOf u = coreOf s ∧ createNextTable eva nva s = .error .parentEntryHugePage u := by
  obtain ⟨u, hu, -, hm⟩ := memRead_of_readNow he
  refine ⟨u, hu, ?_⟩
  rw [createNextTable, hm, Res.bind]
  simp only [h0, ht, if_false, if_true]

/-- A malformed entry with TOP set is the fault MalformedEntry. -/
theorem createNextTable_of_malformed {eva nva e : Word} {s : State} (he : readNow s eva = some e) (hv : isValid e = false)
    (ht : isTop e = true) : ∃ u, coreOf u = coreOf s ∧ createNextTable eva nva s = .fault (.malformedEntry eva) u := by
  obtain ⟨u, hu, -, hm⟩ := memRead_of_readNow he
  have h0 : e ≠ 0 := by
    rintro rfl
    simp [isTop] at ht
  refine ⟨u, hu, ?_⟩
  rw [createNextTable, hm, Res.bind]
  simp only [h0, ht, hv, if_false, if_true, Bool.true_eq_false]

/-- The state after an Alloc() call, but for the event and the gap that follows it. -/
def afterAlloc (s : State) : State := { s with answers := s.answers.tail, allocCalls := s.allocCalls + 1 }

@[simp] theorem alloc_fst (s : State) : (alloc s).1 = nextAnswer s := rfl

@[simp] theorem coreOf_alloc (s : State) : coreOf (alloc s).2 = coreOf (afterAlloc s) := by
  simp [alloc, afterAlloc]

/-- An unused entry with no frame to be had is FrameAllocationFailed. -/
theorem createNextTable_of_noFrame {eva nva : Word} {s : State} (he : readNow s eva = some 0) (hn : nextAnswer s = none) :
    ∃ u, coreOf u = coreOf (afterAlloc s) ∧ createNextTable eva nva s = .error .frameAllocationFailed u := by
  obtain ⟨u, hu, -, hm⟩ := memRead_of_readNow he
  refine ⟨(alloc u).2, ?_, ?_⟩
  · rw [coreOf_alloc]
    have : ∀ x : State, coreOf (afterAlloc x) = afterAlloc (coreOf x) := fun _ => rfl
    rw [this, this, hu]
  · have ha : alloc u = (none, (alloc u).2) := by
      rw [← hn, ← nextAnswer_core hu]
      rfl
    rw [createNextTable, hm, Res.bind]
    simp only [if_true]
    rw [ha]

/-- The tables on a linked path are left as they are. -/
theorem createPath_linked {p : Word} {ls : List Level} {s : State} (h : ∀ l ∈ ls, LinksTable s p l) :
    ∃ u, coreOf u = coreOf s ∧ createPath p ls s = .done () u := by
  induction ls generalizing s with
  | nil => exact ⟨s, rfl, rfl⟩
  | cons l ls ih =>
    obtain ⟨e, he, hv, ht⟩ := entry_of_linksTable (h l (List.mem_cons_self ..))
    obtain ⟨u, hu, hm⟩ := createNextTable_of_table (nva := tableVaOf s (levelBelow l) p) he hv ht
    have h' : ∀ l' ∈ ls, LinksTable u p l' := by
      intro l' hl'
      rw [LinksTable, entryVaOf_core hu, readNow_core hu]
      exact h l' (List.mem_cons_of_mem _ hl')
    obtain ⟨w, hw, hr⟩ := ih h'
    refine ⟨w, hw.trans hu, ?_⟩
    simp only [createPath, hm, Res.bind, hr]

/-! ## The other shared operations -/

@[simp] theorem coreOf_barrier (s : State) : coreOf (barrier s) = coreOf { s with writes := publish s.writes } := by
  simp [barrier]

@[simp] theorem coreOf_tlbiAllIS (s : State) : coreOf (tlbiAllIS s) = coreOf { s with writes := publish s.writes } := by
  rw [tlbiAllIS, coreOf_record]
  rfl

@[simp] theorem coreOf_isb (s : State) : coreOf (isb s) = coreOf s := by
  simp [isb]

@[simp] theorem newToken_fst (page : Word) (sz : PageSize) (s : State) : (newToken page sz s).1 = s.nextToken := rfl

@[simp] theorem coreOf_newToken (page : Word) (sz : PageSize) (s : State) :
    coreOf (newToken page sz s).2 = coreOf
      { s with
        nextToken := s.nextToken + 1
        tokens := { id := s.nextToken, page := alignDown page sz, size := sz } :: s.tokens } := by
  simp [newToken]

@[simp] theorem coreOf_discharge (t : BitVec 32) (how : Discharge) (s : State) :
    coreOf (discharge t how s) = coreOf { s with tokens := s.tokens.filter (fun k => k.id != t) } := by
  simp [discharge]

/-! ## Walks, entry by entry -/

section
variable {σ : Type} {desc : Nat → σ → Option Word × σ} {perm : List Word → Bool} {va : Word} {l : Level}
  {rest : List Level} {b : Word} {chain : List Word} {st st' : σ} {d : Word}

/-- The walk after it has read `d` at level `l`. -/
def afterDesc (desc : Nat → σ → Option Word × σ) (perm : List Word → Bool) (va : Word) (l : Level) (rest : List Level)
    (chain : List Word) (d : Word) (st : σ) : WalkResult × σ :=
  if isValid d = false then (.fault .translation l, st)
  else if isTop d = false then
    match blockSize l with
    | none => (.fault .translation l, st)
    | some sz =>
      if aligned (pteAddr d) sz = false then (.unspecified l, st)
      else if perm (chain ++ [d]) = false then (.fault .permission l, st)
      else (.okay (pteAddr d + offsetIn va sz) sz, st)
  else
    match rest with
    | [] =>
      if perm (chain ++ [d]) = false then (.fault .permission l, st)
      else (.okay (pteAddr d + offsetIn va .k4) .k4, st)
    | l' :: rest' => walkFrom desc perm va l' rest' (pteAddr d) (chain ++ [d]) st

theorem walkFrom_of_read (h : desc (b.toNat + 8 * (idx l va).toNat) st = (some d, st')) :
    walkFrom desc perm va l rest b chain st = afterDesc desc perm va l rest chain d st' := by
  unfold walkFrom afterDesc
  generalize desc (b.toNat + 8 * (idx l va).toNat) st = r at h ⊢
  subst h
  cases rest <;> rfl

theorem walkFrom_of_absent (h : desc (b.toNat + 8 * (idx l va).toNat) st = (none, st')) :
    walkFrom desc perm va l rest b chain st = (.unspecified l, st') := by
  unfold walkFrom
  rw [h]

/-- A table descriptor above the last level: the walk goes on in the table it links. -/
theorem afterDesc_table {l' : Level} {rest' : List Level} (hv : isValid d = true) (ht : isTop d = true) :
    afterDesc desc perm va l (l' :: rest') chain d st = walkFrom desc perm va l' rest' (pteAddr d) (chain ++ [d]) st := by
  unfold afterDesc
  simp only [hv, ht, Bool.true_eq_false, if_false]

/-- A page descriptor at the last level. -/
theorem afterDesc_page (hv : isValid d = true) (ht : isTop d = true) (hp : perm (chain ++ [d]) = true) :
    afterDesc desc perm va l [] chain d st = (.okay (pteAddr d + offsetIn va .k4) .k4, st) := by
  unfold afterDesc
  simp only [hv, ht, hp, Bool.true_eq_false, if_false]

/-- Where the walk does not go on, its result does not depend on what reads descriptors. -/
theorem afterDesc_stops {desc' : Nat → σ → Option Word × σ} (h : ¬ (isValid d = true ∧ isTop d = true)) :
    afterDesc desc perm va l rest chain d st = afterDesc desc' perm va l rest chain d st ∧
      (afterDesc desc perm va l rest chain d st).2 = st := by
  unfold afterDesc
  by_cases hv : isValid d = true
  · have ht : isTop d = false := by simpa [hv] using h
    simp only [hv, ht, Bool.true_eq_false, if_false, if_true, true_and]
    split
    · rfl
    · split
      · rfl
      · split <;> rfl
  · simp only [Bool.not_eq_true] at hv
    simp only [hv, if_true, and_self]

end

/-! ## Stores and walks -/

/-- A walk reads the same after a store apart from everything it reads. -/
theorem walkFrom_of_apart {s t : State} (hc : t.config = s.config) {pa : Nat} {v : Word}
    (hm : t.mem = s.mem.write64 pa v) (perm : List Word → Bool) (va : Word) (rest : List Level) (l : Level) (b : Word)
    (chain : List Word) (acc : List Nat)
    (h : ∀ a ∈ (walkFrom (descNow s) perm va l rest b chain acc).2, a + 8 ≤ pa ∨ pa + 8 ≤ a) :
    walkFrom (descNow t) perm va l rest b chain acc = walkFrom (descNow s) perm va l rest b chain acc ∧
      ∀ a ∈ acc, a ∈ (walkFrom (descNow s) perm va l rest b chain acc).2 := by
  have hd : ∀ a acc, (a + 8 ≤ pa ∨ pa + 8 ≤ a) → descNow t a acc = descNow s a acc := by
    intro a acc ha
    simp only [descNow, hc, hm, Memory.read64_write64_other _ _ _ _ ha]
  by_cases hp : inPmem s.config (b.toNat + 8 * (idx l va).toNat) = true
  · have hs : descNow s (b.toNat + 8 * (idx l va).toNat) acc =
        (some (s.mem.read64 (b.toNat + 8 * (idx l va).toNat)), acc ++ [b.toNat + 8 * (idx l va).toNat]) := by
      simp only [descNow, hp, if_true]
    generalize s.mem.read64 (b.toNat + 8 * (idx l va).toNat) = d at hs
    rw [walkFrom_of_read hs] at h ⊢
    by_cases hx : isValid d = true ∧ isTop d = true
    · cases rest with
      | nil =>
        have h2 : (afterDesc (descNow s) perm va l [] chain d (acc ++ [b.toNat + 8 * (idx l va).toNat])).2 =
            acc ++ [b.toNat + 8 * (idx l va).toNat] := by
          unfold afterDesc
          simp only [hx.1, hx.2, Bool.true_eq_false, if_false]
          split <;> rfl
        rw [h2] at h ⊢
        refine ⟨?_, fun a ha => by simp [ha]⟩
        have ht := (hd _ acc (h _ (by simp))).trans hs
        rw [walkFrom_of_read ht]
        unfold afterDesc
        simp only [hx.1, hx.2, Bool.true_eq_false, if_false]
      | cons l' rest =>
        rw [afterDesc_table hx.1 hx.2] at h ⊢
        obtain ⟨h1, h2⟩ := walkFrom_of_apart hc hm perm va rest l' (pteAddr d) (chain ++ [d]) _ h
        have ht := (hd _ acc (h _ (h2 _ (by simp)))).trans hs
        exact ⟨by rw [walkFrom_of_read ht, afterDesc_table hx.1 hx.2, h1], fun a ha => h2 a (by simp [ha])⟩
    · obtain ⟨h1, h2⟩ := afterDesc_stops (desc := descNow s) (desc' := descNow t) (perm := perm) (va := va) (l := l)
        (rest := rest) (chain := chain) (st := acc ++ [b.toNat + 8 * (idx l va).toNat]) hx
      rw [h2] at h ⊢
      have ht := (hd _ acc (h _ (by simp))).trans hs
      exact ⟨by rw [walkFrom_of_read ht, h1], fun a ha => by simp [ha]⟩
  · have hs : ∀ u : State, u.config = s.config → descNow u (b.toNat + 8 * (idx l va).toNat) acc =
        (none, acc ++ [b.toNat + 8 * (idx l va).toNat]) := by
      intro u hu
      simp only [descNow, hu, hp]
      rfl
    rw [walkFrom_of_absent (hs s rfl), walkFrom_of_absent (hs t hc)]
    exact ⟨rfl, fun a ha => by simp [ha]⟩

/-- Where a walk for a read and a walk for a write both reach an address, it is the same address. -/
theorem walkFrom_kind {σ : Type} (desc : Nat → σ → Option Word × σ) (p q : List Word → Bool) (va : Word)
    (rest : List Level) (l : Level) (b : Word) (chain : List Word) (st : σ) {pa pa' : Word} {sz sz' : PageSize}
    (h : (walkFrom desc p va l rest b chain st).1 = .okay pa sz)
    (h' : (walkFrom desc q va l rest b chain st).1 = .okay pa' sz') : pa = pa' ∧ sz = sz' := by
  obtain ⟨r, u, hr⟩ : ∃ r u, desc (b.toNat + 8 * (idx l va).toNat) st = (r, u) := ⟨_, _, rfl⟩
  cases r with
  | none =>
    rw [walkFrom_of_absent hr] at h
    simp at h
  | some d =>
    rw [walkFrom_of_read hr] at h h'
    by_cases hv : isValid d = true
    · by_cases ht : isTop d = true
      · cases rest with
        | nil =>
          unfold afterDesc at h h'
          simp only [hv, ht, Bool.true_eq_false, if_false] at h h'
          split at h
          · simp at h
          · split at h'
            · simp at h'
            · simp only [WalkResult.okay.injEq] at h h'
              exact ⟨h.1.symm.trans h'.1, h.2.symm.trans h'.2⟩
        | cons l' rest =>
          rw [afterDesc_table hv ht] at h h'
          exact walkFrom_kind desc p q va rest l' (pteAddr d) (chain ++ [d]) u h h'
      · simp only [Bool.not_eq_true] at ht
        unfold afterDesc at h h'
        simp only [hv, ht, Bool.true_eq_false, if_false, if_true] at h h'
        cases hb : blockSize l with
        | none => simp [hb] at h
        | some bs =>
          simp only [hb] at h h'
          split at h
          · simp at h
          · split at h
            · simp at h
            · split at h'
              · simp at h'
              · split at h'
                · simp at h'
                · simp only [WalkResult.okay.injEq] at h h'
                  exact ⟨h.1.symm.trans h'.1, h.2.symm.trans h'.2⟩
    · simp only [Bool.not_eq_true] at hv
      unfold afterDesc at h
      simp [hv] at h

/-- A write and a read that reach an address reach the same one. -/
theorem reach_kind {s : State} {va : Word} {a b : Nat} (hr : reach s .read va = some a) (hw : reach s .write va = some b) :
    a = b := by
  unfold reach at hr hw
  cases h1 : (walkNow s .read va).1 with
  | okay pa sz =>
    cases h2 : (walkNow s .write va).1 with
    | okay pa' sz' =>
      obtain ⟨rfl, -⟩ := walkFrom_kind _ _ _ _ _ _ _ _ _ h1 h2
      rw [h1] at hr
      rw [h2] at hw
      simp only [Option.ite_none_right_eq_some, Option.some.injEq] at hr hw
      omega
    | fault k l => simp [h2] at hw
    | unspecified l => simp [h2] at hw
  | fault k l => simp [h1] at hr
  | unspecified l => simp [h1] at hr

end Sys2Proof.Machine
end

