-- ==== Sys2Proof/Tests/Slice0.lean ====
section
/-! SUPPORT. The model's own tests: the well-formedness smoke test, decoding by words written out from spec/30_encoding.md R84,
vectors of spec/95_test_vectors.md (their numbers stand in the comments), and for every obligation with hypotheses a
witness that meets them. -/

set_option Elab.async false

namespace Sys2Proof.Tests
open Sys2Proof.Machine

/-! ## Small states -/

/-- PMEM with these descriptors. -/
def pmem (l : List (Nat × Word)) : Memory := l.foldl (fun m p => m.write64 p.1 p.2) []

/-- A launch with the example configuration, bound with R = 511, whose root holds the recursive slot and these descriptors. -/
def bound (l : List (Nat × Word)) : State :=
  { State.launch Config.sample (pmem ((0x100FF8, 0x100403) :: l)) with bound := true, ridxReg := 511 }

/-- The fully empty launch after BIND. -/
def empty : State := bound []

/-- The page tables after program P1: VA 0x1000 mapped to 0x2000. -/
def p1 : State := bound [(0x100000, 0x101707), (0x101000, 0x102707), (0x102000, 0x103707), (0x103008, 0x2707)]

/-- A 2MiB block at 0x200000, a misaligned one at 0x400000, and a 1GiB block at 0x40000000. -/
def huge : State :=
  bound [(0x100000, 0x101707), (0x101000, 0x102707), (0x102008, 0x40000705), (0x102010, 0x201705), (0x101008, 0x80000705)]

/-- The state with these operands on the input ports. -/
def ask (s : State) (i : Instr) (args : List PortArg) : State := { s with inp := assemble i args }

/-- The output ports of a next state. -/
def outOf (o : Host.Outcome State Fault Refusal) : Option OutPorts :=
  match o with
  | .next t => some t.out
  | .fault _ => none
  | .refused _ => none

theorem next_of_outOf {o : Host.Outcome State Fault Refusal} {p : OutPorts} (h : outOf o = some p) :
    ∃ t, o = .next t ∧ t.out = p := by
  cases o with
  | next t => exact ⟨t, rfl, Option.some.inj h⟩
  | fault f => simp [outOf] at h
  | refused r => simp [outOf] at h

/-- What a command answers to operands. -/
def answer (s : State) (i : Instr) (args : List PortArg) : Option OutPorts := outOf (exec i (ask s i args))

/-- The fault reason of a next state that is faulted. -/
def stopped (s : State) (i : Instr) (args : List PortArg) : Option FaultReason :=
  match exec i (ask s i args) with
  | .next t => if t.faulted then t.faultReason else none
  | .fault _ => none
  | .refused _ => none

/-- The refusal of a next state. -/
def refusedBy (s : State) (i : Instr) (args : List PortArg) : Option RefuseReason :=
  match exec i (ask s i args) with
  | .next t => if t.refused then t.refusal else none
  | .fault _ => none
  | .refused _ => none

/-- A descriptor of the next state. -/
def cell (s : State) (i : Instr) (args : List PortArg) (a : Nat) : Option Word :=
  match exec i (ask s i args) with
  | .next t => some (t.mem.read64 a)
  | .fault _ => none
  | .refused _ => none

/-! ## Well-formedness -/

theorem test_wf_set_block_4k_ill_formed : Instr.wf (.pteSetBlock .k4) = false := by decide

theorem test_wf_others : Instr.wf (.pteSetBlock .m2) = true ∧ Instr.wf (.pteSetBlock .g1) = true ∧
    Instr.wf (.mapMapTo .k4) = true ∧ Instr.wf .tokFlush = true := by decide

/-- The decoder and exec refuse the ill-formed term as well (R85). -/
theorem test_ill_formed_refused : (decode 0x00000009).toOption = none ∧
    refusedBy empty (.pteSetBlock .k4) [] = some .illegalCommand := by decide +kernel

/-! ## Decoding: the words of R84, OPC in 7:0 and SZ in 9:8 -/

theorem test_decode_pte : decode 0x01 = .ok .pteIsUnused ∧ decode 0x02 = .ok .pteSetUnused ∧ decode 0x03 = .ok .pteFlags ∧
    decode 0x04 = .ok .pteAddr ∧ decode 0x05 = .ok .pteAttr ∧ decode 0x06 = .ok .pteIsBlock ∧ decode 0x07 = .ok .pteFrame ∧
    decode 0x08 = .ok .pteSetFrame ∧ decode 0x0A = .ok .pteSetFlags ∧ decode 0x0B = .ok .pteSetAttr := by decide

theorem test_decode_set_block : decode 0x109 = .ok (.pteSetBlock .m2) ∧ decode 0x209 = .ok (.pteSetBlock .g1) := by decide

theorem test_decode_map_4k : decode 0x10 = .ok (.mapMapTo .k4) ∧ decode 0x11 = .ok (.mapIdentityMap .k4) ∧
    decode 0x12 = .ok (.mapGetEntry .k4) ∧ decode 0x13 = .ok (.mapGetEntryMut .k4) ∧ decode 0x14 = .ok (.mapUnmap .k4) ∧
    decode 0x15 = .ok (.mapUpdateFlags .k4) ∧ decode 0x16 = .ok (.mapTranslatePage .k4) ∧ decode 0x17 = .ok .mapTranslate ∧
    decode 0x18 = .ok .mapTranslateAddr := by decide

theorem test_decode_map_huge : decode 0x110 = .ok (.mapMapTo .m2) ∧ decode 0x211 = .ok (.mapIdentityMap .g1) ∧
    decode 0x112 = .ok (.mapGetEntry .m2) ∧ decode 0x213 = .ok (.mapGetEntryMut .g1) ∧ decode 0x114 = .ok (.mapUnmap .m2) ∧
    decode 0x215 = .ok (.mapUpdateFlags .g1) ∧ decode 0x116 = .ok (.mapTranslatePage .m2) := by decide

theorem test_decode_rpt_tok_attr : decode 0x20 = .ok .rptBind ∧ decode 0x21 = .ok .rptTableVa ∧
    decode 0x22 = .ok .rptCreateNextTable ∧ decode 0x30 = .ok .tokFlush ∧ decode 0x31 = .ok .tokIgnore ∧
    decode 0x40 = .ok .attrLookup := by decide

/-- Reserved OPC values, SZ = 11, an SZ the command does not take, and a nonzero MBZ bit (R82, R83, R85, R86). -/
theorem test_decode_reserved : decode 0x00 = .error .reservedOpcode ∧ decode 0x0C = .error .reservedOpcode ∧
    decode 0x19 = .error .reservedOpcode ∧ decode 0x23 = .error .reservedOpcode ∧ decode 0x32 = .error .reservedOpcode ∧
    decode 0x41 = .error .reservedOpcode ∧ decode 0xFF = .error .reservedOpcode ∧ decode 0x310 = .error .sizeNotAllowed ∧
    decode 0x309 = .error .sizeNotAllowed ∧ decode 0x103 = .error .sizeNotAllowed ∧ decode 0x401 = .error .mustBeZero ∧
    decode 0x80000001 = .error .mustBeZero := by decide

/-! ## Vectors of the codec and the attributes -/

theorem test_v1_v2 : answer empty .pteIsUnused [.e 0] = some { status := some 0, bool := some true } ∧
    answer empty .pteIsUnused [.e 0x20] = some { status := some 0, bool := some false } := by decide +kernel

theorem test_v3 : answer empty .pteSetUnused [.e 0x2707] = some { status := some 0, eOut := some 0 } := by decide +kernel

theorem test_v5_v7_v9 : answer empty .pteFlags [.e 0xFFFFFFFFFFFFFFFF] =
      some { status := some 0, val := some 0xFFF8000000000CC3 } ∧
    answer empty .pteAddr [.e 0xFFFFFFFFFFFFFFFF] = some { status := some 0, val := some 0x0000FFFFFFFFF000 } ∧
    answer empty .pteAttr [.e 0xFFFFFFFFFFFFFFFF] = some { status := some 0, val := some 0x31C } := by decide +kernel

theorem test_v10_v11 : answer empty .pteIsBlock [.e 0] = some { status := some 0, bool := some true } ∧
    answer empty .pteIsBlock [.e 0x2707] = some { status := some 0, bool := some false } := by decide +kernel

theorem test_v12_v14_v15 : answer empty .pteFrame [.e 0x2707] = some { status := some 0, val := some 0x2000 } ∧
    answer empty .pteFrame [.e 0x2706] = some { status := some 2 } ∧
    answer empty .pteFrame [.e 0x0060000040000601] = some { status := some 4 } := by decide +kernel

theorem test_v16_v18 : answer empty .pteSetFrame [.frame 0x2000, .flags 0x403, .attr 0x304] =
      some { status := some 0, eOut := some 0x2707 } ∧
    stopped empty .pteSetFrame [.frame 0x2000, .flags 0x401, .attr 0x304] =
      some (.contractViolation .setFrameWithoutTop) := by decide +kernel

theorem test_v22_v24 : answer empty (.pteSetBlock .m2) [.addr 0x40123456, .flags 0x0060000000000401, .attr 0x200] =
      some { status := some 0, eOut := some 0x0060000040000601 } ∧
    stopped empty (.pteSetBlock .m2) [.flags 0x403] = some (.contractViolation .setBlockWithTop) := by decide +kernel

theorem test_v28_v33 : answer empty .pteSetFlags [.e 0xFFFFFFFFFFFFFFFF, .flags 1] =
      some { status := some 0, eOut := some 0x0007FFFFFFFFF33D } ∧
    answer empty .pteSetAttr [.e 0xFFFFFFFFFFFFFFFF, .attr 0] =
      some { status := some 0, eOut := some 0xFFFFFFFFFFFFFCE3 } := by decide +kernel

theorem test_v112_v113 : answer empty .attrLookup [.kind 2] =
      some { status := some 0, idxOut := some 2, val := some 0x308 } ∧
    refusedBy empty .attrLookup [.kind 3] = some .illegalCommand := by decide +kernel

/-! ## Vectors of the mapper -/

theorem test_v40_v43 : answer p1 (.mapGetEntry .k4) [.page 0x1000] =
      some { status := some 0, eOut := some 0x2707, vaOut := some 0xFF8000000008 } ∧
    answer p1 (.mapGetEntry .m2) [.page 0] =
      some { status := some 0, eOut := some 0x103707, vaOut := some 0xFFFFC0000000 } := by decide +kernel

theorem test_v41 : answer p1 (.mapGetEntryMut .k4) [.page 0x1000] =
    some { status := some 0, eOut := some 0x2707, vaOut := some 0xFF8000000008 } := by decide +kernel

theorem test_v46_v50 : answer p1 (.mapTranslatePage .m2) [.page 0] = some { status := some 1 } ∧
    answer empty (.mapTranslatePage .k4) [.page 0xFFFFFFFFF000] =
      some { status := some 0, val := some 0x100000 } := by decide +kernel

theorem test_v47_v75 : answer p1 .mapTranslate [.page 0x1123] =
      some { status := some 0, szOut := some 0, val := some 0x2000 } ∧
    answer empty .mapTranslate [.page 0x1000] = some { status := some 1 } := by decide +kernel

theorem test_v48_v58 : answer p1 .mapTranslateAddr [.page 0x1123] =
      some { status := some 0, szOut := some 0, val := some 0x2123 } ∧
    answer huge .mapTranslateAddr [.page 0x212345] =
      some { status := some 0, szOut := some 1, val := some 0x40012345 } := by decide +kernel

theorem test_v51_v52 : cell p1 (.mapUpdateFlags .k4) [.page 0x1000, .flags 0x0040000000000403] 0x103008 =
      some 0x0040000000002707 ∧
    cell p1 (.mapUpdateFlags .k4) [.page 0x1000, .flags 0x401] 0x103008 = some 0x2705 := by decide +kernel

theorem test_v55_v69 : answer p1 (.mapUnmap .k4) [.page 0x1000] =
      some { status := some 0, val := some 0x2000, tokenOut := some 0 } ∧
    answer huge (.mapUnmap .m2) [.page 0x400000] = some { status := some 5 } := by decide +kernel

theorem test_map_to_sibling : cell p1 (.mapMapTo .k4) [.page 0x3000, .frame 0x9000, .flags 0x403, .attr 0x304] 0x103018 =
      some 0x9707 ∧
    answer p1 (.mapMapTo .k4) [.page 0x1000, .frame 0x9000, .flags 0x401, .attr 0x304] =
      some { status := some 7 } := by decide +kernel

theorem test_identity_map : cell p1 (.mapIdentityMap .m2) [.frame 0x200000, .flags 0x401, .attr 0x304] 0x102008 =
      some 0x200705 ∧
    refusedBy p1 (.mapIdentityMap .k4) [.frame 0xFF8000000000] = some .recursiveWindow := by decide +kernel

/-! ## Vectors of binding, table addresses, table creation, tokens -/

theorem test_v95_v96 : answer { empty with bound := false } .rptBind [.ridx 511] = some { status := some 0 } ∧
    stopped { empty with bound := false } .rptBind [.ridx 510] = some .notRecursivelyMapped := by decide +kernel

theorem test_v84_v86 : answer empty .rptTableVa [.page 0x7FC0203000, .level 1] =
      some { status := some 0, vaOut := some 0xFF803FE01000 } ∧
    answer { empty with config := { Config.sample with vaCanon := .sign47 } } .rptTableVa [.page 0x1000, .level 2] =
      some { status := some 0, vaOut := some 0xFFFFFFFFC0000000 } := by decide +kernel

theorem test_v92_v93 : answer huge .rptCreateNextTable [.entryVa 0xFFFFFFE00008, .nextVa 0xFFFFC0001000] =
      some { status := some 3 } ∧
    answer { empty with answers := [none] } .rptCreateNextTable [.entryVa 0xFFFFFFFFF008, .nextVa 0xFFFFFFE01000] =
      some { status := some 6 } := by decide +kernel

/-- Two outstanding tokens. -/
def twoTokens : State :=
  { p1 with
    tokens := [{ id := 1, page := 0, size := .k4 }, { id := 0, page := 0x1000, size := .k4 }]
    nextToken := 2
    tlb := [{ obs := 1, vaPage := 0x1000, size := .k4, paPage := 0x2000 }]
    writes := [{ pa := 0x103008, val := 0x2707, published := false }] }

/-- The tokens' identifiers, the TLBs and the published flags of a next state. -/
def tokenView (o : Host.Outcome State Fault Refusal) : Option (List (BitVec 32) × List TlbEntry × List Bool) :=
  match o with
  | .next t => some (t.tokens.map Token.id, t.tlb, t.writes.map WriteRec.published)
  | .fault _ => none
  | .refused _ => none

theorem test_v103 : tokenView (exec .tokFlush (ask twoTokens .tokFlush [.token 1])) = some ([0], [], [true]) := by
  decide +kernel

theorem test_v101 : tokenView (exec .tokIgnore (ask twoTokens .tokIgnore [.token 0])) =
    some ([1], twoTokens.tlb, [false]) := by decide +kernel

theorem test_v102 : refusedBy p1 .tokFlush [.token 0] = some .tokenNotOutstanding ∧
    refusedBy p1 .tokIgnore [.token 5] = some .tokenNotOutstanding := by decide +kernel

/-- V105: a mutation is refused before it starts while NEXT_TOKEN is outstanding. -/
theorem test_v105 : refusedBy { twoTokens with nextToken := 0 } (.mapUnmap .k4) [.page 0x1000] = some .tokenExhausted := by
  decide +kernel

/-- V89 and V121: the order of the checks, NotBound before Misaligned. -/
theorem test_v89_v121 : refusedBy { empty with bound := false } .rptTableVa [.page 0, .level 4] = some .notBound ∧
    refusedBy { empty with bound := false } (.mapMapTo .k4) [.page 0x1001] = some .notBound ∧
    refusedBy empty (.mapMapTo .k4) [.page 0x1001] = some .misaligned := by decide +kernel

/-! ## The step -/

/-- The first step after reset runs the word presented, and an unknown word is refused. -/
theorem test_step_from_reset : outOf (step (State.reset.withFetchWord 32 0x01)) =
      some { status := some 0, bool := some true } ∧
    outOf (step (State.reset.withFetchWord 32 0x41)) = some {} ∧ outOf (step State.reset) = some {} := by decide +kernel

/-- An observer caches the mapping in a gap, and its later translation uses the entry (R59(a), (c)). -/
theorem test_observer_fills : (turn { p1 with slots := [[.fill 1 0x1000 .read [] none]] }).tlb =
      [{ obs := 1, vaPage := 0x1000, size := .k4, paPage := 0x2000 }] ∧
    ((turn { twoTokens with mem := [], launchMem := [], slots := [[.translate 1 0x1008 .read
      (some { obs := 1, vaPage := 0x1000, size := .k4, paPage := 0x2000 }) [] none]] }).seen.map Observation.result =
        [some 0x2008]) := by decide +kernel

/-- A walk begun in one gap and ended in a later one keeps the descriptors it has read, though memory has changed between them. -/
theorem test_open_walk : (turn { turn { p1 with slots :=
        [[.start 1 0x1000 .read, .look 0 0, .look 0 0, .look 0 0, .look 0 0], [.finish 0 true [] none]] } with
      mem := [], launchMem := [], writes := [] }).tlb =
    [{ obs := 1, vaPage := 0x1000, size := .k4, paPage := 0x2000 }] := by decide +kernel

/-- Reading a port that holds no value is a fault, not a value (R38). -/
theorem test_read_port : readPort .val p1 = .fault (.portHoldsNoValue .val) ∧
    readPort .status { p1 with out := errPorts .hugeFrame } = .next 4 := ⟨rfl, rfl⟩

/-! ## Witnesses: for every obligation with hypotheses, a state and operands that meet them -/

/-- PTE.* and ATTR.LOOKUP: an admitted state, and for each clause of the setters an operand (PteAccessorsAnswer,
PteFrameAnswers, PteSetFrameAnswers, PteSetBlockAnswers, PteFieldSettersAnswer, AttrLookupAnswers, TableVaAnswers). -/
theorem test_witness_ready : Ready empty ∧ ReadyBound empty ∧ Ready { empty with bound := false } := by decide

/-- The clauses of PteSetFrameAnswers, PteSetBlockAnswers and PteFieldSettersAnswer at the boundary of their ranges. -/
theorem test_witness_setter_clauses : FlagsOk 0xFFF8000000000CC3 ∧ ¬ FlagsOk 0x404 ∧ AttrOk 0x31C ∧ ¬ AttrOk 0x20 ∧
    refusedBy empty .pteSetFrame [.frame 0x1000000000000, .flags 0x403] = some .addressWidth ∧
    answer empty .pteSetFrame [.frame 0xFFFFFFFFF000, .flags 0x3] = some { status := some 0, eOut := some 0xFFFFFFFFF003 } ∧
    refusedBy empty .pteSetFrame [.frame 0xFFF, .flags 0x403] = some .misaligned ∧
    refusedBy empty (.pteSetBlock .g1) [.addr 0x1000000000000] = some .addressWidth ∧
    answer empty (.pteSetBlock .g1) [.addr 0xFFFFFFFFFFFF, .flags 1] =
      some { status := some 0, eOut := some 0xFFFFC0000001 } ∧
    refusedBy empty .pteSetFlags [.flags 0x4] = some .operandRange ∧
    refusedBy empty .pteSetAttr [.attr 0x2] = some .operandRange := by decide +kernel

/-- AttrLookupAnswers: every KIND value. -/
theorem test_witness_kinds :
    answer empty .attrLookup [.kind 0] = some { status := some 0, idxOut := some 1, val := some 0x304 } ∧
    answer empty .attrLookup [.kind 1] = some { status := some 0, idxOut := some 0, val := some 0 } ∧
    answer empty .attrLookup [.kind 2] = some { status := some 0, idxOut := some 2, val := some 0x308 } ∧
    refusedBy empty .attrLookup [.kind 3] = some .illegalCommand := by decide +kernel

/-- The flag symbols of R89: bits 6, 7, 11, 51, 52, 55, 58, 59 and 63 by their names. -/
theorem test_flag_sum :
    flagSum ["AP6", "AP7", "NG", "DBM", "CONT", "SW0", "SW3", "TBL0", "TBL4"] = some 0x8C980000000008C0 := by decide +kernel

/-- The clauses of TableVaAnswers: every LEVEL value. -/
theorem test_witness_levels : refusedBy empty .rptTableVa [.level 0] = some .illegalCommand ∧
    refusedBy empty .rptTableVa [.level 5] = some .illegalCommand ∧
    refusedBy empty .rptTableVa [.level 7] = some .illegalCommand ∧
    (answer empty .rptTableVa [.level 4]).isSome ∧ (answer empty .rptTableVa [.level 3]).isSome ∧
    (answer empty .rptTableVa [.level 2]).isSome ∧ (answer empty .rptTableVa [.level 1]).isSome := by decide +kernel

/-- CodecRoundTrips. -/
theorem test_witness_codec : FlagsOk 0x403 ∧ AttrOk 0x304 ∧ (0x2000 : Word).toNat < 2 ^ 48 ∧ aligned 0x2000 .k4 = true ∧
    setFrame 0x2000 0x403 0x304 = .ok 0x2707 ∧ setBlock 0x40123456 .m2 0x401 0x200 = .ok 0x40000601 := by decide +kernel

/-- IllegalWordsRefused: a legal word, words that are none, and a state that presents one. -/
theorem test_witness_illegal_word : LegalWord 0x210 ∧ ¬ LegalWord 0x310 ∧ ¬ LegalWord 0x410 ∧ ¬ LegalWord 0x0C ∧
    Ready { empty with script := [{ InPorts.zero with cmd := 0x310 }] } := by decide +kernel

/-- StepRunsPresentedCommand. -/
theorem test_witness_step : decode ({ InPorts.zero with cmd := 0x30 } : InPorts).cmd = .ok .tokFlush ∧
    decodeTableWord 32 0x216 = some (.mapTranslatePage .g1) ∧ empty.script = [] := by decide +kernel

/-- BindAnswers: both clauses. -/
theorem test_witness_bind : Ready empty ∧ RootTable empty.config ∧
    RecursiveSlot (ask empty .rptBind [.ridx 511]) (ask empty .rptBind [.ridx 511]).inp.ridx ∧
    ¬ RecursiveSlot (ask empty .rptBind [.ridx 0]) (ask empty .rptBind [.ridx 0]).inp.ridx := by decide +kernel

/-- RecursiveAddressesResolve: the level-1 table of P1's page, and the root. -/
theorem test_witness_resolve : RootTable p1.config ∧ RecursiveSlot p1 p1.ridxReg ∧
    tableBase p1 0x1000 .l4 = some 0x100000 ∧ tableBase p1 0x1000 .l3 = some 0x101000 ∧
    tableBase p1 0x1000 .l2 = some 0x102000 ∧ tableBase p1 0x1000 .l1 = some 0x103000 ∧
    permOk p1.config .read (recursiveChain p1 p1.ridxReg 0x1000 .l1) = true ∧
    permOk p1.config .write (recursiveChain p1 p1.ridxReg 0x1000 .l4) = true := by decide +kernel

/-- Its premise about the tables on the path. -/
theorem test_witness_resolve_inside : ∀ l' ∈ levelsDownTo .l1, ∀ t, tableBase p1 0x1000 l' = some t →
    t.toNat + 4096 ≤ 2 ^ p1.config.paBits := by
  have h : tableBase p1 0x1000 .l4 = some 0x100000 ∧ tableBase p1 0x1000 .l3 = some 0x101000 ∧
    tableBase p1 0x1000 .l2 = some 0x102000 ∧ tableBase p1 0x1000 .l1 = some 0x103000 := by decide +kernel
  obtain ⟨h4, h3, h2, h1⟩ := h
  intro l' _ t ht
  cases l' with
  | l4 => rw [h4] at ht; obtain rfl := Option.some.inj ht; decide
  | l3 => rw [h3] at ht; obtain rfl := Option.some.inj ht; decide
  | l2 => rw [h2] at ht; obtain rfl := Option.some.inj ht; decide
  | l1 => rw [h1] at ht; obtain rfl := Option.some.inj ht; decide

/-- AllocatorAnswersLawful: a lawful configuration and every kind of answer. -/
theorem test_witness_alloc : ConfigLawful empty.config ∧
    nextAnswer { empty with answers := [some 0xFFFFFFFFF000] } = some 0xFFFFFFFFF000 ∧
    nextAnswer { empty with answers := [none] } = none := by decide +kernel

/-- The state of CreateNextTableLinks and NewTableRace (V90): root[1] is unused, and the allocator answers 0x101000. -/
def newTable : State :=
  { empty with
    inp := { InPorts.zero with cmd := 0x22, entryVa := 0xFFFFFFFFF008, nextVa := 0xFFFFFFE01000 }
    answers := [some 0x101000] }

theorem test_witness_new_table : AdmittedTable newTable ∧ readNow newTable newTable.inp.entryVa = some 0 ∧
    nextAnswer newTable = some 0x101000 ∧ tableLink newTable.config 0x101000 = .ok 0x101707 ∧
    reach newTable .write newTable.inp.entryVa = some 0x100008 ∧ (0x101000 : Word).toNat % 8 = 0 ∧
    0x100008 + 8 ≤ (0x101000 : Word).toNat := by decide +kernel

/-- The indices and the offset of the new table's entries. -/
theorem new_table_indices : ∀ i : Fin 512, idx .l4 (entryAt 0xFFFFFFE01000 i) = 511 ∧
    idx .l3 (entryAt 0xFFFFFFE01000 i) = 511 ∧ idx .l2 (entryAt 0xFFFFFFE01000 i) = 511 ∧
    idx .l1 (entryAt 0xFFFFFFE01000 i) = 1 ∧
    (pteAddr 0x101707 + offsetIn (entryAt 0xFFFFFFE01000 i) .k4).toNat = 0x101000 + 8 * i := by decide +kernel

/-- Whatever the frame held, the store of the zeroing reaches it through the link. -/
theorem test_witness_reaches_frame : ReachesFrame newTable 0x100008 0x101707 newTable.inp.nextVa 0x101000 := by
  intro m hm i hi
  obtain ⟨h4, h3, h2, h1, ho⟩ := new_table_indices ⟨i, hi⟩
  simp only at h4 h3 h2 h1 ho
  have hslot : m.read64 (0x100000 + 8 * 511) = 0x100403 := by
    rw [Memory.read64_eq_of_read m (newTable.mem.write64 0x100008 0x101707) _ fun k hk => hm _ (.inl (by
      show _ < 0x101000
      omega))]
    decide +kernel
  have hlink : m.read64 (0x100000 + 8 * 1) = 0x101707 := by
    rw [Memory.read64_eq_of_read m (newTable.mem.write64 0x100008 0x101707) _ fun k hk => hm _ (.inl (by
      show _ < 0x101000
      omega))]
    decide +kernel
  have hroot : newTable.config.rootPa.toNat = 0x100000 := by decide +kernel
  have hslotPa : (pteAddr 0x100403).toNat = 0x100000 := by decide +kernel
  have hin : ∀ n, n < 0x200000 → inPmem newTable.config n = true := by
    intro n hn
    have : (2 : Nat) ^ newTable.config.paBits = 281474976710656 := by decide +kernel
    simp only [inPmem, this, decide_eq_true_eq]
    omega
  have hs : ∀ acc, descNow { newTable with mem := m } (0x100000 + 8 * 511) acc =
      (some 0x100403, acc ++ [0x100000 + 8 * 511]) := by
    intro acc
    simp only [descNow, hslot, hin (0x100000 + 8 * 511) (by omega), if_true]
  have hl : ∀ acc, descNow { newTable with mem := m } (0x100000 + 8 * 1) acc =
      (some 0x101707, acc ++ [0x100000 + 8 * 1]) := by
    intro acc
    simp only [descNow, hlink, hin (0x100000 + 8 * 1) (by omega), if_true]
  have hv : isValid 0x100403 = true ∧ isTop 0x100403 = true ∧ isValid 0x101707 = true ∧ isTop 0x101707 = true := by
    decide +kernel
  obtain ⟨v1, t1, v2, t2⟩ := hv
  have hw : (walkNow { newTable with mem := m } .write (entryAt newTable.inp.nextVa i)).1 =
      .okay (pteAddr 0x101707 + offsetIn (entryAt 0xFFFFFFE01000 i) .k4) .k4 := by
    unfold walkNow
    show (walkFrom _ _ (entryAt 0xFFFFFFE01000 i) _ _ _ _ _).1 = _
    have n511 : (511 : BitVec 9).toNat = 511 := by decide
    have n1 : (1 : BitVec 9).toNat = 1 := by decide
    rw [walkFrom_of_read (by rw [h4, hroot, n511]; exact hs _), afterDesc_table v1 t1]
    rw [walkFrom_of_read (by rw [h3, hslotPa, n511]; exact hs _), afterDesc_table v1 t1]
    rw [walkFrom_of_read (by rw [h2, hslotPa, n511]; exact hs _), afterDesc_table v1 t1]
    rw [walkFrom_of_read (by rw [h1, hslotPa, n1]; exact hl _), afterDesc_page v2 t2 rfl]
  unfold reach
  rw [hw]
  have hb : (0x101000 : Word).toNat = 0x101000 := by decide
  rw [hb]
  simp only [ho, hin (0x101000 + 8 * i) (by omega), if_true]

/-- NewTable holds of that state, so the hypotheses of CreateNextTableLinks are met. -/
theorem test_witness_create_next_table :
    AdmittedTable newTable ∧ NewTable newTable newTable.inp.entryVa newTable.inp.nextVa 0x100008 0x101000 0x101707 :=
  ⟨test_witness_new_table.1, test_witness_new_table.2.1, test_witness_new_table.2.2.1, test_witness_new_table.2.2.2.1,
    test_witness_new_table.2.2.2.2.1, .inl test_witness_new_table.2.2.2.2.2.2, test_witness_reaches_frame⟩

/-- A launch has the history agree with PMEM (NewTableRace, FlushMakesWritesVisible, StepKeepsHistoryAgrees). -/
theorem test_witness_history : HistoryAgrees newTable ∧ HistoryAgrees { twoTokens with writes := [] } :=
  ⟨⟨fun _ hw => absurd hw (List.not_mem_nil), fun _ _ => rfl⟩, ⟨fun _ hw => absurd hw (List.not_mem_nil), fun _ _ => rfl⟩⟩

/-- States for RPT.CREATE_NEXT_TABLE at an entry of each kind: a table, a block, a malformed one, an unused one without a frame. -/
def createAt : List State :=
  [ask p1 .rptCreateNextTable [.entryVa 0xFFFFFFFFF000], ask huge .rptCreateNextTable [.entryVa 0xFFFFFFE00008],
    ask (bound [(0x100000, 0x101706)]) .rptCreateNextTable [.entryVa 0xFFFFFFFFF000],
    ask { empty with answers := [none] } .rptCreateNextTable [.entryVa 0xFFFFFFFFF008]]

/-- CreateNextTableOutcomes. -/
theorem test_witness_create_outcomes : (∀ s ∈ createAt, AdmittedTable s) ∧
    createAt.map (fun s => readNow s s.inp.entryVa) = [some 0x101707, some 0x80000705, some 0x101706, some 0] ∧
    (ask { empty with answers := [none] } .rptCreateNextTable [.entryVa 0xFFFFFFFFF008]).answers = [none] := by
  decide +kernel

/-- A 4KiB mapping beside P1's; the page and the frame have one address, so it serves MAP_TO and IDENTITY_MAP alike. -/
def map4k : State := ask p1 (.mapMapTo .k4) [.page 0x2000, .frame 0x2000, .flags 0x403, .attr 0x304]

/-- A 2MiB and a 1GiB mapping beside P1's. -/
def map2m : State := ask p1 (.mapMapTo .m2) [.page 0x200000, .frame 0x40000000, .flags 0x401]

/-- A 1GiB mapping beside P1's. -/
def map1g : State := ask p1 (.mapMapTo .g1) [.page 0x40000000, .frame 0x40000000, .flags 0x401]

/-- MapInstallsLeaf for 4KiB. -/
theorem test_witness_map_4k : AdmittedMap map4k .k4 map4k.inp.page ∧ AdmittedMap map4k .k4 map4k.inp.frame ∧
    PathLinked map4k .k4 map4k.inp.page ∧ readNow map4k (leafVa map4k .k4 map4k.inp.page) = some 0 ∧
    isTop map4k.inp.flags = (PageSize.k4 == .k4) ∧
    reach map4k .write (leafVa map4k .k4 map4k.inp.page) = some 0x103010 := by decide +kernel

/-- MapInstallsLeaf for 2MiB and 1GiB. -/
theorem test_witness_map_huge : AdmittedMap map2m .m2 map2m.inp.page ∧ PathLinked map2m .m2 map2m.inp.page ∧
    readNow map2m (leafVa map2m .m2 map2m.inp.page) = some 0 ∧ isTop map2m.inp.flags = (PageSize.m2 == .k4) ∧
    reach map2m .write (leafVa map2m .m2 map2m.inp.page) = some 0x102008 ∧
    AdmittedMap map1g .g1 map1g.inp.page ∧ PathLinked map1g .g1 map1g.inp.page ∧
    readNow map1g (leafVa map1g .g1 map1g.inp.page) = some 0 ∧ isTop map1g.inp.flags = (PageSize.g1 == .k4) ∧
    reach map1g .write (leafVa map1g .g1 map1g.inp.page) = some 0x101008 := by decide +kernel

/-- States for the outcomes of map_to at the leaf: in use, FLAGS without TOP for 4KiB, FLAGS with TOP for 2MiB. -/
def mapInUse : State := ask p1 (.mapMapTo .k4) [.page 0x1000, .frame 0x9000, .flags 0x401]
def mapNoTop : State := ask p1 (.mapMapTo .k4) [.page 0x2000, .frame 0x9000, .flags 0x401]
def mapTop : State := ask p1 (.mapMapTo .m2) [.page 0x200000, .frame 0x200000, .flags 0x403]

/-- MapLeafOutcomes, each clause. -/
theorem test_witness_map_leaf : AdmittedMap mapInUse .k4 mapInUse.inp.page ∧ PathLinked mapInUse .k4 mapInUse.inp.page ∧
    readNow mapInUse (leafVa mapInUse .k4 mapInUse.inp.page) = some 0x2707 ∧
    AdmittedMap mapNoTop .k4 mapNoTop.inp.page ∧ PathLinked mapNoTop .k4 mapNoTop.inp.page ∧
    readNow mapNoTop (leafVa mapNoTop .k4 mapNoTop.inp.page) = some 0 ∧ isTop mapNoTop.inp.flags = false ∧
    AdmittedMap mapTop .m2 mapTop.inp.page ∧ PathLinked mapTop .m2 mapTop.inp.page ∧
    readNow mapTop (leafVa mapTop .m2 mapTop.inp.page) = some 0 ∧ isTop mapTop.inp.flags = true := by decide +kernel

/-- Paths that stop above the leaf: at a block of level 3, at a malformed level-4 entry, at an unused one without a frame. -/
def pathBlock : State := ask huge (.mapMapTo .k4) [.page 0x40000000, .frame 0x2000, .flags 0x403]
def pathMalformed : State := ask (bound [(0x100000, 0x101706)]) (.mapMapTo .k4) [.page 0x1000, .flags 0x403]
def pathNoFrame : State := ask { empty with answers := [none] } (.mapMapTo .k4) [.page 0x1000, .flags 0x403]

/-- MapPathStops and WalkStops (the lookups' and the mutations' admission hold as well). -/
theorem test_witness_path_stops : nonLeafLevels .k4 = [.l4] ++ .l3 :: [.l2] ∧ nonLeafLevels .k4 = [] ++ .l4 :: [.l3, .l2] ∧
    AdmittedMap pathBlock .k4 pathBlock.inp.page ∧ AdmittedUpdate pathBlock .k4 ∧
    LinksTable pathBlock pathBlock.inp.page .l4 ∧
    readNow pathBlock (entryVaOf pathBlock .l3 pathBlock.inp.page) = some 0x80000705 ∧
    AdmittedMap pathMalformed .k4 pathMalformed.inp.page ∧ AdmittedUpdate pathMalformed .k4 ∧
    readNow pathMalformed (entryVaOf pathMalformed .l4 pathMalformed.inp.page) = some 0x101706 ∧
    AdmittedMap pathNoFrame .k4 pathNoFrame.inp.page ∧
    readNow pathNoFrame (entryVaOf pathNoFrame .l4 pathNoFrame.inp.page) = some 0 ∧
    pathNoFrame.answers = [none] := by decide +kernel

/-- MapCreatesTables: three frames into a fully empty space; a 2MiB mapping below P1's level-4 entry, with FLAGS of the wrong
kind; and a 4KiB mapping whose allocator fails after the first frame. -/
def intoEmpty : State :=
  { ask empty (.mapMapTo .k4) [.page 0x1000, .frame 0x2000, .flags 0x403, .attr 0x304] with
    answers := [some 0x101000, some 0x102000, some 0x103000] }
def intoLinked : State :=
  { ask p1 (.mapIdentityMap .m2) [.frame 0x40000000, .flags 0x403] with answers := [some 0x104000] }
def intoFailing : State := { intoEmpty with answers := [some 0x101000, none] }

theorem test_witness_creates_three : Maps intoEmpty (.mapMapTo .k4) .k4 intoEmpty.inp.page ∧
    AdmittedMap intoEmpty .k4 intoEmpty.inp.page ∧
    UnusedAt intoEmpty .k4 intoEmpty.inp.page .l4 0x100000 [0x101000, 0x102000, 0x103000] [] ∧
    [(0x101000 : Word), 0x102000, 0x103000].length = missingTables .k4 .l4 ∧ isTop intoEmpty.inp.flags = true :=
  ⟨.inl ⟨rfl, rfl⟩, by decide +kernel, by decide +kernel, by decide +kernel, by decide +kernel⟩

theorem test_witness_creates_linked : Maps intoLinked (.mapIdentityMap .m2) .m2 intoLinked.inp.frame ∧
    AdmittedMap intoLinked .m2 intoLinked.inp.frame ∧
    UnusedAt intoLinked .m2 intoLinked.inp.frame .l3 0x101000 [0x104000] [] ∧
    [(0x104000 : Word)].length = missingTables .m2 .l3 ∧ isTop intoLinked.inp.flags ≠ (PageSize.m2 == .k4) :=
  ⟨.inr ⟨rfl, rfl⟩, by decide +kernel, by decide +kernel, by decide +kernel, by decide +kernel⟩

theorem test_witness_creates_failing : AdmittedMap intoFailing .k4 intoFailing.inp.page ∧
    UnusedAt intoFailing .k4 intoFailing.inp.page .l4 0x100000 [0x101000] [none] ∧
    [(0x101000 : Word)].length < missingTables .k4 .l4 := by decide +kernel

theorem test_witness_accessible : RecursiveAccessible intoEmpty intoEmpty.ridxReg ∧
    RecursiveAccessible intoLinked intoLinked.ridxReg ∧ RecursiveAccessible intoFailing intoFailing.ridxReg :=
  ⟨fun _ _ _ => rfl, fun _ _ _ => rfl, fun _ _ _ => rfl⟩

theorem test_witness_fully_empty : FullyEmpty intoEmpty intoEmpty.ridxReg ∧
    idx .l4 intoEmpty.inp.page ≠ intoEmpty.ridxReg := by
  refine ⟨?_, by decide +kernel⟩
  have h : ∀ i : Fin 512, i.val ≠ 511 → intoEmpty.mem.read64 (0x100000 + 8 * i.val) = 0 := by decide +kernel
  have hroot : intoEmpty.config.rootPa.toNat = 0x100000 := by decide +kernel
  have hr : intoEmpty.ridxReg = 511 := rfl
  intro i hi
  rw [hroot]
  refine h ⟨i.toNat, i.isLt⟩ fun hc => hi ?_
  rw [hr]
  exact BitVec.eq_of_toNat_eq hc

/-- States for the lookups: P1's page, an unaligned address in it, a 2MiB block and a 1GiB block. -/
def look4k : State := ask p1 (.mapGetEntry .k4) [.page 0x1000, .flags 0x403]
def lookAny : State := ask p1 .mapTranslate [.page 0x1FFF]
def look2m : State := ask huge (.mapGetEntry .m2) [.page 0x200000]
def look1g : State := ask huge (.mapGetEntry .g1) [.page 0x40000000]

/-- GetEntryAnswers, TranslatePageAnswers, TranslateAnswers, UpdateFlagsAnswers and UnmapAnswers, for each size. -/
theorem test_witness_lookups : AdmittedLookup look4k .k4 ∧ AdmittedUpdate look4k .k4 ∧
    PathLinked look4k .k4 look4k.inp.page ∧ readNow look4k (leafVa look4k .k4 look4k.inp.page) = some 0x2707 ∧
    MatchingLeaf .k4 0x2707 ∧ reach look4k .write (leafVa look4k .k4 look4k.inp.page) = some 0x103008 ∧
    ReadyBound lookAny ∧ PathLinked lookAny .k4 lookAny.inp.page ∧
    readNow lookAny (leafVa lookAny .k4 lookAny.inp.page) = some 0x2707 := by decide +kernel

theorem test_witness_lookups_huge : AdmittedUpdate look2m .m2 ∧ PathLinked look2m .m2 look2m.inp.page ∧
    readNow look2m (leafVa look2m .m2 look2m.inp.page) = some 0x40000705 ∧ MatchingLeaf .m2 0x40000705 ∧
    reach look2m .write (leafVa look2m .m2 look2m.inp.page) = some 0x102008 ∧
    AdmittedUpdate look1g .g1 ∧ PathLinked look1g .g1 look1g.inp.page ∧
    readNow look1g (leafVa look1g .g1 look1g.inp.page) = some 0x80000705 ∧ MatchingLeaf .g1 0x80000705 ∧
    reach look1g .write (leafVa look1g .g1 look1g.inp.page) = some 0x101008 := by decide +kernel

/-- P1's tables with this leaf descriptor for 0x1000. -/
def leaf4k (d : Word) : State :=
  ask (bound [(0x100000, 0x101707), (0x101000, 0x102707), (0x102000, 0x103707), (0x103008, d)]) .mapTranslate [.page 0x1000]

/-- Where a translation stops: an unused and a block entry of level 4, a level-1 block, misaligned blocks of levels 3 and 2. -/
def stopL4 : State := ask empty .mapTranslate [.page 0x1000]
def stopL4Block : State := ask (bound [(0x100000, 0x401)]) .mapTranslate [.page 0x1000]
def stopL3 : State := ask (bound [(0x100000, 0x101707), (0x101008, 0x201705)]) .mapTranslate [.page 0x40000000]
def stopL2 : State := ask huge .mapTranslate [.page 0x400000]

/-- TranslateStops, each clause. -/
theorem test_witness_translate_stops : ReadyBound stopL4 ∧ readNow stopL4 (entryVaOf stopL4 .l4 0x1000) = some 0 ∧
    ReadyBound stopL4Block ∧ readNow stopL4Block (entryVaOf stopL4Block .l4 0x1000) = some 0x401 ∧
    ReadyBound (leaf4k 0x2705) ∧ PathLinked (leaf4k 0x2705) .k4 0x1000 ∧
    readNow (leaf4k 0x2705) (entryVaOf (leaf4k 0x2705) .l1 0x1000) = some 0x2705 ∧
    ReadyBound stopL3 ∧ LinksTable stopL3 0x40000000 .l4 ∧
    readNow stopL3 (entryVaOf stopL3 .l3 0x40000000) = some 0x201705 ∧ aligned (pteAddr 0x201705) .g1 = false ∧
    ReadyBound stopL2 ∧ LinksTable stopL2 0x400000 .l4 ∧ LinksTable stopL2 0x400000 .l3 ∧
    readNow stopL2 (entryVaOf stopL2 .l2 0x400000) = some 0x201705 ∧ aligned (pteAddr 0x201705) .m2 = false := by
  decide +kernel

/-- A 2MiB leaf that is a table. -/
def tableLeaf : State := ask p1 (.mapUnmap .m2) [.page 0]

/-- LeafErrors, each clause: an unused leaf, a malformed one, a level-1 block, a table, a misaligned block. -/
theorem test_witness_leaf_errors : AdmittedUpdate (leaf4k 0) .k4 ∧ PathLinked (leaf4k 0) .k4 0x1000 ∧
    readNow (leaf4k 0) (leafVa (leaf4k 0) .k4 0x1000) = some 0 ∧ AdmittedUpdate (leaf4k 0x2706) .k4 ∧
    readNow (leaf4k 0x2706) (leafVa (leaf4k 0x2706) .k4 0x1000) = some 0x2706 ∧ AdmittedUpdate (leaf4k 0x2705) .k4 ∧
    readNow (leaf4k 0x2705) (leafVa (leaf4k 0x2705) .k4 0x1000) = some 0x2705 ∧ AdmittedUpdate tableLeaf .m2 ∧
    PathLinked tableLeaf .m2 0 ∧ readNow tableLeaf (leafVa tableLeaf .m2 0) = some 0x103707 ∧ AdmittedUpdate stopL2 .m2 ∧
    PathLinked stopL2 .m2 0x400000 ∧ readNow stopL2 (leafVa stopL2 .m2 0x400000) = some 0x201705 := by decide +kernel

/-- The state with PERM_OK denying this chain for this kind of access. -/
def deny (s : State) (chain : List Word) (kind : Access) : State :=
  { s with config := { Config.sample with permDenied := [(chain, kind)] } }

/-- Reads that do not resolve: the root denied, a table address unmapped, one through a misaligned block, and one whose walk
leaves a PMEM of 2^30 bytes. -/
def denied : State := deny look4k [0x100403, 0x100403, 0x100403, 0x100403] .read
def unmappedEntry : State := ask empty .rptCreateNextTable [.entryVa 0x1000]
def unspecifiedEntry : State := ask huge .rptCreateNextTable [.entryVa 0x400000]
def outsideEntry : State :=
  { ask (bound [(0x100000, 0x40000403)]) .rptCreateNextTable [.entryVa 0] with config := { Config.sample with paBits := 30 } }

/-- UnresolvedAccessFaults: the reads of every clause. -/
theorem test_witness_unresolved_reads : pathLevels .k4 = [] ++ .l4 :: [.l3, .l2, .l1] ∧ AdmittedUpdate denied .k4 ∧
    AdmittedMap denied .k4 denied.inp.page ∧ reach denied .read (entryVaOf denied .l4 denied.inp.page) = none ∧
    AdmittedTable unmappedEntry ∧ (walkNow unmappedEntry .read unmappedEntry.inp.entryVa).1 = .fault .translation .l4 ∧
    AdmittedTable unspecifiedEntry ∧
    (walkNow unspecifiedEntry .read unspecifiedEntry.inp.entryVa).1 = .unspecified .l2 ∧
    AdmittedTable outsideEntry ∧ reach outsideEntry .read outsideEntry.inp.entryVa = none ∧
    stopped outsideEntry .rptCreateNextTable [.entryVa 0] = some (.mmuFault 0) := by decide +kernel

/-- P1's leaf table is readable and denied for a write: a leaf to map and one to unmap or update. -/
def mapDenied : State := deny map4k [0x100403, 0x101707, 0x102707, 0x103707] .write
def lookDenied : State := deny look4k [0x100403, 0x101707, 0x102707, 0x103707] .write

/-- A link that cannot be written, and a new table that cannot be reached through its link. -/
def linkDenied : State := deny intoEmpty [0x100403, 0x100403, 0x100403, 0x100403] .write
def newDenied : State := deny intoEmpty [0x100403, 0x100403, 0x100403, 0x101707] .write

/-- UnresolvedAccessFaults: the writes of the mapper commands. -/
theorem test_witness_unresolved_writes : AdmittedMap mapDenied .k4 mapDenied.inp.page ∧
    PathLinked mapDenied .k4 mapDenied.inp.page ∧ readNow mapDenied (leafVa mapDenied .k4 mapDenied.inp.page) = some 0 ∧
    reach mapDenied .write (leafVa mapDenied .k4 mapDenied.inp.page) = none ∧ AdmittedUpdate lookDenied .k4 ∧
    PathLinked lookDenied .k4 lookDenied.inp.page ∧
    readNow lookDenied (leafVa lookDenied .k4 lookDenied.inp.page) = some 0x2707 ∧
    reach lookDenied .write (leafVa lookDenied .k4 lookDenied.inp.page) = none := by decide +kernel

theorem test_witness_unresolved_links : AdmittedMap linkDenied .k4 linkDenied.inp.page ∧
    readNow linkDenied (entryVaOf linkDenied .l4 0x1000) = some 0 ∧ nextAnswer linkDenied = some 0x101000 ∧
    tableLink linkDenied.config 0x101000 = .ok 0x101707 ∧
    reach linkDenied .write (entryVaOf linkDenied .l4 0x1000) = none ∧
    AdmittedMap newDenied .k4 newDenied.inp.page ∧ readNow newDenied (entryVaOf newDenied .l4 0x1000) = some 0 ∧
    reach newDenied .write (entryVaOf newDenied .l4 0x1000) = some 0x100000 ∧
    reach { newDenied with mem := newDenied.mem.write64 0x100000 0x101707 } .write (tableVaOf newDenied .l3 0x1000) =
      none := by decide +kernel

/-- UnresolvedAccessFaults: the writes of RPT.CREATE_NEXT_TABLE. -/
def tableLinkDenied : State := deny newTable [0x100403, 0x100403, 0x100403, 0x100403] .write
def tableNextUnmapped : State := { newTable with inp := { newTable.inp with nextVa := 0x1000 } }

theorem test_witness_unresolved_table : AdmittedTable tableLinkDenied ∧
    readNow tableLinkDenied tableLinkDenied.inp.entryVa = some 0 ∧ nextAnswer tableLinkDenied = some 0x101000 ∧
    tableLink tableLinkDenied.config 0x101000 = .ok 0x101707 ∧
    reach tableLinkDenied .write tableLinkDenied.inp.entryVa = none ∧ AdmittedTable tableNextUnmapped ∧
    readNow tableNextUnmapped tableNextUnmapped.inp.entryVa = some 0 ∧
    reach tableNextUnmapped .write tableNextUnmapped.inp.entryVa = some 0x100008 ∧
    reach { tableNextUnmapped with mem := tableNextUnmapped.mem.write64 0x100008 0x101707 } .write 0x1000 = none := by
  decide +kernel

/-- MapThenTranslate and UnmapRoundTrip: the leaf of map4k is apart from what its lookup reads; the other hypotheses stand in
test_witness_map_4k. -/
theorem test_witness_path_apart : PathApart map4k .k4 map4k.inp.page 0x103010 ∧
    outstanding map4k (map4k.nextToken + 1) = false ∧ map4k.config.paBits ≤ 48 ∧ isValid map4k.inp.flags = true := by
  have hr : ∀ l ∈ leafLevel .k4 :: nonLeafLevels .k4, ∀ a ∈ (walkNow map4k .read (entryVaOf map4k l map4k.inp.page)).2,
      a + 8 ≤ 0x103010 ∨ 0x103010 + 8 ≤ a := by decide +kernel
  have hw : ∀ l ∈ leafLevel .k4 :: nonLeafLevels .k4, ∀ a ∈ (walkNow map4k .write (entryVaOf map4k l map4k.inp.page)).2,
      a + 8 ≤ 0x103010 ∨ 0x103010 + 8 ≤ a := by decide +kernel
  have h : ∀ l ∈ nonLeafLevels .k4, ∀ a ∈ (reach map4k .read (entryVaOf map4k l map4k.inp.page)).toList,
      a + 8 ≤ 0x103010 ∨ 0x103010 + 8 ≤ a := by decide +kernel
  refine ⟨⟨?_, fun l hl a ha => h l hl a (Option.mem_toList.2 ha)⟩, by decide +kernel⟩
  intro l hl kind
  cases kind with
  | read => exact hr l hl
  | write => exact hw l hl

/-- MapThenTranslate's clause without VALID: the hypotheses of test_witness_path_apart, for FLAGS with TOP alone. -/
def mapInvalid : State := { map4k with inp := { map4k.inp with flags := 0x402 } }

theorem test_witness_map_invalid : AdmittedMap mapInvalid .k4 mapInvalid.inp.page ∧
    PathLinked mapInvalid .k4 mapInvalid.inp.page ∧
    readNow mapInvalid (leafVa mapInvalid .k4 mapInvalid.inp.page) = some 0 ∧ isTop mapInvalid.inp.flags = true ∧
    reach mapInvalid .write (leafVa mapInvalid .k4 mapInvalid.inp.page) = some 0x103010 ∧
    isValid mapInvalid.inp.flags = false := by decide +kernel

theorem test_witness_map_invalid_apart : PathApart mapInvalid .k4 mapInvalid.inp.page 0x103010 := test_witness_path_apart.1

/-- TranslateAgreesWithPages: a translation that answers, and one that reports PageNotMapped. -/
theorem test_witness_translate_agrees :
    (∃ t, exec .mapTranslate (ask p1 .mapTranslate [.page 0x1123]) = .next t ∧
      t.out = { status := some 0, szOut := some PageSize.k4.tag, val := some 0x2000 }) ∧
    ∃ t, exec .mapTranslate (ask p1 .mapTranslate [.page 0x2000]) = .next t ∧ t.out = { status := some 1 } :=
  ⟨next_of_outOf (by decide +kernel), next_of_outOf (by decide +kernel)⟩

/-- FlushAnswers, IgnoreAnswers, DischargeOnce and FlushMakesWritesVisible. -/
theorem test_witness_discharge : Ready (ask twoTokens .tokFlush [.token 1]) ∧
    outstanding (ask twoTokens .tokFlush [.token 1]) 1 = true ∧ outstanding twoTokens 7 = false ∧
    RootTable twoTokens.config ∧
    (∃ t, exec .tokFlush (ask twoTokens .tokFlush [.token 1]) = .next t ∧ t.out = { status := some 0 }) ∧
    ∃ t, exec .tokIgnore (ask twoTokens .tokIgnore [.token 0]) = .next t ∧ t.out = { status := some 0 } :=
  ⟨by decide +kernel, by decide +kernel, by decide +kernel, by decide +kernel, next_of_outOf (by decide +kernel),
    next_of_outOf (by decide +kernel)⟩

/-- FlushMakesWritesVisible: one state meets every hypothesis. -/
def flushes : State := ask { twoTokens with writes := [] } .tokFlush [.token 1]

theorem test_witness_flush_visible : HistoryAgrees flushes ∧ RootTable flushes.config ∧
    ∃ t, exec .tokFlush flushes = .next t ∧ t.out = { status := some 0 } :=
  ⟨⟨fun _ hw => absurd hw (List.not_mem_nil), fun _ _ => rfl⟩, by decide +kernel, next_of_outOf (by decide +kernel)⟩

/-- ObserverRules: an address of PMEM with a window of two values, and a busy block. -/
theorem test_witness_observer_rules : inPmem twoTokens.config 0x103008 = true ∧
    windowAt { twoTokens with launchMem := [] } 0x103008 = [0x2707, 0] ∧
    ({ empty with busy := true } : State).busy = true ∧ ({ empty with busy := true } : State).faulted = false := by
  decide +kernel

/-- OnlyFlushEvicts, ObserversDoNotInterfere: a state with a cached translation and a move to come, and its core. -/
theorem test_witness_observers : (∀ ms ∈ ({ twoTokens with slots := [[.overlap]] } : State).slots, ∀ m ∈ ms, ∀ e,
      m ≠ Move.drop e) ∧
    (∃ t, exec .pteSetUnused twoTokens = .next t ∧ t.out = { status := some 0, eOut := some 0 }) ∧
    coreOf { twoTokens with tlb := [], slots := [[.overlap]] } = coreOf twoTokens := by
  refine ⟨?_, next_of_outOf (by decide +kernel), rfl⟩
  intro ms hms m hm e
  simp only [List.mem_singleton] at hms
  subst hms
  simp only [List.mem_singleton] at hm
  subst hm
  simp

/-- EveryOutcomeIsOneOfFour: a refused command, and one that passes every check and completes, errs or faults. -/
theorem test_witness_outcomes : firstRefusal (.mapMapTo .k4) (ask empty (.mapMapTo .k4) [.page 0x1001]) = some .misaligned ∧
    firstRefusal .tokFlush (ask empty .tokFlush [.token 9]) = some .tokenNotOutstanding ∧
    firstRefusal .pteFrame (ask empty .pteFrame [.e 0]) = none ∧
    (∃ t, exec .pteFrame (ask empty .pteFrame [.e 0]) = .next t ∧ t.out = { status := some 2 }) :=
  ⟨by decide +kernel, by decide +kernel, by decide +kernel, next_of_outOf (by decide +kernel)⟩

/-- FaultedBlockRefusesAll. -/
theorem test_witness_faulted :
    (∃ t, step { empty with faulted := true, faultReason := some .notRecursivelyMapped,
                            script := [{ InPorts.zero with cmd := 0x02 }] } = .next t ∧ t.out = {}) ∧
    (∃ t, exec .pteFlags { empty with busy := true } = .next t ∧ t.out = {}) :=
  ⟨next_of_outOf (by decide +kernel), next_of_outOf (by decide +kernel)⟩

/-- FrameOfEveryCommand, MemoryChangesByWritesOnly, EventsAreBounded, UnreadPortsIgnored, IdentityMapIsMapTo: a mapping that
stores, and ports that differ where MAP.IDENTITY_MAP does not read. -/
theorem test_witness_mapping :
    (∃ t, exec (.mapIdentityMap .m2) (ask p1 (.mapIdentityMap .m2) [.frame 0x200000, .flags 0x401]) = .next t ∧
      t.out = { status := some 0, tokenOut := some 0 }) ∧
    portsRead (.mapIdentityMap .m2) (assemble (.mapIdentityMap .m2) [.page 5, .frame 0x200000, .flags 0x401]) =
      portsRead (.mapIdentityMap .m2) (assemble (.mapIdentityMap .m2) [.frame 0x200000, .flags 0x401]) :=
  ⟨next_of_outOf (by decide +kernel), by decide +kernel⟩

/-- A MemWrite that completes. -/
def writeDone : Res Unit → Bool
  | .done _ _ => true
  | .error _ _ => false
  | .fault _ _ => false

theorem done_of_writeDone {r : Res Unit} (h : writeDone r = true) : ∃ s, r = .done () s := by
  cases r with
  | done a s => exact ⟨s, rfl⟩
  | error c s => simp [writeDone] at h
  | fault q s => simp [writeDone] at h

/-- OwnWritesVisible. -/
theorem test_witness_own_write : ∃ s', memWrite (leafVa p1 .k4 0x2000) 0x9707 p1 = .done () s' :=
  done_of_writeDone (by decide +kernel)

/-- The invariants hold of a state with tokens, TLB entries and writes, and of the reset state (StepKeepsOutcomePortsLegal,
StepKeepsTokensAndMemoryLegal, StepKeepsTlbLegal, RunKeepsLaunchAndMarks, LaunchState). -/
theorem test_witness_invariants : FaultStateLegal twoTokens ∧ TokensDistinct twoTokens ∧ MemoryCanonical twoTokens ∧
    TlbLegal twoTokens ∧ Memory.wf [] = true ∧
    (∃ t, step { twoTokens with script := [{ InPorts.zero with cmd := 0x30 }] } = .next t ∧ t.out = { status := some 0 }) :=
  ⟨by decide +kernel, by decide +kernel, by decide +kernel, by decide +kernel, rfl, next_of_outOf (by decide +kernel)⟩

theorem test_witness_ports_legal : OutputsLegal twoTokens ∧ OutputsLegal { twoTokens with out := errPorts .hugeFrame } := by
  refine ⟨⟨fun c h => by simp [twoTokens, p1, bound, State.launch] at h, fun _ => rfl⟩, ?_, ?_⟩
  · intro c h
    simp only [errPorts, Status.code, Option.some.injEq] at h
    subst h
    exact ⟨by decide, fun _ => rfl⟩
  · intro h
    simp [errPorts] at h

/-! ## The premises on the allocator (spec/70_reset_and_hazards.md R213) -/

/-- What the entry `k` of the table `x` maps or links shares no byte with the `n` bytes at `f`, and a table it links is in `ts`. -/
abbrev EntryApart (m : Memory) (r : BitVec 9) (ts : List (Level × Nat)) (f : Word) (n : Nat) (x : Level × Nat) (k : Nat) : Prop :=
  isValid (m.read64 (x.2 + 8 * k)) = true →
    Apart f.toNat n (pteAddr (m.read64 (x.2 + 8 * k))).toNat (targetBytes x.1 (m.read64 (x.2 + 8 * k))) ∧
      (x.1 ≠ .l1 → (x.1 = .l4 → k ≠ r.toNat) → isTop (m.read64 (x.2 + 8 * k)) = true →
        (levelBelow x.1, (pteAddr (m.read64 (x.2 + 8 * k))).toNat) ∈ ts)

/-- The tables `ts` hold every table reachable in `m`, and the `n` bytes at `f` are in none of them nor in what they map. -/
abbrev UnusedBy (m : Memory) (r : BitVec 9) (ts : List (Level × Nat)) (f : Word) (n : Nat) : Prop :=
  ∀ x ∈ ts, Apart f.toNat n x.2 4096 ∧ ∀ k : Fin 512, EntryApart m r ts f n x k

theorem unused_of_unusedBy {s : State} {r : BitVec 9} {ts : List (Level × Nat)} {f : Word} {n : Nat}
    (hroot : (.l4, s.config.rootPa.toNat) ∈ ts) (h : UnusedBy s.mem r ts f n) : Unused s r f n := by
  have hm := fun {l t} => tableAt_mem (r := r) (l := l) (t := t) hroot fun x hx hl i hr hv ht =>
    ((h x hx).2 ⟨i.toNat, i.isLt⟩ hv).2 hl (fun h4 he => hr h4 (BitVec.eq_of_toNat_eq he)) ht
  exact ⟨fun l t ht => (h _ (hm ht)).1, fun l t i ht hv => ((h _ (hm ht)).2 ⟨i.toNat, i.isLt⟩ hv).1⟩

/-- The frames a command is answered: each with PMEM at that moment and the frames answered before it, newest first. -/
def answersTo (s : State) (i : Instr) : List (Word × Memory × List Word) :=
  match exec i s with
  | .next t => (framesAnswered (newEvents s t)).map fun x =>
      (x.1, (stateAfter s x.2).mem, (framesAnswered (stateAfter s x.2).ev).map Prod.fst)
  | .fault _ => []
  | .refused _ => []

/-- ALLOC_TRUST for a command that maps nothing and is answered one frame, the first of the run. -/
theorem allocTrust_of_one {s : State} {i : Instr} {r : BitVec 9} {f : Word} {m : Memory} (hi : mapsFrame i = none)
    (h : answersTo s i = [(f, m, [])]) (hu : ∀ s' : State, s'.mem = m → s'.config = s.config → Unused s' r f 4096)
    (hf : f.toNat < 2 ^ s.config.paBits) : AllocTrust s i r := by
  intro t ht x hx
  have hm : (x.1, (stateAfter s x.2).mem, (framesAnswered (stateAfter s x.2).ev).map Prod.fst) ∈ answersTo s i := by
    simp only [answersTo, ht]
    exact List.mem_map_of_mem hx
  rw [h, List.mem_singleton, Prod.mk.injEq, Prod.mk.injEq] at hm
  obtain ⟨h1, h2, h3⟩ := hm
  exact ⟨h1 ▸ hu _ h2 rfl, h1 ▸ hf, by simp [h3], fun sz hsz => by simp [hi] at hsz⟩

/-- A frame answered to a command is one of `answersTo`. -/
theorem answered_of_mem {s t : State} {i : Instr} (ht : exec i s = .next t) (hev : s.ev = []) {x : Word × List Event}
    (hx : x ∈ framesAnswered t.ev) : x.1 ∈ (answersTo s i).map Prod.fst := by
  have hm : x.1 ∈ (framesAnswered t.ev).map Prod.fst := List.mem_map_of_mem hx
  rw [(exec_recorded ht).1, framesAnswered_append, hev] at hm
  simpa [answersTo, ht, framesAnswered] using hm

/-- A 1GiB block at 0x40000000, and its space once MAP.UNMAP has returned the frame 0x80000000. -/
def blockMapped : State := bound [(0x100000, 0x101707), (0x101008, 0x80000705)]
def blockUnmapped : State := bound [(0x100000, 0x101707)]

/-- The memory and the tables of `blockUnmapped`. -/
def unmappedCells : Memory :=
  [⟨0x100000, 7⟩, ⟨0x100001, 0x17⟩, ⟨0x100002, 0x10⟩, ⟨0x100FF8, 3⟩, ⟨0x100FF9, 4⟩, ⟨0x100FFA, 0x10⟩]
def unmappedTables : List (Level × Nat) := [(.l4, 0x100000), (.l3, 0x101000)]

theorem test_unmap_gives_back : answer blockMapped (.mapUnmap .g1) [.page 0x40000000] =
      some { status := some 0, val := some 0x80000000, tokenOut := some 0 } ∧
    (match exec (.mapUnmap .g1) (ask blockMapped (.mapUnmap .g1) [.page 0x40000000]) with
      | .next t => some t.mem
      | .fault _ => none
      | .refused _ => none) = some blockUnmapped.mem ∧ blockUnmapped.mem = unmappedCells := by decide +kernel

/-- The frame that MAP.UNMAP returned is the next answer, or is mapped again. The zeroing of the new table does not resolve at this
NEXT_VA, so the first command ends with MmuFault once it has linked the frame. -/
def answeredAgain : State :=
  { ask blockUnmapped .rptCreateNextTable [.entryVa (entryVaOf blockUnmapped .l3 0x80000000), .nextVa 0x5000] with
    answers := [some 0x80000000] }
def mappedAgain : State := ask blockUnmapped (.mapMapTo .g1) [.page 0x80000000, .frame 0x80000000, .flags 0x401]

/-- A frame that was mapped and has been unmapped keeps ALLOC_TRUST as an answer, and FRAME_EXCLUSIVE as a FRAME. -/
theorem test_premises_given_back : AllocTrust answeredAgain .rptCreateNextTable 511 ∧
    FrameExclusive mappedAgain (.mapMapTo .g1) 511 := by
  have hans : answersTo answeredAgain .rptCreateNextTable = [(0x80000000, unmappedCells, [])] := by decide +kernel
  have hroot : (.l4, answeredAgain.config.rootPa.toNat) ∈ unmappedTables := by decide +kernel
  have hroot' : (.l4, mappedAgain.config.rootPa.toNat) ∈ unmappedTables := by decide +kernel
  have hf : (0x80000000 : Word).toNat < 2 ^ answeredAgain.config.paBits := by decide +kernel
  have hu : UnusedBy unmappedCells 511 unmappedTables 0x80000000 (sizeBytes .g1) := by decide +kernel
  have hmem : mappedAgain.mem = unmappedCells := by decide +kernel
  have hframe : mappedAgain.inp.frame = 0x80000000 := by decide +kernel
  have hnone : answersTo mappedAgain (.mapMapTo .g1) = [] := by decide +kernel
  have hev : mappedAgain.ev = [] := by decide +kernel
  refine ⟨allocTrust_of_one rfl hans (fun s' h1 h2 =>
    (unused_of_unusedBy (by rw [h2]; exact hroot) (by rw [h1]; exact hu)).mono (by decide)) hf, fun sz hsz => ?_⟩
  rw [← Option.some.inj (show some PageSize.g1 = some sz from hsz), hframe]
  refine ⟨unused_of_unusedBy hroot' (by rw [hmem]; exact hu), fun t ht x hx => ?_⟩
  have := answered_of_mem ht hev hx
  rw [hnone] at this
  cases this

/-- MAP.MAP_TO of the 1GiB FRAME at 0x80000000 whose new table is answered inside it: a table and mapped in one command. (The
slot's chain here does not return to the root, so that the command ends once it has linked the table.) -/
def tableInFrame : State :=
  { ask (bound [(0x100FF8, 0x101403), (0x101FF8, 0x102403), (0x102FF8, 0x103403), (0x103FF8, 0x104403)]) (.mapMapTo .g1)
      [.page 0x40000000, .frame 0x80000000, .flags 0x401] with
    answers := [some 0xBFFFF000] }

/-- Such an answer breaks both premises. -/
theorem test_premises_table_in_frame : ¬ AllocTrust tableInFrame (.mapMapTo .g1) 511 ∧
    ¬ FrameExclusive tableInFrame (.mapMapTo .g1) 511 := by
  have hans : (answersTo tableInFrame (.mapMapTo .g1)).map Prod.fst = [0xBFFFF000] := by decide +kernel
  have hbad : ¬ Apart (0xBFFFF000 : Word).toNat 4096 tableInFrame.inp.frame.toNat (sizeBytes .g1) := by decide +kernel
  obtain ⟨t, ht⟩ : ∃ t, exec (.mapMapTo .g1) tableInFrame = .next t := by
    cases h : exec (.mapMapTo .g1) tableInFrame with
    | next t => exact ⟨t, rfl⟩
    | fault f => simp [answersTo, h] at hans
    | refused q => simp [answersTo, h] at hans
  obtain ⟨x, hx, hf⟩ : ∃ x ∈ framesAnswered (newEvents tableInFrame t), x.1 = 0xBFFFF000 := by
    have hm : (0xBFFFF000 : Word) ∈ (answersTo tableInFrame (.mapMapTo .g1)).map Prod.fst := by rw [hans]; exact .head _
    simpa [answersTo, ht] using hm
  rw [← hf] at hbad
  refine ⟨fun h => hbad ((h t ht x hx).2.2.2 .g1 rfl), fun h => hbad ?_⟩
  have hm : x.1 ∈ (framesAnswered t.ev).map Prod.fst := by
    rw [(exec_recorded ht).1, framesAnswered_append]
    exact List.mem_append_left _ (List.mem_map_of_mem hx)
  obtain ⟨y, hy, he⟩ := List.mem_map.1 hm
  exact he ▸ (h .g1 rfl).2 t ht y hy

end Sys2Proof.Tests
end

section
/-! PROOF. What one step can do, and the invariants that every step keeps: PMEM is the last value of every history
(spec/10_state.md R26), and every cached translation is an observer's, of an S-page (R28). -/

namespace Sys2Proof.Machine

/-! ## What one step can do -/

/-- The state `u` with the interface's side of `t`: the ports, the caller's sequence and the position in it, the fault state, the
refusal marks and the active mark. -/
def withInterface (u t : State) : State :=
  { u with
    inp := t.inp, out := t.out, faulted := t.faulted, faultReason := t.faultReason, refused := t.refused
    refusal := t.refusal, busy := t.busy, pos := t.pos, script := t.script }

/-- A command's end touches the interface's side only. -/
theorem endsAs_withInterface {t u : State} (h : endsAs t u) : t = withInterface u t := by
  rcases h with ⟨res, rfl⟩ | ⟨c, rfl⟩ | ⟨q, rfl⟩ <;> rfl

/-- A property that the interface's side does not bear on and the command's actions keep holds after the command. -/
theorem Explained.keeps {Inv : State → Prop} {i : Instr} {s t : State} (hface : ∀ u v, Inv u → Inv (withInterface u v))
    (hprim : ∀ p u, mayDo i p → legalPrim p u → Inv u → Inv (applyPrim p u)) (h : Explained i s t) (hs : Inv s) :
    Inv t := by
  rcases h with ⟨r, rfl⟩ | ⟨-, u, hu, he⟩
  · exact hface s (refuseCommand r s) hs
  · rw [endsAs_withInterface he]
    exact hface u t (hu.invariant hprim (hface s (beginCommand s) hs))

/-- A step is the gap alone, or the gap and then a presented command. A word that is none is refused as a command is. -/
theorem step_cases {s t : State} (h : step s = .next t) :
    (s.script = [] ∧ t = turn s) ∨
      ∃ p rest i, s.script = p :: rest ∧ Explained i (present p rest (turn s)) t := by
  unfold step at h
  rw [turn_script] at h
  split at h
  next hs => exact .inl ⟨hs, (Host.Outcome.next.inj h).symm⟩
  next p rest hs =>
    split at h
    next i _ => exact .inr ⟨p, rest, i, hs, exec_traced i _ _ h⟩
    next => exact .inr ⟨p, rest, .pteIsUnused, hs, refuseWord_explained _ h⟩

/-- A property that the interface's side does not bear on, kept by the gaps and by every action, is kept by every step. -/
theorem step_keeps {Inv : State → Prop} (hturn : ∀ s, Inv s → Inv (turn s))
    (hface : ∀ u v, Inv u → Inv (withInterface u v)) (hprim : ∀ p u, legalPrim p u → Inv u → Inv (applyPrim p u))
    {s t : State} (hs : Inv s) (h : step s = .next t) : Inv t := by
  rcases step_cases h with ⟨-, rfl⟩ | ⟨p, rest, i, -, hx⟩
  · exact hturn s hs
  · exact hx.keeps hface (fun p u _ => hprim p u) (hface _ (present p rest (turn s)) (hturn s hs))

/-! ## PMEM and the histories (spec/10_state.md R26) -/

/-- The values of a history, newest first, whatever is published. -/
theorem histOf_values (s : State) (a : Nat) :
    (histOf s a).map Prod.fst = (s.writes.filter (fun w => w.pa == a)).map WriteRec.val ++ [s.launchMem.read64 a] := by
  simp [histOf, Function.comp_def]

/-- Whether the histories agree with PMEM depends on PMEM, its launch contents and the engine's writes only. -/
theorem HistoryAgrees.congr {s t : State} (hm : t.mem = s.mem) (hl : t.launchMem = s.launchMem) (hw : t.writes = s.writes)
    (h : HistoryAgrees s) : HistoryAgrees t := by
  simp only [HistoryAgrees, histOf, hm, hl, hw] at h ⊢
  exact h

/-- Publishing the writes changes no value of a history. -/
theorem histOf_publish_values (s : State) (a : Nat) :
    (histOf { s with writes := publish s.writes } a).map Prod.fst = (histOf s a).map Prod.fst := by
  simp [histOf_values, publish, List.filter_map, Function.comp_def]

theorem HistoryAgrees.publish {s : State} (h : HistoryAgrees s) :
    HistoryAgrees { s with writes := publish s.writes } := by
  obtain ⟨haligned, hlast⟩ := h
  refine ⟨fun w hw => ?_, fun a ha => ?_⟩
  · obtain ⟨w', hw', rfl⟩ := List.mem_map.1 hw
    exact haligned w' hw'
  · rw [← List.head?_map, histOf_publish_values, List.head?_map]
    exact hlast a ha

/-- A store puts its value at the head of its address's history and leaves every other history. -/
theorem histOf_store64 (pa a : Nat) (v : Word) (s : State) :
    histOf (store64 pa v s) a = if pa = a then (v, false) :: histOf s a else histOf s a := by
  by_cases h : pa = a <;> simp [histOf, h]

/-- A store at an 8-aligned address touches no other 8-aligned descriptor. -/
theorem HistoryAgrees.store64 {s : State} {pa : Nat} (hpa : pa % 8 = 0) (v : Word) (h : HistoryAgrees s) :
    HistoryAgrees (store64 pa v s) := by
  obtain ⟨haligned, hlast⟩ := h
  refine ⟨List.forall_mem_cons.2 ⟨hpa, haligned⟩, fun a ha => ?_⟩
  rw [histOf_store64, store64_mem]
  split
  next heq => simp [← heq]
  next hne =>
    rw [Memory.read64_write64_other _ _ _ _ (by omega)]
    exact hlast a ha

theorem HistoryAgrees.record {s : State} (a : Act) (h : HistoryAgrees s) : HistoryAgrees (record a s) :=
  h.congr (record_mem s a) (record_launchMem s a) (record_writes s a)

/-- Barriers and invalidations publish, a MemWrite stores at an 8-aligned address, and no other action touches PMEM or a
history. -/
theorem HistoryAgrees.applyPrim {s : State} (p : Prim) (hl : legalPrim p s) (h : HistoryAgrees s) :
    HistoryAgrees (applyPrim p s) := by
  cases p with
  | store va pa v => exact (h.store64 hl.2 v).record _
  | barrier => exact h.publish.record _
  | tlbi => exact HistoryAgrees.record (s := { s with writes := _, tlb := [], walks := [] }) _ h.publish
  | physRead pa v => exact h.record _
  | memRead va pa v => exact h.record _
  | isb => exact h.record _
  | alloc => exact HistoryAgrees.record (s := { s with answers := _, allocCalls := _ }) _ h
  | token page sz => exact HistoryAgrees.record (s := { s with nextToken := _, tokens := _ }) _ h
  | discharge t how => exact HistoryAgrees.record (s := { s with tokens := _ }) _ h
  | bind => exact h

/-! ## The TLBs (spec/10_state.md R28) -/

theorem TlbLegal.record {s : State} (a : Act) (h : TlbLegal s) : TlbLegal (record a s) :=
  turn_keeps_TlbLegal { s with ev := _ } h

/-- TlbiAllIS empties every TLB, and no other action touches one but by the gap after it. -/
theorem TlbLegal.applyPrim {s : State} (p : Prim) (h : TlbLegal s) : TlbLegal (applyPrim p s) := by
  cases p with
  | tlbi => exact TlbLegal.record (s := { s with writes := _, tlb := [], walks := [] }) _ (by simp [TlbLegal])
  | store va pa v => exact TlbLegal.record (s := store64 pa v s) _ h
  | barrier => exact TlbLegal.record (s := { s with writes := _ }) _ h
  | physRead pa v => exact TlbLegal.record _ h
  | memRead va pa v => exact TlbLegal.record _ h
  | isb => exact TlbLegal.record _ h
  | alloc => exact TlbLegal.record (s := { s with answers := _, allocCalls := _ }) _ h
  | token page sz => exact TlbLegal.record (s := { s with nextToken := _, tokens := _ }) _ h
  | discharge t how => exact TlbLegal.record (s := { s with tokens := _ }) _ h
  | bind => exact h

/-- Settles O57: stores at 8-aligned addresses write PMEM and the head of one history, and publishing changes no value. -/
theorem stepKeepsHistoryAgrees : Obligations.StepKeepsHistoryAgrees := by
  unfold Obligations.StepKeepsHistoryAgrees
  intro s t hs h
  exact step_keeps (Inv := HistoryAgrees)
    (fun u => HistoryAgrees.congr (turn_mem u) (turn_launchMem u) (turn_writes u)) (fun _ _ hu => hu)
    (fun p _ hl hu => hu.applyPrim p hl) hs h

/-- Settles O58: an observer's move caches only a translation of its own, aligned to its page size. -/
theorem stepKeepsTlbLegal : Obligations.StepKeepsTlbLegal := by
  unfold Obligations.StepKeepsTlbLegal
  intro s t hs h
  exact step_keeps (Inv := TlbLegal) turn_keeps_TlbLegal (fun _ _ hu => hu) (fun p _ _ hu => TlbLegal.applyPrim p hu) hs h

end Sys2Proof.Machine
end

section
/-! PROOF. The launch, the command a step runs, the allocator's answers, and the sticky fault state. -/

namespace Sys2Proof.Machine

/-! ## The fault state (spec/10_state.md R43, spec/60_exceptions.md R193) -/

/-- A reason that R193 gives whatever the command asks to check refuses every command. -/
theorem exec_of_refused {r : RefuseReason} {s : State} (h : ∀ c, refusalOf c s = some r) (i : Instr) :
    exec i s = .next (refuseCommand r s) := by
  cases i with
  | rptTableVa =>
    simp only [exec, execRptTableVa]
    split <;> exact command_of_refused (h _) _
  | attrLookup =>
    simp only [exec, execAttrLookup]
    split <;> exact command_of_refused (h _) _
  | _ =>
    simp only [exec, execPteIsUnused, execPteSetUnused, execPteFlags, execPteAddr, execPteAttr, execPteIsBlock,
      execPteFrame, execPteSetFrame, execPteSetBlock, execPteSetFlags, execPteSetAttr, execMapMapTo, execMapIdentityMap,
      execMapGetEntry, execMapGetEntryMut, execMapUnmap, execMapUpdateFlags, execMapTranslatePage, execMapTranslate,
      execMapTranslateAddr, execRptBind, execRptCreateNextTable, execTokFlush, execTokIgnore, command_of_refused (h _)]

/-- Settles O46: check 1 fails before every other, then check 2, whatever is presented. -/
theorem faultedBlockRefusesAll : Obligations.FaultedBlockRefusesAll := by
  unfold Obligations.FaultedBlockRefusesAll
  refine ⟨fun i s hf => exec_of_refused (fun c => by simp [refusalOf, hf]) i,
    fun i s hf hb => exec_of_refused (fun c => by simp [refusalOf, hf, hb]) i, fun s t hf h => ?_⟩
  obtain ⟨-, rfl⟩ | ⟨p, rest, i, -, ⟨r, rfl⟩ | ⟨⟨hr, -⟩, -⟩⟩ := step_cases h
  · simp [hf, AllocatorKept]
  · simp [hf, AllocatorKept]
  · rw [present_faulted, turn_faulted, hf] at hr
    cases hr

/-! ## The presented command (spec/10_state.md R34, R39) -/

/-- A step takes the command presented next and runs it after the gap. -/
theorem step_of_presented {s : State} {p : InPorts} {rest : List InPorts} {i : Instr} (hs : s.script = p :: rest)
    (hi : decode p.cmd = .ok i) : step s = exec i (present p rest (turn s)) := by
  simp only [step, turn_script, hs, hi]

/-- A word that the decoder reads from a table row is a 32-bit word that decodes. -/
theorem decode_of_decodeTableWord {w : Nat} {i : Instr} (h : decodeTableWord 32 w = some i) :
    w < 2 ^ 32 ∧ decode (BitVec.ofNat 32 w) = .ok i := by
  simp only [decodeTableWord, Option.ite_none_right_eq_some] at h
  obtain ⟨⟨-, hw⟩, hd⟩ := h
  refine ⟨hw, ?_⟩
  cases he : decode (BitVec.ofNat 32 w) with
  | ok j => simpa [he, Except.toOption] using hd
  | error e => simp [he, Except.toOption] at hd

/-- Settles O4: the gap leaves the caller's sequence, so the command that stood next is the one run. -/
theorem stepRunsPresentedCommand : Obligations.StepRunsPresentedCommand := by
  unfold Obligations.StepRunsPresentedCommand
  refine ⟨fun s p rest i hs hi => step_of_presented hs hi, fun s hs => ?_, fun s => ⟨coreOf_turn s, turn_ev s⟩,
    fun s w i hw => ?_⟩
  · simp only [step, turn_script, hs]
  · obtain ⟨hlt, hd⟩ := decode_of_decodeTableWord hw
    refine step_of_presented ?_ hd
    rw [State.withFetchWord, Nat.mod_eq_of_lt hlt]

/-! ## The launch (spec/10_state.md R36) -/

/-- Settles O60: nothing has been written, cached, created or output, and PMEM is its launch contents. -/
theorem launchState : Obligations.LaunchState := by
  unfold Obligations.LaunchState
  refine ⟨fun c m hm => ?_, rfl⟩
  have hhist : ∀ a, histOf (State.launch c m) a = [(m.read64 a, true)] := fun a => rfl
  have hagrees : HistoryAgrees (State.launch c m) := ⟨by simp, fun a _ => by simp [hhist]⟩
  simp [hhist, hagrees, hm, OutputsLegal, FaultStateLegal, TokensDistinct, MemoryCanonical, TlbLegal]

/-! ## The allocator (spec/10_state.md R31) -/

theorem aligned_k4_iff (a : Word) : aligned a .k4 = true ↔ a.toNat % 4096 = 0 := by
  rw [aligned, beq_iff_eq, ← BitVec.toNat_inj, BitVec.toNat_and]
  exact (Nat.and_two_pow_sub_one_eq_mod a.toNat 12) ▸ Iff.rfl

theorem aligned_and_addrMask (f : Word) : aligned (f &&& addrMask) .k4 = true := by
  rw [aligned, beq_iff_eq, BitVec.and_assoc, show addrMask &&& offsetMask .k4 = 0 by decide]
  exact BitVec.and_zero

/-- ADDR_MASK keeps an address that is 4096-aligned and below 2^48. -/
theorem and_addrMask_of_aligned {f : Word} (ha : aligned f .k4 = true) (hf : f.toNat < 2 ^ 48) : f &&& addrMask = f := by
  have hlow : f &&& offsetMask .k4 = 0 := beq_iff_eq.1 ha
  have h48 : f &&& 0x0000FFFFFFFFFFFF = f := by
    apply BitVec.eq_of_toNat_eq
    rw [BitVec.toNat_and]
    exact (Nat.and_two_pow_sub_one_eq_mod f.toNat 48).trans (Nat.mod_eq_of_lt hf)
  calc f &&& addrMask = (f &&& offsetMask .k4) ||| (f &&& addrMask) := by rw [hlow]; simp
    _ = f &&& (offsetMask .k4 ||| addrMask) := BitVec.and_or_distrib_left.symm
    _ = f := h48

/-- The cut to PMEM is modulo its size. -/
theorem lawfulFrame_toNat {c : Config} (h : c.paBits ≤ 48) (f : Word) :
    (lawfulFrame c f).toNat = (f &&& addrMask).toNat % 2 ^ c.paBits := by
  have hpow : 2 ^ c.paBits ≤ 2 ^ 48 := Nat.pow_le_pow_right (by decide) h
  rw [lawfulFrame, BitVec.toNat_and, BitVec.toNat_ofNat, Nat.mod_eq_of_lt (by omega), Nat.and_two_pow_sub_one_eq_mod]

/-- PMEM is a whole number of frames. -/
theorem dvd_pmem {c : Config} (h : 12 < c.paBits) : 4096 ∣ 2 ^ c.paBits :=
  pow_dvd_pow 2 h.le

/-- An answer cut to R31 is a frame inside PMEM. -/
theorem lawfulFrame_lawful {c : Config} (hlo : 12 < c.paBits) (hhi : c.paBits ≤ 48) (f : Word) :
    aligned (lawfulFrame c f) .k4 = true ∧ (lawfulFrame c f).toNat + 4096 ≤ 2 ^ c.paBits := by
  have hf := (aligned_k4_iff _).1 (aligned_and_addrMask f)
  have hlt := Nat.mod_lt (f &&& addrMask).toNat (Nat.two_pow_pos c.paBits)
  have ha : (lawfulFrame c f).toNat % 4096 = 0 := by
    rw [lawfulFrame_toNat hhi, Nat.mod_mod_of_dvd _ (dvd_pmem hlo), hf]
  refine ⟨(aligned_k4_iff _).2 ha, ?_⟩
  obtain ⟨k, hk⟩ := dvd_pmem hlo
  rw [← lawfulFrame_toNat hhi] at hlt
  omega

/-- A frame inside PMEM is its own image. -/
theorem lawfulFrame_of_lawful {c : Config} (h : c.paBits ≤ 48) {f : Word} (ha : aligned f .k4 = true)
    (hf : f.toNat + 4096 ≤ 2 ^ c.paBits) : lawfulFrame c f = f := by
  have hpow : 2 ^ c.paBits ≤ 2 ^ 48 := Nat.pow_le_pow_right (by decide) h
  apply BitVec.eq_of_toNat_eq
  rw [lawfulFrame_toNat h, and_addrMask_of_aligned ha (by omega), Nat.mod_eq_of_lt (by omega)]

/-- Whatever the allocator answers is a frame cut to R31. -/
theorem nextAnswer_eq_lawfulFrame {s : State} {f : Word} (h : nextAnswer s = some f) :
    ∃ g, f = lawfulFrame s.config g := by
  unfold nextAnswer at h
  split at h <;> obtain ⟨g, -, rfl⟩ := Option.map_eq_some_iff.1 h <;> exact ⟨g, rfl⟩

/-- Settles O18: an answer is cut to the frames of R31, each of which is its own image. -/
theorem allocatorAnswersLawful : Obligations.AllocatorAnswersLawful := by
  unfold Obligations.AllocatorAnswersLawful
  rintro s ⟨hlo, hhi, -⟩
  refine ⟨fun f h => ?_, fun f rest h ha hf => ?_, fun rest h => by simp [nextAnswer, h], rfl, by simp [alloc]⟩
  · obtain ⟨g, rfl⟩ := nextAnswer_eq_lawfulFrame h
    exact lawfulFrame_lawful hlo hhi g
  · simp [nextAnswer, h, lawfulFrame_of_lawful hhi ha hf]

end Sys2Proof.Machine
end

section
/-! PROOF. What each command leaves unchanged (spec/10_state.md R37): read off the actions its rule allows. -/

namespace Sys2Proof.Machine

/-- A part of the state that the interface's side does not bear on and the command's actions leave is left by the command. -/
theorem Explained.unchanged {i : Instr} {s t : State} (h : Explained i s t) {α : Type} (f : State → α)
    (hface : ∀ u v, f (withInterface u v) = f u) (hprim : ∀ p u, mayDo i p → f (applyPrim p u) = f u) : f t = f s :=
  h.keeps (Inv := fun u => f u = f s) (fun u v hu => (hface u v).trans hu) (fun p u hp _ hu => (hprim p u hp).trans hu) rfl

/-! ## What each action leaves unchanged -/

section
variable (u : State)

/-- Only RPT.BIND's action changes the binding. -/
theorem applyPrim_binding {p : Prim} (h : p ≠ .bind) :
    (applyPrim p u).bound = u.bound ∧ (applyPrim p u).ridxReg = u.ridxReg := by
  cases p with
  | bind => exact absurd rfl h
  | _ => simp [applyPrim, barrier, tlbiAllIS, isb, alloc, newToken, discharge]

/-- Only a store changes PMEM. -/
theorem applyPrim_mem {p : Prim} (h : ∀ va pa v, p ≠ .store va pa v) : (applyPrim p u).mem = u.mem := by
  cases p with
  | store va pa v => exact absurd rfl (h va pa v)
  | _ => simp [applyPrim, barrier, tlbiAllIS, isb, alloc, newToken, discharge]

/-- Only a store and the two actions that publish change the histories. -/
theorem applyPrim_writes {p : Prim} (hs : ∀ va pa v, p ≠ .store va pa v) (hb : p ≠ .barrier) (ht : p ≠ .tlbi) :
    (applyPrim p u).writes = u.writes := by
  cases p with
  | store va pa v => exact absurd rfl (hs va pa v)
  | barrier => exact absurd rfl hb
  | tlbi => exact absurd rfl ht
  | _ => simp [applyPrim, isb, alloc, newToken, discharge]

/-- Only Alloc() changes the allocator. -/
theorem applyPrim_allocator {p : Prim} (h : p ≠ .alloc) :
    (applyPrim p u).answers = u.answers ∧ (applyPrim p u).allocCalls = u.allocCalls := by
  cases p with
  | alloc => exact absurd rfl h
  | _ => simp [applyPrim, barrier, tlbiAllIS, isb, newToken, discharge]

/-- Where no move is to come, recording an event is that alone. -/
theorem record_of_no_moves (a : Act) (h : u.slots = []) :
    record a u = { u with ev := { pos := u.pos, cmd := u.inp.cmd, act := a } :: u.ev } :=
  turn_of_no_moves _ h

/-- Where no move is to come, none comes, and no observer sees anything. -/
theorem applyPrim_seen (p : Prim) (h : u.slots = []) : (applyPrim p u).slots = [] ∧ (applyPrim p u).seen = u.seen := by
  cases p <;> simp [applyPrim, barrier, tlbiAllIS, isb, alloc, newToken, discharge, record_of_no_moves, h]

/-- Where no move is to come, only TlbiAllIS changes the TLBs and the open walks. -/
theorem applyPrim_tlb {p : Prim} (hp : p ≠ .tlbi) (h : u.slots = []) :
    (applyPrim p u).tlb = u.tlb ∧ (applyPrim p u).walks = u.walks := by
  cases p with
  | tlbi => exact absurd rfl hp
  | _ => simp [applyPrim, barrier, isb, alloc, newToken, discharge, record_of_no_moves, h]

end

/-! ## What each command leaves unchanged -/

section
variable {i : Instr} {s t : State} (h : Explained i s t)
include h

theorem Explained.interface_kept :
    t.inp = s.inp ∧ t.script = s.script ∧ t.busy = s.busy ∧ t.pos = s.pos + 1 := by
  rcases h with ⟨r, rfl⟩ | ⟨⟨-, hb⟩, u, hu, he⟩
  · simp
  · rcases he with ⟨res, rfl⟩ | ⟨c, rfl⟩ | ⟨q, rfl⟩ <;> simp [hb, hu.inp_eq, hu.script_eq, hu.pos_eq]

/-- FAULT_REASON is written with FAULTED, by a command that found the block not stopped. -/
theorem Explained.faultReason_kept (hf : t.faulted = s.faulted) : t.faultReason = s.faultReason := by
  rcases h with ⟨r, rfl⟩ | ⟨⟨hr, -⟩, u, hu, he⟩
  · rfl
  · rcases he with ⟨res, rfl⟩ | ⟨c, rfl⟩ | ⟨q, rfl⟩
    · exact hu.faultReason_eq
    · exact hu.faultReason_eq
    · simp [hr] at hf

theorem Explained.binding_kept (hi : i ≠ .rptBind) : t.bound = s.bound ∧ t.ridxReg = s.ridxReg := by
  have hne : ∀ p, mayDo i p → p ≠ .bind := by rintro _ hp rfl; exact hi hp
  exact ⟨h.unchanged State.bound (fun _ _ => rfl) fun p u hp => (applyPrim_binding u (hne p hp)).1,
    h.unchanged State.ridxReg (fun _ _ => rfl) fun p u hp => (applyPrim_binding u (hne p hp)).2⟩

theorem Explained.mem_kept (hi : storesMemory i = false) : t.mem = s.mem := by
  refine h.unchanged State.mem (fun _ _ => rfl) fun p u hp => applyPrim_mem u ?_
  rintro va pa v rfl
  exact Bool.false_ne_true (hi.symm.trans hp)

/-- A command that stores nothing creates no table, so it issues no barrier. -/
theorem Explained.writes_kept (hi : storesMemory i = false) (hflush : i ≠ .tokFlush) : t.writes = s.writes := by
  have htables : createsTables i = false := by cases i <;> simp_all [storesMemory, createsTables]
  refine h.unchanged State.writes (fun _ _ => rfl) fun p u hp => applyPrim_writes u ?_ ?_ ?_
  · rintro va pa v rfl
    exact Bool.false_ne_true (hi.symm.trans hp)
  · rintro rfl
    exact Bool.false_ne_true (htables.symm.trans hp)
  · rintro rfl
    exact hflush hp

theorem Explained.allocator_kept (hi : createsTables i = false) : AllocatorKept s t := by
  have hne : ∀ p, mayDo i p → p ≠ .alloc := by rintro _ hp rfl; exact Bool.false_ne_true (hi.symm.trans hp)
  exact ⟨h.unchanged State.answers (fun _ _ => rfl) fun p u hp => (applyPrim_allocator u (hne p hp)).1,
    h.unchanged State.allocCalls (fun _ _ => rfl) fun p u hp => (applyPrim_allocator u (hne p hp)).2⟩

theorem Explained.tokens_kept (hi : createsToken i = false) (hflush : i ≠ .tokFlush) (hignore : i ≠ .tokIgnore) :
    TokensKept s t := by
  have hA : ∀ p, mayDo i p → keepsTokens p := by
    intro p hp
    cases p with
    | token page sz => exact absurd (hi.symm.trans hp) Bool.false_ne_true
    | discharge k how => exact hp.elim hflush hignore
    | _ => trivial
  rcases h with ⟨r, rfl⟩ | ⟨-, u, hu, he⟩
  · exact ⟨rfl, rfl⟩
  · have htokens := Trace.tokens_eq hA hu
    rw [endsAs_withInterface he]
    exact htokens

theorem Explained.seen_kept (hs : s.slots = []) : t.slots = [] ∧ t.seen = s.seen := by
  refine h.keeps (Inv := fun u => u.slots = [] ∧ u.seen = s.seen) (fun _ _ hu => hu) (fun p u _ _ hu => ?_) ⟨hs, rfl⟩
  obtain ⟨hslots, hseen⟩ := applyPrim_seen u p hu.1
  exact ⟨hslots, hseen.trans hu.2⟩

theorem Explained.tlb_kept (hs : s.slots = []) (hi : i ≠ .tokFlush) : t.tlb = s.tlb ∧ t.walks = s.walks := by
  refine (h.keeps (Inv := fun u => u.slots = [] ∧ u.tlb = s.tlb ∧ u.walks = s.walks) (fun _ _ hu => hu)
    (fun p u hp _ hu => ?_) ⟨hs, rfl, rfl⟩).2
  obtain ⟨hslots, htlb, hwalks⟩ := hu
  obtain ⟨h1, h2⟩ := applyPrim_tlb u (p := p) (by rintro rfl; exact hi hp) hslots
  exact ⟨(applyPrim_seen u p hslots).1, h1.trans htlb, h2.trans hwalks⟩

end

/-- Settles O47: each clause is read off the actions the command's rule allows. -/
theorem frameOfEveryCommand : Obligations.FrameOfEveryCommand := by
  unfold Obligations.FrameOfEveryCommand
  intro i s t hexec
  have h := exec_traced i s t hexec
  obtain ⟨hinp, hscript, hbusy, hpos⟩ := h.interface_kept
  have hconfig := h.unchanged State.config (fun _ _ => rfl) fun p u _ => applyPrim_config p u
  have hlaunch := h.unchanged State.launchMem (fun _ _ => rfl) fun p u _ => applyPrim_launchMem p u
  exact ⟨⟨hconfig, hinp, hlaunch, hscript, hbusy, hpos⟩, h.binding_kept, fun hi a => by rw [h.mem_kept hi],
    h.writes_kept, h.allocator_kept, h.tokens_kept, h.faultReason_kept, h.tlb_kept, h.seen_kept⟩

end Sys2Proof.Machine
end

section
/-! PROOF. Two runs of one command, in states that agree on everything the engine reads, proceed alike. -/

namespace Sys2Proof.Machine

/-! ## Related states -/

/-- Two states agree on what the engine reads beside the input ports. -/
structure SameEngine (s t : State) : Prop where
  config : s.config = t.config
  mem : s.mem = t.mem
  bound : s.bound = t.bound
  ridxReg : s.ridxReg = t.ridxReg
  faulted : s.faulted = t.faulted
  busy : s.busy = t.busy
  tokens : s.tokens = t.tokens
  nextToken : s.nextToken = t.nextToken
  answers : s.answers = t.answers
  allocCalls : s.allocCalls = t.allocCalls

/-- A relation between states that agree on everything the command `i` reads, which each part of the command keeps: its actions,
its start and its ends. -/
structure Simulation (i : Instr) (R : State → State → Prop) : Prop where
  same : ∀ {s t}, R s t → SameEngine s t
  ports : ∀ {s t}, R s t → portsRead i s.inp = portsRead i t.inp
  prim : ∀ {s t} (p : Prim), (p = .bind → i = .rptBind) → R s t → R (applyPrim p s) (applyPrim p t)
  start : ∀ {s t}, R s t → R (beginCommand s) (beginCommand t)
  complete : ∀ {s t} (res : OutPorts), R s t → R (completeCommand res s) (completeCommand res t)
  error : ∀ {s t} (c : Status), R s t → R (returnError c s) (returnError c t)
  fault : ∀ {s t} (q : FaultReason), R s t → R (takeFault q s) (takeFault q t)
  refuse : ∀ {s t} (r : RefuseReason), R s t → R (refuseCommand r s) (refuseCommand r t)

namespace SameEngine

variable {s t : State} (h : SameEngine s t)
include h

theorem tableVaOf_eq (l : Level) (p : Word) : tableVaOf s l p = tableVaOf t l p := by
  simp only [tableVaOf, h.config, h.ridxReg]

theorem entryVaOf_eq (l : Level) (p : Word) : entryVaOf s l p = entryVaOf t l p := by
  simp only [entryVaOf, h.config, h.ridxReg]

theorem nextAnswer_eq : nextAnswer s = nextAnswer t := by
  simp only [nextAnswer, h.config, h.answers, h.allocCalls]

theorem inWindow_eq (v : Option Word) : inWindow s v = inWindow t v := by
  simp only [inWindow, h.ridxReg]

theorem outstanding_eq (k : BitVec 32) : outstanding s k = outstanding t k := by
  simp only [outstanding, h.tokens]

theorem notOutstanding_eq (v : Option (BitVec 32)) : notOutstanding s v = notOutstanding t v := by
  cases v with
  | none => rfl
  | some k => simp only [notOutstanding, h.outstanding_eq]

/-- The checks of R193 read no port themselves. -/
theorem refusalOf_eq (c : Checks) : refusalOf c s = refusalOf c t := by
  simp only [refusalOf, h.faulted, h.busy, h.bound, h.config, h.nextToken, h.inWindow_eq, h.outstanding_eq,
    h.notOutstanding_eq]

end SameEngine

/-- A command that R85 or R86 gives no meaning is refused, by check 3 at the latest. -/
theorem refusalOf_of_illegal {c : Checks} (hc : c.illegal = true) (s : State) :
    refusalOf c s = some (if s.faulted then .blockFaulted else if s.busy then .concurrent else .illegalCommand) := by
  cases hf : s.faulted <;> cases hb : s.busy <;> simp [refusalOf, hf, hb, hc]

/-! ## Parts of a command that proceed alike -/

/-- Two results with their states are the same result with related states. -/
abbrev SameResult {α σ τ : Type} (R : σ → τ → Prop) (x : α × σ) (y : α × τ) : Prop := x.1 = y.1 ∧ R x.2 y.2

/-- Two parts of a command proceed alike, to related states. -/
inductive ResRel (R : State → State → Prop) {α : Type} : Res α → Res α → Prop where
  | done (a : α) {s t : State} : R s t → ResRel R (.done a s) (.done a t)
  | error (c : Status) {s t : State} : R s t → ResRel R (.error c s) (.error c t)
  | fault (q : FaultReason) {s t : State} : R s t → ResRel R (.fault q s) (.fault q t)

theorem ResRel.bind {R : State → State → Prop} {α β : Type} {r r' : Res α} {f f' : α → State → Res β}
    (h : ResRel R r r') (hf : ∀ a s t, R s t → ResRel R (f a s) (f' a t)) : ResRel R (r.bind f) (r'.bind f') := by
  cases h with
  | done a hs => exact hf a _ _ hs
  | error c hs => exact .error c hs
  | fault q hs => exact .fault q hs

theorem ResRel.ofSetter {R : State → State → Prop} {s t : State} (e : Except FaultReason Word) (h : R s t) :
    ResRel R (ofSetter e s) (ofSetter e t) := by
  cases e with
  | ok v => exact .done v h
  | error q => exact .fault q h

/-- A setter command gives the descriptor on an output port, or raises its contract violation. -/
theorem ResRel.ofSetter_done {R : State → State → Prop} {s t : State} (e : Except FaultReason Word) (f : Word → OutPorts)
    (h : R s t) : ResRel R ((Machine.ofSetter e s).bind fun v u => .done (f v) u)
      ((Machine.ofSetter e t).bind fun v u => .done (f v) u) :=
  (ResRel.ofSetter e h).bind fun _ _ _ h => .done _ h

/-! ## The walk -/

section
variable {σ τ : Type} {R : σ → τ → Prop} {desc : Nat → σ → Option Word × σ} {desc' : Nat → τ → Option Word × τ}
  {perm : List Word → Bool} {va : Word}

/-- What a walk does after it has read a descriptor is the same where what it does further down is. -/
theorem afterDesc_sameResult {l : Level} {rest : List Level} {chain : List Word} {d : Word} {s : σ} {t : τ}
    (hrest : ∀ l' rest', rest = l' :: rest' → SameResult R (walkFrom desc perm va l' rest' (pteAddr d) (chain ++ [d]) s)
      (walkFrom desc' perm va l' rest' (pteAddr d) (chain ++ [d]) t))
    (h : R s t) : SameResult R (afterDesc desc perm va l rest chain d s) (afterDesc desc' perm va l rest chain d t) := by
  unfold afterDesc
  split
  next => exact ⟨rfl, h⟩
  next =>
    split
    next =>
      cases blockSize l with
      | none => exact ⟨rfl, h⟩
      | some sz =>
        simp only
        split
        · exact ⟨rfl, h⟩
        · split <;> exact ⟨rfl, h⟩
    next =>
      cases rest with
      | nil =>
        simp only
        split <;> exact ⟨rfl, h⟩
      | cons l' rest' => exact hrest l' rest' rfl

/-- Walks whose reads answer the same give the same result. -/
theorem walkFrom_sameResult (hdesc : ∀ a s t, R s t → SameResult R (desc a s) (desc' a t)) (rest : List Level) (l : Level)
    (b : Word) (chain : List Word) {s : σ} {t : τ} (h : R s t) :
    SameResult R (walkFrom desc perm va l rest b chain s) (walkFrom desc' perm va l rest b chain t) := by
  obtain ⟨hd, hu⟩ := hdesc (b.toNat + 8 * (idx l va).toNat) s t h
  generalize hx : desc (b.toNat + 8 * (idx l va).toNat) s = x at hd hu
  generalize hy : desc' (b.toNat + 8 * (idx l va).toNat) t = y at hd hu
  obtain ⟨d, u⟩ := x
  obtain ⟨d', v⟩ := y
  obtain rfl : d = d' := hd
  cases d with
  | none =>
    rw [walkFrom_of_absent hx, walkFrom_of_absent hy]
    exact ⟨rfl, hu⟩
  | some d =>
    rw [walkFrom_of_read hx, walkFrom_of_read hy]
    cases rest with
    | nil => exact afterDesc_sameResult nofun hu
    | cons l' rest =>
      refine afterDesc_sameResult (fun l'' rest'' he => ?_) hu
      obtain ⟨rfl, rfl⟩ := List.cons.inj he
      exact walkFrom_sameResult hdesc rest l' _ _ hu

end

/-! ## The shared operations -/

namespace Simulation

variable {i : Instr} {R : State → State → Prop} (S : Simulation i R) {s t : State}
include S

theorem physRead_rel (a : Nat) (h : R s t) : SameResult R (physRead a s) (physRead a t) := by
  simp only [physRead, (S.same h).config, (S.same h).mem]
  split
  · exact ⟨rfl, S.prim (.physRead a _) nofun h⟩
  · exact ⟨rfl, h⟩

theorem hwWalk_rel (kind : Access) (va : Word) (h : R s t) : SameResult R (hwWalk kind va s) (hwWalk kind va t) := by
  simp only [hwWalk, (S.same h).config]
  exact walkFrom_sameResult (fun a _ _ h => S.physRead_rel a h) _ _ _ _ h

theorem memRead_rel (va : Word) (h : R s t) : ResRel R (memRead va s) (memRead va t) := by
  obtain ⟨hr, hu⟩ := S.hwWalk_rel .read va h
  unfold memRead
  generalize hwWalk .read va s = x at hr hu
  generalize hwWalk .read va t = y at hr hu
  obtain ⟨r, u⟩ := x
  obtain ⟨r', v⟩ := y
  simp only at hr hu
  subst hr
  cases r with
  | okay pa sz =>
    simp only [(S.same hu).config, (S.same hu).mem]
    split
    · exact .done _ (S.prim (.memRead va pa.toNat _) nofun hu)
    · exact .fault _ hu
  | fault k l => exact .fault _ hu
  | unspecified l => exact .fault _ hu

theorem memWrite_rel (va w : Word) (h : R s t) : ResRel R (memWrite va w s) (memWrite va w t) := by
  obtain ⟨hr, hu⟩ := S.hwWalk_rel .write va h
  unfold memWrite
  generalize hwWalk .write va s = x at hr hu
  generalize hwWalk .write va t = y at hr hu
  obtain ⟨r, u⟩ := x
  obtain ⟨r', v⟩ := y
  simp only at hr hu
  subst hr
  cases r with
  | okay pa sz =>
    simp only [(S.same hu).config]
    split
    · exact .done _ (S.prim (.store va pa.toNat w) nofun hu)
    · exact .fault _ hu
  | fault k l => exact .fault _ hu
  | unspecified l => exact .fault _ hu

theorem zeroFrom_rel (b : Word) (k n : Nat) (h : R s t) : ResRel R (zeroFrom b k n s) (zeroFrom b k n t) := by
  induction n generalizing k s t with
  | zero => exact .done () h
  | succ n ih => exact (S.memWrite_rel _ _ h).bind fun _ _ _ h => ih (k + 1) h

theorem createNextTable_rel (eva nva : Word) (h : R s t) :
    ResRel R (createNextTable eva nva s) (createNextTable eva nva t) := by
  refine (S.memRead_rel eva h).bind fun e s t h => ?_
  split
  next =>
    have hu : R (alloc s).2 (alloc t).2 := S.prim .alloc nofun h
    have ha : (alloc s).1 = (alloc t).1 := (S.same h).nextAnswer_eq
    generalize alloc s = x at ha hu
    generalize alloc t = y at ha hu
    obtain ⟨f, u⟩ := x
    obtain ⟨f', v⟩ := y
    simp only at ha hu
    subst ha
    cases f with
    | none => exact .error _ hu
    | some f =>
      simp only [(S.same hu).config]
      refine (ResRel.ofSetter _ hu).bind fun link s t h => (S.memWrite_rel eva link h).bind fun _ s t h => ?_
      exact S.zeroFrom_rel nva 0 512 (S.prim .barrier nofun h)
  next =>
    split
    · exact .error _ h
    · split
      · exact .fault _ h
      · exact .done () h

theorem readPath_rel (classify : Word → Option Status) (p : Word) (ls : List Level) (h : R s t) :
    ResRel R (readPath classify p ls s) (readPath classify p ls t) := by
  induction ls generalizing s t with
  | nil => exact .done () h
  | cons l ls ih =>
    simp only [readPath, (S.same h).entryVaOf_eq]
    refine (S.memRead_rel _ h).bind fun e s t h => ?_
    cases classify e with
    | none => exact ih h
    | some c => exact .error c h

theorem readWalk_rel (onBlock : Status) (p : Word) (sz : PageSize) (h : R s t) :
    ResRel R (readWalk onBlock p sz s) (readWalk onBlock p sz t) := by
  refine (S.readPath_rel _ p _ h).bind fun _ s t h => ?_
  rw [(S.same h).entryVaOf_eq]
  exact .done _ h

theorem createPath_rel (p : Word) (ls : List Level) (h : R s t) : ResRel R (createPath p ls s) (createPath p ls t) := by
  induction ls generalizing s t with
  | nil => exact .done () h
  | cons l ls ih =>
    simp only [createPath, (S.same h).entryVaOf_eq, (S.same h).tableVaOf_eq]
    exact (S.createNextTable_rel _ _ h).bind fun _ _ _ h => ih h

theorem translateFrom_rel (v : Word) (rest : List Level) (l : Level) {s t : State} (h : R s t) :
    ResRel R (translateFrom v l rest s) (translateFrom v l rest t) := by
  unfold translateFrom
  rw [(S.same h).entryVaOf_eq]
  refine (S.memRead_rel _ h).bind fun e s t h => ?_
  split
  next => exact .error _ h
  next =>
    split
    next =>
      cases blockSize l with
      | none => exact .error _ h
      | some sz =>
        simp only
        split
        · exact .done _ h
        · exact .error _ h
    next =>
      cases rest with
      | nil => exact .done _ h
      | cons l' rest => exact translateFrom_rel v rest l' h

/-- A mutation's last action: its token is created, and TOKEN_OUT holds its identifier. -/
theorem newToken_rel (page : Word) (sz : PageSize) (res : BitVec 32 → OutPorts) (h : R s t) :
    ResRel R (.done (res (newToken page sz s).1) (newToken page sz s).2)
      (.done (res (newToken page sz t).1) (newToken page sz t).2) := by
  rw [newToken_fst, newToken_fst, (S.same h).nextToken]
  exact .done _ (S.prim (.token page sz) nofun h)

/-! ## What related states read on the ports -/

section
variable (h : R s t)
include h

theorem entry_eq (hi : portsRead.readsEntry i = true) : s.inp.e = t.inp.e := by
  simpa [portsRead, hi] using congrArg InPorts.e (S.ports h)

theorem page_eq (hi : portsRead.readsPage i = true) : s.inp.page = t.inp.page := by
  simpa [portsRead, hi] using congrArg InPorts.page (S.ports h)

theorem frame_eq (hi : readsFrame i = true) : s.inp.frame = t.inp.frame := by
  simpa [portsRead, hi] using congrArg InPorts.frame (S.ports h)

theorem addr_eq (hi : i = .pteSetBlock .m2 ∨ i = .pteSetBlock .g1) : s.inp.addr = t.inp.addr := by
  simpa [portsRead, hi] using congrArg InPorts.addr (S.ports h)

theorem flags_eq (hi : readsFlags i = true) : s.inp.flags = t.inp.flags := by
  simpa [portsRead, hi] using congrArg InPorts.flags (S.ports h)

theorem attr_eq (hi : readsAttr i = true) : s.inp.attr = t.inp.attr := by
  simpa [portsRead, hi] using congrArg InPorts.attr (S.ports h)

theorem kind_eq (hi : i = .attrLookup) : s.inp.kind = t.inp.kind := by
  simpa [portsRead, hi] using congrArg InPorts.kind (S.ports h)

theorem level_eq (hi : i = .rptTableVa) : s.inp.level = t.inp.level := by
  simpa [portsRead, hi] using congrArg InPorts.level (S.ports h)

theorem token_eq (hi : i = .tokFlush ∨ i = .tokIgnore) : s.inp.token = t.inp.token := by
  simpa [portsRead, hi] using congrArg InPorts.token (S.ports h)

theorem entryVa_eq (hi : i = .rptCreateNextTable) : s.inp.entryVa = t.inp.entryVa := by
  simpa [portsRead, hi] using congrArg InPorts.entryVa (S.ports h)

theorem nextVa_eq (hi : i = .rptCreateNextTable) : s.inp.nextVa = t.inp.nextVa := by
  simpa [portsRead, hi] using congrArg InPorts.nextVa (S.ports h)

theorem ridx_eq (hi : i = .rptBind) : s.inp.ridx = t.inp.ridx := by
  simpa [portsRead, hi] using congrArg InPorts.ridx (S.ports h)

end

/-! ## The mapper's bodies -/

theorem mapLeaf_rel (hflags : readsFlags i = true) (hattr : readsAttr i = true) (sz : PageSize) (page frame : Word)
    (h : R s t) : ResRel R (mapLeaf sz page frame s) (mapLeaf sz page frame t) := by
  refine (S.createPath_rel page _ h).bind fun _ s t h => ?_
  rw [(S.same h).entryVaOf_eq]
  refine (S.memRead_rel _ h).bind fun e s t h => ?_
  split
  · rw [S.flags_eq h hflags, S.attr_eq h hattr]
    refine (ResRel.ofSetter _ h).bind fun new s t h => ?_
    rw [(S.same h).entryVaOf_eq]
    exact (S.memWrite_rel _ new h).bind fun _ s t h => S.newToken_rel page sz (fun k => { tokenOut := some k }) h
  · exact .error _ h

theorem lookupLeaf_rel (hpage : portsRead.readsPage i = true) (sz : PageSize) (h : R s t) :
    ResRel R (lookupLeaf sz s) (lookupLeaf sz t) := by
  rw [lookupLeaf, lookupLeaf, S.page_eq h hpage]
  refine (S.readWalk_rel _ _ sz h).bind fun r s t h => (S.memRead_rel r h).bind fun e s t h => ?_
  split
  · exact .error _ h
  · exact .done _ h

theorem unmapLeaf_rel (hpage : portsRead.readsPage i = true) (sz : PageSize) (h : R s t) :
    ResRel R (unmapLeaf sz s) (unmapLeaf sz t) := by
  rw [unmapLeaf, unmapLeaf, S.page_eq h hpage]
  refine (S.readPath_rel _ _ _ h).bind fun _ s t h => ?_
  rw [S.page_eq h hpage, (S.same h).entryVaOf_eq]
  refine (S.memRead_rel _ h).bind fun e s t h => ?_
  cases unmapFrame sz e with
  | error c => exact .error c h
  | ok f =>
    simp only
    rw [S.page_eq h hpage, (S.same h).entryVaOf_eq]
    refine (S.memWrite_rel _ 0 h).bind fun _ s t h => ?_
    rw [S.page_eq h hpage]
    exact S.newToken_rel _ sz (fun k => { val := some f, tokenOut := some k }) h

theorem updateLeaf_rel (hpage : portsRead.readsPage i = true) (hflags : readsFlags i = true) (sz : PageSize) (h : R s t) :
    ResRel R (updateLeaf sz s) (updateLeaf sz t) := by
  rw [updateLeaf, updateLeaf, S.page_eq h hpage]
  refine (S.readWalk_rel _ _ sz h).bind fun r s t h => (S.memRead_rel r h).bind fun e s t h => ?_
  split
  · exact .error _ h
  · rw [S.flags_eq h hflags]
    refine (S.memWrite_rel r _ h).bind fun _ s t h => ?_
    rw [S.page_eq h hpage]
    exact S.newToken_rel _ sz (fun k => { tokenOut := some k }) h

/-! ## Commands -/

/-- A command whose checks come out alike and whose body proceeds alike where it is admitted answers related next states. -/
theorem command_rel_of_refusalOf {c c' : Checks} {body body' : State → Res OutPorts} (h : R s t)
    (hc : refusalOf c s = refusalOf c' t)
    (hb : refusalOf c s = none → ∀ u v, R u v → ResRel R (body u) (body' v)) :
    ∃ u v, command c body s = .next u ∧ command c' body' t = .next v ∧ R u v := by
  cases hr : refusalOf c s with
  | some r => exact ⟨_, _, command_of_refused hr body, command_of_refused (hc ▸ hr) body', S.refuse r h⟩
  | none =>
    rw [command_of_admitted hr, command_of_admitted (hc ▸ hr)]
    have hbody := hb hr _ _ (S.start h)
    generalize body (beginCommand s) = r at hbody
    generalize body' (beginCommand t) = r' at hbody
    cases hbody with
    | done res hu => exact ⟨_, _, rfl, rfl, S.complete res hu⟩
    | error e hu => exact ⟨_, _, rfl, rfl, S.error e hu⟩
    | fault q hu => exact ⟨_, _, rfl, rfl, S.fault q hu⟩

/-- A command whose checks are the same. -/
theorem command_rel {c c' : Checks} {body body' : State → Res OutPorts} (h : R s t) (hc : c = c')
    (hb : ∀ u v, R u v → ResRel R (body u) (body' v)) :
    ∃ u v, command c body s = .next u ∧ command c' body' t = .next v ∧ R u v :=
  S.command_rel_of_refusalOf h (hc ▸ (S.same h).refusalOf_eq c) fun _ => hb

theorem refuseWord_rel (h : R s t) : ∃ u v, refuseWord s = .next u ∧ refuseWord t = .next v ∧ R u v :=
  S.command_rel h rfl fun _ _ hu => .done _ hu

/-- A command run in two related states answers related next states. -/
theorem exec_rel (h : R s t) : ∃ u v, exec i s = .next u ∧ exec i t = .next v ∧ R u v := by
  cases i with
  | pteIsUnused | pteFlags | pteAddr | pteAttr | pteIsBlock =>
    simp only [exec, execPteIsUnused, execPteFlags, execPteAddr, execPteAttr, execPteIsBlock]
    exact S.command_rel h rfl fun u v hu => by rw [S.entry_eq hu rfl]; exact .done _ hu
  | pteSetUnused =>
    simp only [exec, execPteSetUnused]
    exact S.command_rel h rfl fun u v hu => .done _ hu
  | pteFrame =>
    simp only [exec, execPteFrame]
    refine S.command_rel h rfl fun u v hu => ?_
    rw [S.entry_eq hu rfl]
    cases pteFrame v.inp.e with
    | ok f => exact .done _ hu
    | error c => exact .error c hu
  | pteSetFrame =>
    simp only [exec, execPteSetFrame]
    refine S.command_rel h (by rw [S.flags_eq h rfl, S.attr_eq h rfl, S.frame_eq h rfl]) fun u v hu => ?_
    rw [S.flags_eq hu rfl, S.attr_eq hu rfl, S.frame_eq hu rfl]
    exact .ofSetter_done _ _ hu
  | pteSetBlock sz =>
    simp only [exec, execPteSetBlock]
    cases sz with
    | k4 =>
      -- The ill-formed command is refused before its ADDR is looked at (R85), so it reads none.
      refine S.command_rel_of_refusalOf h ?_ fun hr => absurd hr ?_
      · rw [refusalOf_of_illegal rfl, refusalOf_of_illegal rfl, (S.same h).faulted, (S.same h).busy]
      · rw [refusalOf_of_illegal rfl]
        exact nofun
    | m2 =>
      refine S.command_rel h (by rw [S.flags_eq h rfl, S.attr_eq h rfl, S.addr_eq h (.inl rfl)]) fun u v hu => ?_
      rw [S.flags_eq hu rfl, S.attr_eq hu rfl, S.addr_eq hu (.inl rfl)]
      exact .ofSetter_done _ _ hu
    | g1 =>
      refine S.command_rel h (by rw [S.flags_eq h rfl, S.attr_eq h rfl, S.addr_eq h (.inr rfl)]) fun u v hu => ?_
      rw [S.flags_eq hu rfl, S.attr_eq hu rfl, S.addr_eq hu (.inr rfl)]
      exact .ofSetter_done _ _ hu
  | pteSetFlags =>
    simp only [exec, execPteSetFlags]
    refine S.command_rel h (by rw [S.flags_eq h rfl]) fun u v hu => ?_
    rw [S.flags_eq hu rfl, S.entry_eq hu rfl]
    exact .done _ hu
  | pteSetAttr =>
    simp only [exec, execPteSetAttr]
    refine S.command_rel h (by rw [S.attr_eq h rfl]) fun u v hu => ?_
    rw [S.attr_eq hu rfl, S.entry_eq hu rfl]
    exact .done _ hu
  | mapMapTo sz =>
    simp only [exec, execMapMapTo, mapChecks]
    refine S.command_rel h
      (by rw [S.flags_eq h rfl, S.attr_eq h rfl, S.frame_eq h rfl, S.page_eq h rfl]) fun u v hu => ?_
    rw [S.page_eq hu rfl, S.frame_eq hu rfl]
    exact S.mapLeaf_rel rfl rfl sz _ _ hu
  | mapIdentityMap sz =>
    simp only [exec, execMapIdentityMap, mapChecks]
    refine S.command_rel h (by rw [S.flags_eq h rfl, S.attr_eq h rfl, S.frame_eq h rfl]) fun u v hu => ?_
    rw [S.frame_eq hu rfl]
    exact S.mapLeaf_rel rfl rfl sz _ _ hu
  | mapGetEntry sz | mapGetEntryMut sz =>
    simp only [exec, execMapGetEntry, execMapGetEntryMut, pageChecks]
    exact S.command_rel h (by rw [S.page_eq h rfl]) fun u v hu => S.lookupLeaf_rel rfl sz hu
  | mapUnmap sz =>
    simp only [exec, execMapUnmap, pageChecks]
    exact S.command_rel h (by rw [S.page_eq h rfl]) fun u v hu => S.unmapLeaf_rel rfl sz hu
  | mapUpdateFlags sz =>
    simp only [exec, execMapUpdateFlags, pageChecks]
    exact S.command_rel h (by rw [S.page_eq h rfl, S.flags_eq h rfl]) fun u v hu => S.updateLeaf_rel rfl rfl sz hu
  | mapTranslatePage sz =>
    simp only [exec, execMapTranslatePage, pageChecks]
    refine S.command_rel h (by rw [S.page_eq h rfl]) fun u v hu => ?_
    rw [S.page_eq hu rfl]
    refine (S.readWalk_rel _ _ sz hu).bind fun r s t h => (S.memRead_rel r h).bind fun e s t h => ?_
    cases translateLeaf sz e with
    | ok f => exact .done _ h
    | error c => exact .error c h
  | mapTranslate =>
    simp only [exec, execMapTranslate]
    refine S.command_rel h rfl fun u v hu => ?_
    rw [S.page_eq hu rfl]
    exact (S.translateFrom_rel _ _ _ hu).bind fun r s t h => .done _ h
  | mapTranslateAddr =>
    simp only [exec, execMapTranslateAddr]
    refine S.command_rel h rfl fun u v hu => ?_
    rw [S.page_eq hu rfl]
    refine (S.translateFrom_rel _ _ _ hu).bind fun r s t h => ?_
    rw [S.page_eq h rfl]
    exact .done _ h
  | rptBind =>
    simp only [exec, execRptBind]
    refine S.command_rel h rfl fun u v hu => ?_
    rw [S.ridx_eq hu rfl, (S.same hu).config]
    obtain ⟨hd, hw⟩ := S.physRead_rel (v.config.rootPa.toNat + 8 * v.inp.ridx.toNat) hu
    generalize physRead _ u = x at hd hw
    generalize physRead _ v = y at hd hw
    obtain ⟨d, u⟩ := x
    obtain ⟨d', v⟩ := y
    simp only at hd hw
    subst hd
    cases d with
    | none => exact .fault _ hw
    | some d =>
      have hslot : slotPointsAt d u.config.rootPa = slotPointsAt d v.config.rootPa := by rw [(S.same hw).config]
      simp only [hslot]
      split
      · exact .done _ (S.prim .bind (fun _ => rfl) hw)
      · exact .fault _ hw
  | rptTableVa =>
    simp only [exec, execRptTableVa, S.level_eq h rfl]
    cases levelOf t.inp.level with
    | none => exact S.refuseWord_rel h
    | some l =>
      refine S.command_rel h rfl fun u v hu => ?_
      rw [S.page_eq hu rfl, (S.same hu).tableVaOf_eq]
      exact .done _ hu
  | rptCreateNextTable =>
    simp only [exec, execRptCreateNextTable]
    refine S.command_rel h (by rw [S.entryVa_eq h rfl, S.nextVa_eq h rfl]) fun u v hu => ?_
    rw [S.entryVa_eq hu rfl, S.nextVa_eq hu rfl]
    refine (S.createNextTable_rel _ _ hu).bind fun _ s t h => ?_
    rw [S.nextVa_eq h rfl]
    exact .done _ h
  | tokFlush =>
    simp only [exec, execTokFlush]
    refine S.command_rel h (by rw [S.token_eq h (.inl rfl)]) fun u v hu => ?_
    rw [S.token_eq hu (.inl rfl)]
    exact .done _ (S.prim (.discharge _ .flush) nofun (S.prim .isb nofun (S.prim .tlbi nofun hu)))
  | tokIgnore =>
    simp only [exec, execTokIgnore]
    refine S.command_rel h (by rw [S.token_eq h (.inr rfl)]) fun u v hu => ?_
    rw [S.token_eq hu (.inr rfl)]
    exact .done _ (S.prim (.discharge _ .ignore) nofun hu)
  | attrLookup =>
    simp only [exec, execAttrLookup, S.kind_eq h rfl]
    cases memKindOf t.inp.kind with
    | none => exact S.refuseWord_rel h
    | some k =>
      refine S.command_rel h rfl fun u v hu => ?_
      rw [(S.same hu).config]
      exact .done _ hu

end Simulation

end Sys2Proof.Machine
end

section
/-! PROOF. The ports a command's rule does not name do not matter (spec/10_state.md R21): replacing them is a simulation. -/

namespace Sys2Proof.Machine

/-- The state with other values on the input ports. -/
def withPorts (q : InPorts) (s : State) : State := { s with inp := q }

/-! ## Other ports in a gap and under an event -/

theorem cacheResult_withPorts (q : InPorts) (o : Nat) (va : Word) (r : Option (Word × PageSize)) (s : State) :
    cacheResult o va r (withPorts q s) = withPorts q (cacheResult o va r s) := by
  unfold cacheResult
  cases r with
  | none => rfl
  | some x =>
    simp only [apply_ite (withPorts q)]
    rfl

theorem observe_withPorts (q : InPorts) (o : Nat) (va : Word) (kind : Access) (r : Option Word) (s : State) :
    observe o va kind r (withPorts q s) = withPorts q (observe o va kind r s) := by
  unfold observe
  rw [apply_ite (withPorts q)]
  rfl

theorem finishWalk_withPorts (q : InPorts) (n : Nat) (w : OpenWalk) (cache : Bool) (r : Option (Word × PageSize))
    (s : State) : finishWalk n w cache r (withPorts q s) = withPorts q (finishWalk n w cache r s) := by
  cases cache with
  | true => exact cacheResult_withPorts q w.obs w.va r { s with walks := s.walks.eraseIdx n }
  | false => exact observe_withPorts q w.obs w.va w.kind _ { s with walks := s.walks.eraseIdx n }

/-- The other agents look at no input port. -/
theorem applyMove_withPorts (q : InPorts) (s : State) (m : Move) :
    applyMove (withPorts q s) m = withPorts q (applyMove s m) := by
  cases m with
  | fill o va kind picks unspec => exact cacheResult_withPorts q o va _ s
  | drop e => rfl
  | translate o va kind cached picks unspec => exact observe_withPorts q o va kind _ s
  | start o va kind =>
    simp only [applyMove, apply_ite (withPorts q)]
    rfl
  | look n pick => rfl
  | finish n cache picks unspec =>
    simp only [applyMove]
    rw [show (withPorts q s).walks = s.walks from rfl]
    cases s.walks[n]? with
    | none => rfl
    | some w => exact finishWalk_withPorts q n w cache (settle (resumedWalk s w picks) unspec) s
  | overlap =>
    simp only [applyMove, refuseOverlap, apply_ite (withPorts q)]
    rfl

theorem turn_withPorts (q : InPorts) (s : State) : turn (withPorts q s) = withPorts q (turn s) := by
  have hfoldl : ∀ (ms : List Move) (s : State), ms.foldl applyMove (withPorts q s) = withPorts q (ms.foldl applyMove s) := by
    intro ms
    induction ms with
    | nil => exact fun _ => rfl
    | cons m ms ih => exact fun s => by rw [List.foldl_cons, applyMove_withPorts, ih, List.foldl_cons]
  cases hs : s.slots with
  | nil => exact (turn_of_no_moves (withPorts q s) hs).trans (congrArg (withPorts q) (turn_of_no_moves s hs)).symm
  | cons ms rest =>
    unfold turn
    rw [show (withPorts q s).slots = s.slots from rfl, hs]
    exact hfoldl ms { s with slots := rest }

/-- An event is tagged with CMD, and with no other port. -/
theorem record_withPorts {q : InPorts} {s : State} (hcmd : q.cmd = s.inp.cmd) (a : Act) :
    record a (withPorts q s) = withPorts q (record a s) := by
  unfold record
  rw [← turn_withPorts]
  simp only [withPorts, hcmd]

/-- Of the actions, RPT.BIND's alone reads a port beside CMD. -/
theorem applyPrim_withPorts {q : InPorts} {s : State} (hcmd : q.cmd = s.inp.cmd) (p : Prim)
    (hridx : p = .bind → q.ridx = s.inp.ridx) : applyPrim p (withPorts q s) = withPorts q (applyPrim p s) := by
  cases p with
  | bind => simp only [applyPrim, withPorts, hridx rfl]
  | store va pa v => exact record_withPorts (s := store64 pa v s) hcmd _
  | barrier => exact record_withPorts (s := { s with writes := publish s.writes }) hcmd _
  | tlbi => exact record_withPorts (s := { s with writes := publish s.writes, tlb := [], walks := [] }) hcmd _
  | alloc => exact record_withPorts (s := afterAlloc s) hcmd _
  | token page sz =>
    exact record_withPorts (s := { s with
      nextToken := s.nextToken + 1
      tokens := { id := s.nextToken, page := alignDown page sz, size := sz } :: s.tokens }) hcmd _
  | discharge k how =>
    exact record_withPorts (s := { s with tokens := s.tokens.filter (fun k' => k'.id != k) }) hcmd _
  | physRead pa v => exact record_withPorts hcmd _
  | memRead va pa v => exact record_withPorts hcmd _
  | isb => exact record_withPorts hcmd _

/-! ## The simulation -/

/-- `t` is `s` with the ports `q`, which agree with its own on those that the command `i` reads. -/
def OtherPorts (i : Instr) (q : InPorts) (s t : State) : Prop :=
  portsRead i q = portsRead i s.inp ∧ t = withPorts q s

theorem otherPorts_simulation (i : Instr) (q : InPorts) : Simulation i (OtherPorts i q) where
  same := by
    rintro s _ ⟨-, rfl⟩
    exact ⟨rfl, rfl, rfl, rfl, rfl, rfl, rfl, rfl, rfl, rfl⟩
  ports := by
    rintro s _ ⟨hq, rfl⟩
    exact hq.symm
  prim := by
    rintro s _ p hp ⟨hq, rfl⟩
    refine ⟨by rw [applyPrim_inp]; exact hq, applyPrim_withPorts ?_ p fun hbind => ?_⟩
    · simpa [portsRead] using congrArg InPorts.cmd hq
    · obtain rfl := hp hbind
      simpa [portsRead] using congrArg InPorts.ridx hq
  start := by rintro s _ ⟨hq, rfl⟩; exact ⟨hq, rfl⟩
  complete := by rintro s _ res ⟨hq, rfl⟩; exact ⟨hq, rfl⟩
  error := by rintro s _ c ⟨hq, rfl⟩; exact ⟨hq, rfl⟩
  fault := by rintro s _ r ⟨hq, rfl⟩; exact ⟨hq, rfl⟩
  refuse := by rintro s _ r ⟨hq, rfl⟩; exact ⟨hq, rfl⟩

/-- Settles O49: replacing the ports that the command does not read is a simulation. -/
theorem unreadPortsIgnored : Obligations.UnreadPortsIgnored := by
  unfold Obligations.UnreadPortsIgnored
  intro i s t q hq h
  obtain ⟨u, v, hu, hv, -, rfl⟩ := (otherPorts_simulation i q).exec_rel ⟨hq, rfl⟩
  obtain rfl : u = t := Host.Outcome.next.inj (hu.symm.trans h)
  exact hv

end Sys2Proof.Machine
end

section
/-! PROOF. The observers do not interfere (spec/20_memory.md R65, spec/60_exceptions.md R196): agreeing on the core and on the
events recorded so far is a simulation. -/

namespace Sys2Proof.Machine

/-! ## The core after an action -/

/-- What an action does to the core depends on the core alone. -/
theorem coreOf_applyPrim {s t : State} (h : coreOf s = coreOf t) (p : Prim) :
    coreOf (applyPrim p s) = coreOf (applyPrim p t) := by
  cases p with
  | physRead pa v | memRead va pa v => simpa only [applyPrim, coreOf_record] using h
  | store va pa v => simpa only [applyPrim, coreOf_record] using coreOf_store64 h pa v
  | isb => simpa only [applyPrim, coreOf_isb] using h
  | barrier =>
    simp only [applyPrim, coreOf_barrier]
    exact congrArg (fun x => coreOf { x with writes := publish x.writes }) h
  | tlbi =>
    simp only [applyPrim, coreOf_tlbiAllIS]
    exact congrArg (fun x => coreOf { x with writes := publish x.writes }) h
  | alloc =>
    simp only [applyPrim, coreOf_alloc]
    exact (congrArg (fun x => coreOf (afterAlloc x)) h :)
  | token page sz =>
    simp only [applyPrim, coreOf_newToken]
    exact congrArg (fun x => coreOf { x with
      nextToken := x.nextToken + 1
      tokens := { id := x.nextToken, page := alignDown page sz, size := sz } :: x.tokens }) h
  | discharge k how =>
    simp only [applyPrim, coreOf_discharge]
    exact congrArg (fun x => coreOf { x with tokens := x.tokens.filter (fun k' => k'.id != k) }) h
  | bind => exact congrArg (fun x => coreOf { x with ridxReg := x.inp.ridx, bound := true }) h

/-- The events an action records: one, but for RPT.BIND's own, which is none. -/
def primEvents (p : Prim) (s : State) : List Event :=
  match p with
  | .physRead pa v => [{ pos := s.pos, cmd := s.inp.cmd, act := .physRead pa v }]
  | .memRead va pa v => [{ pos := s.pos, cmd := s.inp.cmd, act := .memRead va pa v }]
  | .store va pa v => [{ pos := s.pos, cmd := s.inp.cmd, act := .memWrite va pa v }]
  | .barrier => [{ pos := s.pos, cmd := s.inp.cmd, act := .barrier }]
  | .tlbi => [{ pos := s.pos, cmd := s.inp.cmd, act := .tlbiAllIS }]
  | .isb => [{ pos := s.pos, cmd := s.inp.cmd, act := .isb }]
  | .alloc => [{ pos := s.pos, cmd := s.inp.cmd, act := .alloc (nextAnswer s) }]
  | .token _ _ => [{ pos := s.pos, cmd := s.inp.cmd, act := .tokenCreate s.nextToken }]
  | .discharge k how => [{ pos := s.pos, cmd := s.inp.cmd, act := .tokenDischarge k how }]
  | .bind => []

theorem applyPrim_ev (p : Prim) (s : State) : (applyPrim p s).ev = primEvents p s ++ s.ev := by
  cases p <;> simp [applyPrim, primEvents, barrier, tlbiAllIS, isb, alloc, newToken, discharge]

/-- The events of an action depend on the core alone. -/
theorem primEvents_core {s t : State} (h : coreOf s = coreOf t) (p : Prim) : primEvents p s = primEvents p t := by
  cases p <;> simp only [primEvents, core_pos h, core_inp h, nextAnswer_core h, core_nextToken h]

/-! ## The simulation -/

/-- The states agree on the core and have recorded the same events since their histories were `ev` and `ev'`. -/
def SameCore (ev ev' : List Event) (s t : State) : Prop :=
  coreOf s = coreOf t ∧ ∃ new, s.ev = new ++ ev ∧ t.ev = new ++ ev'

theorem sameCore_start {s t : State} (h : coreOf s = coreOf t) : SameCore s.ev t.ev s t := ⟨h, [], rfl, rfl⟩

/-- An update of the interface's side that the core determines, and that records no event, keeps the states alike. -/
theorem SameCore.map {ev ev' : List Event} {s t : State} (f : State → State) (h : SameCore ev ev' s t)
    (hcore : ∀ x, coreOf (f x) = coreOf (f (coreOf x))) (hev : ∀ x, (f x).ev = x.ev) : SameCore ev ev' (f s) (f t) := by
  obtain ⟨hc, new, hs, ht⟩ := h
  exact ⟨by rw [hcore s, hcore t, hc], new, (hev s).trans hs, (hev t).trans ht⟩

theorem sameCore_simulation (i : Instr) (ev ev' : List Event) : Simulation i (SameCore ev ev') where
  same := fun ⟨h, _⟩ => ⟨core_config h, core_mem h, core_bound h, core_ridxReg h, core_faulted h, core_busy h,
    core_tokens h, core_nextToken h, core_answers h, core_allocCalls h⟩
  ports := fun ⟨h, _⟩ => congrArg (portsRead i) (core_inp h)
  prim := fun {s t} p _ ⟨h, new, hs, ht⟩ => ⟨coreOf_applyPrim h p, primEvents p s ++ new,
    by rw [applyPrim_ev, hs, List.append_assoc],
    by rw [applyPrim_ev, ht, ← primEvents_core h, List.append_assoc]⟩
  start := fun h => h.map beginCommand (fun _ => rfl) fun _ => rfl
  complete := fun res h => h.map (completeCommand res) (fun _ => rfl) fun _ => rfl
  error := fun c h => h.map (returnError c) (fun _ => rfl) fun _ => rfl
  fault := fun q h => h.map (takeFault q) (fun _ => rfl) fun _ => rfl
  refuse := fun r h => h.map (refuseCommand r) (fun _ => rfl) fun _ => rfl

/-- Settles O44: agreeing on the core and on the events recorded is a simulation of every command. -/
theorem observersDoNotInterfere : Obligations.ObserversDoNotInterfere := by
  unfold Obligations.ObserversDoNotInterfere
  intro i s s' hcore hev
  obtain ⟨t, t', ht, ht', hcore', new, hn, hn'⟩ := (sameCore_simulation i s.ev s'.ev).exec_rel (sameCore_start hcore)
  rw [ht]
  exact ⟨t', ht', hcore'.symm, by rw [hn, hn', hev]⟩

end Sys2Proof.Machine
end

section
/-! PROOF. What a store does to PMEM and to the histories (spec/20_memory.md R48, R50, R51, R55, R57). -/

namespace Sys2Proof.Machine

/-! ## Bytes (R48, R51) -/

/-- A read takes byte `k` of a descriptor from the `k`-th address. -/
theorem Memory.read64_byte (m : Memory) (a : Nat) {k : Nat} (hk : k < 8) :
    (m.read64 a).extractLsb' (8 * k) 8 = m.read (a + k) := by
  change (m.read (a + 7) ++ m.read (a + 6) ++ m.read (a + 5) ++ m.read (a + 4) ++ m.read (a + 3) ++ m.read (a + 2) ++
    m.read (a + 1) ++ m.read a).extractLsb' (8 * k) 8 = _
  interval_cases k <;>
    simp (disch := omega) only [BitVec.extractLsb'_append_eq_of_le, BitVec.extractLsb'_append_eq_of_add_le] <;>
    exact BitVec.extractLsb'_eq_self

/-- Settles O51: a store and a read take the bytes of a descriptor in the same order. -/
theorem descriptorByteOrder : Obligations.DescriptorByteOrder := by
  unfold Obligations.DescriptorByteOrder
  refine ⟨fun m a k v hk => ?_, fun m a x v => m.read_write64_outside a x v, fun m a k => m.read64_byte a⟩
  rw [Memory.read_write64, if_pos (by omega), Nat.add_sub_cancel_left]

/-! ## MemWrite and MemRead (R55, R57) -/

/-- Settles O52: the store stands at the head of the address's history, and a later read gives what PMEM holds there. -/
theorem ownWritesVisible : Obligations.OwnWritesVisible := by
  unfold Obligations.OwnWritesVisible
  intro va v s s' h
  obtain ⟨pa, u, hreach, hcore, -, hdone⟩ | ⟨u, -, -, -, hfault⟩ := memWrite_cases va v s
  · obtain ⟨-, rfl⟩ := Res.done.inj (hdone.symm.trans h)
    have hmem : (record (.memWrite va pa v) (store64 pa v u)).mem.read64 pa = v := by simp
    refine ⟨pa, hreach, hmem, ?_, fun va' hread => ?_⟩
    · have hsame : histOf u pa = histOf s pa := by simp only [histOf, core_writes hcore, core_launchMem hcore]
      calc histOf (record (.memWrite va pa v) (store64 pa v u)) pa = histOf (store64 pa v u) pa := by simp [histOf]
        _ = (v, false) :: histOf s pa := by rw [histOf_store64, if_pos rfl, hsame]
    · obtain ⟨w, -, -, hw⟩ := memRead_of_readNow (e := v) (va := va') (by rw [readNow, hread, Option.map_some, hmem])
      exact ⟨w, hw⟩
  · exact absurd (hfault.symm.trans h) nofun

/-! ## What a command writes (R50, R51, R118; spec/10_state.md R26) -/

/-- `u` has made the writes `new` since the state `s`, each 8-aligned and inside PMEM, has published the older ones at most, and
has changed no byte outside the new ones. -/
def WritesMade (s u : State) (new : List WriteRec) : Prop :=
  u.config = s.config ∧ (∃ old, u.writes = new ++ old ∧ (old = s.writes ∨ old = publish s.writes)) ∧
    (∀ w ∈ new, w.pa % 8 = 0 ∧ w.pa + 8 ≤ 2 ^ s.config.paBits) ∧
    ∀ x, (∀ w ∈ new, x < w.pa ∨ w.pa + 8 ≤ x) → u.mem.read x = s.mem.read x

/-- Publishing twice is publishing once. -/
theorem publish_publish (ws : List WriteRec) : publish (publish ws) = publish ws := by
  simp [publish]

/-- Publishing every write keeps what the writes are. -/
theorem WritesMade.publish {s u u' : State} {new : List WriteRec} (h : WritesMade s u new) (hconfig : u'.config = u.config)
    (hmem : u'.mem = u.mem) (hwrites : u'.writes = publish u.writes) : WritesMade s u' (publish new) := by
  obtain ⟨hc, ⟨old, hw, hold⟩, hlegal, hkept⟩ := h
  refine ⟨hconfig.trans hc, ⟨Machine.publish old, ?_, .inr ?_⟩, ?_, fun x hx => ?_⟩
  · rw [hwrites, hw, Machine.publish, List.map_append]
    rfl
  · obtain rfl | rfl := hold
    · rfl
    · exact publish_publish _
  · exact List.forall_mem_map.2 hlegal
  · rw [hmem]
    exact hkept x (List.forall_mem_map.1 hx)

/-- An action of the block makes one write, publishes what there is, or touches neither PMEM nor a history. -/
theorem WritesMade.applyPrim {s u : State} {new : List WriteRec} (h : WritesMade s u new) (p : Prim)
    (hl : legalPrim p u) : ∃ new', WritesMade s (applyPrim p u) new' := by
  cases p with
  | store va pa v =>
    obtain ⟨hreach, hpa⟩ := hl
    obtain ⟨hc, ⟨old, hw, hold⟩, hlegal, hkept⟩ := h
    have hin : pa + 8 ≤ 2 ^ s.config.paBits := by
      have hin := reach_inPmem hreach
      rwa [inPmem, decide_eq_true_eq, hc] at hin
    refine ⟨{ pa := pa, val := v, published := false } :: new, ?_, ⟨old, ?_, hold⟩,
      List.forall_mem_cons.2 ⟨⟨hpa, hin⟩, hlegal⟩, fun x hx => ?_⟩
    · simp [Machine.applyPrim, hc]
    · simp [Machine.applyPrim, hw]
    · obtain ⟨hout, hrest⟩ := List.forall_mem_cons.1 hx
      have hmem : (Machine.applyPrim (.store va pa v) u).mem = u.mem.write64 pa v := by simp [Machine.applyPrim]
      rw [hmem, Memory.read_write64_outside _ _ _ _ hout, hkept x hrest]
  | barrier => exact ⟨_, h.publish (applyPrim_config _ u) (by simp [Machine.applyPrim, barrier])
      (by simp [Machine.applyPrim, barrier])⟩
  | tlbi => exact ⟨_, h.publish (applyPrim_config _ u) (by simp [Machine.applyPrim, tlbiAllIS])
      (by simp [Machine.applyPrim, tlbiAllIS])⟩
  | _ =>
    refine ⟨new, ?_⟩
    rw [WritesMade, applyPrim_config, applyPrim_mem u (by simp), applyPrim_writes u (by simp) (by simp) (by simp)]
    exact h

/-- Settles O48: the actions of a command are stores at 8-aligned addresses of PMEM, publications, and actions that touch neither
PMEM nor a history. -/
theorem memoryChangesByWritesOnly : Obligations.MemoryChangesByWritesOnly := by
  unfold Obligations.MemoryChangesByWritesOnly
  intro i s t h
  obtain ⟨new, -, ⟨old, hw, hold⟩, hlegal, hkept⟩ := (exec_traced i s t h).keeps
    (Inv := fun u => ∃ new, WritesMade s u new) (fun _ _ hu => hu) (fun p u _ hl ⟨_, hu⟩ => hu.applyPrim p hl)
    ⟨[], rfl, ⟨s.writes, rfl, .inl rfl⟩, by simp, fun _ _ => rfl⟩
  exact ⟨new, old, hw, hold, hlegal, hkept⟩

end Sys2Proof.Machine
end

section
/-! PROOF. What observers read and cache, and that only TOK.FLUSH evicts what they have cached (spec/20_memory.md R58, R59, R67). -/

namespace Sys2Proof.Machine

/-! ## The window of an address (R58) -/

/-- The window of a history is its writes down to the newest published one. -/
theorem windowOf_append_published (newer older : List (Word × Bool)) (v : Word) (h : ∀ w ∈ newer, w.2 = false) :
    windowOf (newer ++ (v, true) :: older) = newer.map Prod.fst ++ [v] := by
  induction newer with
  | nil => simp [windowOf]
  | cons w newer ih =>
    obtain ⟨hw, hnewer⟩ := List.forall_mem_cons.1 h
    obtain ⟨x, _⟩ := w
    obtain rfl := hw
    simp [windowOf, ih hnewer]

/-- The launch write is published, so every history has a newest published write. -/
theorem histOf_split (s : State) (a : Nat) : ∃ newer v older, histOf s a = newer ++ (v, true) :: older ∧
    ∀ w ∈ newer, w.2 = false := by
  have hsome : ((histOf s a).find? Prod.snd).isSome := List.find?_isSome.2 ⟨_, List.mem_concat_self, rfl⟩
  obtain ⟨⟨v, b⟩, hfind⟩ := Option.isSome_iff_exists.1 hsome
  obtain ⟨rfl, newer, older, hsplit, hnewer⟩ := List.find?_eq_some_iff_append.1 hfind
  exact ⟨newer, v, older, hsplit, by simpa using hnewer⟩

theorem mem_windowAt_iff (s : State) (a : Nat) (v : Word) :
    v ∈ windowAt s a ↔ ∃ older newer : List (Word × Bool),
      histOf s a = newer ++ older ∧ (∀ w ∈ newer, w.2 = false) ∧ (older.head?.map Prod.snd = some true) ∧
        (v ∈ newer.map Prod.fst ∨ older.head?.map Prod.fst = some v) := by
  constructor
  · intro hv
    obtain ⟨newer, x, older, hsplit, hnewer⟩ := histOf_split s a
    rw [windowAt, hsplit, windowOf_append_published _ _ _ hnewer, List.mem_append, List.mem_singleton] at hv
    exact ⟨(x, true) :: older, newer, hsplit, hnewer, rfl, hv.imp_right fun h => congrArg some h.symm⟩
  · rintro ⟨older, newer, hsplit, hnewer, hhead, hv⟩
    cases older with
    | nil => cases hhead
    | cons w older =>
      obtain ⟨x, _⟩ := w
      obtain rfl := Option.some.inj hhead
      rw [windowAt, hsplit, windowOf_append_published _ _ _ hnewer, List.mem_append, List.mem_singleton]
      exact hv.imp_right fun h => (Option.some.inj h).symm

theorem windowAt_ne_nil (s : State) (a : Nat) : windowAt s a ≠ [] := by
  obtain ⟨newer, v, older, hsplit, hnewer⟩ := histOf_split s a
  simp [windowAt, hsplit, windowOf_append_published _ _ _ hnewer]

/-- A read of an observer gives a write of the window. -/
theorem mem_windowAt_of_observerDesc {s : State} {a : Nat} {picks : List Nat} {v : Word}
    (h : (observerDesc s a picks).1 = some v) : v ∈ windowAt s a := by
  unfold observerDesc at h
  split at h
  · obtain rfl := Option.some.inj h
    rw [List.getD_eq_getElem?_getD]
    cases hget : (windowAt s a)[picks.headD 0]? with
    | some w => exact List.mem_of_getElem? hget
    | none =>
      rw [Option.getD_none, List.getLastD_eq_getLast?, List.getLast?_eq_getLast_of_ne_nil (windowAt_ne_nil s a)]
      exact List.getLast_mem _
  · cases h

/-- Every write of the window is what some read gives. -/
theorem observerDesc_of_mem_windowAt {s : State} {a : Nat} {v : Word} (ha : inPmem s.config a = true)
    (h : v ∈ windowAt s a) : ∃ picks, (observerDesc s a picks).1 = some v := by
  obtain ⟨n, hn⟩ := List.mem_iff_getElem?.1 h
  exact ⟨[n], by simp [observerDesc, ha, hn]⟩

/-! ## Walks of observers -/

/-- A walk that has read nothing is a fresh walk. -/
theorem resumedWalk_of_read_nil (s : State) (o : Nat) (kind : Access) (va : Word) (picks : List Nat) :
    resumedWalk s { obs := o, va := va, kind := kind, read := [] } picks = observerWalk s kind va picks := by
  refine (walkFrom_sameResult (R := fun st picks => st = ([], picks)) ?_ _ _ _ _ rfl).1
  rintro a _ picks rfl
  exact ⟨rfl, rfl⟩

/-- An open walk that looks reads a write of the window of its next descriptor, or stays as it is. -/
theorem lookWalk_cases (s : State) (w : OpenWalk) (pick : Nat) : lookWalk s w pick = w ∨
    ∃ a v, nextDesc s w = some a ∧ v ∈ windowAt s a ∧ lookWalk s w pick = { w with read := w.read ++ [v] } := by
  unfold lookWalk
  split
  next a ha =>
    split
    next v hv => exact .inr ⟨a, v, ha, mem_windowAt_of_observerDesc hv, rfl⟩
    next => exact .inl rfl
  next => exact .inl rfl

/-! ## What a move does to the TLBs (R59) -/

/-- What is cached is the result itself, by an observer. -/
theorem mem_tlb_cacheResult {o : Nat} {va : Word} {r : Option (Word × PageSize)} {s : State} {e : TlbEntry} :
    e ∈ (cacheResult o va r s).tlb ↔
      e ∈ s.tlb ∨ ∃ pa sz, r = some (pa, sz) ∧ e = cacheEntry o va pa sz ∧ o < s.config.nObs := by
  unfold cacheResult
  split
  next pa sz =>
    split
    next ho =>
      have hadd : e ∈ addEntry s.tlb (cacheEntry o va pa sz) ↔ e ∈ s.tlb ∨ e = cacheEntry o va pa sz := by
        unfold addEntry
        split
        next hmem => exact ⟨.inl, fun h => h.elim id fun he => he ▸ hmem⟩
        next => rw [List.mem_cons, or_comm]
      simp [hadd, ho]
    next ho => simp [ho]
  next => simp

/-- The end of a walk caches its result, where it is to be cached. -/
theorem mem_tlb_finishWalk {n : Nat} {w : OpenWalk} {cache : Bool} {r : Option (Word × PageSize)} {s : State}
    {e : TlbEntry} : e ∈ (finishWalk n w cache r s).tlb ↔ e ∈ s.tlb ∨
      cache = true ∧ ∃ pa sz, r = some (pa, sz) ∧ e = cacheEntry w.obs w.va pa sz ∧ w.obs < s.config.nObs := by
  cases cache with
  | true => simp only [finishWalk, if_true, mem_tlb_cacheResult, true_and]
  | false => simp [finishWalk, observe_keeps]

/-- A translation changes no TLB. -/
theorem tlb_applyMove_translate (s : State) (o : Nat) (va : Word) (kind : Access) (cached : Option TlbEntry)
    (picks : List Nat) (unspec : Option Word) : (applyMove s (.translate o va kind cached picks unspec)).tlb = s.tlb := by
  obtain ⟨-, -, htlb⟩ := observe_keeps o va kind (translation s o va kind cached picks unspec) s
  exact htlb

/-- Settles O42: each clause is what the move's own operation does. -/
theorem observerRules : Obligations.ObserverRules := by
  unfold Obligations.ObserverRules
  refine ⟨fun s a v ha => ⟨fun ⟨_, h⟩ => mem_windowAt_of_observerDesc h, observerDesc_of_mem_windowAt ha⟩,
    mem_windowAt_iff, fun s o va kind picks unspec e => mem_tlb_cacheResult.1, fun s n pick w' hw' => ?_,
    fun s n cache picks unspec e he => ?_, fun s o kind va picks => resumedWalk_of_read_nil s o kind va picks,
    fun s e e' => by simp [applyMove], tlb_applyMove_translate,
    fun s hb hf => by simp [applyMove, refuseOverlap, hb, hf]⟩
  · obtain ⟨j, hj⟩ := List.mem_iff_getElem?.1 hw'
    simp only [applyMove, List.getElem?_modify] at hj
    obtain ⟨w, hw, hw'⟩ := Option.map_eq_some_iff.1 hj
    have hmem := List.mem_of_getElem? hw
    split at hw'
    · obtain rfl := hw'
      obtain hkept | ⟨a, v, ha, hv, hread⟩ := lookWalk_cases s w pick
      · exact .inl (hkept.symm ▸ hmem)
      · exact .inr ⟨w, hmem, a, v, ha, hv, hread⟩
    · exact .inl (hw' ▸ hmem)
  · simp only [applyMove] at he
    split at he
    next w hw =>
      exact (mem_tlb_finishWalk.1 he).imp_right fun ⟨_, pa, sz, hr, heq, ho⟩ =>
        ⟨w, List.mem_of_getElem? hw, pa, sz, hr, heq, ho⟩
    next => exact .inl he

/-! ## Only TOK.FLUSH evicts (R59(e)) -/

/-- No observer is to drop an entry of its own accord. -/
def NoDrops (s : State) : Prop := ∀ ms ∈ s.slots, ∀ m ∈ ms, ∀ e, m ≠ .drop e

/-- No drop is to come, and what was cached in `s` is cached in `u`. -/
def StillCached (s u : State) : Prop := NoDrops u ∧ s.tlb ⊆ u.tlb

/-- Only a drop removes a cached translation. -/
theorem applyMove_keeps_tlb (s : State) {m : Move} (hm : ∀ e, m ≠ .drop e) : s.tlb ⊆ (applyMove s m).tlb := by
  intro e he
  cases m with
  | fill o va kind picks unspec => exact mem_tlb_cacheResult.2 (.inl he)
  | drop x => exact absurd rfl (hm x)
  | translate o va kind cached picks unspec => rwa [tlb_applyMove_translate]
  | start o va kind =>
    simp only [applyMove]
    split <;> exact he
  | look n pick => exact he
  | finish n cache picks unspec =>
    simp only [applyMove]
    split
    · exact mem_tlb_finishWalk.2 (.inl he)
    · exact he
  | overlap =>
    simp only [applyMove, refuseOverlap]
    split <;> exact he

theorem cacheResult_slots (o : Nat) (va : Word) (r : Option (Word × PageSize)) (s : State) :
    (cacheResult o va r s).slots = s.slots := by
  unfold cacheResult
  split
  · split <;> rfl
  · rfl

theorem observe_slots (o : Nat) (va : Word) (kind : Access) (r : Option Word) (s : State) :
    (observe o va kind r s).slots = s.slots := by
  unfold observe
  split <;> rfl

/-- A move takes none of the moves to come. -/
theorem applyMove_slots (s : State) (m : Move) : (applyMove s m).slots = s.slots := by
  cases m with
  | fill o va kind picks unspec => exact cacheResult_slots _ _ _ _
  | drop e => rfl
  | translate o va kind cached picks unspec => exact observe_slots _ _ _ _ _
  | start o va kind =>
    simp only [applyMove]
    split <;> rfl
  | look n pick => rfl
  | finish n cache picks unspec =>
    simp only [applyMove, finishWalk]
    split
    · split
      · exact cacheResult_slots _ _ _ _
      · exact observe_slots _ _ _ _ _
    · rfl
  | overlap =>
    simp only [applyMove, refuseOverlap]
    split <;> rfl

theorem foldl_applyMove_keeps_tlb (ms : List Move) (s : State) (h : ∀ m ∈ ms, ∀ e, m ≠ .drop e) :
    (ms.foldl applyMove s).slots = s.slots ∧ s.tlb ⊆ (ms.foldl applyMove s).tlb := by
  induction ms generalizing s with
  | nil => exact ⟨rfl, List.Subset.refl _⟩
  | cons m ms ih =>
    obtain ⟨hm, hms⟩ := List.forall_mem_cons.1 h
    obtain ⟨hslots, htlb⟩ := ih (applyMove s m) hms
    exact ⟨hslots.trans (applyMove_slots s m), List.Subset.trans (applyMove_keeps_tlb s hm) htlb⟩

theorem StillCached.turn {s u : State} (h : StillCached s u) : StillCached s (turn u) := by
  obtain ⟨hdrops, htlb⟩ := h
  unfold Machine.turn
  split
  next => exact ⟨hdrops, htlb⟩
  next ms rest hs =>
    rw [NoDrops, hs, List.forall_mem_cons] at hdrops
    obtain ⟨hslots, hkept⟩ := foldl_applyMove_keeps_tlb ms { u with slots := rest } hdrops.1
    exact ⟨by rw [NoDrops, hslots]; exact hdrops.2, List.Subset.trans htlb hkept⟩

theorem StillCached.record {s u : State} (a : Act) (h : StillCached s u) : StillCached s (record a u) :=
  StillCached.turn (u := { u with ev := _ }) h

/-- No action but TlbiAllIS removes a cached translation. -/
theorem StillCached.applyPrim {s u : State} {p : Prim} (hp : p ≠ .tlbi) (h : StillCached s u) :
    StillCached s (applyPrim p u) := by
  cases p with
  | tlbi => exact absurd rfl hp
  | store va pa v => exact StillCached.record (u := store64 pa v u) _ h
  | barrier => exact StillCached.record (u := { u with writes := _ }) _ h
  | physRead pa v => exact h.record _
  | memRead va pa v => exact h.record _
  | isb => exact h.record _
  | alloc => exact StillCached.record (u := { u with answers := _, allocCalls := _ }) _ h
  | token page sz => exact StillCached.record (u := { u with nextToken := _, tokens := _ }) _ h
  | discharge t how => exact StillCached.record (u := { u with tokens := _ }) _ h
  | bind => exact h

/-- Settles O43: only TOK.FLUSH's TlbiAllIS and a drop remove a cached translation. -/
theorem onlyFlushEvicts : Obligations.OnlyFlushEvicts := by
  unfold Obligations.OnlyFlushEvicts
  intro i s t hi hdrops h
  obtain ⟨-, hkept⟩ := (exec_traced i s t h).keeps (Inv := StillCached s) (fun _ _ hu => hu)
    (fun p u hp _ hu => hu.applyPrim (by rintro rfl; exact hi hp)) ⟨hdrops, List.Subset.refl _⟩
  exact fun e he => hkept he

end Sys2Proof.Machine
end

section
/-! PROOF. An engine access whose address does not resolve ends its command with MmuFault (spec/20_memory.md R55,
spec/42_recursive_walk.md R153, spec/60_exceptions.md R195): where the parts of a command fault, and in which core. -/

namespace Sys2Proof.Machine

/-! ## Admitted commands (spec/60_exceptions.md R193) -/

section
variable {s : State} {sz : PageSize}

theorem refusalOf_of_readyBound (h : ReadyBound s) : refusalOf { needsBound := true } s = none := by
  obtain ⟨⟨hf, hb⟩, hbound⟩ := h
  simp [refusalOf_eq_none_iff, hf, hb, hbound, outOfMask, tooWide, inWindow, notOutstanding]

theorem refusalOf_of_admittedLookup (h : AdmittedLookup s sz) : refusalOf (pageChecks sz s) s = none := by
  obtain ⟨⟨⟨hf, hb⟩, hbound⟩, hpage⟩ := h
  simp [refusalOf_eq_none_iff, pageChecks, hf, hb, hbound, hpage, outOfMask, tooWide, inWindow, notOutstanding]

theorem refusalOf_of_admittedUnmap (h : AdmittedUnmap s sz) :
    refusalOf { pageChecks sz s with mutated := some s.inp.page, makesToken := true } s = none := by
  obtain ⟨⟨⟨⟨hf, hb⟩, hbound⟩, hpage⟩, hwindow, htoken⟩ := h
  simp [refusalOf_eq_none_iff, pageChecks, hf, hb, hbound, hpage, hwindow, htoken, outOfMask, tooWide, inWindow,
    notOutstanding]

theorem refusalOf_of_admittedUpdate (h : AdmittedUpdate s sz) :
    refusalOf { pageChecks sz s with flags := some s.inp.flags, mutated := some s.inp.page, makesToken := true } s =
      none := by
  obtain ⟨⟨⟨⟨⟨hf, hb⟩, hbound⟩, hpage⟩, hwindow, htoken⟩, hflags⟩ := h
  simp [refusalOf_eq_none_iff, pageChecks, hf, hb, hbound, hpage, hwindow, htoken, hflags, outOfMask, tooWide, inWindow,
    notOutstanding]

theorem refusalOf_of_admittedMap {page : Word} (h : AdmittedMap s sz page) : refusalOf (mapChecks sz page s) s = none := by
  obtain ⟨⟨⟨hf, hb⟩, hbound⟩, hpage, hframe, hflags, hattr, hwidth, hwindow, htoken⟩ := h
  simp [refusalOf_eq_none_iff, mapChecks, hf, hb, hbound, hpage, hframe, hflags, hattr, hwidth, hwindow, htoken, outOfMask,
    tooWide, inWindow, notOutstanding]

theorem refusalOf_of_admittedTable (h : AdmittedTable s) : refusalOf
    { needsBound := true, misaligned := !aligned8 s.inp.entryVa || !aligned s.inp.nextVa .k4 } s = none := by
  obtain ⟨⟨⟨hf, hb⟩, hbound⟩, hentry, hnext⟩ := h
  simp [refusalOf_eq_none_iff, hf, hb, hbound, hentry, hnext, outOfMask, tooWide, inWindow, notOutstanding]

/-- An admitted GET_ENTRY, in either form, looks the leaf up. -/
theorem exec_of_admittedLookup {i : Instr} (hi : i = .mapGetEntry sz ∨ i = .mapGetEntryMut sz) (h : AdmittedLookup s sz) :
    exec i s = conclude (lookupLeaf sz (beginCommand s)) := by
  obtain rfl | rfl := hi <;> exact command_of_admitted (refusalOf_of_admittedLookup h) _

theorem exec_of_admittedUnmap (h : AdmittedUnmap s sz) :
    exec (.mapUnmap sz) s = conclude (unmapLeaf sz (beginCommand s)) :=
  command_of_admitted (refusalOf_of_admittedUnmap h) _

theorem exec_of_admittedUpdate (h : AdmittedUpdate s sz) :
    exec (.mapUpdateFlags sz) s = conclude (updateLeaf sz (beginCommand s)) :=
  command_of_admitted (refusalOf_of_admittedUpdate h) _

theorem exec_of_admittedTranslatePage (h : AdmittedLookup s sz) : ∃ f : Word → Word → State → Res OutPorts,
    exec (.mapTranslatePage sz) s = conclude ((readWalk .pageNotMapped s.inp.page sz (beginCommand s)).bind fun r u =>
      (memRead r u).bind (f r)) := by
  rw [exec, execMapTranslatePage, command_of_admitted (refusalOf_of_admittedLookup h)]
  exact ⟨_, rfl⟩

theorem exec_translate {i : Instr} (hi : i = .mapTranslate ∨ i = .mapTranslateAddr) (h : ReadyBound s) :
    ∃ f : PageSize × Word → State → Res OutPorts,
      exec i s = conclude ((translateFrom s.inp.page .l4 [.l3, .l2, .l1] (beginCommand s)).bind f) := by
  obtain rfl | rfl := hi
  · rw [exec, execMapTranslate, command_of_admitted (refusalOf_of_readyBound h)]
    exact ⟨_, rfl⟩
  · rw [exec, execMapTranslateAddr, command_of_admitted (refusalOf_of_readyBound h)]
    exact ⟨_, rfl⟩

theorem exec_of_admittedTable (h : AdmittedTable s) : exec .rptCreateNextTable s =
    conclude ((createNextTable s.inp.entryVa s.inp.nextVa (beginCommand s)).bind fun _ t =>
      .done { vaOut := some t.inp.nextVa } t) := by
  rw [exec, execRptCreateNextTable, command_of_admitted (refusalOf_of_admittedTable h)]
  rfl

/-- An admitted mapping, in either form, creates the tables and installs the leaf. -/
theorem exec_of_maps {i : Instr} {page : Word} (hi : Maps s i sz page) (h : AdmittedMap s sz page) :
    exec i s = conclude (mapLeaf sz page s.inp.frame (beginCommand s)) := by
  obtain ⟨rfl, rfl⟩ | ⟨rfl, rfl⟩ := hi <;> exact command_of_admitted (refusalOf_of_admittedMap h) _

end

/-! ## Parts of a command that fault, or go on -/

/-- The part of a command raises the fault `q`, and leaves the core of `c`. -/
def FaultsFrom {α : Type} (r : Res α) (c : State) (q : FaultReason) : Prop := ∃ u, coreOf u = coreOf c ∧ r = .fault q u

/-- The part of a command goes on with `a`, and leaves the core of `c`. -/
def GoesOn {α : Type} (r : Res α) (c : State) (a : α) : Prop := ∃ u, coreOf u = coreOf c ∧ r = .done a u

section
variable {α β : Type} {r : Res α} {s c : State} {q : FaultReason}

theorem FaultsFrom.bind (h : FaultsFrom r c q) (f : α → State → Res β) : FaultsFrom (r.bind f) c q := by
  obtain ⟨u, hu, rfl⟩ := h
  exact ⟨u, hu, rfl⟩

/-- Where the first part goes on, the rest decides. -/
theorem GoesOn.bind {a : α} (h : GoesOn r s a) {f : α → State → Res β}
    (hf : ∀ u, coreOf u = coreOf s → FaultsFrom (f a u) c q) : FaultsFrom (r.bind f) c q := by
  obtain ⟨u, hu, rfl⟩ := h
  exact hf u hu

end

/-! ## Engine accesses -/

section
variable {s t : State} {va v : Word}

theorem memRead_goesOn (ht : coreOf t = coreOf s) (h : readNow s va = some v) : GoesOn (memRead va t) s v := by
  obtain ⟨u, hu, -, hm⟩ := memRead_of_readNow ((readNow_core ht va).trans h)
  exact ⟨u, hu.trans ht, hm⟩

theorem memRead_faults (ht : coreOf t = coreOf s) (h : reach s .read va = none) :
    FaultsFrom (memRead va t) s (.mmuFault va) := by
  obtain ⟨pa, u, hr, -⟩ | ⟨u, -, hu, -, hm⟩ := memRead_cases va t
  · rw [reach_core ht, h] at hr
    cases hr
  · exact ⟨u, hu.trans ht, hm⟩

theorem memWrite_goesOn (ht : coreOf t = coreOf s) {pa : Nat} (h : reach s .write va = some pa) :
    GoesOn (memWrite va v t) (store64 pa v s) () := by
  obtain ⟨u, hu, -, hm⟩ := memWrite_of_reach (v := v) ((reach_core ht _ va).trans h)
  exact ⟨u, hu.trans (coreOf_store64 ht pa v), hm⟩

theorem memWrite_faults (ht : coreOf t = coreOf s) (h : reach s .write va = none) :
    FaultsFrom (memWrite va v t) s (.mmuFault va) := by
  obtain ⟨pa, u, hr, -⟩ | ⟨u, -, hu, -, hm⟩ := memWrite_cases va v t
  · rw [reach_core ht, h] at hr
    cases hr
  · exact ⟨u, hu.trans ht, hm⟩

end

/-! ## Walks of the mapper -/

/-- The levels of a path above the leaf and the leaf's own: the level at which a walk stops is one above the leaf, or the leaf's
with every level above it passed. -/
theorem pathLevels_split {sz : PageSize} {before after : List Level} {l : Level}
    (h : pathLevels sz = before ++ l :: after) :
    (∃ rest, after = rest ++ [leafLevel sz] ∧ nonLeafLevels sz = before ++ l :: rest) ∨
      (after = [] ∧ l = leafLevel sz ∧ nonLeafLevels sz = before) := by
  obtain rfl | ⟨rest, x, rfl⟩ := List.eq_nil_or_concat' after
  · obtain ⟨hb, hl⟩ := List.append_inj' h rfl
    exact .inr ⟨rfl, (List.singleton_inj.1 hl).symm, hb⟩
  · rw [pathLevels, ← List.cons_append, ← List.append_assoc] at h
    obtain ⟨hb, hl⟩ := List.append_inj' h rfl
    exact .inl ⟨rest, by rw [List.singleton_inj.1 hl], hb⟩

section
variable {s t : State} {p : Word} {classify : Word → Option Status}
  (hclassify : ∀ e, isValid e = true → isTop e = true → classify e = none)
include hclassify

theorem readPath_goesOn (ht : coreOf t = coreOf s) {ls : List Level} (h : ∀ l ∈ ls, LinksTable s p l) :
    GoesOn (readPath classify p ls t) s () := by
  obtain ⟨u, hu, hr⟩ := readPath_descends (classify := classify) (p := p) (ls := ls) (s := t) fun l hl => by
    obtain ⟨e, he, hv, htop⟩ := entry_of_linksTable (h l hl)
    exact ⟨e, by rw [entryVaOf_core ht, readNow_core ht, he], hclassify e hv htop⟩
  exact ⟨u, hu.trans ht, hr⟩

/-- A walk down a path faults at the first entry it cannot read. -/
theorem readPath_faults {before after : List Level} {l : Level} (ht : coreOf t = coreOf s)
    (hlinked : ∀ l' ∈ before, LinksTable s p l') (hr : reach s .read (entryVaOf s l p) = none) :
    FaultsFrom (readPath classify p (before ++ l :: after) t) s (.mmuFault (entryVaOf s l p)) := by
  induction before generalizing t with
  | nil =>
    rw [List.nil_append, readPath, entryVaOf_core ht]
    exact (memRead_faults ht hr).bind _
  | cons l' before ih =>
    obtain ⟨hl', hbefore⟩ := List.forall_mem_cons.1 hlinked
    obtain ⟨e, he, hv, htop⟩ := entry_of_linksTable hl'
    rw [List.cons_append, readPath, entryVaOf_core ht]
    refine (memRead_goesOn ht he).bind fun u hu => ?_
    simp only [hclassify e hv htop]
    exact ih hu hbefore

/-- A lookup of an S-leaf, whatever it then does with the descriptor, faults at the first entry it cannot read. -/
theorem lookup_faults {β : Type} {sz : PageSize} {before after : List Level} {l : Level} {leafAt : State → Word}
    {f : State → Word → State → Res β} (hleaf : ∀ u, coreOf u = coreOf s → leafAt u = entryVaOf s (leafLevel sz) p)
    (hsplit : pathLevels sz = before ++ l :: after) (hlinked : ∀ l' ∈ before, LinksTable s p l')
    (hr : reach s .read (entryVaOf s l p) = none) :
    FaultsFrom ((readPath classify p (nonLeafLevels sz) s).bind fun _ u => (memRead (leafAt u) u).bind (f u)) s
      (.mmuFault (entryVaOf s l p)) := by
  obtain ⟨rest, -, hlevels⟩ | ⟨-, rfl, hlevels⟩ := pathLevels_split hsplit
  · rw [hlevels]
    exact (readPath_faults hclassify rfl hlinked hr).bind _
  · rw [hlevels]
    refine (readPath_goesOn hclassify rfl hlinked).bind fun u hu => ?_
    rw [hleaf u hu]
    exact (memRead_faults hu hr).bind _

end

/-- ReadWalk and what follows it, as the walk above the leaf and what follows that. -/
theorem readWalk_bind {β : Type} (onBlock : Status) (p : Word) (sz : PageSize) (s : State) (f : Word → State → Res β) :
    (readWalk onBlock p sz s).bind f =
      (readPath (nonLeaf onBlock) p (nonLeafLevels sz) s).bind fun _ u => f (entryVaOf u (leafLevel sz) p) u := by
  rw [readWalk]
  cases readPath (nonLeaf onBlock) p (nonLeafLevels sz) s <;> rfl

/-- MAP.TRANSLATE's descent faults at the first entry it cannot read. -/
theorem translateFrom_faults {s t : State} {v : Word} {before after rest : List Level} {l l0 : Level}
    (ht : coreOf t = coreOf s) (hsplit : l0 :: rest = before ++ l :: after) (hlinked : ∀ l' ∈ before, LinksTable s v l')
    (hr : reach s .read (entryVaOf s l v) = none) :
    FaultsFrom (translateFrom v l0 rest t) s (.mmuFault (entryVaOf s l v)) := by
  induction before generalizing t l0 rest with
  | nil =>
    obtain ⟨rfl, rfl⟩ := List.cons.inj hsplit
    unfold translateFrom
    rw [entryVaOf_core ht]
    exact (memRead_faults ht hr).bind _
  | cons l' before ih =>
    obtain ⟨rfl, hrest⟩ := List.cons.inj hsplit
    obtain ⟨hl', hbefore⟩ := List.forall_mem_cons.1 hlinked
    obtain ⟨e, he, hv, htop⟩ := entry_of_linksTable hl'
    cases rest with
    | nil => simp at hrest
    | cons lnext rest =>
      unfold translateFrom
      rw [entryVaOf_core ht]
      refine (memRead_goesOn ht he).bind fun u hu => ?_
      simp only [hv, htop, Bool.true_eq_false, if_false]
      exact ih hu hrest hbefore

/-! ## create_next_table (spec/42_recursive_walk.md R155) -/

section
variable {s t : State} {eva nva f link : Word}

theorem createNextTable_faults_read (ht : coreOf t = coreOf s) (h : reach s .read eva = none) :
    FaultsFrom (createNextTable eva nva t) s (.mmuFault eva) :=
  (memRead_faults ht h).bind _

/-- What create_next_table does at an unused entry once it has its frame and link. -/
theorem createNextTable_bind_link {c : State} {q : FaultReason} (ht : coreOf t = coreOf s)
    (he : readNow s eva = some 0) (hf : nextAnswer s = some f) (hl : tableLink s.config f = .ok link)
    (h : ∀ u, coreOf u = coreOf (afterAlloc s) →
      FaultsFrom ((memWrite eva link u).bind fun _ u' => zeroFrom nva 0 512 (barrier u')) c q) :
    FaultsFrom (createNextTable eva nva t) c q := by
  refine (memRead_goesOn ht he).bind fun u hu => ?_
  have hcore : coreOf (alloc u).2 = coreOf (afterAlloc s) :=
    (coreOf_alloc u).trans (congrArg (fun x => coreOf (afterAlloc x)) hu :)
  have halloc : alloc u = (some f, (alloc u).2) := Prod.ext ((nextAnswer_core hu).trans hf) rfl
  rw [if_pos rfl, halloc]
  simp only
  rw [core_config hcore, show (afterAlloc s).config = s.config from rfl, hl]
  exact h _ hcore

/-- A link that cannot be written: one Alloc() call has been made. -/
theorem createNextTable_faults_link (ht : coreOf t = coreOf s) (he : readNow s eva = some 0) (hf : nextAnswer s = some f)
    (hl : tableLink s.config f = .ok link) (h : reach s .write eva = none) :
    FaultsFrom (createNextTable eva nva t) (afterAlloc s) (.mmuFault eva) :=
  createNextTable_bind_link ht he hf hl fun _ hu =>
    (memWrite_faults hu ((reach_of_mem rfl rfl _ _).trans h)).bind _

/-- The state in which the link at `pa` has been written and published, after one Alloc() call. -/
def afterLink (s : State) (pa : Nat) (link : Word) : State :=
  { store64 pa link (afterAlloc s) with writes := publish (store64 pa link (afterAlloc s)).writes }

/-- A new table that cannot be reached through its link: the link stands and is published. -/
theorem createNextTable_faults_zero {pa : Nat} (ht : coreOf t = coreOf s) (he : readNow s eva = some 0)
    (hf : nextAnswer s = some f) (hl : tableLink s.config f = .ok link) (hpa : reach s .write eva = some pa)
    (h : reach { s with mem := s.mem.write64 pa link } .write nva = none) :
    FaultsFrom (createNextTable eva nva t) (afterLink s pa link) (.mmuFault nva) := by
  refine createNextTable_bind_link ht he hf hl fun _ hu =>
    (memWrite_goesOn hu ((reach_of_mem rfl rfl _ _).trans hpa)).bind fun w hw => ?_
  have hcore : coreOf (barrier w) = coreOf (afterLink s pa link) :=
    (coreOf_barrier w).trans (congrArg (fun x => coreOf { x with writes := publish x.writes }) hw :)
  have hnva : entryAt nva 0 = nva := by simp [entryAt]
  rw [zeroFrom, hnva]
  exact (memWrite_faults hcore ((reach_of_mem rfl rfl _ _).trans h)).bind _

end

section
variable {s c : State} {p : Word} {q : FaultReason}

/-- map_to's descent faults where create_next_table does, below tables that stand. -/
theorem createPath_faults {t : State} {before after : List Level} {l : Level} (ht : coreOf t = coreOf s)
    (hlinked : ∀ l' ∈ before, LinksTable s p l')
    (h : ∀ u, coreOf u = coreOf s →
      FaultsFrom (createNextTable (entryVaOf s l p) (tableVaOf s (levelBelow l) p) u) c q) :
    FaultsFrom (createPath p (before ++ l :: after) t) c q := by
  induction before generalizing t with
  | nil =>
    rw [List.nil_append, createPath, entryVaOf_core ht, tableVaOf_core ht]
    exact (h t ht).bind _
  | cons l' before ih =>
    obtain ⟨hl', hbefore⟩ := List.forall_mem_cons.1 hlinked
    obtain ⟨e, he, hv, htop⟩ := entry_of_linksTable hl'
    rw [List.cons_append, createPath]
    obtain ⟨u, hu, hm⟩ := createNextTable_of_table (nva := tableVaOf t (levelBelow l') p)
      ((readNow_core ht (entryVaOf s l' p)).trans he) hv htop
    rw [entryVaOf_core ht, hm]
    exact ih (hu.trans ht) hbefore

/-- A mapping faults where create_next_table does at a level above the leaf. -/
theorem mapLeaf_faults_table {sz : PageSize} {frame : Word} {before after : List Level} {l : Level}
    (hlevels : nonLeafLevels sz = before ++ l :: after) (hlinked : ∀ l' ∈ before, LinksTable s p l')
    (h : ∀ u, coreOf u = coreOf s →
      FaultsFrom (createNextTable (entryVaOf s l p) (tableVaOf s (levelBelow l) p) u) c q) :
    FaultsFrom (mapLeaf sz p frame s) c q := by
  rw [mapLeaf, hlevels]
  exact (createPath_faults rfl hlinked h).bind _

/-- A mapping faults at the first entry on its path that it cannot read. -/
theorem mapLeaf_faults_read {sz : PageSize} {frame : Word} {before after : List Level} {l : Level}
    (hsplit : pathLevels sz = before ++ l :: after) (hlinked : ∀ l' ∈ before, LinksTable s p l')
    (hr : reach s .read (entryVaOf s l p) = none) :
    FaultsFrom (mapLeaf sz p frame s) s (.mmuFault (entryVaOf s l p)) := by
  obtain ⟨rest, -, hlevels⟩ | ⟨-, rfl, rfl⟩ := pathLevels_split hsplit
  · exact mapLeaf_faults_table hlevels hlinked fun u hu => createNextTable_faults_read hu hr
  · refine GoesOn.bind (createPath_linked hlinked) fun u hu => ?_
    rw [entryVaOf_core hu]
    exact (memRead_faults hu hr).bind _

end

end Sys2Proof.Machine
end

section
/-! PROOF. The commands that meet an address that does not resolve (spec/20_memory.md R55, spec/42_recursive_walk.md R153). -/

namespace Sys2Proof.Machine

/-! ## The bodies of the commands -/

section
variable {s : State} {sz : PageSize} {before after : List Level} {l : Level}
  (hsplit : pathLevels sz = before ++ l :: after) (hlinked : ∀ l' ∈ before, LinksTable s s.inp.page l')
  (hr : reach s .read (entryVaOf s l s.inp.page) = none)
include hsplit hlinked hr

theorem lookupLeaf_faults_read : FaultsFrom (lookupLeaf sz s) s (.mmuFault (entryVaOf s l s.inp.page)) := by
  rw [lookupLeaf, readWalk_bind]
  exact lookup_faults (fun _ => nonLeaf_table) (fun _ hu => entryVaOf_core hu _ _) hsplit hlinked hr

theorem updateLeaf_faults_read : FaultsFrom (updateLeaf sz s) s (.mmuFault (entryVaOf s l s.inp.page)) := by
  rw [updateLeaf, readWalk_bind]
  exact lookup_faults (fun _ => nonLeaf_table) (fun _ hu => entryVaOf_core hu _ _) hsplit hlinked hr

theorem unmapLeaf_faults_read : FaultsFrom (unmapLeaf sz s) s (.mmuFault (entryVaOf s l s.inp.page)) :=
  lookup_faults (fun _ => unmapClassify_table) (fun u hu => by rw [core_inp hu, entryVaOf_core hu]) hsplit hlinked hr

end

section
variable {s : State} {sz : PageSize} {e : Word}

/-- An unmap whose leaf cannot be written. -/
theorem unmapLeaf_faults_write (hlinked : PathLinked s sz s.inp.page)
    (he : readNow s (leafVa s sz s.inp.page) = some e) (hw : reach s .write (leafVa s sz s.inp.page) = none)
    (hleaf : MatchingLeaf sz e) : FaultsFrom (unmapLeaf sz s) s (.mmuFault (leafVa s sz s.inp.page)) := by
  have hva : ∀ u, coreOf u = coreOf s → entryVaOf u (leafLevel sz) u.inp.page = leafVa s sz s.inp.page := by
    intro u hu
    rw [core_inp hu, entryVaOf_core hu, leafVa]
  have hframe : unmapFrame sz e = .ok (pteAddr e) := by
    obtain ⟨hv, htop, haligned⟩ := hleaf
    cases sz with
    | k4 => simp_all [unmapFrame, pteFrame]
    | m2 | g1 => simp_all [unmapFrame, unmapFrame.hugeFrame]
  refine (readPath_goesOn (fun _ => unmapClassify_table) rfl hlinked).bind fun u hu => ?_
  rw [hva u hu]
  refine (memRead_goesOn hu he).bind fun w hwu => ?_
  simp only [hframe]
  rw [hva w hwu]
  exact (memWrite_faults hwu hw).bind _

/-- An update whose leaf cannot be written. -/
theorem updateLeaf_faults_write (hlinked : PathLinked s sz s.inp.page)
    (he : readNow s (leafVa s sz s.inp.page) = some e) (hw : reach s .write (leafVa s sz s.inp.page) = none)
    (h0 : e ≠ 0) : FaultsFrom (updateLeaf sz s) s (.mmuFault (leafVa s sz s.inp.page)) := by
  rw [updateLeaf, readWalk_bind]
  refine (readPath_goesOn (fun _ => nonLeaf_table) rfl hlinked).bind fun u hu => ?_
  rw [entryVaOf_core hu]
  refine (memRead_goesOn hu he).bind fun w hwu => ?_
  rw [if_neg h0]
  exact (memWrite_faults hwu hw).bind _

/-- The leaf of a size whose kind the flags name is a descriptor (spec/40_pte_codec.md R104, R106). -/
theorem leafDescriptor_ok {x : Word} (h : isTop x = (sz == .k4)) (f a : Word) : ∃ v, leafDescriptor sz f x a = .ok v := by
  cases sz with
  | k4 => exact ⟨_, if_pos h⟩
  | m2 | g1 => exact ⟨_, if_neg (by simp [h])⟩

/-- A mapping whose leaf cannot be written. -/
theorem mapLeaf_faults_write {p frame : Word} (hlinked : PathLinked s sz p) (he : readNow s (leafVa s sz p) = some 0)
    (htop : isTop s.inp.flags = (sz == .k4)) (hw : reach s .write (leafVa s sz p) = none) :
    FaultsFrom (mapLeaf sz p frame s) s (.mmuFault (leafVa s sz p)) := by
  refine GoesOn.bind (createPath_linked hlinked) fun u hu => ?_
  rw [entryVaOf_core hu]
  refine (memRead_goesOn hu he).bind fun w hwu => ?_
  obtain ⟨v, hv⟩ := leafDescriptor_ok htop frame s.inp.attr
  rw [if_pos rfl, core_inp hwu, hv]
  change FaultsFrom ((memWrite (entryVaOf w (leafLevel sz) p) v w).bind _) s _
  rw [entryVaOf_core hwu]
  exact (memWrite_faults hwu hw).bind _

end

/-! ## Commands that fault -/

section
variable {i : Instr} {s : State} {r : Res OutPorts} (hexec : exec i s = conclude r)
include hexec

/-- The fault is raised before anything of the core has changed. -/
theorem stopsBlock_of_faults {q : FaultReason} (h : FaultsFrom r (beginCommand s) q) : StopsBlock i s q := by
  obtain ⟨u, hu, rfl⟩ := h
  refine ⟨takeFault q u, hexec, rfl, rfl, rfl, ?_⟩
  simp [MemoryKept, TokensKept, AllocatorKept, core_mem hu, core_writes hu, core_tokens hu, core_nextToken hu,
    core_answers hu, core_allocCalls hu, core_bound hu, core_ridxReg hu]

/-- The fault is raised after the frame has been had and before the link is written. -/
theorem faultsAt_of_faults {va : Word} (h : FaultsFrom r (afterAlloc (beginCommand s)) (.mmuFault va)) :
    FaultsAt i s va 1 := by
  obtain ⟨u, hu, rfl⟩ := h
  refine ⟨takeFault _ u, hexec, rfl, rfl, rfl, ?_⟩
  simp [MemoryKept, TokensKept, core_mem hu, core_writes hu, core_tokens hu, core_nextToken hu, core_allocCalls hu,
    core_bound hu, core_ridxReg hu, afterAlloc]

/-- The fault is raised after the link has been written and published. -/
theorem faultsAfterStore_of_faults {va link : Word} {pa : Nat}
    (h : FaultsFrom r (afterLink (beginCommand s) pa link) (.mmuFault va)) : FaultsAfterStore i s va pa link := by
  obtain ⟨u, hu, rfl⟩ := h
  refine ⟨takeFault _ u, hexec, rfl, rfl, rfl, ?_⟩
  simp +contextual [TokensKept, core_mem hu, core_writes hu, core_tokens hu, core_nextToken hu, core_allocCalls hu,
    core_bound hu, core_ridxReg hu, afterLink, afterAlloc, publish, Memory.read_write64_outside]

end

/-! ## Commands in a state where an address does not resolve -/

/-- A lookup that cannot read an entry on its page's path. -/
theorem stopsBlock_of_unreadable {s : State} {sz : PageSize} {before after : List Level} {l : Level}
    (hadm : AdmittedLookup s sz) (hsplit : pathLevels sz = before ++ l :: after)
    (hlinked : ∀ l' ∈ before, LinksTable s s.inp.page l') (hr : reach s .read (entryVaOf s l s.inp.page) = none) :
    StopsBlock (.mapGetEntry sz) s (.mmuFault (entryVaOf s l s.inp.page)) ∧
    StopsBlock (.mapGetEntryMut sz) s (.mmuFault (entryVaOf s l s.inp.page)) ∧
    StopsBlock (.mapTranslatePage sz) s (.mmuFault (entryVaOf s l s.inp.page)) ∧
    (AdmittedUnmap s sz → StopsBlock (.mapUnmap sz) s (.mmuFault (entryVaOf s l s.inp.page))) ∧
    (AdmittedUpdate s sz → StopsBlock (.mapUpdateFlags sz) s (.mmuFault (entryVaOf s l s.inp.page))) := by
  have hr : reach (beginCommand s) .read (entryVaOf (beginCommand s) l (beginCommand s).inp.page) = none := hr
  have hlinked : ∀ l' ∈ before, LinksTable (beginCommand s) (beginCommand s).inp.page l' := hlinked
  obtain ⟨f, hpage⟩ := exec_of_admittedTranslatePage hadm
  refine ⟨stopsBlock_of_faults (exec_of_admittedLookup (.inl rfl) hadm) (lookupLeaf_faults_read hsplit hlinked hr),
    stopsBlock_of_faults (exec_of_admittedLookup (.inr rfl) hadm) (lookupLeaf_faults_read hsplit hlinked hr),
    stopsBlock_of_faults hpage ?_,
    fun h => stopsBlock_of_faults (exec_of_admittedUnmap h) (unmapLeaf_faults_read hsplit hlinked hr),
    fun h => stopsBlock_of_faults (exec_of_admittedUpdate h) (updateLeaf_faults_read hsplit hlinked hr)⟩
  rw [readWalk_bind]
  exact lookup_faults (fun _ => nonLeaf_table) (fun _ hu => entryVaOf_core hu _ _) hsplit hlinked hr

/-- A translation that cannot read an entry on its address's path. -/
theorem translate_stopsBlock {i : Instr} {s : State} {before after : List Level} {l : Level}
    (hi : i = .mapTranslate ∨ i = .mapTranslateAddr) (hready : ReadyBound s)
    (hsplit : [.l4, .l3, .l2, .l1] = before ++ l :: after) (hlinked : ∀ l' ∈ before, LinksTable s s.inp.page l')
    (hr : reach s .read (entryVaOf s l s.inp.page) = none) :
    StopsBlock i s (.mmuFault (entryVaOf s l s.inp.page)) := by
  obtain ⟨f, hexec⟩ := exec_translate hi hready
  exact stopsBlock_of_faults hexec ((translateFrom_faults (s := beginCommand s) rfl hsplit hlinked hr).bind f)

/-- A mapping that cannot read or link an entry above the leaf, or cannot reach the table it has linked. -/
theorem maps_stopsBlock {i : Instr} {s : State} {sz : PageSize} {page : Word} {before after : List Level} {l : Level}
    (hi : Maps s i sz page) (hadm : AdmittedMap s sz page) (hsplit : pathLevels sz = before ++ l :: after)
    (hlinked : ∀ l' ∈ before, LinksTable s page l') :
    (reach s .read (entryVaOf s l page) = none → StopsBlock i s (.mmuFault (entryVaOf s l page))) ∧
    (∀ f link, after ≠ [] → readNow s (entryVaOf s l page) = some 0 → nextAnswer s = some f →
      tableLink s.config f = .ok link →
      (reach s .write (entryVaOf s l page) = none → FaultsAt i s (entryVaOf s l page) 1) ∧
      ∀ pa, reach s .write (entryVaOf s l page) = some pa →
        reach { s with mem := s.mem.write64 pa link } .write (tableVaOf s (levelBelow l) page) = none →
        FaultsAfterStore i s (tableVaOf s (levelBelow l) page) pa link) := by
  have hlinked : ∀ l' ∈ before, LinksTable (beginCommand s) page l' := hlinked
  have hexec := exec_of_maps hi hadm
  refine ⟨fun hr => stopsBlock_of_faults hexec (mapLeaf_faults_read hsplit hlinked hr), fun f link hne he hf hl => ?_⟩
  obtain ⟨rest, -, hlevels⟩ | ⟨hnil, -, -⟩ := pathLevels_split hsplit
  · exact ⟨fun hw => faultsAt_of_faults hexec (mapLeaf_faults_table hlevels hlinked fun u hu =>
        createNextTable_faults_link hu he hf hl hw),
      fun pa hpa hz => faultsAfterStore_of_faults hexec (mapLeaf_faults_table hlevels hlinked fun u hu =>
        createNextTable_faults_zero hu he hf hl hpa hz)⟩
  · exact absurd hnil hne

/-- RPT.CREATE_NEXT_TABLE that cannot read or link its entry, or cannot reach the table it has linked. -/
theorem createTable_stopsBlock {s : State} (hadm : AdmittedTable s) :
    (reach s .read s.inp.entryVa = none → StopsBlock .rptCreateNextTable s (.mmuFault s.inp.entryVa)) ∧
    ∀ f link, readNow s s.inp.entryVa = some 0 → nextAnswer s = some f → tableLink s.config f = .ok link →
      (reach s .write s.inp.entryVa = none → FaultsAt .rptCreateNextTable s s.inp.entryVa 1) ∧
      ∀ pa, reach s .write s.inp.entryVa = some pa →
        reach { s with mem := s.mem.write64 pa link } .write s.inp.nextVa = none →
        FaultsAfterStore .rptCreateNextTable s s.inp.nextVa pa link := by
  have hexec := exec_of_admittedTable hadm
  exact ⟨fun hr => stopsBlock_of_faults hexec ((createNextTable_faults_read (s := beginCommand s) rfl hr).bind _),
    fun f link he hf hl =>
      ⟨fun hw => faultsAt_of_faults hexec ((createNextTable_faults_link (s := beginCommand s) rfl he hf hl hw).bind _),
        fun pa hpa hz => faultsAfterStore_of_faults hexec
          ((createNextTable_faults_zero (s := beginCommand s) rfl he hf hl hpa hz).bind _)⟩⟩

/-- Settles O34: each command faults where its first access that does not resolve stands, in the core its earlier accesses
left. -/
theorem unresolvedAccessFaults : Obligations.UnresolvedAccessFaults := by
  unfold Obligations.UnresolvedAccessFaults
  refine ⟨fun s sz before l after => stopsBlock_of_unreadable, fun s i before l after => translate_stopsBlock,
    fun s i sz page before l after => maps_stopsBlock, fun s i sz page hi hadm hlinked he htop hw => ?_,
    fun s sz e hlinked he hw => ⟨fun hadm hleaf => ?_, fun hadm h0 => ?_⟩, fun s => createTable_stopsBlock⟩
  · exact stopsBlock_of_faults (exec_of_maps hi hadm) (mapLeaf_faults_write (s := beginCommand s) hlinked he htop hw)
  · exact stopsBlock_of_faults (exec_of_admittedUnmap hadm)
      (unmapLeaf_faults_write (s := beginCommand s) hlinked he hw hleaf)
  · exact stopsBlock_of_faults (exec_of_admittedUpdate hadm) (updateLeaf_faults_write (s := beginCommand s) hlinked he hw h0)

end Sys2Proof.Machine
end

section
/-! PROOF. The command word (spec/30_encoding.md R82-R90): decode and encode invert each other, the legal words are those
that decode, the fields of a descriptor, the textual form, and MAP.IDENTITY_MAP as a MAP.MAP_TO. -/

namespace Sys2Proof

/-! ## What the decoder accepts (R82-R85) -/

/-- The command is well-formed and its word has these fields OPC and SZ. -/
def Instr.HasFields (i : Instr) (opc : Nat) (tag : BitVec 2) : Prop :=
  i.wf = true ∧ i.opcode.toNat = opc ∧ i.sizeTag = tag

theorem PageSize.tag_of_ofTag {tag : BitVec 2} {sz : PageSize} (h : PageSize.ofTag tag = some sz) : sz.tag = tag := by
  revert tag sz
  decide

theorem decodePlain_hasFields {i j : Instr} {opc : Nat} {tag : BitVec 2} (hi : i.HasFields opc 0)
    (h : decodePlain tag i = .ok j) : j.HasFields opc tag := by
  unfold decodePlain at h
  split at h
  case isTrue htag =>
    obtain rfl := Except.ok.inj h
    exact htag ▸ hi
  case isFalse => cases h

theorem decodeSized_hasFields {f : PageSize → Instr} {j : Instr} {opc : Nat} {tag : BitVec 2}
    (hf : ∀ sz, (f sz).HasFields opc sz.tag) (h : decodeSized tag f = .ok j) : j.HasFields opc tag := by
  unfold decodeSized at h
  split at h
  case h_1 sz htag =>
    obtain rfl := Except.ok.inj h
    exact PageSize.tag_of_ofTag htag ▸ hf sz
  case h_2 => cases h

/-- PTE.SET_BLOCK takes its sizes as any sized command does, but for the 4KiB tag (R85). -/
theorem decodeBlock_hasFields {j : Instr} {tag : BitVec 2} (h : decodeBlock tag = .ok j) : j.HasFields 0x09 tag := by
  unfold decodeBlock at h
  split at h
  case h_1 htag | h_2 htag =>
    obtain rfl := Except.ok.inj h
    exact ⟨rfl, rfl, PageSize.tag_of_ofTag htag⟩
  case h_3 | h_4 => cases h

/-- Each arm of the opcode map gives commands with the OPC it stands at: PTE.SET_BLOCK's, those of the sized MAP commands,
that of the unlisted opcodes, which gives none, and those of the plain commands. -/
theorem decodeOpcode_hasFields {i : Instr} {opc : BitVec 8} {tag : BitVec 2} (h : decodeOpcode opc tag = .ok i) :
    i.HasFields opc.toNat tag := by
  unfold decodeOpcode at h
  generalize opc.toNat = n at h ⊢
  split at h
  case h_9 => exact decodeBlock_hasFields h
  case h_12 | h_13 | h_14 | h_15 | h_16 | h_17 | h_18 => exact decodeSized_hasFields (fun _ => ⟨rfl, rfl, rfl⟩) h
  case h_27 => cases h
  all_goals exact decodePlain_hasFields ⟨rfl, rfl, rfl⟩ h

/-- A word with bits 31:10 zero is put together from its fields. -/
theorem zero_append_fields {w : BitVec 32} (h : w.extractLsb' 10 22 = 0) :
    0#22 ++ w.extractLsb' 8 2 ++ w.extractLsb' 0 8 = w := by
  rw [← show w.extractLsb' 10 22 = 0#22 from h, BitVec.extractLsb'_append_extractLsb'_eq_extractLsb' (by rfl),
    BitVec.extractLsb'_append_extractLsb']

/-- A word that decodes is the word of the well-formed command it decodes to. -/
theorem encode_of_decode {w : BitVec 32} {i : Instr} (h : decode w = .ok i) : i.wf = true ∧ encode i = w := by
  unfold decode at h
  split at h
  case isTrue hmbz =>
    obtain ⟨hwf, hopc, htag⟩ := decodeOpcode_hasFields h
    exact ⟨hwf, by rw [encode, BitVec.eq_of_toNat_eq hopc, htag, zero_append_fields hmbz]⟩
  case isFalse => cases h

/-! ## What the encoder gives -/

/-- The fields of the encoded word, command by command. -/
theorem encodedFields (i : Instr) : Laws.EncodedFields.Statement i := by
  cases i with
  | pteIsUnused => exact Laws.EncodedFields.pteIsUnused
  | pteSetUnused => exact Laws.EncodedFields.pteSetUnused
  | pteFlags => exact Laws.EncodedFields.pteFlags
  | pteAddr => exact Laws.EncodedFields.pteAddr
  | pteAttr => exact Laws.EncodedFields.pteAttr
  | pteIsBlock => exact Laws.EncodedFields.pteIsBlock
  | pteFrame => exact Laws.EncodedFields.pteFrame
  | pteSetFrame => exact Laws.EncodedFields.pteSetFrame
  | pteSetBlock sz => exact Laws.EncodedFields.pteSetBlock sz
  | pteSetFlags => exact Laws.EncodedFields.pteSetFlags
  | pteSetAttr => exact Laws.EncodedFields.pteSetAttr
  | mapMapTo sz => exact Laws.EncodedFields.mapMapTo sz
  | mapIdentityMap sz => exact Laws.EncodedFields.mapIdentityMap sz
  | mapGetEntry sz => exact Laws.EncodedFields.mapGetEntry sz
  | mapGetEntryMut sz => exact Laws.EncodedFields.mapGetEntryMut sz
  | mapUnmap sz => exact Laws.EncodedFields.mapUnmap sz
  | mapUpdateFlags sz => exact Laws.EncodedFields.mapUpdateFlags sz
  | mapTranslatePage sz => exact Laws.EncodedFields.mapTranslatePage sz
  | mapTranslate => exact Laws.EncodedFields.mapTranslate
  | mapTranslateAddr => exact Laws.EncodedFields.mapTranslateAddr
  | rptBind => exact Laws.EncodedFields.rptBind
  | rptTableVa => exact Laws.EncodedFields.rptTableVa
  | rptCreateNextTable => exact Laws.EncodedFields.rptCreateNextTable
  | tokFlush => exact Laws.EncodedFields.tokFlush
  | tokIgnore => exact Laws.EncodedFields.tokIgnore
  | attrLookup => exact Laws.EncodedFields.attrLookup

theorem decode_encode {i : Instr} (hwf : i.wf = true) : decode (encode i) = .ok i := by
  obtain ⟨-, -, -, -, htable⟩ := encodedFields i hwf
  simpa using (Machine.decode_of_decodeTableWord htable).2

theorem legalWord_encode {i : Instr} (hwf : i.wf = true) : Machine.LegalWord (encode i) := by
  obtain ⟨-, -, -, hlegal, -⟩ := encodedFields i hwf
  exact hlegal

/-- Settles O2: a command that is decoded has the word's own fields, and a well-formed command's own word decodes to it. -/
theorem decodeInvertsEncode : Obligations.DecodeInvertsEncode := by
  unfold Obligations.DecodeInvertsEncode
  refine fun w i => ⟨encode_of_decode, ?_⟩
  rintro ⟨hwf, rfl⟩
  exact decode_encode hwf

/-- Settles O1: the words are evaluated. -/
theorem sampleWordsDecode : Obligations.SampleWordsDecode := by
  unfold Obligations.SampleWordsDecode
  decide

/-! ## Legal and illegal words (R84-R86) -/

/-- Every row of the opcode map decodes, with every size it takes. -/
theorem decode_of_mem_opcodeMap :
    ∀ row ∈ Machine.opcodeMap, ∀ sz ∈ row.2, (decode (BitVec.ofNat 32 (row.1 + 256 * sz))).isOk = true := by
  decide

theorem legalWord_iff_decodes (w : BitVec 32) : Machine.LegalWord w ↔ ∃ i, decode w = .ok i := by
  constructor
  · rintro ⟨row, hrow, sz, hsz, hw⟩
    have hok := decode_of_mem_opcodeMap row hrow sz hsz
    rw [← hw, BitVec.ofNat_toNat, BitVec.setWidth_eq] at hok
    cases hd : decode w with
    | ok i => exact ⟨i, rfl⟩
    | error e => simp [hd, Except.isOk, Except.toBool] at hok
  · rintro ⟨i, hi⟩
    obtain ⟨hwf, rfl⟩ := encode_of_decode hi
    exact legalWord_encode hwf

namespace Machine

/-- A block that is neither faulted nor busy refuses a word that is no command by check 3 (R193). -/
theorem refuseWord_of_ready {s : State} (h : Ready s) : refuseWord s = .next (refuseCommand .illegalCommand s) := by
  obtain ⟨hfaulted, hbusy⟩ := h
  exact command_of_refused (by simp [refusalOf_of_illegal, hfaulted, hbusy]) _

/-- Settles O3: a word that does not decode reaches the interface's check 3, and the gap before it changes neither FAULTED
nor BUSY. -/
theorem illegalWordsRefused : Obligations.IllegalWordsRefused := by
  unfold Obligations.IllegalWordsRefused
  refine ⟨legalWord_iff_decodes, fun s p rest hs hready hillegal => ?_⟩
  have hready' : Ready (present p rest (turn s)) := by simpa [Ready] using hready
  cases hd : decode p.cmd with
  | ok i => exact absurd ((legalWord_iff_decodes _).2 ⟨i, hd⟩) hillegal
  | error e =>
    simp only [step, turn_script, hs, hd]
    exact refuseWord_of_ready hready'

/-! ## The fields of a descriptor (R76, R100) -/

/-- Fields cut out by disjoint masks are disjoint. -/
theorem field_and_field {m n : Word} (h : m &&& n = 0) (e : Word) : (e &&& m) &&& (e &&& n) = 0 :=
  calc (e &&& m) &&& (e &&& n) = (e &&& e) &&& (m &&& n) := by ac_rfl
    _ = 0 := by rw [h]; exact BitVec.and_zero

/-- Settles O12: the masks are constants, and a field is the entry under its mask. -/
theorem fieldsPartition : Obligations.FieldsPartition := by
  unfold Obligations.FieldsPartition
  refine ⟨by decide, fun e => ⟨field_and_field (by decide) e, field_and_field (by decide) e,
    field_and_field (by decide) e, ?_, ?_⟩⟩
  · simp only [pteFlags, pteAddr, pteAttr, ← BitVec.and_or_distrib_left]
    rw [show flagsMask ||| addrMask ||| attrMask = ~~~rsvdMask by decide]
  · simp only [pteFlags, pteAddr, pteAttr, ← BitVec.and_or_distrib_left]
    rw [show addrMask ||| attrMask ||| flagsMask ||| rsvdMask = BitVec.allOnes 64 by decide, BitVec.and_allOnes]

/-! ## The textual form (R89) -/

/-- Naming a port leaves the CMD word. -/
@[simp] theorem setPort_cmd (p : InPorts) (a : PortArg) : (setPort p a).cmd = p.cmd := by
  cases a <;> rfl

theorem foldl_setPort_cmd (args : List PortArg) (p : InPorts) : (args.foldl setPort p).cmd = p.cmd := by
  induction args generalizing p with
  | nil => rfl
  | cons a args ih => rw [List.foldl_cons, ih, setPort_cmd]

/-- Settles O5: the lines are evaluated, and no port argument touches the CMD word. -/
theorem assemblyLines : Obligations.AssemblyLines := by
  unfold Obligations.AssemblyLines
  exact ⟨rfl, rfl, rfl, rfl, fun i args => foldl_setPort_cmd args _⟩

/-! ## MAP.IDENTITY_MAP (R90) -/

/-- With PAGE = FRAME the two mapping commands ask the same checks and run the same body. -/
theorem exec_mapMapTo_of_page_eq_frame {s : State} (h : s.inp.page = s.inp.frame) (sz : PageSize) :
    exec (.mapMapTo sz) s = exec (.mapIdentityMap sz) s := by
  simp only [exec, execMapMapTo, execMapIdentityMap, command, beginCommand_inp, h]

/-- Settles O50: MAP.IDENTITY_MAP does not read PAGE, so PAGE may be set to FRAME, where MAP.MAP_TO is the same command. -/
theorem identityMapIsMapTo : Obligations.IdentityMapIsMapTo := by
  unfold Obligations.IdentityMapIsMapTo
  intro s t sz h
  rw [exec_mapMapTo_of_page_eq_frame rfl]
  exact unreadPortsIgnored (.mapIdentityMap sz) s t { s.inp with page := s.inp.frame } rfl h

end Machine

end Sys2Proof
end

section
/-! PROOF. The PTE codec (spec/40_pte_codec.md R95-R109): the codec's setters and accessors round-trip, and what each
PTE.* command answers in a state that is neither faulted nor busy. -/

namespace Sys2Proof.Machine

/-! ## Fields under a mask (spec/30_encoding.md R72-R76) -/

section
variable {x m n : Word}

theorem and_or_and_not (x m : Word) : (x &&& m) ||| (x &&& ~~~m) = x := by
  rw [← BitVec.and_or_distrib_left, BitVec.or_not_self, BitVec.and_allOnes]

/-- A word with no bit outside a mask is its own field (R73, R74). -/
theorem and_mask_of_within (h : x &&& ~~~m = 0) : x &&& m = x := by
  have hsplit := and_or_and_not x m
  rwa [h, show (x &&& m) ||| 0 = x &&& m from BitVec.or_zero] at hsplit

/-- A field has no bit in a mask disjoint from its own. -/
theorem field_and_disjoint (hx : x &&& m = x) (n : Word) (hmn : m &&& n = 0) : x &&& n = 0 :=
  calc x &&& n = (x &&& m) &&& n := by rw [hx]
    _ = x &&& (m &&& n) := BitVec.and_assoc ..
    _ = 0 := by rw [hmn]; exact BitVec.and_zero

/-- A replaced field reads back. -/
theorem replaced_and_mask (hx : x &&& m = x) (e : Word) : ((e &&& ~~~m) ||| x) &&& m = x := by
  have hold : (e &&& ~~~m) &&& m = 0 := by rw [BitVec.and_assoc, BitVec.not_and_self]; exact BitVec.and_zero
  rw [BitVec.and_or_distrib_right, hold, hx]
  exact BitVec.zero_or

/-- Replacing a field keeps every field disjoint from it. -/
theorem replaced_and_disjoint (hx : x &&& m = x) (hmn : m &&& n = 0) (e : Word) :
    ((e &&& ~~~m) ||| x) &&& n = e &&& n := by
  have hnm : ~~~m &&& n = n := by
    rw [BitVec.and_comm]
    refine and_mask_of_within (m := ~~~m) ?_
    rw [BitVec.not_not, BitVec.and_comm, hmn]
  rw [BitVec.and_or_distrib_right, field_and_disjoint hx n hmn, BitVec.and_assoc, hnm]
  exact BitVec.or_zero

end

/-! ## Leaf descriptors (R103-R106) -/

/-- The fields of a descriptor put together from an address, FLAGS and ATTR, and its reserved bits (R75, R109). -/
theorem fields_of_assembled {d x a : Word} (hd : d &&& addrMask = d) (hx : FlagsOk x) (ha : AttrOk a) :
    pteAddr (d ||| x ||| a) = d ∧ pteFlags (d ||| x ||| a) = x ∧ pteAttr (d ||| x ||| a) = a ∧
      (d ||| x ||| a) &&& rsvdMask = 0 := by
  have hx' := and_mask_of_within hx
  have ha' := and_mask_of_within ha
  simp only [pteAddr, pteFlags, pteAttr, BitVec.and_or_distrib_right, hd, hx', ha',
    field_and_disjoint hd flagsMask (by decide), field_and_disjoint hd attrMask (by decide),
    field_and_disjoint hd rsvdMask (by decide), field_and_disjoint hx' addrMask (by decide),
    field_and_disjoint hx' attrMask (by decide), field_and_disjoint hx' rsvdMask (by decide),
    field_and_disjoint ha' addrMask (by decide), field_and_disjoint ha' flagsMask (by decide),
    field_and_disjoint ha' rsvdMask (by decide)]
  simp

theorem setFrame_of_top {x : Word} (h : isTop x = true) (f a : Word) :
    setFrame f x a = .ok ((f &&& addrMask) ||| x ||| a) := if_pos h

theorem setFrame_of_notTop {x : Word} (h : isTop x = false) (f a : Word) :
    setFrame f x a = .error (.contractViolation .setFrameWithoutTop) := by
  simp [setFrame, h]

theorem setBlock_of_top {x : Word} (h : isTop x = true) (ad a : Word) (sz : PageSize) :
    setBlock ad sz x a = .error (.contractViolation .setBlockWithTop) := if_pos h

theorem setBlock_of_notTop {x : Word} (h : isTop x = false) (ad a : Word) (sz : PageSize) :
    setBlock ad sz x a = .ok ((alignDown ad sz &&& addrMask) ||| x ||| a) := by
  simp [setBlock, h]

/-- An S-aligned address is 4KiB-aligned. -/
theorem aligned_k4_of_aligned {a : Word} {sz : PageSize} (h : aligned a sz = true) : aligned a .k4 = true := by
  have hmask : offsetMask .k4 = offsetMask sz &&& offsetMask .k4 := by cases sz <;> decide
  rw [aligned, beq_iff_eq] at *
  rw [hmask, ← BitVec.and_assoc, h]
  exact BitVec.zero_and

/-- ADDR_MASK keeps the S-aligned address below an address of 48 bits. -/
theorem alignDown_and_addrMask {a : Word} (h : a.toNat < 2 ^ 48) (sz : PageSize) :
    alignDown a sz &&& addrMask = alignDown a sz := by
  refine and_addrMask_of_aligned (aligned_k4_of_aligned (alignDown_aligned a sz)) (Nat.lt_of_le_of_lt ?_ h)
  rw [alignDown, BitVec.toNat_and]
  exact Nat.and_le_left

/-- What set_frame builds, where its contract is met (R103, R104). -/
theorem eq_of_setFrame_ok {f x a v : Word} (h : setFrame f x a = .ok v) : v = (f &&& addrMask) ||| x ||| a := by
  cases ht : isTop x with
  | true => exact (Except.ok.inj (setFrame_of_top ht f a ▸ h)).symm
  | false =>
    rw [setFrame_of_notTop ht] at h
    cases h

/-- What set_block builds, where its contract is met (R105, R106). -/
theorem eq_of_setBlock_ok {ad x a v : Word} {sz : PageSize} (h : setBlock ad sz x a = .ok v) :
    v = (alignDown ad sz &&& addrMask) ||| x ||| a := by
  cases ht : isTop x with
  | true =>
    rw [setBlock_of_top ht] at h
    cases h
  | false => exact (Except.ok.inj (setBlock_of_notTop ht ad a sz ▸ h)).symm

/-- Settles O11: the masks are disjoint, a setter replaces the bits under its mask alone, and a leaf's address operand lies
under ADDR_MASK. -/
theorem codecRoundTrips : Obligations.CodecRoundTrips := by
  unfold Obligations.CodecRoundTrips
  refine ⟨fun e f a hf ha => ?_, fun F x a v hx ha hF hk4 hv => ?_, fun A x a v sz hx ha hA hv => ?_⟩
  · have hf' := and_mask_of_within hf
    have ha' := and_mask_of_within ha
    exact ⟨replaced_and_mask hf' e, replaced_and_mask ha' e, replaced_and_disjoint hf' (by decide) e,
      replaced_and_disjoint ha' (by decide) e, replaced_and_disjoint hf' (by decide) e,
      replaced_and_disjoint ha' (by decide) e, replaced_and_disjoint hf' (by decide) e,
      replaced_and_disjoint ha' (by decide) e⟩
  · rw [eq_of_setFrame_ok hv, and_addrMask_of_aligned hk4 hF]
    exact fields_of_assembled (and_addrMask_of_aligned hk4 hF) hx ha
  · rw [eq_of_setBlock_ok hv, alignDown_and_addrMask hA sz]
    exact fields_of_assembled (alignDown_and_addrMask hA sz) hx ha

/-! ## The ends of a command without events (spec/60_exceptions.md R183, R187, R190, R193) -/

theorem refuseCommand_eq_afterRefusal (r : RefuseReason) (s : State) : refuseCommand r s = afterRefusal r s := rfl

@[simp] theorem conclude_done_beginCommand (results : OutPorts) (s : State) :
    conclude (.done results (beginCommand s)) = .next (afterOk results s) := rfl

@[simp] theorem conclude_error_beginCommand (c : Status) (s : State) :
    conclude (.error c (beginCommand s)) = .next (afterError c.code s) := rfl

@[simp] theorem conclude_fault_beginCommand (q : FaultReason) (s : State) :
    conclude (.fault q (beginCommand s)) = .next (afterFault q s) := rfl

/-! ## What a codec command is refused for (R193) -/

@[simp] theorem outOfMask_none (m : Word) : outOfMask m none = false := rfl

@[simp] theorem outOfMask_some (m x : Word) : outOfMask m (some x) = true ↔ x &&& ~~~m ≠ 0 := bne_iff_ne

@[simp] theorem tooWide_none (c : Config) : tooWide c none = false := rfl

@[simp] theorem tooWide_some (c : Config) (a : Word) : tooWide c (some a) = true ↔ 2 ^ c.paBits ≤ a.toNat :=
  decide_eq_true_iff

/-- In a state that is neither faulted nor busy, a command that needs no binding, no page and no token meets checks 3, 5, 6
and 7 of R193 only, in this order. -/
theorem command_of_ready {s : State} (h : Ready s) (illegal misaligned : Bool) (flags attr address : Option Word)
    (body : State → Res OutPorts) :
    command { illegal := illegal, flags := flags, attr := attr, address := address, misaligned := misaligned } body s =
      if illegal = true then .next (afterRefusal .illegalCommand s)
      else if outOfMask flagsMask flags = true ∨ outOfMask attrMask attr = true then
        .next (afterRefusal .operandRange s)
      else if tooWide s.config address = true then .next (afterRefusal .addressWidth s)
      else if misaligned = true then .next (afterRefusal .misaligned s)
      else conclude (body (beginCommand s)) := by
  obtain ⟨hfaulted, hbusy⟩ := h
  simp only [← refuseCommand_eq_afterRefusal, command, refusalOf, hfaulted, hbusy, Bool.false_and, Bool.or_eq_true,
    inWindow, notOutstanding, Bool.false_eq_true, if_false]
  split_ifs <;> rfl

/-- A command that has nothing to check but that the block is ready runs its body. -/
theorem command_unchecked {s : State} (h : Ready s) (body : State → Res OutPorts) :
    command {} body s = conclude (body (beginCommand s)) := by
  simpa using command_of_ready h false false none none none body

/-- Such a command completes with the results of its body. -/
theorem command_completes {s : State} {results : OutPorts} {body : State → Res OutPorts} (h : Ready s)
    (hbody : body (beginCommand s) = .done results (beginCommand s)) : command {} body s = .next (afterOk results s) := by
  rw [command_unchecked h, hbody, conclude_done_beginCommand]

/-- Settles O6: the accessors check nothing, and their results are functions of the port E. -/
theorem pteAccessorsAnswer : Obligations.PteAccessorsAnswer := by
  unfold Obligations.PteAccessorsAnswer
  exact ⟨by decide, fun s h => ⟨command_completes h rfl, command_completes h rfl, command_completes h rfl,
    command_completes h rfl, command_completes h rfl, command_completes h rfl⟩⟩

/-! ## PTE.FRAME (R102) -/

theorem pteFrame_of_invalid {e : Word} (h : isValid e = false) : pteFrame e = .error .frameNotPresent := if_pos h

theorem pteFrame_of_block {e : Word} (hv : isValid e = true) (ht : isTop e = false) : pteFrame e = .error .hugeFrame := by
  simp [pteFrame, hv, ht]

theorem pteFrame_of_table {e : Word} (hv : isValid e = true) (ht : isTop e = true) : pteFrame e = .ok (pteAddr e) := by
  simp [pteFrame, hv, ht]

/-- The outcome of PTE.FRAME is that of frame() on the port E. -/
theorem exec_pteFrame_of_ready {s : State} (h : Ready s) :
    (∀ f, pteFrame s.inp.e = .ok f → exec .pteFrame s = .next (afterOk { val := some f } s)) ∧
      ∀ c, pteFrame s.inp.e = .error c → exec .pteFrame s = .next (afterError c.code s) := by
  rw [exec, execPteFrame, command_unchecked h, beginCommand_inp]
  constructor
  · intro f hf
    rw [hf, conclude_done_beginCommand]
  · intro c hc
    rw [hc, conclude_error_beginCommand]

/-- Settles O7: VALID decides before TOP, and the kinds of R71 are told apart by the same two bits. -/
theorem pteFrameAnswers : Obligations.PteFrameAnswers := by
  unfold Obligations.PteFrameAnswers
  refine ⟨by decide, fun s h => ?_, fun e => ?_⟩
  · obtain ⟨hok, herror⟩ := exec_pteFrame_of_ready h
    split
    case isTrue hv => exact herror _ (pteFrame_of_invalid hv)
    case isFalse hv =>
      have hv' : isValid s.inp.e = true := Bool.eq_true_of_not_eq_false hv
      split
      case isTrue ht => exact herror _ (pteFrame_of_block hv' ht)
      case isFalse ht => exact hok _ (pteFrame_of_table hv' (Bool.eq_true_of_not_eq_false ht))
  · by_cases h0 : e = 0
    · subst h0
      rfl
    cases hv : isValid e with
    | false => rw [pteFrame_of_invalid hv, entryKind, if_neg h0, if_pos hv]
    | true =>
      have hv' : ¬ isValid e = false := by simp [hv]
      cases ht : isTop e with
      | false => rw [pteFrame_of_block hv ht, entryKind, if_neg h0, if_neg hv', if_pos ht]
      | true => rw [pteFrame_of_table hv ht, entryKind, if_neg h0, if_neg hv', if_neg (by simp [ht])]

/-! ## The setters (R103-R108) -/

/-- PTE.SET_FRAME's body: flags without TOP are a fault of the block, else the descriptor stands on E_OUT. -/
theorem conclude_setFrame (f x a : Word) (s : State) :
    conclude ((ofSetter (setFrame f x a) (beginCommand s)).bind fun v t => .done { eOut := some v } t) =
      if isTop x = false then .next (afterFault (.contractViolation .setFrameWithoutTop) s)
      else .next (afterOk { eOut := some ((f &&& addrMask) ||| x ||| a) } s) := by
  cases h : isTop x with
  | true => rw [setFrame_of_top h]; exact conclude_done_beginCommand _ s
  | false => rw [setFrame_of_notTop h]; exact conclude_fault_beginCommand _ s

/-- PTE.SET_BLOCK's body: flags with TOP are a fault of the block, else the descriptor stands on E_OUT. -/
theorem conclude_setBlock (ad x a : Word) (sz : PageSize) (s : State) :
    conclude ((ofSetter (setBlock ad sz x a) (beginCommand s)).bind fun v t => .done { eOut := some v } t) =
      if isTop x = true then .next (afterFault (.contractViolation .setBlockWithTop) s)
      else .next (afterOk { eOut := some ((alignDown ad sz &&& addrMask) ||| x ||| a) } s) := by
  cases h : isTop x with
  | true => rw [setBlock_of_top h]; exact conclude_fault_beginCommand _ s
  | false => rw [setBlock_of_notTop h]; exact conclude_done_beginCommand _ s

/-- S - 1 as a word, by the page size in bytes. -/
theorem offsetMask_eq (sz : PageSize) : offsetMask sz = BitVec.ofNat 64 (sizeBytes sz - 1) := by
  cases sz <;> decide

/-- Settles O8: the checks of R193 that PTE.SET_FRAME asks, then the contract of R104. -/
theorem pteSetFrameAnswers : Obligations.PteSetFrameAnswers := by
  unfold Obligations.PteSetFrameAnswers
  refine ⟨by decide, fun s h => ?_⟩
  rw [exec, execPteSetFrame, command_of_ready h]
  simp only [beginCommand_inp, conclude_setFrame, outOfMask_some, tooWide_some, ← not_and_or, Bool.not_eq_true',
    ← Bool.not_eq_true (aligned _ _), aligned_k4_iff, Bool.false_eq_true, if_false]
  rfl

/-- Settles O9: the checks of R193 that PTE.SET_BLOCK asks, then the contract of R106. -/
theorem pteSetBlockAnswers : Obligations.PteSetBlockAnswers := by
  unfold Obligations.PteSetBlockAnswers
  refine ⟨by decide, by decide, fun s h => ?_, fun s sz hsz h => ?_⟩
  · rw [exec, execPteSetBlock, command_of_ready h]
    rfl
  · rw [exec, execPteSetBlock, command_of_ready h, if_neg (by simpa using hsz), ← offsetMask_eq]
    simp only [beginCommand_inp, conclude_setBlock, outOfMask_some, tooWide_some, ← not_and_or, Bool.false_eq_true,
      if_false]
    rfl

/-- Settles O10: check 5 of R193 on the one operand, then the setter. -/
theorem pteFieldSettersAnswer : Obligations.PteFieldSettersAnswer := by
  unfold Obligations.PteFieldSettersAnswer
  refine ⟨by decide, by decide, fun s h => ⟨?_, ?_⟩⟩
  · rw [exec, execPteSetFlags, command_of_ready h]
    simp only [outOfMask_some, outOfMask_none, tooWide_none, Bool.false_eq_true, if_false, or_false]
    rfl
  · rw [exec, execPteSetAttr, command_of_ready h]
    simp only [outOfMask_some, outOfMask_none, tooWide_none, Bool.false_eq_true, if_false, false_or]
    rfl

end Sys2Proof.Machine
end

section
/-! PROOF. The mapper's commands in a state whose entries are known (spec/41_mapper_ops.md R115-R143): where each body ends, and
what the command then leaves. -/

namespace Sys2Proof.Machine

/-! ## Parts of a command that return a typed error, or go on -/

/-- The part of a command returns the typed error `e`, and leaves the core of `c`. -/
def ErrsFrom {α : Type} (r : Res α) (c : State) (e : Status) : Prop := ∃ u, coreOf u = coreOf c ∧ r = .error e u

section
variable {α β : Type} {r : Res α} {s c : State} {e : Status} {a : α} {f : α → State → Res β}

theorem ErrsFrom.bind (h : ErrsFrom r c e) (f : α → State → Res β) : ErrsFrom (r.bind f) c e := by
  obtain ⟨u, hu, rfl⟩ := h
  exact ⟨u, hu, rfl⟩

/-- Where the first part goes on, the rest decides what is returned. -/
theorem GoesOn.bind_errs (h : GoesOn r s a) (hf : ∀ u, coreOf u = coreOf s → ErrsFrom (f a u) c e) :
    ErrsFrom (r.bind f) c e := by
  obtain ⟨u, hu, rfl⟩ := h
  exact hf u hu

/-- Where the first part goes on, the rest decides what is done. -/
theorem GoesOn.bind_goesOn {b : β} (h : GoesOn r s a) (hf : ∀ u, coreOf u = coreOf s → GoesOn (f a u) c b) :
    GoesOn (r.bind f) c b := by
  obtain ⟨u, hu, rfl⟩ := h
  exact hf u hu

end

/-- A store and the token of a mutation. -/
def afterMutation (page : Word) (sz : PageSize) (pa : Nat) (v : Word) (s : State) : State :=
  { store64 pa v s with
    nextToken := s.nextToken + 1
    tokens := { id := s.nextToken, page := alignDown page sz, size := sz } :: s.tokens }

/-- The last part of a mutation: the leaf is written and the token created. -/
theorem storeAndToken_goesOn {s t : State} {va v page : Word} {pa : Nat} {sz : PageSize} {pageAt : State → Word}
    (ht : coreOf t = coreOf s) (hreach : reach s .write va = some pa)
    (hpage : ∀ u, u.inp = s.inp → pageAt u = page) (out : BitVec 32 → OutPorts) :
    GoesOn ((memWrite va v t).bind fun _ w => .done (out (newToken (pageAt w) sz w).1) (newToken (pageAt w) sz w).2)
      (afterMutation page sz pa v s) (out s.nextToken) := by
  refine (memWrite_goesOn ht hreach).bind_goesOn fun w hw => ?_
  rw [newToken_fst, hpage w (core_inp hw :), (core_nextToken hw :)]
  refine ⟨_, ?_, rfl⟩
  rw [coreOf_newToken]
  exact congrArg (fun x => coreOf { x with
    nextToken := x.nextToken + 1
    tokens := { id := x.nextToken, page := alignDown page sz, size := sz } :: x.tokens }) hw

/-! ## The ends of a command (spec/60_exceptions.md R183, R187) -/

section
variable {i : Instr} {s : State} {r : Res OutPorts} (hexec : exec i s = conclude r)
include hexec

theorem failsWith_of_errs {c : Status} (h : ErrsFrom r (beginCommand s) c) : FailsWith i s c.code := by
  obtain ⟨u, hu, rfl⟩ := h
  refine ⟨returnError c u, hexec, rfl, ?_⟩
  simp [RegistersKept, MemoryKept, TokensKept, AllocatorKept, core_config hu, core_inp hu, core_bound hu, core_ridxReg hu,
    core_faulted hu, core_faultReason hu, core_mem hu, core_launchMem hu, core_writes hu, core_tokens hu,
    core_nextToken hu, core_pos hu, core_script hu, core_answers hu, core_allocCalls hu]

/-- The error is returned after one Alloc() call that gave no frame. -/
theorem failsAfterAlloc_of_errs {c : Status} (h : ErrsFrom r (afterAlloc (beginCommand s)) c) :
    ∃ t, exec i s = .next t ∧ t.out = errPorts c ∧ RegistersKept s t ∧ MemoryKept s t ∧ TokensKept s t ∧
      t.allocCalls = s.allocCalls + 1 := by
  obtain ⟨u, hu, rfl⟩ := h
  refine ⟨returnError c u, hexec, rfl, ?_⟩
  simp [RegistersKept, MemoryKept, TokensKept, core_config hu, core_inp hu, core_bound hu, core_ridxReg hu,
    core_faulted hu, core_faultReason hu, core_mem hu, core_launchMem hu, core_writes hu, core_tokens hu,
    core_nextToken hu, core_pos hu, core_script hu, core_allocCalls hu, afterAlloc]

/-- A command that has changed nothing completes with its results. -/
theorem answers_of_goesOn {res : OutPorts} (h : GoesOn r (beginCommand s) res) :
    ∃ t, exec i s = .next t ∧ t.out = okPorts res ∧ RegistersKept s t ∧ MemoryKept s t ∧ TokensKept s t ∧
      AllocatorKept s t := by
  obtain ⟨u, hu, rfl⟩ := h
  refine ⟨completeCommand res u, hexec, rfl, ?_⟩
  simp [RegistersKept, MemoryKept, TokensKept, AllocatorKept, core_config hu, core_inp hu, core_bound hu, core_ridxReg hu,
    core_faulted hu, core_faultReason hu, core_mem hu, core_launchMem hu, core_writes hu, core_tokens hu,
    core_nextToken hu, core_pos hu, core_script hu, core_answers hu, core_allocCalls hu]

/-- A mutation that has written one descriptor completes with its token; the block is not busy. -/
theorem mutates_of_goesOn {res : OutPorts} {page v : Word} {sz : PageSize} {pa : Nat}
    (h : GoesOn r (afterMutation page sz pa v (beginCommand s)) res) :
    ∃ t, exec i s = .next t ∧ t.busy = false ∧ t.mem = s.mem.write64 pa v ∧ t.out = okPorts res ∧ OnlyStored s t pa v ∧
      TokenCreated s t page sz ∧ RegistersKept s t ∧ AllocatorKept s t := by
  obtain ⟨u, hu, rfl⟩ := h
  refine ⟨completeCommand res u, hexec, rfl, core_mem hu, rfl, ?_⟩
  simp +contextual [OnlyStored, TokenCreated, RegistersKept, AllocatorKept, core_config hu, core_inp hu, core_bound hu,
    core_ridxReg hu, core_faulted hu, core_faultReason hu, core_mem hu, core_launchMem hu, core_writes hu, core_tokens hu,
    core_nextToken hu, core_pos hu, core_script hu, core_answers hu, core_allocCalls hu, afterMutation,
    Memory.read_write64_outside]

end

/-! ## Lookups of a leaf (R116, R117) -/

section
variable {β : Type} {s : State} {sz : PageSize} {p e : Word} {classify : Word → Option Status}
  (hclassify : ∀ e, isValid e = true → isTop e = true → classify e = none)
include hclassify

/-- Down a linked path a lookup reads the leaf, having changed nothing of the core. -/
theorem lookup_reads {leafAt : State → Word} (hleaf : ∀ u, coreOf u = coreOf s → leafAt u = leafVa s sz p)
    (hlinked : PathLinked s sz p) (he : readNow s (leafVa s sz p) = some e) (f : State → Word → State → Res β) :
    ∃ u w, coreOf u = coreOf s ∧ coreOf w = coreOf s ∧
      ((readPath classify p (nonLeafLevels sz) s).bind fun _ u => (memRead (leafAt u) u).bind (f u)) = f u e w := by
  obtain ⟨u, hu, hpath⟩ := readPath_goesOn hclassify rfl hlinked
  obtain ⟨w, hw, hread⟩ := memRead_goesOn hu he
  refine ⟨u, w, hu, hw, ?_⟩
  simp only [hpath, hleaf u hu, hread, Res.bind]

/-- A lookup stops at the first entry above the leaf that its rule stops at. -/
theorem lookup_stops {before after : List Level} {l : Level} {c : Status} (hlevels : nonLeafLevels sz = before ++ l :: after)
    (hlinked : ∀ l' ∈ before, LinksTable s p l') (he : readNow s (entryVaOf s l p) = some e) (hc : classify e = some c)
    (g : Unit → State → Res β) : ErrsFrom ((readPath classify p (nonLeafLevels sz) s).bind g) s c := by
  rw [hlevels]
  refine ErrsFrom.bind (readPath_stops (fun l' hl' => ?_) he hc) g
  obtain ⟨e', he', hv, ht⟩ := entry_of_linksTable (hlinked l' hl')
  exact ⟨e', he', hclassify e' hv ht⟩

end

section
variable {β : Type} {s : State} {sz : PageSize} {p e : Word} {onBlock : Status}

/-- Down a linked path ReadWalk gives the leaf's address, and the leaf is read. -/
theorem readWalk_reads (hlinked : PathLinked s sz p) (he : readNow s (leafVa s sz p) = some e)
    (f : Word → Word → State → Res β) :
    ∃ w, coreOf w = coreOf s ∧
      ((readWalk onBlock p sz s).bind fun r u => (memRead r u).bind (f r)) = f (leafVa s sz p) e w := by
  obtain ⟨u, w, hu, hw, h⟩ := lookup_reads (classify := nonLeaf onBlock) (fun _ => nonLeaf_table)
    (fun u hu => entryVaOf_core hu _ _) hlinked he fun u => f (entryVaOf u (leafLevel sz) p)
  refine ⟨w, hw, ?_⟩
  rw [readWalk_bind, h, entryVaOf_core hu, leafVa]

/-- ReadWalk stops at the first entry above the leaf that NonLeaf stops at. -/
theorem readWalk_stops {before after : List Level} {l : Level} {c : Status}
    (hlevels : nonLeafLevels sz = before ++ l :: after) (hlinked : ∀ l' ∈ before, LinksTable s p l')
    (he : readNow s (entryVaOf s l p) = some e) (hc : nonLeaf onBlock e = some c) (g : Word → State → Res β) :
    ErrsFrom ((readWalk onBlock p sz s).bind g) s c := by
  rw [readWalk_bind]
  exact lookup_stops (fun _ => nonLeaf_table) hlevels hlinked he hc _

end

theorem nonLeaf_invalid {e : Word} (onBlock : Status) (hv : isValid e = false) :
    nonLeaf onBlock e = some .pageNotMapped := if_pos hv

theorem nonLeaf_block {e : Word} (onBlock : Status) (hv : isValid e = true) (ht : isTop e = false) :
    nonLeaf onBlock e = some onBlock := by
  simp [nonLeaf, hv, ht]

theorem unmapClassify_invalid {e : Word} (hv : isValid e = false) : unmapClassify e = some .pageNotMapped := by
  rw [unmapClassify, pteFrame_of_invalid hv]
  rfl

theorem unmapClassify_block {e : Word} (hv : isValid e = true) (ht : isTop e = false) :
    unmapClassify e = some .parentEntryHugePage := by
  rw [unmapClassify, pteFrame_of_block hv ht]
  rfl

/-! ## The leaf of a size (R119, R130, R137) -/

section
variable {sz : PageSize} {e : Word}

theorem translateLeaf_matching (h : MatchingLeaf sz e) : translateLeaf sz e = .ok (pteAddr e) := by
  obtain ⟨hv, ht, ha⟩ := h
  cases sz <;> simp_all [translateLeaf]

theorem translateLeaf_invalid (hv : isValid e = false) : translateLeaf sz e = .error .pageNotMapped := if_pos hv

/-- A VALID descriptor of the other kind than the size's. -/
theorem translateLeaf_wrongKind (h : isTop e ≠ (sz == .k4)) : translateLeaf sz e = .error .pageNotMapped := by
  have ht := Bool.eq_not.2 h
  cases sz <;> simp_all [translateLeaf]

theorem translateLeaf_misaligned (hv : isValid e = true) (ht : isTop e = (sz == .k4))
    (ha : aligned (pteAddr e) sz = false) : translateLeaf sz e = .error .invalidFrameAddress := by
  cases sz <;> simp_all [translateLeaf]

theorem unmapFrame_matching (h : MatchingLeaf sz e) : unmapFrame sz e = .ok (pteAddr e) := by
  obtain ⟨hv, ht, ha⟩ := h
  cases sz with
  | k4 => simp_all [unmapFrame, pteFrame_of_table]
  | m2 | g1 => simp_all [unmapFrame, unmapFrame.hugeFrame]

theorem unmapFrame_invalid (hv : isValid e = false) : unmapFrame sz e = .error .pageNotMapped := by
  cases sz with
  | k4 => simp [unmapFrame, pteFrame_of_invalid hv, mapperError]
  | m2 | g1 => exact if_pos hv

theorem unmapFrame_block_k4 (hv : isValid e = true) (ht : isTop e = false) :
    unmapFrame .k4 e = .error .parentEntryHugePage := by
  simp [unmapFrame, pteFrame_of_block hv ht, mapperError]

theorem unmapFrame_table_huge (hsz : sz ≠ .k4) (hv : isValid e = true) (ht : isTop e = true) :
    unmapFrame sz e = .error .pageNotMapped := by
  cases sz <;> simp_all [unmapFrame, unmapFrame.hugeFrame]

theorem unmapFrame_misaligned (hsz : sz ≠ .k4) (hv : isValid e = true) (ht : isTop e = false)
    (ha : aligned (pteAddr e) sz = false) : unmapFrame sz e = .error .invalidFrameAddress := by
  cases sz <;> simp_all [unmapFrame, unmapFrame.hugeFrame]

end

/-! ## GET_ENTRY, UPDATE_FLAGS, UNMAP and TRANSLATE_PAGE at the leaf (R126, R130, R134, R137) -/

/-- What TRANSLATE_PAGE returns of the leaf. -/
def frameAnswer (r : Except Status Word) (s : State) : Res OutPorts :=
  match r with
  | .ok f => .done { val := some f } s
  | .error c => .error c s

/-- An admitted TRANSLATE_PAGE looks the leaf up and answers what its rule says of it. -/
theorem exec_translatePage {s : State} {sz : PageSize} (h : AdmittedLookup s sz) :
    exec (.mapTranslatePage sz) s =
      conclude ((readWalk .pageNotMapped s.inp.page sz (beginCommand s)).bind fun r u =>
        (memRead r u).bind fun e w => frameAnswer (translateLeaf sz e) w) := by
  rw [exec, execMapTranslatePage, command_of_admitted (refusalOf_of_admittedLookup h)]
  rfl

section
variable {s : State} {sz : PageSize} {e : Word} (hlinked : PathLinked s sz s.inp.page)
include hlinked

theorem lookupLeaf_finds (he : readNow s (leafVa s sz s.inp.page) = some e) (h0 : e ≠ 0) :
    GoesOn (lookupLeaf sz s) s { eOut := some e, vaOut := some (leafVa s sz s.inp.page) } := by
  obtain ⟨w, hw, h⟩ := readWalk_reads hlinked he _
  rw [lookupLeaf, h, if_neg h0]
  exact ⟨w, hw, rfl⟩

theorem lookupLeaf_unused (he : readNow s (leafVa s sz s.inp.page) = some 0) :
    ErrsFrom (lookupLeaf sz s) s .pageNotMapped := by
  obtain ⟨w, hw, h⟩ := readWalk_reads hlinked he _
  rw [lookupLeaf, h, if_pos rfl]
  exact ⟨w, hw, rfl⟩

theorem updateLeaf_replaces {pa : Nat} (he : readNow s (leafVa s sz s.inp.page) = some e) (h0 : e ≠ 0)
    (hreach : reach s .write (leafVa s sz s.inp.page) = some pa) :
    GoesOn (updateLeaf sz s) (afterMutation s.inp.page sz pa (setFlags e s.inp.flags) s)
      { tokenOut := some s.nextToken } := by
  obtain ⟨w, hw, h⟩ := readWalk_reads hlinked he _
  rw [updateLeaf, h, if_neg h0, core_inp hw]
  exact storeAndToken_goesOn hw hreach (pageAt := fun w => w.inp.page) (fun _ hi => by rw [hi])
    (fun k => { tokenOut := some k })

theorem updateLeaf_unused (he : readNow s (leafVa s sz s.inp.page) = some 0) :
    ErrsFrom (updateLeaf sz s) s .pageNotMapped := by
  obtain ⟨w, hw, h⟩ := readWalk_reads hlinked he _
  rw [updateLeaf, h, if_pos rfl]
  exact ⟨w, hw, rfl⟩

theorem unmapLeaf_clears {pa : Nat} {f : Word} (he : readNow s (leafVa s sz s.inp.page) = some e)
    (hf : unmapFrame sz e = .ok f) (hreach : reach s .write (leafVa s sz s.inp.page) = some pa) :
    GoesOn (unmapLeaf sz s) (afterMutation s.inp.page sz pa 0 s) { val := some f, tokenOut := some s.nextToken } := by
  obtain ⟨u, w, -, hw, h⟩ := lookup_reads (fun _ => unmapClassify_table)
    (leafAt := fun u => entryVaOf u (leafLevel sz) u.inp.page) (fun u hu => by rw [core_inp hu, entryVaOf_core hu, leafVa]) hlinked he _
  rw [unmapLeaf, h]
  simp only [hf]
  rw [entryVaOf_core hw, core_inp hw]
  exact storeAndToken_goesOn hw hreach (pageAt := fun w => w.inp.page) (fun _ hi => by rw [hi])
    (fun k => { val := some f, tokenOut := some k })

theorem unmapLeaf_errs {c : Status} (he : readNow s (leafVa s sz s.inp.page) = some e)
    (hc : unmapFrame sz e = .error c) : ErrsFrom (unmapLeaf sz s) s c := by
  obtain ⟨u, w, -, hw, h⟩ := lookup_reads (fun _ => unmapClassify_table)
    (leafAt := fun u => entryVaOf u (leafLevel sz) u.inp.page) (fun u hu => by rw [core_inp hu, entryVaOf_core hu, leafVa]) hlinked he _
  rw [unmapLeaf, h]
  simp only [hc]
  exact ⟨w, hw, rfl⟩

end

/-! ## Commands at the leaf -/

section
variable {s : State} {sz : PageSize} {e : Word}

/-- TRANSLATE_PAGE of a leaf that its rule takes. -/
theorem translatePage_answers {f : Word} (hadm : AdmittedLookup s sz) (hlinked : PathLinked s sz s.inp.page)
    (he : readNow s (leafVa s sz s.inp.page) = some e) (hf : translateLeaf sz e = .ok f) :
    ∃ t, exec (.mapTranslatePage sz) s = .next t ∧ t.out = okPorts { val := some f } ∧
      RegistersKept s t ∧ MemoryKept s t ∧ TokensKept s t ∧ AllocatorKept s t := by
  obtain ⟨w, hw, h⟩ := readWalk_reads (s := beginCommand s) hlinked he fun _ e w => frameAnswer (translateLeaf sz e) w
  rw [hf] at h
  exact answers_of_goesOn (exec_translatePage hadm) ⟨w, hw, h⟩

/-- TRANSLATE_PAGE of a leaf that its rule does not take. -/
theorem translatePage_fails {c : Status} (hadm : AdmittedLookup s sz) (hlinked : PathLinked s sz s.inp.page)
    (he : readNow s (leafVa s sz s.inp.page) = some e) (hc : translateLeaf sz e = .error c) :
    FailsWith (.mapTranslatePage sz) s c.code := by
  obtain ⟨w, hw, h⟩ := readWalk_reads (s := beginCommand s) hlinked he fun _ e w => frameAnswer (translateLeaf sz e) w
  rw [hc] at h
  exact failsWith_of_errs (exec_translatePage hadm) ⟨w, hw, h⟩

theorem unmap_fails {c : Status} (hadm : AdmittedUnmap s sz) (hlinked : PathLinked s sz s.inp.page)
    (he : readNow s (leafVa s sz s.inp.page) = some e) (hc : unmapFrame sz e = .error c) :
    FailsWith (.mapUnmap sz) s c.code :=
  failsWith_of_errs (exec_of_admittedUnmap hadm) (unmapLeaf_errs (s := beginCommand s) hlinked he hc)

end

/-- Settles O26: the walk descends the linked path and the leaf, whatever its kind, is answered with its address. -/
theorem getEntryAnswers : Obligations.GetEntryAnswers := by
  unfold Obligations.GetEntryAnswers
  intro s sz i e hi hadm hlinked he h0
  exact answers_of_goesOn (exec_of_admittedLookup hi hadm) (lookupLeaf_finds (s := beginCommand s) hlinked he h0)

/-- Settles O27: a matching leaf is one that translate_page's rule takes; no check of R193 asks for the recursive window. -/
theorem translatePageAnswers : Obligations.TranslatePageAnswers := by
  unfold Obligations.TranslatePageAnswers
  intro s sz e hadm hlinked he hleaf
  exact translatePage_answers hadm hlinked he (translateLeaf_matching hleaf)

/-- Settles O30: the leaf is read, and its flags alone are replaced by the one store. -/
theorem updateFlagsAnswers : Obligations.UpdateFlagsAnswers := by
  unfold Obligations.UpdateFlagsAnswers
  intro s sz e pa hadm hlinked he h0 hreach
  obtain ⟨t, hexec, -, -, h⟩ := mutates_of_goesOn (exec_of_admittedUpdate hadm)
    (updateLeaf_replaces (s := beginCommand s) hlinked he h0 hreach)
  exact ⟨t, hexec, h⟩

/-- Settles O31: the leaf is read, its frame answered, and the one store is 0. -/
theorem unmapAnswers : Obligations.UnmapAnswers := by
  unfold Obligations.UnmapAnswers
  intro s sz e pa hadm hlinked he hleaf hreach
  obtain ⟨t, hexec, -, -, h⟩ := mutates_of_goesOn (exec_of_admittedUnmap hadm)
    (unmapLeaf_clears (s := beginCommand s) hlinked he (unmapFrame_matching hleaf) hreach)
  exact ⟨t, hexec, h⟩

/-- Settles O33: the leaf's error by each command's rule for it. -/
theorem leafErrors : Obligations.LeafErrors := by
  unfold Obligations.LeafErrors
  intro s sz e hadm hlinked he
  refine ⟨?_, fun hv => ⟨?_, fun h => ?_⟩, ?_, fun hv ht hsz => ⟨?_, fun h => ?_⟩, fun hv ht hsz ha => ⟨?_, fun h => ?_⟩⟩
  · rintro rfl
    have hlookup := lookupLeaf_unused (s := beginCommand s) hlinked he
    exact ⟨failsWith_of_errs (exec_of_admittedLookup (.inl rfl) hadm) hlookup,
      failsWith_of_errs (exec_of_admittedLookup (.inr rfl) hadm) hlookup,
      fun h => failsWith_of_errs (exec_of_admittedUpdate h) (updateLeaf_unused (s := beginCommand s) hlinked he)⟩
  · exact translatePage_fails hadm hlinked he (translateLeaf_invalid hv)
  · exact unmap_fails h hlinked he (unmapFrame_invalid hv)
  · rintro hv ht rfl
    exact ⟨translatePage_fails hadm hlinked he (translateLeaf_wrongKind (by simp [ht])),
      fun h => unmap_fails h hlinked he (unmapFrame_block_k4 hv ht)⟩
  · exact translatePage_fails hadm hlinked he (translateLeaf_wrongKind (by simp [ht, hsz]))
  · exact unmap_fails h hlinked he (unmapFrame_table_huge hsz hv ht)
  · exact translatePage_fails hadm hlinked he (translateLeaf_misaligned hv (by simp [ht, hsz]) ha)
  · exact unmap_fails h hlinked he (unmapFrame_misaligned hsz hv ht ha)

/-! ## Lookups that stop above the leaf (R116, R117, R143) -/

section
variable {s : State} {sz : PageSize} {e : Word} {before after : List Level} {l : Level}
  (hlevels : nonLeafLevels sz = before ++ l :: after) (hlinked : ∀ l' ∈ before, LinksTable s s.inp.page l')
  (he : readNow s (entryVaOf s l s.inp.page) = some e)
include hlevels hlinked he

/-- The entry's error by the rule of get_entry's walk is the error of get_entry and of update_flags. -/
theorem lookups_stop {c : Status} (hadm : AdmittedLookup s sz) (hc : nonLeaf .parentEntryHugePage e = some c) :
    FailsWith (.mapGetEntry sz) s c.code ∧ FailsWith (.mapGetEntryMut sz) s c.code ∧
      (AdmittedUpdate s sz → FailsWith (.mapUpdateFlags sz) s c.code) := by
  have hlookup : ErrsFrom (lookupLeaf sz (beginCommand s)) (beginCommand s) c :=
    readWalk_stops (s := beginCommand s) hlevels hlinked he hc _
  exact ⟨failsWith_of_errs (exec_of_admittedLookup (.inl rfl) hadm) hlookup,
    failsWith_of_errs (exec_of_admittedLookup (.inr rfl) hadm) hlookup,
    fun h => failsWith_of_errs (exec_of_admittedUpdate h) (readWalk_stops (s := beginCommand s) hlevels hlinked he hc _)⟩

theorem translatePage_stops {c : Status} (hadm : AdmittedLookup s sz) (hc : nonLeaf .pageNotMapped e = some c) :
    FailsWith (.mapTranslatePage sz) s c.code :=
  failsWith_of_errs (exec_translatePage hadm)
    (readWalk_stops (s := beginCommand s) hlevels hlinked he hc _)

theorem unmap_stops {c : Status} (hadm : AdmittedUnmap s sz) (hc : unmapClassify e = some c) :
    FailsWith (.mapUnmap sz) s c.code :=
  failsWith_of_errs (exec_of_admittedUnmap hadm)
    (lookup_stops (s := beginCommand s) (fun _ => unmapClassify_table) hlevels hlinked he hc _)

end

/-- Settles O32: each command's rule for an entry above the leaf stops at the entry. -/
theorem walkStops : Obligations.WalkStops := by
  unfold Obligations.WalkStops
  intro s sz e before l after hadm hlevels hlinked he
  refine ⟨fun hv => ?_, fun hv ht => ?_⟩
  · obtain ⟨hget, hmut, hupdate⟩ := lookups_stop hlevels hlinked he hadm (nonLeaf_invalid _ hv)
    exact ⟨hget, hmut, translatePage_stops hlevels hlinked he hadm (nonLeaf_invalid _ hv),
      fun h => unmap_stops hlevels hlinked he h (unmapClassify_invalid hv), hupdate⟩
  · obtain ⟨hget, hmut, hupdate⟩ := lookups_stop hlevels hlinked he hadm (nonLeaf_block _ hv ht)
    exact ⟨hget, hmut, translatePage_stops hlevels hlinked he hadm (nonLeaf_block _ hv ht),
      fun h => unmap_stops hlevels hlinked he h (unmapClassify_block hv ht), hupdate⟩

end Sys2Proof.Machine
end

section
/-! PROOF. MAP.MAP_TO and MAP.IDENTITY_MAP where the tables exist or the path stops (spec/41_mapper_ops.md R119-R124, R143), and
MAP.TRANSLATE and MAP.TRANSLATE_ADDR (R140, R142). -/

namespace Sys2Proof.Machine

/-! ## The leaf a mapping installs (R119, R120) -/

section
variable {sz : PageSize} {f x : Word}

theorem alignDown_of_aligned (h : aligned f sz = true) : alignDown f sz = f := by
  refine and_mask_of_within (m := ~~~offsetMask sz) ?_
  rw [BitVec.not_not]
  exact beq_iff_eq.1 h

/-- Flags of the size's kind make a descriptor of an aligned frame. -/
theorem leafDescriptor_matching (hx : isTop x = (sz == .k4)) (hf : aligned f sz = true) (a : Word) :
    leafDescriptor sz f x a = .ok ((f &&& addrMask) ||| x ||| a) := by
  cases sz with
  | k4 => exact setFrame_of_top hx f a
  | m2 | g1 => exact (setBlock_of_notTop hx f a _).trans (by rw [alignDown_of_aligned hf])

/-- Flags of the other kind are the contract violation of the size's setter. -/
theorem leafDescriptor_wrongKind (hx : isTop x ≠ (sz == .k4)) (a : Word) : leafDescriptor sz f x a =
    .error (.contractViolation (if sz = .k4 then .setFrameWithoutTop else .setBlockWithTop)) := by
  have ht := Bool.eq_not.2 hx
  cases sz with
  | k4 => exact setFrame_of_notTop ht f a
  | m2 | g1 => exact setBlock_of_top ht f a _

end

/-! ## map_to's descent -/

theorem createPath_append (p : Word) (before after : List Level) (s : State) :
    createPath p (before ++ after) s = (createPath p before s).bind fun _ u => createPath p after u := by
  induction before generalizing s with
  | nil => rfl
  | cons l before ih =>
    rw [List.cons_append, createPath, createPath]
    cases createNextTable (entryVaOf s l p) (tableVaOf s (levelBelow l) p) s with
    | done a u => exact ih u
    | error c u => rfl
    | fault q u => rfl

/-- A mapping errs where create_next_table does, at a level above the leaf, once the descent has come there. -/
theorem mapLeaf_errs_table {s d c : State} {p frame : Word} {sz : PageSize} {before after : List Level} {l : Level}
    {e : Status} (hlevels : nonLeafLevels sz = before ++ l :: after) (hpath : GoesOn (createPath p before s) d ())
    (h : ∀ u, coreOf u = coreOf d →
      ErrsFrom (createNextTable (entryVaOf d l p) (tableVaOf d (levelBelow l) p) u) c e) :
    ErrsFrom (mapLeaf sz p frame s) c e := by
  rw [mapLeaf, hlevels, createPath_append]
  refine ErrsFrom.bind (hpath.bind_errs fun u hu => ?_) _
  rw [createPath, entryVaOf_core hu, tableVaOf_core hu]
  exact (h u hu).bind _

section
variable {s c : State} {p frame : Word} {sz : PageSize} (hpath : GoesOn (createPath p (nonLeafLevels sz) s) c ())
include hpath

/-- A mapping whose tables stand and whose leaf is unused: one store, and the token. -/
theorem mapLeaf_installs {v : Word} {pa : Nat} (he : readNow c (leafVa c sz p) = some 0)
    (hv : leafDescriptor sz frame c.inp.flags c.inp.attr = .ok v) (hreach : reach c .write (leafVa c sz p) = some pa) :
    GoesOn (mapLeaf sz p frame s) (afterMutation p sz pa v c) { tokenOut := some c.nextToken } := by
  refine hpath.bind_goesOn fun u hu => ?_
  rw [entryVaOf_core hu]
  refine (memRead_goesOn hu he).bind_goesOn fun w hw => ?_
  rw [if_pos rfl, core_inp hw, hv]
  change GoesOn ((memWrite (entryVaOf w (leafLevel sz) p) v w).bind _) _ _
  rw [entryVaOf_core hw]
  exact storeAndToken_goesOn hw hreach (pageAt := fun _ => p) (fun _ _ => rfl) fun k => { tokenOut := some k }

/-- A leaf in use is seen before the flags are. -/
theorem mapLeaf_inUse {e : Word} (he : readNow c (leafVa c sz p) = some e) (h0 : e ≠ 0) :
    ErrsFrom (mapLeaf sz p frame s) c .pageAlreadyMapped := by
  refine hpath.bind_errs fun u hu => ?_
  rw [entryVaOf_core hu]
  refine (memRead_goesOn hu he).bind_errs fun w hw => ?_
  rw [if_neg h0]
  exact ⟨w, hw, rfl⟩

/-- The leaf's setter raises its contract violation before anything of the leaf is written. -/
theorem mapLeaf_faults_setter {q : FaultReason} (he : readNow c (leafVa c sz p) = some 0)
    (hq : leafDescriptor sz frame c.inp.flags c.inp.attr = .error q) : FaultsFrom (mapLeaf sz p frame s) c q := by
  refine hpath.bind fun u hu => ?_
  rw [entryVaOf_core hu]
  refine (memRead_goesOn hu he).bind fun w hw => ?_
  rw [if_pos rfl, core_inp hw, hq]
  exact ⟨w, hw, rfl⟩

end

/-- A mapping whose tables stand, in either form, completes with the leaf stored. -/
theorem maps_installs {s : State} {i : Instr} {sz : PageSize} {page : Word} {pa : Nat} (hi : Maps s i sz page)
    (hadm : AdmittedMap s sz page) (hlinked : PathLinked s sz page) (he : readNow s (leafVa s sz page) = some 0)
    (htop : isTop s.inp.flags = (sz == .k4)) (hreach : reach s .write (leafVa s sz page) = some pa) :
    ∃ t, exec i s = .next t ∧ t.busy = false ∧
      t.mem = s.mem.write64 pa ((s.inp.frame &&& addrMask) ||| s.inp.flags ||| s.inp.attr) ∧
      t.out = okPorts { tokenOut := some s.nextToken } ∧
      OnlyStored s t pa ((s.inp.frame &&& addrMask) ||| s.inp.flags ||| s.inp.attr) ∧ TokenCreated s t page sz ∧
      RegistersKept s t ∧ AllocatorKept s t := by
  obtain ⟨-, -, hframe, -⟩ := id hadm
  have hpath : GoesOn (createPath page (nonLeafLevels sz) (beginCommand s)) (beginCommand s) () :=
    createPath_linked (s := beginCommand s) hlinked
  exact mutates_of_goesOn (exec_of_maps hi hadm) (mapLeaf_installs hpath he (leafDescriptor_matching htop hframe _) hreach)

/-- Settles O22: the linked path is left as it is, and the leaf's store is the only one. -/
theorem mapInstallsLeaf : Obligations.MapInstallsLeaf := by
  unfold Obligations.MapInstallsLeaf
  constructor
  · intro s sz pa hadm hlinked he htop hreach
    obtain ⟨t, hexec, -, -, h⟩ := maps_installs (.inl ⟨rfl, rfl⟩) hadm hlinked he htop hreach
    exact ⟨t, hexec, h⟩
  · intro s sz pa hadm hlinked he htop hreach
    obtain ⟨t, hexec, -, -, h⟩ := maps_installs (.inr ⟨rfl, rfl⟩) hadm hlinked he htop hreach
    exact ⟨t, hexec, h⟩

/-- Settles O23: the leaf is read before its setter's contract is checked, and either ends the command before its store. -/
theorem mapLeafOutcomes : Obligations.MapLeafOutcomes := by
  unfold Obligations.MapLeafOutcomes
  intro s sz i page e hi hadm hlinked he
  have hexec := exec_of_maps hi hadm
  have hpath : GoesOn (createPath page (nonLeafLevels sz) (beginCommand s)) (beginCommand s) () :=
    createPath_linked (s := beginCommand s) hlinked
  have hfault : e = 0 → isTop s.inp.flags ≠ (sz == .k4) → StopsBlock i s
      (.contractViolation (if sz = .k4 then .setFrameWithoutTop else .setBlockWithTop)) := by
    rintro rfl hx
    exact stopsBlock_of_faults hexec (mapLeaf_faults_setter hpath he (leafDescriptor_wrongKind hx _))
  refine ⟨fun h0 => failsWith_of_errs hexec (mapLeaf_inUse hpath he h0), ?_, fun h0 hsz hx => ?_⟩
  · rintro h0 rfl hx
    exact hfault h0 (by simp [hx])
  · simpa [hsz] using hfault h0 (by simp [hx, hsz])

/-- Settles O24: the descent passes the tables that stand and ends in create_next_table at the first other entry. -/
theorem mapPathStops : Obligations.MapPathStops := by
  unfold Obligations.MapPathStops
  intro s sz i page e before l after hi hadm hlevels hlinked he
  have hexec := exec_of_maps hi hadm
  have hlinked : ∀ l' ∈ before, LinksTable (beginCommand s) page l' := hlinked
  have he : ∀ u, coreOf u = coreOf (beginCommand s) → readNow u (entryVaOf s l page) = some e :=
    fun u hu => (readNow_core hu _).trans he
  refine ⟨fun h0 ht => failsWith_of_errs (c := .parentEntryHugePage) hexec (mapLeaf_errs_table hlevels (createPath_linked hlinked) fun u hu => ?_),
    fun hv ht => stopsBlock_of_faults hexec (mapLeaf_faults_table hlevels hlinked fun u hu => ?_), ?_⟩
  · obtain ⟨w, hw, h⟩ := createNextTable_of_block (he u hu) h0 ht
    exact ⟨w, hw.trans hu, h⟩
  · obtain ⟨w, hw, h⟩ := createNextTable_of_malformed (he u hu) hv ht
    exact ⟨w, hw.trans hu, h⟩
  · rintro rfl hnone
    refine failsAfterAlloc_of_errs (c := .frameAllocationFailed) hexec (mapLeaf_errs_table hlevels (createPath_linked hlinked) fun u hu => ?_)
    obtain ⟨w, hw, h⟩ := createNextTable_of_noFrame (he u hu) ((nextAnswer_core hu).trans hnone)
    exact ⟨w, hw.trans (congrArg (fun x => coreOf (afterAlloc x)) hu :), h⟩

/-! ## MAP.TRANSLATE's descent (R140) -/

/-- The descent after it has read `e` at level `l`. -/
def afterEntry (v : Word) (l : Level) (rest : List Level) (e : Word) (s : State) : Res (PageSize × Word) :=
  if isValid e = false then .error .pageNotMapped s
  else if isTop e = false then
    match blockSize l with
    | none => .error .pageNotMapped s
    | some sz => if aligned (pteAddr e) sz then .done (sz, pteAddr e) s else .error .invalidFrameAddress s
  else
    match rest with
    | [] => .done (.k4, pteAddr e) s
    | l' :: rest' => translateFrom v l' rest' s

theorem translateFrom_eq (v : Word) (l : Level) (rest : List Level) (s : State) :
    translateFrom v l rest s = (memRead (entryVaOf s l v) s).bind (afterEntry v l rest) := by
  cases rest <;> rfl

section
variable {v e : Word} {l : Level} {rest : List Level} {s : State}

theorem afterEntry_invalid (hv : isValid e = false) : afterEntry v l rest e s = .error .pageNotMapped s := if_pos hv

theorem afterEntry_noBlock (ht : isTop e = false) (hl : blockSize l = none) :
    afterEntry v l rest e s = .error .pageNotMapped s := by
  simp [afterEntry, ht, hl]

theorem afterEntry_block {sz : PageSize} (hv : isValid e = true) (ht : isTop e = false) (hl : blockSize l = some sz) :
    afterEntry v l rest e s =
      if aligned (pteAddr e) sz then .done (sz, pteAddr e) s else .error .invalidFrameAddress s := by
  simp [afterEntry, hv, ht, hl]

theorem afterEntry_page (hv : isValid e = true) (ht : isTop e = true) :
    afterEntry v l [] e s = .done (.k4, pteAddr e) s := by
  simp [afterEntry, hv, ht]

theorem afterEntry_table {l' : Level} {rest' : List Level} (hv : isValid e = true) (ht : isTop e = true) :
    afterEntry v l (l' :: rest') e s = translateFrom v l' rest' s := by
  simp [afterEntry, hv, ht]

/-- The descent goes down a linked path to the entry `e` of level `l`. -/
theorem translateFrom_reads {t : State} {before after : List Level} {l0 : Level} (ht : coreOf t = coreOf s)
    (hsplit : l0 :: rest = before ++ l :: after) (hlinked : ∀ l' ∈ before, LinksTable s v l')
    (he : readNow s (entryVaOf s l v) = some e) :
    ∃ w, coreOf w = coreOf s ∧ translateFrom v l0 rest t = afterEntry v l after e w := by
  induction before generalizing t l0 rest with
  | nil =>
    obtain ⟨rfl, rfl⟩ := List.cons.inj hsplit
    obtain ⟨w, hw, hread⟩ := memRead_goesOn ht he
    exact ⟨w, hw, by rw [translateFrom_eq, entryVaOf_core ht, hread, Res.bind]⟩
  | cons l' before ih =>
    obtain ⟨rfl, hrest⟩ := List.cons.inj hsplit
    obtain ⟨hl', hbefore⟩ := List.forall_mem_cons.1 hlinked
    obtain ⟨e', he', hv, htop⟩ := entry_of_linksTable hl'
    obtain ⟨u, hu, hread⟩ := memRead_goesOn ht he'
    cases rest with
    | nil => simp at hrest
    | cons lnext rest =>
      obtain ⟨w, hw, h⟩ := ih hu hrest hbefore
      exact ⟨w, hw, by rw [translateFrom_eq, entryVaOf_core ht, hread, Res.bind, afterEntry_table hv htop, h]⟩

end

/-! ## The commands that translate (R140, R142) -/

section
variable {s : State} (h : ReadyBound s)
include h

theorem exec_mapTranslate : exec .mapTranslate s =
    conclude ((translateFrom s.inp.page .l4 [.l3, .l2, .l1] (beginCommand s)).bind fun r t =>
      .done { szOut := some r.1.tag, val := some r.2 } t) := by
  rw [exec, execMapTranslate, command_of_admitted (refusalOf_of_readyBound h)]
  rfl

theorem exec_mapTranslateAddr : exec .mapTranslateAddr s =
    conclude ((translateFrom s.inp.page .l4 [.l3, .l2, .l1] (beginCommand s)).bind fun r t =>
      .done { szOut := some r.1.tag, val := some (r.2 + offsetIn t.inp.page r.1) } t) := by
  rw [exec, execMapTranslateAddr, command_of_admitted (refusalOf_of_readyBound h)]
  rfl

end

/-- `a mod S` as a number. -/
theorem offsetIn_eq (a : Word) (sz : PageSize) : offsetIn a sz = BitVec.ofNat 64 (a.toNat % sizeBytes sz) := by
  apply BitVec.eq_of_toNat_eq
  have hmask : (offsetMask sz).toNat = 2 ^ sizeBits sz - 1 := by cases sz <;> rfl
  have hlt : a.toNat % sizeBytes sz ≤ a.toNat := Nat.mod_le _ _
  rw [offsetIn, BitVec.toNat_and, hmask, Nat.and_two_pow_sub_one_eq_mod, BitVec.toNat_ofNat]
  exact (Nat.mod_eq_of_lt (Nat.lt_of_le_of_lt hlt a.isLt)).symm

/-- The levels of a translation, split at the leaf of a size. -/
theorem translate_levels (sz : PageSize) :
    ∃ after, [.l4, .l3, .l2, .l1] = nonLeafLevels sz ++ leafLevel sz :: after ∧ (after = [] ↔ sz = .k4) := by
  cases sz
  · exact ⟨[], rfl, by simp⟩
  · exact ⟨[.l1], rfl, by simp⟩
  · exact ⟨[.l2, .l1], rfl, by simp⟩

theorem blockSize_leafLevel {sz : PageSize} (h : sz ≠ .k4) : blockSize (leafLevel sz) = some sz := by
  cases sz with
  | k4 => exact absurd rfl h
  | m2 | g1 => rfl

/-- Down a linked path to a matching leaf, the descent gives its size and its address. -/
theorem translateFrom_matching {s : State} {v e : Word} {sz : PageSize} (hlinked : PathLinked s sz v)
    (he : readNow s (leafVa s sz v) = some e) (hleaf : MatchingLeaf sz e) :
    GoesOn (translateFrom v .l4 [.l3, .l2, .l1] s) s (sz, pteAddr e) := by
  obtain ⟨after, hsplit, hafter⟩ := translate_levels sz
  obtain ⟨w, hw, h⟩ := translateFrom_reads rfl hsplit hlinked he
  obtain ⟨hv, ht, ha⟩ := hleaf
  refine ⟨w, hw, h.trans ?_⟩
  by_cases hsz : sz = .k4
  · rw [hafter.2 hsz, afterEntry_page hv (by simpa [hsz] using ht), hsz]
  · rw [afterEntry_block hv (ht.trans (beq_false_of_ne hsz)) (blockSize_leafLevel hsz), if_pos ha]

/-- Settles O28: the leaf is the first entry on the path that is no table. -/
theorem translateAnswers : Obligations.TranslateAnswers := by
  unfold Obligations.TranslateAnswers
  intro s sz e hready hlinked he hleaf
  have hfinds := translateFrom_matching (s := beginCommand s) hlinked he hleaf
  refine ⟨answers_of_goesOn (exec_mapTranslate hready) (hfinds.bind_goesOn fun u hu => ⟨u, hu, rfl⟩), ?_⟩
  refine answers_of_goesOn (res := { szOut := some sz.tag, val := some _ }) (exec_mapTranslateAddr hready)
    (hfinds.bind_goesOn fun u hu => ⟨u, hu, ?_⟩)
  rw [core_inp hu, offsetIn_eq]
  rfl

/-- A translation of either form returns the error its descent ends with. -/
theorem translate_failsWith {s : State} {i : Instr} {e : Word} {before after : List Level} {l : Level} {c : Status}
    (hi : i = .mapTranslate ∨ i = .mapTranslateAddr) (hready : ReadyBound s)
    (hsplit : [.l4, .l3, .l2, .l1] = before ++ l :: after) (hlinked : ∀ l' ∈ before, LinksTable s s.inp.page l')
    (he : readNow s (entryVaOf s l s.inp.page) = some e)
    (hc : ∀ w, afterEntry s.inp.page l after e w = .error c w) : FailsWith i s c.code := by
  obtain ⟨f, hexec⟩ := exec_translate hi hready
  obtain ⟨w, hw, h⟩ := translateFrom_reads (s := beginCommand s) rfl hsplit hlinked he
  rw [hc w] at h
  exact failsWith_of_errs hexec (ErrsFrom.bind ⟨w, hw, h⟩ f)

/-- Settles O29: the descent ends at the entry, by what the entry is. -/
theorem translateStops : Obligations.TranslateStops := by
  unfold Obligations.TranslateStops
  intro s i e before l after hi hready hsplit hlinked he
  have hfails := fun c => translate_failsWith (c := c) hi hready hsplit hlinked he
  refine ⟨fun hv => hfails .pageNotMapped fun w => afterEntry_invalid hv, fun ht hl => ?_, ?_, ?_⟩
  · refine hfails .pageNotMapped fun w => afterEntry_noBlock ht ?_
    rcases hl with rfl | rfl <;> rfl
  · rintro hv ht rfl ha
    exact hfails .invalidFrameAddress fun w => (afterEntry_block hv ht rfl).trans (if_neg (by simp [ha]))
  · rintro hv ht rfl ha
    exact hfails .invalidFrameAddress fun w => (afterEntry_block hv ht rfl).trans (if_neg (by simp [ha]))

end Sys2Proof.Machine
end

section
/-! PROOF. Round trips of the mapper: map then translate (spec/41_mapper_ops.md R138), map then unmap (R133), and the agreement
of MAP.TRANSLATE with MAP.TRANSLATE_PAGE (R141). -/

namespace Sys2Proof.Machine

/-! ## A store apart from a walk -/

section
variable {s t : State} (hc : t.config = s.config) {pa : Nat} {v : Word} (hm : t.mem = s.mem.write64 pa v)
include hc hm

/-- An engine access reaches the same address after a store apart from what its walk reads. -/
theorem reach_of_apart {kind : Access} {va : Word} (h : ∀ a ∈ (walkNow s kind va).2, a + 8 ≤ pa ∨ pa + 8 ≤ a) :
    reach t kind va = reach s kind va := by
  have hwalk : walkNow t kind va = walkNow s kind va := by
    simp only [walkNow, hc]
    exact (walkFrom_of_apart hc hm _ _ _ _ _ _ _ h).1
  simp only [reach, hwalk, hc]

/-- It reads the same after a store apart from what it reaches, too. -/
theorem readNow_of_apart {va : Word} (h : ∀ a ∈ (walkNow s .read va).2, a + 8 ≤ pa ∨ pa + 8 ≤ a)
    (ha : ∀ a, reach s .read va = some a → a + 8 ≤ pa ∨ pa + 8 ≤ a) : readNow t va = readNow s va := by
  rw [readNow, readNow, reach_of_apart hc hm h]
  cases hr : reach s .read va with
  | none => rfl
  | some a => rw [Option.map_some, Option.map_some, hm, Memory.read64_write64_other _ _ _ _ (ha a hr)]

variable (hr : t.ridxReg = s.ridxReg) {sz : PageSize} {p : Word} (hapart : PathApart s sz p pa)
include hr hapart

/-- A store apart from a lookup leaves its path linked. -/
theorem pathLinked_of_apart (hlinked : PathLinked s sz p) : PathLinked t sz p := by
  obtain ⟨hwalks, hentries⟩ := hapart
  intro l hl
  have hva : entryVaOf t l p = entryVaOf s l p := by rw [entryVaOf, entryVaOf, hc, hr]
  rw [LinksTable, hva, readNow_of_apart hc hm (hwalks l (List.mem_cons_of_mem _ hl) .read) (hentries l hl)]
  exact hlinked l hl

/-- A store apart from a lookup leaves the leaf where it is. -/
theorem reach_leaf_of_apart (kind : Access) : reach t kind (leafVa t sz p) = reach s kind (leafVa s sz p) := by
  have hva : leafVa t sz p = leafVa s sz p := by rw [leafVa, leafVa, entryVaOf, entryVaOf, hc, hr]
  rw [hva]
  exact reach_of_apart hc hm (hapart.1 _ (List.mem_cons_self ..) kind)

end

/-- A descriptor that can be read and written is read where it is written. -/
theorem reach_read_of_write {s : State} {va e : Word} {pa : Nat} (he : readNow s va = some e)
    (hw : reach s .write va = some pa) : reach s .read va = some pa ∧ s.mem.read64 pa = e := by
  obtain ⟨a, ha, hv⟩ := Option.map_eq_some_iff.1 he
  obtain rfl := reach_kind ha hw
  exact ⟨ha, hv⟩

/-! ## Memory that reads the same -/

/-- Writing a descriptor back restores every byte. -/
theorem Memory.read_write64_back {m : Memory} {a : Nat} {w : Word} (h : m.read64 a = w) (v : Word) (x : Nat) :
    ((m.write64 a v).write64 a w).read x = m.read x := by
  by_cases hx : a ≤ x ∧ x < a + 8
  · rw [Memory.read_write64, if_pos hx, ← h, Memory.read64_byte m a (by omega), Nat.add_sub_cancel' hx.1]
  · rw [Memory.read_write64, if_neg hx, Memory.read_write64, if_neg hx]

/-- What an engine access reads depends on the bytes of PMEM only. -/
theorem readNow_of_read {s t : State} (hc : t.config = s.config) (hm : ∀ x, t.mem.read x = s.mem.read x) (va : Word) :
    readNow t va = readNow s va := by
  have hread : t.mem.read64 = s.mem.read64 := funext fun a => Memory.read64_eq_of_read _ _ a fun k _ => hm (a + k)
  have hdesc : descNow t = descNow s := by
    funext a acc
    simp only [descNow, hc, hread]
  simp only [readNow, reach, walkNow, hdesc, hc, hread]

/-! ## The leaf that map_to installs -/

theorem isValid_pteFlags (e : Word) : isValid (pteFlags e) = isValid e := by
  simp [isValid, pteFlags, flagsMask]

theorem isTop_pteFlags (e : Word) : isTop (pteFlags e) = isTop e := by
  simp [isTop, pteFlags, flagsMask]

/-- The leaf an admitted mapping installs. -/
def mappedLeaf (s : State) : Word := (s.inp.frame &&& addrMask) ||| s.inp.flags ||| s.inp.attr

section
variable {s : State} {sz : PageSize} {page : Word} (hadm : AdmittedMap s sz page) (hpa : s.config.paBits ≤ 48)
include hadm hpa

/-- The fields of the leaf are the operands. -/
theorem mappedLeaf_fields : pteAddr (mappedLeaf s) = s.inp.frame ∧ isValid (mappedLeaf s) = isValid s.inp.flags ∧
    isTop (mappedLeaf s) = isTop s.inp.flags := by
  obtain ⟨-, -, hframe, hflags, hattr, hwidth, -⟩ := hadm
  have hlt : s.inp.frame.toNat < 2 ^ 48 := Nat.lt_of_lt_of_le hwidth (Nat.pow_le_pow_right (by decide) hpa)
  have hmask := and_addrMask_of_aligned (aligned_k4_of_aligned hframe) hlt
  obtain ⟨haddr, hfl, -⟩ := fields_of_assembled hmask hflags hattr
  rw [mappedLeaf, hmask, ← isValid_pteFlags, ← isTop_pteFlags, hfl]
  exact ⟨haddr, rfl, rfl⟩

theorem mappedLeaf_matching (htop : isTop s.inp.flags = (sz == .k4)) (hv : isValid s.inp.flags = true) :
    MatchingLeaf sz (mappedLeaf s) := by
  obtain ⟨haddr, hvalid, hkind⟩ := mappedLeaf_fields hadm hpa
  exact ⟨hvalid.trans hv, hkind.trans htop, haddr ▸ hadm.2.2.1⟩

end

section
variable {s : State} {sz : PageSize} {pa : Nat} (hadm : AdmittedMap s sz s.inp.page)
  (hlinked : PathLinked s sz s.inp.page) (he : readNow s (leafVa s sz s.inp.page) = some 0)
  (htop : isTop s.inp.flags = (sz == .k4)) (hreach : reach s .write (leafVa s sz s.inp.page) = some pa)
  (hapart : PathApart s sz s.inp.page pa)
include hadm hlinked he htop hreach hapart

/-- After map_to a lookup of the same page is admitted and finds the leaf that was installed, where it was written. -/
theorem mapTo_leaf_found : ∃ t, exec (.mapMapTo sz) s = .next t ∧ t.out = okPorts { tokenOut := some s.nextToken } ∧
    t.mem = s.mem.write64 pa (mappedLeaf s) ∧ TokenCreated s t s.inp.page sz ∧ RegistersKept s t ∧
    AdmittedLookup t sz ∧ PathLinked t sz t.inp.page ∧ readNow t (leafVa t sz t.inp.page) = some (mappedLeaf s) ∧
    reach t .write (leafVa t sz t.inp.page) = some pa := by
  obtain ⟨t, hexec, hbusy, hmem, hout, -, htoken, hkept, -⟩ :=
    maps_installs (.inl ⟨rfl, rfl⟩) hadm hlinked he htop hreach
  obtain ⟨hc, hinp, hbound, hridx, hfaulted, -⟩ := id hkept
  obtain ⟨⟨⟨hf, -⟩, hb⟩, hpage, -⟩ := hadm
  obtain ⟨hread, -⟩ := reach_read_of_write he hreach
  refine ⟨t, hexec, hout, hmem, htoken, hkept, ⟨⟨⟨hfaulted.trans hf, hbusy⟩, hbound.trans hb⟩, hinp ▸ hpage⟩, ?_⟩
  rw [hinp, readNow, reach_leaf_of_apart hc hmem hridx hapart, reach_leaf_of_apart hc hmem hridx hapart, hread, hmem,
    Option.map_some, Memory.read64_write64_same]
  exact ⟨pathLinked_of_apart hc hmem hridx hapart hlinked, rfl, hreach⟩

end

/-- Settles O35: the leaf that map_to installs is the one translate_page then reads. -/
theorem mapThenTranslate : Obligations.MapThenTranslate := by
  unfold Obligations.MapThenTranslate
  intro s sz pa hadm hpa hlinked he htop hreach hapart
  obtain ⟨t, hexec, hout, -, -, -, hadm', hlinked', hleaf, -⟩ := mapTo_leaf_found hadm hlinked he htop hreach hapart
  obtain ⟨haddr, hvalid, -⟩ := mappedLeaf_fields hadm hpa
  refine ⟨t, hexec, by rw [hout]; rfl, fun hv => ?_, fun hv => ?_⟩
  · obtain ⟨u, hu, huout, -⟩ :=
      translatePage_answers hadm' hlinked' hleaf (translateLeaf_matching (mappedLeaf_matching hadm hpa htop hv))
    exact ⟨u, hu, huout.trans (by rw [haddr]; rfl)⟩
  · exact translatePage_fails hadm' hlinked' hleaf (translateLeaf_invalid (hvalid.trans hv))

/-- Settles O36: unmap writes back the 0 that map_to found, so that every byte reads as before, and so does get_entry. -/
theorem unmapRoundTrip : Obligations.UnmapRoundTrip := by
  unfold Obligations.UnmapRoundTrip
  intro s sz pa hadm hpa hfree hlinked he htop hv hreach hapart
  obtain ⟨t, hexec, -, hmem, ⟨htokens, hnext⟩, hkept, hadm', hlinked', hleaf, hreach'⟩ :=
    mapTo_leaf_found hadm hlinked he htop hreach hapart
  obtain ⟨hc, hinp, -, hridx, -⟩ := hkept
  have hunmap : AdmittedUnmap t sz := by
    refine ⟨hadm', ?_, ?_⟩
    · rw [hinp, hridx]
      exact hadm.2.2.2.2.2.2.1
    · simpa [outstanding, htokens, hnext] using hfree
  obtain ⟨u, hu, hbusy, humem, huout, -, -, hukept, -⟩ := mutates_of_goesOn (exec_of_admittedUnmap hunmap)
    (unmapLeaf_clears (s := beginCommand t) hlinked' hleaf
      (unmapFrame_matching (mappedLeaf_matching hadm hpa htop hv)) hreach')
  obtain ⟨huc, huinp, hubound, huridx, hufaulted, -⟩ := hukept
  have hbytes : ∀ x, u.mem.read x = s.mem.read x := by
    intro x
    rw [humem, hmem]
    exact Memory.read_write64_back (reach_read_of_write he hreach).2 _ x
  have hva : ∀ l p, entryVaOf u l p = entryVaOf s l p := by
    intro l p
    rw [entryVaOf, entryVaOf, huc, hc, huridx, hridx]
  have hreads : ∀ va, readNow u va = readNow s va := readNow_of_read (huc.trans hc) hbytes
  have hlookup : AdmittedLookup u sz := by
    obtain ⟨⟨⟨hf, -⟩, hb⟩, hpage⟩ := hadm'
    exact ⟨⟨⟨hufaulted.trans hf, hbusy⟩, hubound.trans hb⟩, huinp ▸ hpage⟩
  have hulinked : PathLinked u sz u.inp.page := by
    intro l hl
    rw [LinksTable, huinp, hinp, hva, hreads]
    exact hlinked l hl
  have huleaf : readNow u (leafVa u sz u.inp.page) = some 0 := by
    rw [leafVa, huinp, hinp, hva, hreads]
    exact he
  refine ⟨t, u, hexec, hu, huout.trans ?_, failsWith_of_errs (exec_of_admittedLookup (.inl rfl) hlookup)
    (lookupLeaf_unused (s := beginCommand u) hulinked huleaf), hbytes⟩
  rw [(mappedLeaf_fields hadm hpa).1, beginCommand_nextToken, hnext]
  rfl

/-! ## Levels and indices (R78) -/

/-- The bit an index of a virtual address begins at. -/
def indexShift : Level → Nat
  | .l4 => 39
  | .l3 => 30
  | .l2 => 21
  | .l1 => 12

theorem idx_eq (l : Level) (va : Word) : idx l va = va.extractLsb' (indexShift l) 9 := by
  cases l <;> rfl

/-- The levels above a level, from the root down. -/
def levelsAbove : Level → List Level
  | .l4 => []
  | .l3 => [.l4]
  | .l2 => [.l4, .l3]
  | .l1 => [.l4, .l3, .l2]

theorem nonLeafLevels_eq (sz : PageSize) : nonLeafLevels sz = levelsAbove (leafLevel sz) := by
  cases sz <;> rfl

/-- The levels of a path begin with the levels above each of them. -/
theorem nonLeafLevels_split {sz : PageSize} {l : Level} (hl : l ∈ nonLeafLevels sz) :
    ∃ after, nonLeafLevels sz = levelsAbove l ++ l :: after := by
  refine ⟨(nonLeafLevels sz).drop ((levelsAbove l).length + 1), ?_⟩
  revert hl
  cases sz <;> cases l <;> decide

theorem levelsAbove_subset_pathLevels {sz : PageSize} {l : Level} (hl : l ∈ pathLevels sz) :
    ∀ l' ∈ levelsAbove l, l' ∈ pathLevels sz := by
  revert hl
  cases sz <;> cases l <;> decide

/-- TableVA is made of the indices above its level. -/
theorem tableVa_congr {c : VaCanon} {r : BitVec 9} {l : Level} {p q : Word}
    (h : ∀ l' ∈ levelsAbove l, idx l' p = idx l' q) : tableVa c r l p = tableVa c r l q := by
  cases l <;> simp_all [levelsAbove, tableVa]

/-! ## The pages of an address (R141) -/

/-- The state with another page on PAGE. -/
def withPage (s : State) (page : Word) : State := { s with inp := { s.inp with page := page } }

section
variable {sz : PageSize} {l : Level} (hl : l ∈ pathLevels sz)
include hl

/-- Aligning an address down to a page keeps its indices down to the page's level. -/
theorem idx_alignDown (v : Word) : idx l (alignDown v sz) = idx l v := by
  have hmask : (~~~offsetMask sz).extractLsb' (indexShift l) 9 = BitVec.allOnes 9 := by
    revert hl
    cases sz <;> cases l <;> decide
  rw [idx_eq, idx_eq, alignDown, BitVec.extractLsb'_and, hmask, BitVec.and_allOnes]

/-- The page of an address has the address's entries, down to its leaf. -/
theorem entryVaOf_withPage (s : State) (v : Word) :
    entryVaOf (withPage s (alignDown v sz)) l (alignDown v sz) = entryVaOf s l v := by
  rw [entryVaOf, entryVa, idx_alignDown hl,
    tableVa_congr fun l' hl' => idx_alignDown (levelsAbove_subset_pathLevels hl l' hl') v]
  rfl

theorem readNow_withPage (s : State) (v : Word) :
    readNow (withPage s (alignDown v sz)) (entryVaOf (withPage s (alignDown v sz)) l (alignDown v sz)) =
      readNow s (entryVaOf s l v) := by
  rw [entryVaOf_withPage hl]
  exact readNow_of_mem rfl rfl _

end

/-- The levels above the leaf are levels of the path, and so is the leaf's. -/
theorem nonLeaf_mem_pathLevels {sz : PageSize} {l : Level} (hl : l ∈ nonLeafLevels sz) : l ∈ pathLevels sz :=
  List.mem_append_left _ hl

theorem leaf_mem_pathLevels (sz : PageSize) : leafLevel sz ∈ pathLevels sz :=
  List.mem_append_right _ (List.mem_singleton_self _)

theorem linksTable_withPage {s : State} {v : Word} {sz : PageSize} {l : Level} (hl : l ∈ pathLevels sz)
    (h : LinksTable s v l) : LinksTable (withPage s (alignDown v sz)) (alignDown v sz) l := by
  rw [LinksTable, readNow_withPage hl]
  exact h

/-! ## Where MAP.TRANSLATE ends (R140) -/

/-- The entry `e` of level `l` is where V's descent ends: the levels before it are linked, and if it is a table or page it is
of the last level. -/
structure DescentEnds (s : State) (v : Word) (before : List Level) (l : Level) (after : List Level) (e : Word) : Prop where
  linked : ∀ l' ∈ before, LinksTable s v l'
  entry : readNow s (entryVaOf s l v) = some e
  last : isValid e = true → isTop e = true → after = []

/-- The descent reads the entry it begins at, or cannot. -/
theorem translateFrom_first {s t : State} (v : Word) (l : Level) (rest : List Level) (ht : coreOf t = coreOf s) :
    (∃ e w, readNow s (entryVaOf s l v) = some e ∧ coreOf w = coreOf s ∧
      translateFrom v l rest t = afterEntry v l rest e w) ∨ ∃ q, FaultsFrom (translateFrom v l rest t) s q := by
  cases hr : reach s .read (entryVaOf s l v) with
  | none => exact .inr ⟨_, translateFrom_faults ht (before := []) rfl nofun hr⟩
  | some a =>
    have he : readNow s (entryVaOf s l v) = some (s.mem.read64 a) := by rw [readNow, hr, Option.map_some]
    obtain ⟨w, hw, h⟩ := translateFrom_reads ht (before := []) rfl nofun he
    exact .inl ⟨_, w, he, hw, h⟩

/-- The descent ends at an entry, or meets one that it cannot read. -/
theorem translateFrom_ends {s t : State} {v : Word} {l0 : Level} {rest : List Level} (ht : coreOf t = coreOf s) :
    (∃ before l after e w, l0 :: rest = before ++ l :: after ∧ DescentEnds s v before l after e ∧
      translateFrom v l0 rest t = afterEntry v l after e w) ∨ ∃ q, FaultsFrom (translateFrom v l0 rest t) s q := by
  induction rest generalizing t l0 with
  | nil =>
    refine (translateFrom_first v l0 [] ht).imp_left ?_
    rintro ⟨e, w, he, -, h⟩
    exact ⟨[], l0, [], e, w, rfl, ⟨nofun, he, fun _ _ => rfl⟩, h⟩
  | cons lnext rest ih =>
    obtain ⟨e, w, he, hw, h⟩ | hfault := translateFrom_first v l0 (lnext :: rest) ht
    · by_cases htable : isValid e = true ∧ isTop e = true
      · obtain ⟨hv, htop⟩ := htable
        rw [h, afterEntry_table hv htop]
        have hl0 : LinksTable s v l0 := by simp [LinksTable, he, hv, htop]
        refine (ih hw).imp_left ?_
        rintro ⟨before, l, after, e', w', hsplit, ⟨hlinked, hentry, hlast⟩, hend⟩
        exact ⟨l0 :: before, l, after, e', w', congrArg (l0 :: ·) hsplit,
          ⟨List.forall_mem_cons.2 ⟨hl0, hlinked⟩, hentry, hlast⟩, hend⟩
      · exact .inl ⟨[], l0, lnext :: rest, e, w, rfl, ⟨nofun, he, fun hv htop => absurd ⟨hv, htop⟩ htable⟩, h⟩
    · exact .inr hfault

/-- The levels of a translation before a level are those above it. -/
theorem translate_before {before after : List Level} {l : Level} (h : [.l4, .l3, .l2, .l1] = before ++ l :: after) :
    before = levelsAbove l ∧ (after = [] → l = .l1) := by
  rcases before with _ | ⟨a, _ | ⟨b, _ | ⟨c, _ | ⟨d, before⟩⟩⟩⟩ <;>
    simp only [List.nil_append, List.cons_append, List.cons.injEq] at h
  · obtain ⟨rfl, rfl⟩ := h
    exact ⟨rfl, nofun⟩
  · obtain ⟨rfl, rfl, rfl⟩ := h
    exact ⟨rfl, nofun⟩
  · obtain ⟨rfl, rfl, rfl, rfl⟩ := h
    exact ⟨rfl, nofun⟩
  · obtain ⟨rfl, rfl, rfl, rfl, -⟩ := h
    exact ⟨rfl, fun _ => rfl⟩
  · simp at h

/-- Only level 3 has blocks of 1GiB and level 2 blocks of 2MiB. -/
theorem leafLevel_of_blockSize {l : Level} {sz : PageSize} (h : blockSize l = some sz) : leafLevel sz = l ∧ sz ≠ .k4 := by
  cases l <;> cases sz <;> simp_all [blockSize, leafLevel]

section
variable {s u w : State} {v e : Word} {before after : List Level} {l : Level}
  (hsplit : [.l4, .l3, .l2, .l1] = before ++ l :: after) (hends : DescentEnds s v before l after e)
include hsplit hends

/-- A descent that ends with a size and an address has ended at a matching leaf of the size. -/
theorem DescentEnds.leaf {sz : PageSize} {f : Word} (h : afterEntry v l after e w = .done (sz, f) u) :
    PathLinked s sz v ∧ readNow s (leafVa s sz v) = some e ∧ MatchingLeaf sz e ∧ f = pteAddr e := by
  obtain ⟨rfl, hlast⟩ := translate_before hsplit
  obtain ⟨hlinked, hentry, htable⟩ := hends
  suffices hl : leafLevel sz = l ∧ MatchingLeaf sz e ∧ f = pteAddr e by
    obtain ⟨rfl, hleaf, hf⟩ := hl
    exact ⟨by rwa [PathLinked, nonLeafLevels_eq], hentry, hleaf, hf⟩
  cases hv : isValid e with
  | false =>
    rw [afterEntry_invalid hv] at h
    cases h
  | true =>
    cases ht : isTop e with
    | true =>
      obtain rfl := htable hv ht
      rw [afterEntry_page hv ht] at h
      obtain ⟨⟨rfl, rfl⟩, -⟩ : (PageSize.k4 = sz ∧ pteAddr e = f) ∧ w = u := by simpa using h
      exact ⟨(hlast rfl).symm, ⟨hv, ht, aligned_and_addrMask e⟩, rfl⟩
    | false =>
      cases hb : blockSize l with
      | none =>
        rw [afterEntry_noBlock ht hb] at h
        cases h
      | some bs =>
        rw [afterEntry_block hv ht hb] at h
        split at h
        next ha =>
          obtain ⟨⟨rfl, rfl⟩, -⟩ : (bs = sz ∧ pteAddr e = f) ∧ w = u := by simpa using h
          obtain ⟨hleaf, hk4⟩ := leafLevel_of_blockSize hb
          exact ⟨hleaf, ⟨hv, ht.trans (beq_false_of_ne hk4).symm, ha⟩, rfl⟩
        next => cases h

/-- A descent that ends with PageNotMapped has ended at an entry that is not VALID, or at a block where there is none. -/
theorem DescentEnds.notMapped (h : afterEntry v l after e w = .error .pageNotMapped u) :
    isValid e = false ∨ isTop e = false ∧ blockSize l = none := by
  obtain ⟨-, -, htable⟩ := hends
  cases hv : isValid e with
  | false => exact .inl rfl
  | true =>
    cases ht : isTop e with
    | true =>
      obtain rfl := htable hv ht
      rw [afterEntry_page hv ht] at h
      cases h
    | false =>
      cases hb : blockSize l with
      | none => exact .inr ⟨rfl, rfl⟩
      | some bs =>
        rw [afterEntry_block hv ht hb] at h
        split at h <;> cases h

end

/-- What MAP.TRANSLATE puts on the ports tells where its descent has ended. -/
theorem mapTranslate_cases {s t : State} (h : exec .mapTranslate s = .next t) :
    t.out = {} ∨ ReadyBound s ∧ ∃ before l after e w, [.l4, .l3, .l2, .l1] = before ++ l :: after ∧
      DescentEnds s s.inp.page before l after e ∧
      ((∃ r u, afterEntry s.inp.page l after e w = .done r u ∧
          t.out = okPorts { szOut := some r.1.tag, val := some r.2 }) ∨
        ∃ c u, afterEntry s.inp.page l after e w = .error c u ∧ t.out = errPorts c) := by
  cases hr : refusalOf { needsBound := true } s with
  | some r =>
    rw [exec, execMapTranslate, command_of_refused hr] at h
    obtain rfl := Host.Outcome.next.inj h
    exact .inl rfl
  | none =>
    obtain ⟨hf, hb, -, hbound, -⟩ := (refusalOf_eq_none_iff _ _).1 hr
    have hready : ReadyBound s := ⟨⟨hf, hb⟩, by simpa using hbound⟩
    rw [exec_mapTranslate hready] at h
    obtain ⟨before, l, after, e, w, hsplit, hends, hend⟩ | ⟨q, u, -, hend⟩ :=
      translateFrom_ends (s := beginCommand s) (v := s.inp.page) (l0 := .l4) (rest := [.l3, .l2, .l1]) rfl
    · rw [hend] at h
      have hends : DescentEnds s s.inp.page before l after e := ⟨hends.linked, hends.entry, hends.last⟩
      cases hx : afterEntry s.inp.page l after e w with
      | done r u =>
        rw [hx] at h
        obtain rfl := Host.Outcome.next.inj h
        exact .inr ⟨hready, before, l, after, e, w, hsplit, hends, .inl ⟨r, u, hx, rfl⟩⟩
      | error c u =>
        rw [hx] at h
        obtain rfl := Host.Outcome.next.inj h
        exact .inr ⟨hready, before, l, after, e, w, hsplit, hends, .inr ⟨c, u, hx, rfl⟩⟩
      | fault q u =>
        rw [hx] at h
        obtain rfl := Host.Outcome.next.inj h
        exact .inl rfl
    · rw [hend] at h
      obtain rfl := Host.Outcome.next.inj h
      exact .inl rfl

/-- Where a level stands to the leaf's: above it, there, or below it. -/
theorem level_trichotomy (sz : PageSize) (l : Level) :
    l ∈ nonLeafLevels sz ∨ l = leafLevel sz ∨ leafLevel sz ∈ levelsAbove l ∧ sz ≠ .k4 ∧
      ∀ l' ∈ nonLeafLevels sz, l' ∈ levelsAbove l := by
  cases sz <;> cases l <;> decide

/-- Where MAP.TRANSLATE finds no page, MAP.TRANSLATE_PAGE of any size finds none either: it stops at the same entry, or reads a
table where the leaf of its size would be. -/
theorem translatePage_notMapped {s : State} {before after : List Level} {l : Level} {e : Word} (hready : ReadyBound s)
    (hsplit : [.l4, .l3, .l2, .l1] = before ++ l :: after) (hends : DescentEnds s s.inp.page before l after e)
    (hstop : isValid e = false ∨ isTop e = false ∧ blockSize l = none) (sz : PageSize) :
    FailsWith (.mapTranslatePage sz) (withPage s (alignDown s.inp.page sz)) 0x01 := by
  obtain ⟨rfl, -⟩ := translate_before hsplit
  obtain ⟨hlinked, hentry, -⟩ := hends
  have hadm : AdmittedLookup (withPage s (alignDown s.inp.page sz)) sz := ⟨hready, alignDown_aligned _ _⟩
  obtain hl | rfl | ⟨hleaf, hk4, habove⟩ := level_trichotomy sz l
  · obtain ⟨below, hlevels⟩ := nonLeafLevels_split hl
    have hc : nonLeaf .pageNotMapped e = some .pageNotMapped := by
      unfold nonLeaf
      rcases hstop with hv | ⟨ht, -⟩ <;> simp [*]
    refine translatePage_stops hlevels (fun l' hl' => linksTable_withPage ?_ (hlinked l' hl')) ?_ hadm hc
    · exact levelsAbove_subset_pathLevels (nonLeaf_mem_pathLevels hl) l' hl'
    · exact (readNow_withPage (nonLeaf_mem_pathLevels hl) s s.inp.page).trans hentry
  · rw [← nonLeafLevels_eq] at hlinked
    have hc : translateLeaf sz e = .error .pageNotMapped := by
      obtain hv | ⟨ht, hb⟩ := hstop
      · exact translateLeaf_invalid hv
      · refine translateLeaf_wrongKind ?_
        cases sz with
        | k4 => simp [ht]
        | m2 | g1 => cases hb
    exact translatePage_fails hadm (fun l' hl' => linksTable_withPage (nonLeaf_mem_pathLevels hl') (hlinked l' hl'))
      ((readNow_withPage (leaf_mem_pathLevels sz) s s.inp.page).trans hentry) hc
  · obtain ⟨e', he', -, ht⟩ := entry_of_linksTable (hlinked _ hleaf)
    exact translatePage_fails hadm
      (fun l' hl' => linksTable_withPage (nonLeaf_mem_pathLevels hl') (hlinked l' (habove l' hl')))
      ((readNow_withPage (leaf_mem_pathLevels sz) s s.inp.page).trans he')
      (translateLeaf_wrongKind (by simp [ht, hk4]))

theorem PageSize.tag_injective : Function.Injective PageSize.tag := by
  intro a b
  cases a <;> cases b <;> decide

/-- Settles O37: both commands read the entries of the address's path, which are those of its page down to the page's leaf. -/
theorem translateAgreesWithPages : Obligations.TranslateAgreesWithPages := by
  unfold Obligations.TranslateAgreesWithPages
  intro s t h
  obtain hout | ⟨hready, before, l, after, e, w, hsplit, hends, ⟨r, u, hx, hout⟩ | ⟨c, u, hx, hout⟩⟩ := mapTranslate_cases h
  · rw [hout]
    exact ⟨nofun, nofun⟩
  · rw [hout]
    refine ⟨fun sz f hports => ?_, nofun⟩
    obtain ⟨-, rfl, htag⟩ : Status.okay.code = 0x00 ∧ r.2 = f ∧ r.1.tag = sz.tag := by simpa [okPorts] using hports
    obtain rfl := PageSize.tag_injective htag
    obtain ⟨hlinked, hleaf, hmatching, hf⟩ := hends.leaf hsplit hx
    obtain ⟨v, hv, hvout, -⟩ := translatePage_answers (s := withPage s (alignDown s.inp.page r.1))
      ⟨hready, alignDown_aligned _ _⟩
      (fun l' hl' => linksTable_withPage (nonLeaf_mem_pathLevels hl') (hlinked l' hl'))
      ((readNow_withPage (leaf_mem_pathLevels r.1) s s.inp.page).trans hleaf) (translateLeaf_matching hmatching)
    exact ⟨v, hv, hvout.trans (by rw [hf]; rfl)⟩
  · rw [hout]
    refine ⟨fun sz f hports => absurd hports (by simp [errPorts]), fun hports sz => ?_⟩
    obtain rfl : c = .pageNotMapped := by
      have hcode : c.code = 0x01 := by simpa [errPorts] using hports
      revert hcode
      cases c <;> decide
    obtain ⟨v, hv, hvout, -⟩ := translatePage_notMapped hready hsplit hends (hends.notMapped hsplit hx) sz
    exact ⟨v, hv, .inl hvout⟩

end Sys2Proof.Machine
end

section
/-! PROOF. How much a command may do (spec/70_reset_and_hazards.md R228, spec/41_mapper_ops.md R121): a budget of counted events,
PhysReads of walks, token records and Alloc() calls for each shared operation, added up command by command. -/

namespace Sys2Proof.Machine

/-! ## Budgets -/

/-- What a part of a command may add: events that R228 counts, PhysReads, token records and Alloc() calls. -/
structure Budget where
  events : Nat
  reads : Nat
  tokens : Nat
  allocs : Nat

/-- Two budgets spent one after the other. -/
def Budget.plus (b b' : Budget) : Budget :=
  ⟨b.events + b'.events, b.reads + b'.reads, b.tokens + b'.tokens, b.allocs + b'.allocs⟩

/-- The budget `b` lies within `b'`. -/
def Budget.Le (b b' : Budget) : Prop :=
  b.events ≤ b'.events ∧ b.reads ≤ b'.reads ∧ b.tokens ≤ b'.tokens ∧ b.allocs ≤ b'.allocs

section
variable (e e' r r' t t' a a' : Nat)

@[simp] theorem Budget.plus_mk : Budget.plus ⟨e, r, t, a⟩ ⟨e', r', t', a'⟩ = ⟨e + e', r + r', t + t', a + a'⟩ := rfl

@[simp] theorem Budget.le_mk : Budget.Le ⟨e, r, t, a⟩ ⟨e', r', t', a'⟩ ↔ e ≤ e' ∧ r ≤ r' ∧ t ≤ t' ∧ a ≤ a' := Iff.rfl

end

/-- From `s` to `u` no more has been added than the budget. -/
structure Within (b : Budget) (s u : State) : Prop where
  events : eventCount u ≤ eventCount s + b.events
  reads : physReadCount u ≤ physReadCount s + b.reads
  tokens : u.ev.countP isTokenRecord ≤ s.ev.countP isTokenRecord + b.tokens
  allocs : u.allocCalls ≤ s.allocCalls + b.allocs

/-- A part of a command stays within the budget, however it ends. -/
def ResWithin {α : Type} (b : Budget) (s : State) (r : Res α) : Prop := Within b s (resState r)

theorem Within.refl (b : Budget) (s : State) : Within b s s :=
  ⟨Nat.le_add_right .., Nat.le_add_right .., Nat.le_add_right .., Nat.le_add_right ..⟩

theorem Within.trans {b b' : Budget} {s u t : State} (h : Within b s u) (h' : Within b' u t) : Within (b.plus b') s t := by
  obtain ⟨he, hr, ht, ha⟩ := h
  obtain ⟨he', hr', ht', ha'⟩ := h'
  constructor <;> simp only [Budget.plus] <;> omega

theorem Within.mono {b b' : Budget} {s u : State} (h : Within b s u) (hb : b.Le b') : Within b' s u := by
  obtain ⟨he, hr, ht, ha⟩ := h
  obtain ⟨hbe, hbr, hbt, hba⟩ := hb
  constructor <;> omega

theorem ResWithin.mono {α : Type} {b b' : Budget} {s : State} {r : Res α} (h : ResWithin b s r) (hb : b.Le b') :
    ResWithin b' s r :=
  Within.mono h hb

/-- Two parts of a command stay within their budgets together. -/
theorem ResWithin.bind {α β : Type} {b b' : Budget} {s : State} {r : Res α} {f : α → State → Res β} (h : ResWithin b s r)
    (hf : ∀ a u, ResWithin b' u (f a u)) : ResWithin (b.plus b') s (r.bind f) := by
  cases r with
  | done a u => exact Within.trans h (hf a u)
  | error c u => exact Within.trans h (.refl b' u)
  | fault q u => exact Within.trans h (.refl b' u)

/-! ## The shared operations -/

/-- What one event adds. -/
def costOf : Act → Budget
  | .physRead _ _ => ⟨0, 1, 0, 0⟩
  | .physWrite _ _ => ⟨0, 0, 0, 0⟩
  | .memRead _ _ _ | .memWrite _ _ _ | .alloc _ | .barrier | .tlbiAllIS | .isb => ⟨1, 0, 0, 0⟩
  | .tokenCreate _ | .tokenDischarge _ _ => ⟨0, 0, 1, 0⟩

theorem record_within (a : Act) (s : State) : Within (costOf a) s (record a s) := by
  constructor
  · cases a <;> simp [costOf, countedEvent]
  · cases a <;> simp [costOf, physReadCount, isPhysRead, List.countP_cons]
  · cases a <;> simp [costOf, isTokenRecord, List.countP_cons]
  · simp

theorem physRead_within (a : Nat) (s : State) : Within ⟨0, 1, 0, 0⟩ s (physRead a s).2 := by
  unfold physRead
  split
  · exact record_within (.physRead a _) s
  · exact .refl _ s

/-- A walk reads one descriptor at each level it comes to. -/
theorem walkFrom_within (perm : List Word → Bool) (va : Word) (rest : List Level) (l : Level) (b : Word)
    (chain : List Word) (s : State) :
    Within ⟨0, rest.length + 1, 0, 0⟩ s (walkFrom physRead perm va l rest b chain s).2 := by
  have hread := physRead_within (b.toNat + 8 * (idx l va).toNat) s
  obtain ⟨d, u, hd⟩ : ∃ d u, physRead (b.toNat + 8 * (idx l va).toNat) s = (d, u) := ⟨_, _, rfl⟩
  rw [hd] at hread
  have hfirst : Within ⟨0, rest.length + 1, 0, 0⟩ s u := hread.mono (by simp)
  cases d with
  | none =>
    rw [walkFrom_of_absent hd]
    exact hfirst
  | some d =>
    rw [walkFrom_of_read hd]
    cases rest with
    | nil => exact (afterDesc_sameResult (R := fun u (_ : State) => Within _ s u) (desc' := physRead)
        (t := u) (fun _ _ he => by cases he) hfirst).2
    | cons l' rest =>
      refine (afterDesc_sameResult (R := fun u (_ : State) => Within _ s u) (desc' := physRead) (t := u)
        (fun l'' rest'' he => ⟨rfl, ?_⟩) hfirst).2
      obtain ⟨rfl, rfl⟩ := List.cons.inj he
      refine (hread.trans (walkFrom_within perm va rest l' (pteAddr d) (chain ++ [d]) u)).mono ?_
      simp only [Budget.plus_mk, Budget.le_mk, List.length_cons]
      omega

theorem hwWalk_within (kind : Access) (va : Word) (s : State) : Within ⟨0, 4, 0, 0⟩ s (hwWalk kind va s).2 :=
  walkFrom_within _ va [.l3, .l2, .l1] .l4 _ _ s

theorem memRead_within (va : Word) (s : State) : ResWithin ⟨1, 4, 0, 0⟩ s (memRead va s) := by
  have hw := hwWalk_within .read va s
  unfold memRead
  generalize hwWalk .read va s = r at hw ⊢
  obtain ⟨r, u⟩ := r
  have hu : Within ⟨1, 4, 0, 0⟩ s u := hw.mono (by simp)
  cases r with
  | okay pa sz =>
    simp only
    split
    · exact (hw.trans (record_within (.memRead va pa.toNat _) u)).mono (by simp [costOf])
    · exact hu
  | fault k l => exact hu
  | unspecified l => exact hu

theorem memWrite_within (va v : Word) (s : State) : ResWithin ⟨1, 4, 0, 0⟩ s (memWrite va v s) := by
  have hw := hwWalk_within .write va s
  unfold memWrite
  generalize hwWalk .write va s = r at hw ⊢
  obtain ⟨r, u⟩ := r
  have hu : Within ⟨1, 4, 0, 0⟩ s u := hw.mono (by simp)
  cases r with
  | okay pa sz =>
    simp only
    split
    · have hs : Within ⟨0, 4, 0, 0⟩ s (store64 pa.toNat v u) := ⟨hw.events, hw.reads, hw.tokens, hw.allocs⟩
      exact (hs.trans (record_within (.memWrite va pa.toNat v) _)).mono (by simp [costOf])
    · exact hu
  | fault k l => exact hu
  | unspecified l => exact hu

theorem alloc_within (s : State) : Within ⟨1, 0, 0, 1⟩ s (alloc s).2 := by
  obtain ⟨he, hr, ht, -⟩ := record_within (.alloc (nextAnswer s))
    { s with answers := s.answers.tail, allocCalls := s.allocCalls + 1 }
  exact ⟨he, hr, ht, by simp [alloc]⟩

theorem barrier_within (s : State) : Within ⟨1, 0, 0, 0⟩ s (barrier s) := by
  obtain ⟨he, hr, ht, ha⟩ := record_within .barrier { s with writes := publish s.writes }
  exact ⟨he, hr, ht, ha⟩

theorem tlbiAllIS_within (s : State) : Within ⟨1, 0, 0, 0⟩ s (tlbiAllIS s) := by
  obtain ⟨he, hr, ht, ha⟩ := record_within .tlbiAllIS { s with writes := publish s.writes, tlb := [], walks := [] }
  exact ⟨he, hr, ht, ha⟩

theorem newToken_within (page : Word) (sz : PageSize) (s : State) : Within ⟨0, 0, 1, 0⟩ s (newToken page sz s).2 := by
  obtain ⟨he, hr, ht, ha⟩ := record_within (.tokenCreate s.nextToken)
    { s with
      nextToken := s.nextToken + 1
      tokens := { id := s.nextToken, page := alignDown page sz, size := sz } :: s.tokens }
  exact ⟨he, hr, ht, ha⟩

theorem discharge_within (k : BitVec 32) (how : Discharge) (s : State) : Within ⟨0, 0, 1, 0⟩ s (discharge k how s) := by
  obtain ⟨he, hr, ht, ha⟩ := record_within (.tokenDischarge k how) { s with tokens := s.tokens.filter (fun x => x.id != k) }
  exact ⟨he, hr, ht, ha⟩

theorem ofSetter_within (b : Budget) (e : Except FaultReason Word) (s : State) : ResWithin b s (ofSetter e s) := by
  cases e <;> exact .refl b s

theorem zeroFrom_within (t : Word) (n i : Nat) (s : State) : ResWithin ⟨n, 4 * n, 0, 0⟩ s (zeroFrom t i n s) := by
  induction n generalizing i s with
  | zero => exact .refl _ s
  | succ n ih =>
    refine ((memWrite_within _ _ s).bind fun _ u => ih (i + 1) u).mono ?_
    simp only [Budget.plus_mk, Budget.le_mk]
    omega

/-- A new table takes 516 events: its entry read, the frame asked for, the link, the barrier and 512 zeros. -/
theorem createNextTable_within (eva nva : Word) (s : State) :
    ResWithin ⟨516, 4 * 514, 0, 1⟩ s (createNextTable eva nva s) := by
  refine ((memRead_within eva s).bind (b' := ⟨515, 4 * 513, 0, 1⟩) fun e u => ?_).mono (by simp)
  split
  · have ha := alloc_within u
    generalize alloc u = r at ha ⊢
    obtain ⟨r, w⟩ := r
    cases r with
    | none => exact ha.mono (by simp)
    | some f =>
      have hrest : ResWithin ⟨514, 4 * 513, 0, 0⟩ w ((ofSetter (tableLink w.config f) w).bind fun link s3 =>
          (memWrite eva link s3).bind fun _ s4 => zeroFrom nva 0 512 (barrier s4)) := by
        refine ((ofSetter_within ⟨0, 0, 0, 0⟩ _ w).bind (b' := ⟨514, 4 * 513, 0, 0⟩) fun link s3 => ?_).mono
          (by simp)
        refine ((memWrite_within eva link s3).bind (b' := ⟨513, 4 * 512, 0, 0⟩) fun _ s4 => ?_).mono (by simp)
        exact ((barrier_within s4).trans (zeroFrom_within nva 512 0 (barrier s4))).mono (by simp)
      exact (ha.trans hrest).mono (by simp)
  · split
    · exact .refl _ u
    · split <;> exact .refl _ u

/-! ## The walks of the mapper -/

theorem readPath_within (classify : Word → Option Status) (p : Word) (ls : List Level) (s : State) :
    ResWithin ⟨ls.length, 4 * ls.length, 0, 0⟩ s (readPath classify p ls s) := by
  induction ls generalizing s with
  | nil => exact .refl _ s
  | cons l ls ih =>
    refine ((memRead_within _ s).bind (b' := ⟨ls.length, 4 * ls.length, 0, 0⟩) fun e u => ?_).mono ?_
    · split
      · exact .refl _ u
      · exact ih u
    · simp only [Budget.plus_mk, Budget.le_mk, List.length_cons]
      omega

theorem readWalk_within (onBlock : Status) (p : Word) (sz : PageSize) (s : State) :
    ResWithin ⟨(nonLeafLevels sz).length, 4 * (nonLeafLevels sz).length, 0, 0⟩ s (readWalk onBlock p sz s) :=
  (readPath_within _ _ _ s).bind (b' := ⟨0, 0, 0, 0⟩) fun _ u => .refl _ u

theorem createPath_within (p : Word) (ls : List Level) (s : State) :
    ResWithin ⟨ls.length * 516, 4 * (ls.length * 514), 0, ls.length⟩ s (createPath p ls s) := by
  induction ls generalizing s with
  | nil => exact .refl _ s
  | cons l ls ih =>
    refine ((createNextTable_within _ _ s).bind fun _ u => ih u).mono ?_
    simp only [Budget.plus_mk, Budget.le_mk, List.length_cons]
    omega

/-- Where the descent does not go on, it ends in the state that has read the entry. -/
theorem resState_afterEntry {v e : Word} {l : Level} {rest : List Level}
    (h : isValid e = true → isTop e = true → rest = []) (u : State) : resState (afterEntry v l rest e u) = u := by
  cases hv : isValid e with
  | false => rw [afterEntry_invalid hv, resState]
  | true =>
    cases ht : isTop e with
    | true => rw [h hv ht, afterEntry_page hv ht, resState]
    | false =>
      cases hb : blockSize l with
      | none => rw [afterEntry_noBlock ht hb, resState]
      | some sz =>
        rw [afterEntry_block hv ht hb]
        split <;> rfl

theorem translateFrom_within (v : Word) (rest : List Level) (l : Level) (s : State) :
    ResWithin ⟨rest.length + 1, 4 * (rest.length + 1), 0, 0⟩ s (translateFrom v l rest s) := by
  induction rest generalizing l s with
  | nil =>
    rw [translateFrom_eq]
    refine ((memRead_within _ s).bind (b' := ⟨0, 0, 0, 0⟩) fun e u => ?_).mono (by simp)
    rw [ResWithin, resState_afterEntry fun _ _ => rfl]
    exact .refl _ u
  | cons l' rest ih =>
    rw [translateFrom_eq]
    refine ((memRead_within _ s).bind (b' := ⟨rest.length + 1, 4 * (rest.length + 1), 0, 0⟩) fun e u => ?_).mono ?_
    · by_cases h : isValid e = true ∧ isTop e = true
      · rw [afterEntry_table h.1 h.2]
        exact ih l' u
      · rw [ResWithin, resState_afterEntry fun hv ht => absurd ⟨hv, ht⟩ h]
        exact .refl _ u
    · simp only [Budget.plus_mk, Budget.le_mk, List.length_cons]
      omega

/-! ## The mapper's bodies -/

/-- A store and the token after it. -/
theorem storeAndToken_within (va v : Word) (page : State → Word) (sz : PageSize) (out : State → OutPorts) (s : State) :
    ResWithin ⟨1, 4, 1, 0⟩ s ((memWrite va v s).bind fun _ w => .done (out w) (newToken (page w) sz w).2) :=
  (memWrite_within va v s).bind (b' := ⟨0, 0, 1, 0⟩) fun _ w => newToken_within (page w) sz w

theorem lookupLeaf_within (sz : PageSize) (s : State) :
    ResWithin ⟨(nonLeafLevels sz).length + 1, 4 * ((nonLeafLevels sz).length + 1), 0, 0⟩ s (lookupLeaf sz s) := by
  refine (readWalk_within _ _ sz s).bind (b' := ⟨1, 4, 0, 0⟩) fun r u => ?_
  refine (memRead_within r u).bind (b' := ⟨0, 0, 0, 0⟩) fun e w => ?_
  split <;> exact .refl _ w

theorem updateLeaf_within (sz : PageSize) (s : State) :
    ResWithin ⟨(nonLeafLevels sz).length + 2, 4 * ((nonLeafLevels sz).length + 2), 1, 0⟩ s (updateLeaf sz s) := by
  refine (readWalk_within _ _ sz s).bind (b' := ⟨2, 8, 1, 0⟩) fun r u => ?_
  refine (memRead_within r u).bind (b' := ⟨1, 4, 1, 0⟩) fun e w => ?_
  split
  · exact .refl _ w
  · exact storeAndToken_within _ _ _ sz _ w

theorem unmapLeaf_within (sz : PageSize) (s : State) :
    ResWithin ⟨(nonLeafLevels sz).length + 2, 4 * ((nonLeafLevels sz).length + 2), 1, 0⟩ s (unmapLeaf sz s) := by
  refine (readPath_within _ _ _ s).bind (b' := ⟨2, 8, 1, 0⟩) fun _ u => ?_
  refine (memRead_within _ u).bind (b' := ⟨1, 4, 1, 0⟩) fun e w => ?_
  split
  · exact .refl _ w
  · exact storeAndToken_within _ _ _ sz _ w

theorem mapLeaf_within (sz : PageSize) (page frame : Word) (s : State) :
    ResWithin ⟨(nonLeafLevels sz).length * 516 + 2, 4 * ((nonLeafLevels sz).length * 514 + 2), 1,
      (nonLeafLevels sz).length⟩ s (mapLeaf sz page frame s) := by
  refine (createPath_within page _ s).bind (b' := ⟨2, 8, 1, 0⟩) fun _ u => ?_
  refine (memRead_within _ u).bind (b' := ⟨1, 4, 1, 0⟩) fun e w => ?_
  split
  · refine ((ofSetter_within ⟨0, 0, 0, 0⟩ _ w).bind (b' := ⟨1, 4, 1, 0⟩) fun v x => ?_).mono (by simp)
    exact storeAndToken_within _ _ _ sz _ x
  · exact .refl _ w

/-! ## Commands -/

/-- The most Alloc() calls a command makes: one for each table it may have to create (R121). -/
def maxAllocs : Instr → Nat
  | .mapMapTo sz | .mapIdentityMap sz => (nonLeafLevels sz).length
  | .rptCreateNextTable => 1
  | .pteIsUnused | .pteSetUnused | .pteFlags | .pteAddr | .pteAttr | .pteIsBlock | .pteFrame | .pteSetFrame
  | .pteSetBlock _ | .pteSetFlags | .pteSetAttr | .mapGetEntry _ | .mapGetEntryMut _ | .mapUnmap _ | .mapUpdateFlags _
  | .mapTranslatePage _ | .mapTranslate | .mapTranslateAddr | .rptBind | .rptTableVa | .tokFlush | .tokIgnore
  | .attrLookup => 0

/-- A command's budget. RPT.BIND's one event is a PhysRead of its own. -/
def commandBudget (i : Instr) : Budget :=
  if i = .rptBind then ⟨0, 1, 1, 0⟩ else ⟨maxEvents i, 4 * maxAccesses i, 1, maxAllocs i⟩

/-- A command stays within the budget of its body. -/
theorem command_within {b : Budget} {c : Checks} {body : State → Res OutPorts} {s t : State}
    (hbody : ∀ u, ResWithin b u (body u)) (h : command c body s = .next t) : Within b s t := by
  unfold command at h
  split at h
  · obtain rfl := Host.Outcome.next.inj h
    obtain ⟨he, hr, ht, ha⟩ := Within.refl b s
    exact ⟨he, hr, ht, ha⟩
  · obtain ⟨he, hr, ht, ha⟩ := hbody (beginCommand s)
    generalize body (beginCommand s) = r at *
    cases r with
    | done res u | error c u | fault q u =>
      obtain rfl := Host.Outcome.next.inj h
      exact ⟨he, hr, ht, ha⟩

/-- A command that takes no action adds nothing. -/
theorem within_of_inactive {i : Instr} {s t : State} (h : exec i s = .next t) (hi : ∀ p, ¬ mayDo i p) (b : Budget) :
    Within b s t := by
  have hx := exec_traced i s t h
  have hev : t.ev = s.ev := hx.unchanged State.ev (fun _ _ => rfl) fun p u hp => absurd hp (hi p)
  have hallocs : t.allocCalls = s.allocCalls :=
    hx.unchanged State.allocCalls (fun _ _ => rfl) fun p u hp => absurd hp (hi p)
  constructor <;> simp [eventCount, physReadCount, hev, hallocs]

/-- Every command stays within its budget. -/
theorem exec_within {i : Instr} {s t : State} (h : exec i s = .next t) : Within (commandBudget i) s t := by
  cases i with
  | mapMapTo sz => exact command_within (fun u => mapLeaf_within sz _ _ u) h
  | mapIdentityMap sz => exact command_within (fun u => mapLeaf_within sz _ _ u) h
  | mapGetEntry sz | mapGetEntryMut sz =>
    have hbody := fun u => (lookupLeaf_within sz u).mono (b' := commandBudget (.mapGetEntry sz))
      (by simp [commandBudget, maxEvents, maxAccesses])
    exact command_within hbody h
  | mapUnmap sz => exact command_within (unmapLeaf_within sz) h
  | mapUpdateFlags sz => exact command_within (updateLeaf_within sz) h
  | mapTranslatePage sz =>
    rw [exec, execMapTranslatePage] at h
    refine command_within (fun u => ?_) h
    refine (readWalk_within _ _ sz u).bind (b' := ⟨1, 4, 1, 0⟩) fun r u => ?_
    refine (memRead_within r u).bind (b' := ⟨0, 0, 1, 0⟩) fun e w => ?_
    split <;> exact .refl _ w
  | mapTranslate =>
    rw [exec, execMapTranslate] at h
    refine command_within (fun u => ?_) h
    exact (translateFrom_within _ [.l3, .l2, .l1] .l4 u).bind (b' := ⟨0, 0, 1, 0⟩) fun r w => .refl _ w
  | mapTranslateAddr =>
    rw [exec, execMapTranslateAddr] at h
    refine command_within (fun u => ?_) h
    exact (translateFrom_within _ [.l3, .l2, .l1] .l4 u).bind (b' := ⟨0, 0, 1, 0⟩) fun r w => .refl _ w
  | rptBind =>
    rw [exec, execRptBind] at h
    refine command_within (fun u => ?_) h
    have hread := physRead_within (u.config.rootPa.toNat + 8 * u.inp.ridx.toNat) u
    generalize physRead (u.config.rootPa.toNat + 8 * u.inp.ridx.toNat) u = r at hread ⊢
    obtain ⟨d, w⟩ := r
    have hw : Within ⟨0, 1, 1, 0⟩ u w := hread.mono (by simp)
    cases d with
    | none => exact hw
    | some d =>
      simp only
      split
      · exact ⟨hw.events, hw.reads, hw.tokens, hw.allocs⟩
      · exact hw
  | rptCreateNextTable =>
    rw [exec, execRptCreateNextTable] at h
    refine command_within (fun u => ?_) h
    exact (createNextTable_within _ _ u).bind (b' := ⟨0, 0, 1, 0⟩) fun _ w => .refl _ w
  | tokFlush =>
    rw [exec, execTokFlush] at h
    refine command_within (fun u => ?_) h
    exact ((tlbiAllIS_within u).trans (record_within .isb _)).trans (discharge_within _ .flush _)
  | tokIgnore =>
    rw [exec, execTokIgnore] at h
    refine command_within (fun u => ?_) h
    exact discharge_within _ .ignore u
  | _ => exact within_of_inactive h (fun p => by cases p <;> simp [mayDo, readsTables, storesMemory, createsTables,
      createsToken]) _

/-- Settles O53: the budgets of the shared operations, added up for each command. -/
theorem eventsAreBounded : Obligations.EventsAreBounded := by
  unfold Obligations.EventsAreBounded
  refine ⟨fun va v s => ⟨(memRead_within va s).reads, (memWrite_within va v s).reads⟩, fun i s t h => ?_⟩
  obtain ⟨hevents, hreads, htokens, hallocs⟩ := exec_within h
  refine ⟨?_, fun hi => ?_, ?_, ?_⟩
  · by_cases hi : i = .rptBind
    · subst hi
      simp only [commandBudget, commandEvents, maxEvents, if_true] at hevents hreads ⊢
      omega
    · simpa only [commandBudget, commandEvents, if_neg hi] using hevents
  · simpa only [commandBudget, if_neg hi] using hreads
  · refine htokens.trans (Nat.add_le_add_left ?_ _)
    unfold commandBudget
    split <;> exact le_rfl
  · refine hallocs.trans (Nat.add_le_add_left ?_ _)
    cases i with
    | mapMapTo sz | mapIdentityMap sz => cases sz <;> exact le_rfl
    | _ => exact le_rfl

end Sys2Proof.Machine
end

section
/-! PROOF. Recursive addresses (spec/42_recursive_walk.md R146, R149, R162): through a recursive slot an access to an entry of
TableVA(L, P) reaches that entry of the level-L table on P's path. -/

namespace Sys2Proof.Machine

/-! ## The fields of a recursive address (R78, R79, R146) -/

theorem toNat_append_eq {m n : Nat} (x : BitVec m) (y : BitVec n) : (x ++ y).toNat = x.toNat * 2 ^ n + y.toNat := by
  rw [BitVec.toNat_append, ← Nat.shiftLeft_add_eq_or_of_lt y.isLt, Nat.shiftLeft_eq]

theorem va4_toNat (a b c d : BitVec 9) :
    (va4 a b c d).toNat = a.toNat * 2 ^ 39 + b.toNat * 2 ^ 30 + c.toNat * 2 ^ 21 + d.toNat * 2 ^ 12 := by
  simp only [va4, toNat_append_eq, BitVec.toNat_ofNat]
  omega

/-- `canon` keeps bits 47:0. -/
theorem canon_toNat_mod (c : VaCanon) (v : Word) : (canon c v).toNat % 2 ^ 48 = v.toNat % 2 ^ 48 := by
  cases c with
  | zero => rfl
  | sign47 =>
    rw [canon, BitVec.toNat_signExtend, BitVec.toNat_setWidth, BitVec.extractLsb'_toNat, Nat.shiftRight_zero]
    split <;> omega

theorem idx_toNat (l : Level) (va : Word) : (idx l va).toNat = va.toNat / 2 ^ indexShift l % 512 := by
  rw [idx_eq, BitVec.extractLsb'_toNat, Nat.shiftRight_eq_div_pow]

/-- The address has the indices `a`, `b`, `c`, `d` and names the entry `i` of the table they lead to. -/
structure HasIndices (va : Word) (a b c d : BitVec 9) (i : Nat) : Prop where
  l4 : idx .l4 va = a
  l3 : idx .l3 va = b
  l2 : idx .l2 va = c
  l1 : idx .l1 va = d
  offset : (offsetIn va .k4).toNat = 8 * i

/-- An entry of a page whose address `canon` fills. -/
theorem hasIndices_entryAt (c : VaCanon) (a b d e : BitVec 9) {i : Nat} (hi : i < 512) :
    HasIndices (entryAt (canon c (va4 a b d e)) i) a b d e i := by
  have hva : (entryAt (canon c (va4 a b d e)) i).toNat % 2 ^ 48 =
      a.toNat * 2 ^ 39 + b.toNat * 2 ^ 30 + d.toNat * 2 ^ 21 + e.toNat * 2 ^ 12 + 8 * i := by
    have hcanon := canon_toNat_mod c (va4 a b d e)
    rw [va4_toNat] at hcanon
    rw [entryAt, BitVec.toNat_add, BitVec.toNat_ofNat]
    omega
  generalize entryAt (canon c (va4 a b d e)) i = va at hva
  have ha := a.isLt
  have hb := b.isLt
  have hd := d.isLt
  have he := e.isLt
  constructor
  case offset =>
    rw [offsetIn_eq, BitVec.toNat_ofNat, show sizeBytes .k4 = 4096 from rfl]
    omega
  all_goals
    apply BitVec.eq_of_toNat_eq
    rw [idx_toNat, indexShift]
    omega

/-! ## Walks through four tables (R150) -/

/-- The entry `i` of the table at `t` is in PMEM and is the VALID table-or-page descriptor `d`. -/
structure LinksBy (s : State) (t : Word) (i : BitVec 9) (d : Word) : Prop where
  inPmem : Machine.inPmem s.config (t.toNat + 8 * i.toNat) = true
  reads : s.mem.read64 (t.toNat + 8 * i.toNat) = d
  valid : isValid d = true
  top : isTop d = true

section
variable {s : State} {perm : List Word → Bool} {va t d : Word} {l : Level} {chain : List Word} {acc : List Nat}
  (h : LinksBy s t (idx l va) d)
include h

theorem walkFrom_of_linksBy (rest : List Level) : walkFrom (descNow s) perm va l rest t chain acc =
    afterDesc (descNow s) perm va l rest chain d (acc ++ [t.toNat + 8 * (idx l va).toNat]) :=
  walkFrom_of_read (by simp [descNow, h.inPmem, h.reads])

theorem walkFrom_descends (l' : Level) (rest : List Level) : walkFrom (descNow s) perm va l (l' :: rest) t chain acc =
    walkFrom (descNow s) perm va l' rest (pteAddr d) (chain ++ [d]) (acc ++ [t.toNat + 8 * (idx l va).toNat]) := by
  rw [walkFrom_of_linksBy h, afterDesc_table h.valid h.top]

theorem walkFrom_lands (hperm : perm (chain ++ [d]) = true) :
    (walkFrom (descNow s) perm va l [] t chain acc).1 = .okay (pteAddr d + offsetIn va .k4) .k4 := by
  rw [walkFrom_of_linksBy h, afterDesc_page h.valid h.top hperm]

end

/-- A walk that four descriptors lead on. -/
theorem walkNow_of_links {s : State} {kind : Access} {va d4 d3 d2 d1 : Word} {a b c d : BitVec 9} {i : Nat}
    (hva : HasIndices va a b c d i) (h4 : LinksBy s s.config.rootPa a d4) (h3 : LinksBy s (pteAddr d4) b d3)
    (h2 : LinksBy s (pteAddr d3) c d2) (h1 : LinksBy s (pteAddr d2) d d1)
    (hperm : permOk s.config kind [d4, d3, d2, d1] = true) :
    (walkNow s kind va).1 = .okay (pteAddr d1 + offsetIn va .k4) .k4 := by
  obtain ⟨rfl, rfl, rfl, rfl, -⟩ := hva
  rw [walkNow, walkFrom_descends h4, walkFrom_descends h3, walkFrom_descends h2, walkFrom_lands h1 hperm]

/-! ## The tables on a path -/

/-- A level's table is the one that the entry above it links. -/
theorem tableBase_levelBelow {l : Level} (hl : l ≠ .l1) (s : State) (p : Word) :
    tableBase s p (levelBelow l) = (tableBase s p l).bind fun t => tableBase.below s p t l := by
  cases l with
  | l1 => exact absurd rfl hl
  | _ => rfl

theorem pathEntry_of_tableBase {s : State} {p b : Word} {l : Level} (h : tableBase s p l = some b) :
    pathEntry s p l = s.mem.read64 (b.toNat + 8 * (idx l p).toNat) := by
  rw [pathEntry, h]

/-- The table that an entry links, where it is a VALID table descriptor. -/
theorem below_eq_some {s : State} {p b t : Word} {l : Level} : tableBase.below s p b l = some t ↔
    isValid (s.mem.read64 (b.toNat + 8 * (idx l p).toNat)) = true ∧
      isTop (s.mem.read64 (b.toNat + 8 * (idx l p).toNat)) = true ∧
      pteAddr (s.mem.read64 (b.toNat + 8 * (idx l p).toNat)) = t := by
  simp only [tableBase.below, Option.ite_none_right_eq_some, Bool.and_eq_true, Option.some.injEq, and_assoc]

/-- The table above a table on the path, and the entry that links them. -/
theorem tableBase_above {s : State} {p t : Word} {l : Level} (hl : l ≠ .l1) (h : tableBase s p (levelBelow l) = some t) :
    ∃ b, tableBase s p l = some b ∧ isValid (pathEntry s p l) = true ∧ isTop (pathEntry s p l) = true ∧
      pteAddr (pathEntry s p l) = t := by
  rw [tableBase_levelBelow hl] at h
  obtain ⟨b, hb, hbelow⟩ := Option.bind_eq_some_iff.1 h
  rw [pathEntry_of_tableBase hb]
  exact ⟨b, hb, below_eq_some.1 hbelow⟩

/-- Every table on a path is 4096-aligned and below 2^48, where the root's slot shows that the root is. -/
theorem tableBase_lawful {s : State} {r : BitVec 9} {p t : Word} {l : Level} (hslot : RecursiveSlot s r)
    (h : tableBase s p l = some t) : t.toNat % 4096 = 0 ∧ t.toNat < 2 ^ 48 := by
  have haddr : ∀ d, (pteAddr d).toNat % 4096 = 0 ∧ (pteAddr d).toNat < 2 ^ 48 := fun d =>
    ⟨(aligned_k4_iff _).1 (aligned_and_addrMask d), by
      rw [pteAddr, BitVec.toNat_and]
      exact Nat.lt_of_le_of_lt Nat.and_le_right (by decide)⟩
  obtain ⟨-, -, hroot⟩ := hslot
  have habove : ∀ l', l' ≠ .l1 → tableBase s p (levelBelow l') = some t → ∃ d, pteAddr d = t := fun l' hl' h' =>
    let ⟨_, _, _, _, ht⟩ := tableBase_above hl' h'
    ⟨_, ht⟩
  obtain ⟨d, rfl⟩ : ∃ d, pteAddr d = t := by
    cases l with
    | l4 => exact ⟨_, hroot.trans (Option.some.inj h)⟩
    | l3 => exact habove .l4 nofun h
    | l2 => exact habove .l3 nofun h
    | l1 => exact habove .l2 nofun h
  exact haddr d

/-! ## The resolution law (R149, R162) -/

theorem levelsDownTo_eq (l : Level) : levelsDownTo l = levelsAbove l ++ [l] := by
  cases l <;> rfl

section
variable {s : State} {p base : Word} {l : Level} (hroot : RootTable s.config) (hslot : RecursiveSlot s s.ridxReg)
  (hpmem : ∀ l' ∈ levelsDownTo l, ∀ t, tableBase s p l' = some t → t.toNat + 4096 ≤ 2 ^ s.config.paBits)

theorem inPmem_entry {c : Config} {t : Word} (h : t.toNat + 4096 ≤ 2 ^ c.paBits) (i : BitVec 9) :
    inPmem c (t.toNat + 8 * i.toNat) = true := by
  have hi := i.isLt
  rw [inPmem, decide_eq_true_eq]
  omega

include hslot hroot in
/-- The root links itself through the recursive slot. -/
theorem linksBy_slot : LinksBy s s.config.rootPa s.ridxReg (rootSlot s s.ridxReg) := by
  obtain ⟨hv, ht, -⟩ := hslot
  exact ⟨inPmem_entry hroot.2 _, rfl, hv, ht⟩

include hpmem in
/-- The entries of a path link its tables. -/
theorem linksBy_path {l' : Level} {t : Word} (hl1 : l' ≠ .l1) (hl' : l' ∈ levelsDownTo l)
    (h : tableBase s p (levelBelow l') = some t) :
    ∃ b, tableBase s p l' = some b ∧ LinksBy s b (idx l' p) (pathEntry s p l') ∧ pteAddr (pathEntry s p l') = t := by
  obtain ⟨b, hb, hv, ht, haddr⟩ := tableBase_above hl1 h
  exact ⟨b, hb, ⟨inPmem_entry (hpmem l' hl' b hb) _, (pathEntry_of_tableBase hb).symm, hv, ht⟩, haddr⟩

include hroot hslot hpmem

/-- The walk of an entry of TableVA(L, P) lands in the level-L table on P's path. -/
theorem walkNow_recursive {kind : Access} (hbase : tableBase s p l = some base)
    (hperm : permOk s.config kind (recursiveChain s s.ridxReg p l) = true) {i : Nat} (hi : i < 512) :
    (walkNow s kind (entryAt (tableVaOf s l p) i)).1 =
      .okay (base + offsetIn (entryAt (tableVaOf s l p) i) .k4) .k4 := by
  have hr := linksBy_slot hroot hslot
  obtain ⟨-, -, hself⟩ := hslot
  have hr' : LinksBy s (pteAddr (rootSlot s s.ridxReg)) s.ridxReg (rootSlot s s.ridxReg) := hself.symm ▸ hr
  have hroot4 : ∀ b, tableBase s p .l4 = some b → b = pteAddr (rootSlot s s.ridxReg) :=
    fun b hb => (Option.some.inj hb).symm.trans hself.symm
  cases l with
  | l4 =>
    rw [hroot4 base hbase]
    exact walkNow_of_links (hasIndices_entryAt _ _ _ _ _ hi) hr hr' hr' hr' hperm
  | l3 =>
    obtain ⟨b4, hb4, h4, rfl⟩ := linksBy_path (l' := .l4) hpmem nofun (by decide) hbase
    obtain rfl := hroot4 b4 hb4
    exact walkNow_of_links (hasIndices_entryAt _ _ _ _ _ hi) hr hr' hr' h4 hperm
  | l2 =>
    obtain ⟨b3, hb3, h3, rfl⟩ := linksBy_path (l' := .l3) hpmem nofun (by decide) hbase
    obtain ⟨b4, hb4, h4, rfl⟩ := linksBy_path (l' := .l4) hpmem nofun (by decide) hb3
    obtain rfl := hroot4 b4 hb4
    exact walkNow_of_links (hasIndices_entryAt _ _ _ _ _ hi) hr hr' h4 h3 hperm
  | l1 =>
    obtain ⟨b2, hb2, h2, rfl⟩ := linksBy_path (l' := .l2) hpmem nofun (by decide) hbase
    obtain ⟨b3, hb3, h3, rfl⟩ := linksBy_path (l' := .l3) hpmem nofun (by decide) hb2
    obtain ⟨b4, hb4, h4, rfl⟩ := linksBy_path (l' := .l4) hpmem nofun (by decide) hb3
    obtain rfl := hroot4 b4 hb4
    exact walkNow_of_links (hasIndices_entryAt _ _ _ _ _ hi) hr h4 h3 h2 hperm

/-- An access to entry `i` of TableVA(L, P) reaches entry `i` of the level-L table on P's path. -/
theorem reach_recursive {kind : Access} (hbase : tableBase s p l = some base)
    (hperm : permOk s.config kind (recursiveChain s s.ridxReg p l) = true) {i : Nat} (hi : i < 512) :
    reach s kind (entryAt (tableVaOf s l p) i) = some (base.toNat + 8 * i) := by
  obtain ⟨haligned, hlt⟩ := tableBase_lawful hslot hbase
  have hin := hpmem l (by rw [levelsDownTo_eq]; simp) base hbase
  have hoffset : (offsetIn (entryAt (tableVaOf s l p) i) .k4).toNat = 8 * i := by
    unfold tableVaOf
    cases l <;> exact (hasIndices_entryAt _ _ _ _ _ hi).offset
  have hpa : (base + offsetIn (entryAt (tableVaOf s l p) i) .k4).toNat = base.toNat + 8 * i := by
    rw [BitVec.toNat_add, hoffset]
    omega
  have hpmem' : inPmem s.config (base.toNat + 8 * i) = true := by
    rw [inPmem, decide_eq_true_eq]
    omega
  rw [reach, walkNow_recursive hroot hslot hpmem hbase hperm hi]
  simp only [hpa, hpmem', if_true]

end

end Sys2Proof.Machine
end

section
/-! PROOF. Creating one table (spec/42_recursive_walk.md R155-R158): the zeros, the link, and what create_next_table leaves at an
unused entry. -/

namespace Sys2Proof.Machine

/-! ## The zeroing of a table (R157, R158) -/

/-- PMEM after `n` zero entries have been written from entry `i` of the table at `a` up. -/
def zeroedMem (a : Nat) : Nat → Nat → Memory → Memory
  | _, 0, m => m
  | i, n + 1, m => zeroedMem a (i + 1) n (m.write64 (a + 8 * i) 0)

/-- The writes of that zeroing, newest first. -/
def zeroWrites (a : Nat) : Nat → Nat → List WriteRec
  | _, 0 => []
  | i, n + 1 => zeroWrites a (i + 1) n ++ [{ pa := a + 8 * i, val := 0, published := false }]

/-- A stretch of entries reads 0 once it is zeroed, and every byte outside it reads as before. -/
theorem read_zeroedMem (a i n x : Nat) (m : Memory) :
    (zeroedMem a i n m).read x = if a + 8 * i ≤ x ∧ x < a + 8 * (i + n) then 0 else m.read x := by
  induction n generalizing i m with
  | zero => exact (if_neg (by omega)).symm
  | succ n ih =>
    rw [zeroedMem, ih, Memory.read_write64]
    have hzero : ∀ k, (0 : Word).extractLsb' k 8 = 0 := fun k => by simp
    rw [hzero]
    by_cases hfirst : a + 8 * i ≤ x ∧ x < a + 8 * i + 8
    · rw [if_pos hfirst, ite_self, if_pos (by omega)]
    · rw [if_neg hfirst]
      exact if_congr (by omega) rfl rfl

/-- A descriptor whose bytes are all 0 is 0. -/
theorem Memory.read64_of_zero {m : Memory} {a : Nat} (h : ∀ k, k < 8 → m.read (a + k) = 0) : m.read64 a = 0 := by
  rw [Memory.read64_eq_of_read m [] a h, Memory.read64]
  simp [Memory.read]

/-- The zeroing of a table whose entries are reached in the frame at `a`, whatever the frame holds. -/
theorem zeroFrom_goesOn {nva : Word} {a n i : Nat} {s t : State} (ht : coreOf t = coreOf s)
    (hreach : ∀ m : Memory, (∀ x, (x < a ∨ a + 4096 ≤ x) → m.read x = s.mem.read x) →
      ∀ k, k < 512 → reach { s with mem := m } .write (entryAt nva k) = some (a + 8 * k))
    (hn : i + n ≤ 512) : GoesOn (zeroFrom nva i n t)
      { s with mem := zeroedMem a i n s.mem, writes := zeroWrites a i n ++ s.writes } () := by
  induction n generalizing i s t with
  | zero => exact ⟨t, ht, rfl⟩
  | succ n ih =>
    have hfirst : reach s .write (entryAt nva i) = some (a + 8 * i) := hreach s.mem (fun _ _ => rfl) i (by omega)
    refine (memWrite_goesOn ht hfirst).bind_goesOn fun u hu => ?_
    have hrest := ih (i := i + 1) hu (fun m hm k hk => hreach m (fun x hx => ?_) k hk) (by omega)
    · simpa [store64, zeroedMem, zeroWrites] using hrest
    · rw [hm x hx, store64_mem, Memory.read_write64_outside _ _ _ _ (by omega)]

/-! ## create_next_table at an unused entry (R155) -/

/-- The state in which the link at `pa` has been written and published and the frame `f` zeroed, after one Alloc() call. -/
def afterTable (s : State) (pa : Nat) (f link : Word) : State :=
  { afterLink s pa link with
    mem := zeroedMem f.toNat 0 512 (afterLink s pa link).mem
    writes := zeroWrites f.toNat 0 512 ++ (afterLink s pa link).writes }

theorem createNextTable_creates {s t : State} {eva nva f link : Word} {pa : Nat} (ht : coreOf t = coreOf s)
    (h : NewTable s eva nva pa f link) : GoesOn (createNextTable eva nva t) (afterTable s pa f link) () := by
  obtain ⟨he, hf, hl, hpa, -, hframe⟩ := h
  refine (memRead_goesOn ht he).bind_goesOn fun u hu => ?_
  have hcore : coreOf (alloc u).2 = coreOf (afterAlloc s) :=
    (coreOf_alloc u).trans (congrArg (fun x => coreOf (afterAlloc x)) hu :)
  have halloc : alloc u = (some f, (alloc u).2) := Prod.ext ((nextAnswer_core hu).trans hf) rfl
  rw [if_pos rfl, halloc]
  simp only
  rw [core_config hcore, show (afterAlloc s).config = s.config from rfl, hl]
  change GoesOn ((memWrite eva link (alloc u).2).bind _) _ _
  refine (memWrite_goesOn hcore ((reach_of_mem rfl rfl _ _).trans hpa)).bind_goesOn fun w hw => ?_
  have hbarrier : coreOf (barrier w) = coreOf (afterLink s pa link) :=
    (coreOf_barrier w).trans (congrArg (fun x => coreOf { x with writes := publish x.writes }) hw :)
  refine zeroFrom_goesOn hbarrier (fun m hm k hk => ?_) (by decide)
  exact (reach_of_mem (s := { s with mem := m }) rfl rfl _ _).trans (hframe m hm k hk)

section
variable {s : State} {pa : Nat} {f link : Word}

/-- The new table's entries are 0. -/
theorem afterTable_entry (s : State) (pa : Nat) (f link : Word) {i : Nat} (hi : i < 512) :
    (afterTable s pa f link).mem.read64 (f.toNat + 8 * i) = 0 := by
  refine Memory.read64_of_zero fun k hk => ?_
  rw [afterTable, read_zeroedMem, if_pos (by omega)]

/-- Every byte outside the entry and the frame is unchanged. -/
theorem afterTable_outside {x : Nat} (hpa : x < pa ∨ pa + 8 ≤ x) (hf : x < f.toNat ∨ f.toNat + 4096 ≤ x) :
    (afterTable s pa f link).mem.read x = s.mem.read x := by
  rw [afterTable, read_zeroedMem, if_neg (by omega)]
  exact Memory.read_write64_outside _ _ _ _ hpa

/-- The link stands, where the entry is outside the frame. -/
theorem afterTable_link (h : pa + 8 ≤ f.toNat ∨ f.toNat + 4096 ≤ pa) :
    (afterTable s pa f link).mem.read64 pa = link := by
  rw [Memory.read64_eq_of_read _ (s.mem.write64 pa link) pa fun k hk => ?_, Memory.read64_write64_same]
  rw [afterTable, read_zeroedMem, if_neg (by omega)]
  rfl

end

/-! ## The link (R156) -/

theorem attrBits_ok (c : Config) (k : MemKind) : AttrOk (attrBits c k) := by
  have hbits : ∀ (a : BitVec 3) (b : BitVec 2),
      ((a.setWidth 64 <<< 2) ||| (b.setWidth 64 <<< 8) : Word) &&& ~~~attrMask = 0 := by decide
  exact hbits _ _

/-- The link of a frame is a VALID table descriptor of it. -/
theorem tableLink_lawful {c : Config} (hc : ConfigLawful c) {f : Word} (hf : aligned f .k4 = true)
    (hpmem : f.toNat + 4096 ≤ 2 ^ c.paBits) :
    ∃ link, tableLink c f = .ok link ∧ isValid link = true ∧ isTop link = true ∧ pteAddr link = f := by
  obtain ⟨-, hbits, hflags, hvalid, htop, -⟩ := hc
  have hpow : 2 ^ c.paBits ≤ 2 ^ 48 := Nat.pow_le_pow_right (by decide) hbits
  have hmask := and_addrMask_of_aligned hf (by omega)
  obtain ⟨haddr, hfl, -⟩ := fields_of_assembled hmask hflags (attrBits_ok c .normal)
  refine ⟨_, setFrame_of_top htop _ _, ?_⟩
  rw [hmask, ← isValid_pteFlags, ← isTop_pteFlags, hfl]
  exact ⟨hvalid, htop, haddr⟩

end Sys2Proof.Machine
end

section
/-! PROOF. Creating the tables of a path (spec/41_mapper_ops.md R118, R120, R121; spec/70_reset_and_hazards.md R215, R224): one
table at a time, each reached through the link before it. -/

namespace Sys2Proof.Machine

/-! ## Paths that lead to a table -/

/-- A descriptor of the chains that P's recursive addresses are resolved through, down to level L. -/
def PathChainEntry (s : State) (p : Word) (l : Level) (d : Word) : Prop :=
  d = rootSlot s s.ridxReg ∨ (∃ f, tableLink s.config f = .ok d) ∨ ∃ l' ∈ levelsAbove l, d = pathEntry s p l'

/-- P's path is linked down to the level-L table at `base`, and its recursive addresses may be accessed. -/
structure PathTo (s : State) (p : Word) (l : Level) (base : Word) : Prop where
  lawful : ConfigLawful s.config
  root : RootTable s.config
  slot : RecursiveSlot s s.ridxReg
  window : idx .l4 p ≠ s.ridxReg
  tables : PathTables s p l
  base : tableBase s p l = some base
  accessible : ∀ kind chain, (∀ d ∈ chain, PathChainEntry s p l d) → permOk s.config kind chain = true

/-- A path depends on PMEM, the launch parameters and the binding only. -/
theorem PathTo.congr {s t : State} {p base : Word} {l : Level} (h : PathTo s p l base) (hc : t.config = s.config)
    (hr : t.ridxReg = s.ridxReg) (hm : t.mem = s.mem) : PathTo t p l base := by
  have hbase : tableBase t p = tableBase s p := by
    funext l'
    cases l' <;> simp only [tableBase, tableBase.below, hc, hm]
  have hentry : pathEntry t p = pathEntry s p := by
    funext l'
    simp only [pathEntry, hbase, hm]
  have hslot : ∀ r, rootSlot t r = rootSlot s r := fun r => by simp only [rootSlot, hc, hm]
  obtain ⟨hlawful, hroot, hself, hwindow, htables, hlast, haccessible⟩ := h
  refine ⟨?_, ?_, ?_, ?_, ?_, ?_, fun kind chain hchain => ?_⟩
  · rwa [hc]
  · rwa [hc]
  · rwa [RecursiveSlot, hslot, hr, hc]
  · rwa [hr]
  · rwa [PathTables, hbase, hc]
  · rwa [hbase]
  · rw [hc]
    refine haccessible kind chain fun d hd => ?_
    simpa only [PathChainEntry, hslot, hr, hc, hentry] using hchain d hd

theorem levelsAbove_subset {l l' : Level} (h : l' ∈ levelsDownTo l) : levelsAbove l' ⊆ levelsAbove l := by
  revert h
  cases l <;> cases l' <;> decide

theorem mem_levelsDownTo {l l' : Level} : l' ∈ levelsDownTo l ↔ l' ∈ levelsAbove l ∨ l' = l := by
  rw [levelsDownTo_eq, List.mem_append, List.mem_singleton]

theorem levelsAbove_levelBelow {l : Level} (h : l ≠ .l1) : levelsAbove (levelBelow l) = levelsDownTo l := by
  cases l with
  | l1 => exact absurd rfl h
  | _ => rfl

theorem not_mem_levelsAbove (l : Level) : l ∉ levelsAbove l ∧ .l1 ∉ levelsAbove l := by
  cases l <;> decide

/-- The level below one above L is L's or one above it. -/
theorem levelBelow_mem {l l' : Level} (h : l' ∈ levelsAbove l) : levelBelow l' ∈ levelsDownTo l := by
  revert h
  cases l <;> cases l' <;> decide

theorem self_mem_levelsDownTo (l : Level) : l ∈ levelsDownTo l := mem_levelsDownTo.2 (.inr rfl)

/-- The chain of a recursive address is made of the slot and of entries above its table. -/
theorem mem_recursiveChain {s : State} {r : BitVec 9} {p d : Word} {l : Level} (h : d ∈ recursiveChain s r p l) :
    d = rootSlot s r ∨ ∃ l' ∈ levelsAbove l, d = pathEntry s p l' := by
  cases l <;> simp_all [recursiveChain, levelsAbove]

namespace PathTo

variable {s : State} {p base : Word} {l : Level} (h : PathTo s p l base)
include h

/-- Every table of the path stands, in PMEM. -/
theorem table {l' : Level} (hl' : l' ∈ levelsDownTo l) :
    ∃ t, tableBase s p l' = some t ∧ t.toNat + 4096 ≤ 2 ^ s.config.paBits := by
  obtain ⟨t, ht, hle⟩ := (Option.any_eq_true _ _).1 (h.tables.1 l' hl')
  exact ⟨t, ht, of_decide_eq_true hle⟩

theorem pmem : ∀ l' ∈ levelsDownTo l, ∀ t, tableBase s p l' = some t → t.toNat + 4096 ≤ 2 ^ s.config.paBits := by
  intro l' hl' t ht
  obtain ⟨t', ht', hle⟩ := h.table hl'
  obtain rfl := Option.some.inj (ht.symm.trans ht')
  exact hle

/-- The entry of each table of the path is reached at its place. -/
theorem reach {kind : Access} {l' : Level} {b : Word} (hl' : l' ∈ levelsDownTo l) (hb : tableBase s p l' = some b) {i : Nat}
    (hi : i < 512) : Machine.reach s kind (entryAt (tableVaOf s l' p) i) = some (b.toNat + 8 * i) := by
  have hsub := levelsAbove_subset hl'
  refine reach_recursive h.root h.slot (fun l'' hl'' => h.pmem l'' ?_) hb (h.accessible kind _ fun d hd => ?_) hi
  · obtain hl'' | rfl := mem_levelsDownTo.1 hl''
    · exact mem_levelsDownTo.2 (.inl (hsub hl''))
    · exact hl'
  · obtain rfl | ⟨l'', hl'', rfl⟩ := mem_recursiveChain hd
    · exact .inl rfl
    · exact .inr (.inr ⟨l'', hsub hl'', rfl⟩)

/-- P's entry in the last table is reached at its place. -/
theorem reach_last (kind : Access) :
    Machine.reach s kind (entryVaOf s l p) = some (base.toNat + 8 * (idx l p).toNat) :=
  h.reach (self_mem_levelsDownTo l) h.base (idx l p).isLt

theorem readNow_last : readNow s (entryVaOf s l p) = some (s.mem.read64 (base.toNat + 8 * (idx l p).toNat)) := by
  rw [readNow, h.reach_last, Option.map_some]

/-- The entries above the last table are VALID table descriptors that the engine can read. -/
theorem linked : ∀ l' ∈ levelsAbove l, LinksTable s p l' := by
  intro l' hl'
  obtain ⟨t, ht, -⟩ := h.table (levelBelow_mem hl')
  obtain ⟨b, hb, hv, htop, -⟩ := tableBase_above (fun he => (not_mem_levelsAbove l).2 (he ▸ hl')) ht
  have hreach := h.reach (kind := .read) (mem_levelsDownTo.2 (.inl hl')) hb (idx l' p).isLt
  rw [pathEntry_of_tableBase hb] at hv htop
  rw [LinksTable, readNow, entryVaOf, entryVa, ← tableVaOf, hreach]
  simp [hv, htop]

/-- Two tables of the path share no byte. -/
theorem tables_apart {l' : Level} {b : Word} (hl' : l' ∈ levelsAbove l) (hb : tableBase s p l' = some b) :
    b.toNat + 4096 ≤ base.toNat ∨ base.toNat + 4096 ≤ b.toNat := by
  have hne : b ≠ base := by
    rintro rfl
    have hnodup := h.tables.2
    rw [levelsDownTo_eq, List.map_append, List.nodup_append] at hnodup
    exact hnodup.2.2 _ (List.mem_map_of_mem hl') _ (List.mem_singleton_self _) (hb.trans h.base.symm)
  have hne' : b.toNat ≠ base.toNat := fun he => hne (BitVec.eq_of_toNat_eq he)
  obtain ⟨halign, -⟩ := tableBase_lawful h.slot hb
  obtain ⟨halign', -⟩ := tableBase_lawful h.slot h.base
  omega

end PathTo

/-! ## Fresh frames (ALLOC_TRUST) -/

section
variable {s : State} {p f : Word} {l : Level} {fs : List Word}

theorem FreshFrames.lawful (h : FreshFrames s p l fs) (hf : f ∈ fs) :
    aligned f .k4 = true ∧ f.toNat + 4096 ≤ 2 ^ s.config.paBits ∧ ∀ l' ∈ levelsDownTo l, tableBase s p l' ≠ some f := by
  have hall := List.all_eq_true.1 h.2 f hf
  simp only [Bool.and_eq_true, decide_eq_true_eq, Bool.not_eq_true', List.contains_eq_mem, decide_eq_false_iff_not,
    List.mem_map, not_exists, not_and] at hall
  exact ⟨hall.1.1, hall.1.2, hall.2⟩

/-- A fresh frame shares no byte with a table of the path. -/
theorem FreshFrames.apart_table {r : BitVec 9} (h : FreshFrames s p l fs) (hslot : RecursiveSlot s r) (hf : f ∈ fs)
    {l' : Level} {b : Word} (hl' : l' ∈ levelsDownTo l) (hb : tableBase s p l' = some b) :
    b.toNat + 4096 ≤ f.toNat ∨ f.toNat + 4096 ≤ b.toNat := by
  obtain ⟨halign, -, hne⟩ := h.lawful hf
  have hne' : b.toNat ≠ f.toNat := fun he => hne l' hl' (hb.trans (congrArg some (BitVec.eq_of_toNat_eq he)))
  obtain ⟨halign', -⟩ := tableBase_lawful hslot hb
  rw [aligned_k4_iff] at halign
  omega

/-- Two fresh frames share no byte. -/
theorem FreshFrames.apart_frame (h : FreshFrames s p l (f :: fs)) {f' : Word} (hf' : f' ∈ fs) :
    f.toNat + 4096 ≤ f'.toNat ∨ f'.toNat + 4096 ≤ f.toNat := by
  obtain ⟨halign, -⟩ := h.lawful (List.mem_cons_self ..)
  obtain ⟨halign', -⟩ := h.lawful (List.mem_cons_of_mem _ hf')
  have hne : f ≠ f' := fun he => (List.nodup_cons.1 h.1).1 (he ▸ hf')
  have hne' : f.toNat ≠ f'.toNat := fun he => hne (BitVec.eq_of_toNat_eq he)
  rw [aligned_k4_iff] at halign halign'
  omega

end

/-! ## One table more -/

/-- The path's entries above L decide its tables down to L. -/
theorem tableBase_congr {s t : State} {p : Word} {l : Level} (hc : t.config = s.config)
    (h : ∀ l' ∈ levelsAbove l, ∀ b, tableBase s p l' = some b →
      t.mem.read64 (b.toNat + 8 * (idx l' p).toNat) = s.mem.read64 (b.toNat + 8 * (idx l' p).toNat)) :
    ∀ l' ∈ levelsDownTo l, tableBase t p l' = tableBase s p l' := by
  have hroot : tableBase t p .l4 = tableBase s p .l4 := by rw [tableBase, tableBase, hc]
  have hstep : ∀ l' ∈ levelsAbove l, tableBase t p l' = tableBase s p l' →
      tableBase t p (levelBelow l') = tableBase s p (levelBelow l') := by
    intro l' hl' heq
    have hl1 : l' ≠ .l1 := fun he => (not_mem_levelsAbove l).2 (he ▸ hl')
    rw [tableBase_levelBelow hl1, tableBase_levelBelow hl1, heq]
    cases hb : tableBase s p l' with
    | none => rfl
    | some b => simp only [Option.bind_some, tableBase.below, h l' hl' b hb]
  cases l with
  | l4 => simpa [levelsDownTo] using hroot
  | l3 => simpa [levelsDownTo] using ⟨hroot, hstep .l4 (by decide) hroot⟩
  | l2 =>
    have h3 := hstep .l4 (by decide) hroot
    simpa [levelsDownTo] using ⟨hroot, h3, hstep .l3 (by decide) h3⟩
  | l1 =>
    have h3 := hstep .l4 (by decide) hroot
    have h2 := hstep .l3 (by decide) h3
    simpa [levelsDownTo] using ⟨hroot, h3, h2, hstep .l2 (by decide) h2⟩

/-- PMEM `m` differs from that of `s` in the entry at `pa` and in the frame `f` only. -/
def ChangedAt (s : State) (m : Memory) (pa : Nat) (f : Word) : Prop :=
  ∀ x, (x < pa ∨ pa + 8 ≤ x) → (x < f.toNat ∨ f.toNat + 4096 ≤ x) → m.read x = s.mem.read x

section
variable {s t : State} {p base f link : Word} {l : Level} {fs : List Word} (h : PathTo s p l base)
  (hfresh : FreshFrames s p l (f :: fs)) (hm : ChangedAt s t.mem (base.toNat + 8 * (idx l p).toNat) f)
include h hfresh hm

/-- Every other entry of the path's tables reads as before. -/
theorem entry_kept {l' : Level} {b : Word} (hl' : l' ∈ levelsDownTo l) (hb : tableBase s p l' = some b) {j : BitVec 9}
    (hj : l' = l → j ≠ idx l p) : t.mem.read64 (b.toNat + 8 * j.toNat) = s.mem.read64 (b.toNat + 8 * j.toNat) := by
  have hjlt := j.isLt
  have hilt := (idx l p).isLt
  have hframe := hfresh.apart_table h.slot (List.mem_cons_self ..) hl' hb
  have hentry : b.toNat + 8 * j.toNat + 8 ≤ base.toNat + 8 * (idx l p).toNat ∨
      base.toNat + 8 * (idx l p).toNat + 8 ≤ b.toNat + 8 * j.toNat := by
    obtain hl' | rfl := mem_levelsDownTo.1 hl'
    · have := h.tables_apart hl' hb
      omega
    · obtain rfl := Option.some.inj (hb.symm.trans h.base)
      have hne : j.toNat ≠ (idx l' p).toNat := fun he => hj rfl (BitVec.eq_of_toNat_eq he)
      omega
  exact Memory.read64_eq_of_read _ _ _ fun k hk => hm _ (by omega) (by omega)

/-- The entries above the last table read as before. -/
theorem entry_above_kept {l' : Level} {b : Word} (hl' : l' ∈ levelsAbove l) (hb : tableBase s p l' = some b) :
    t.mem.read64 (b.toNat + 8 * (idx l' p).toNat) = s.mem.read64 (b.toNat + 8 * (idx l' p).toNat) :=
  entry_kept h hfresh hm (mem_levelsDownTo.2 (.inl hl')) hb fun he => absurd (he ▸ hl') (not_mem_levelsAbove l).1

variable (hc : t.config = s.config)
include hc

theorem tables_kept : ∀ l' ∈ levelsDownTo l, tableBase t p l' = tableBase s p l' :=
  tableBase_congr hc fun _ hl' _ hb => entry_above_kept h hfresh hm hl' hb

/-- P's entry in the root is not the recursive slot. -/
theorem rootSlot_kept (hr : t.ridxReg = s.ridxReg) : rootSlot t t.ridxReg = rootSlot s s.ridxReg := by
  rw [rootSlot, rootSlot, hc, hr]
  refine entry_kept h hfresh hm (l' := .l4) (by cases l <;> decide) rfl ?_
  rintro rfl
  exact h.window.symm

variable (hl1 : l ≠ .l1) (hlink : t.mem.read64 (base.toNat + 8 * (idx l p).toNat) = link)
  (htable : tableLink s.config f = .ok link)
include hl1 hlink htable

/-- The link leads to the frame. -/
theorem tableBase_linked : tableBase t p (levelBelow l) = some f := by
  obtain ⟨hfa, hfp, -⟩ := hfresh.lawful (List.mem_cons_self ..)
  obtain ⟨link', hlink', hv, htop, haddr⟩ := tableLink_lawful h.lawful hfa hfp
  obtain rfl := Except.ok.inj (htable.symm.trans hlink')
  rw [tableBase_levelBelow hl1, tables_kept h hfresh hm hc l (self_mem_levelsDownTo l), h.base, Option.bind_some,
    below_eq_some, hlink]
  exact ⟨hv, htop, haddr⟩

theorem map_tableBase_linked : (levelsDownTo (levelBelow l)).map (tableBase t p) =
    (levelsDownTo l).map (tableBase s p) ++ [some f] := by
  rw [levelsDownTo_eq, levelsAbove_levelBelow hl1, List.map_append, List.map_singleton,
    List.map_congr_left (tables_kept h hfresh hm hc), tableBase_linked h hfresh hm hc hl1 hlink htable]

/-- Where the last entry of a path links a fresh frame, the path leads to the frame, whatever the frame holds. -/
theorem PathTo.extend (hr : t.ridxReg = s.ridxReg) : PathTo t p (levelBelow l) f := by
  obtain ⟨-, hfp, hfne⟩ := hfresh.lawful (List.mem_cons_self ..)
  have hbase := tables_kept h hfresh hm hc
  have hlast := tableBase_linked h hfresh hm hc hl1 hlink htable
  have hslot := rootSlot_kept h hfresh hm hc hr
  have hdown : levelsDownTo (levelBelow l) = levelsDownTo l ++ [levelBelow l] := by
    rw [levelsDownTo_eq, levelsAbove_levelBelow hl1]
  refine ⟨hc ▸ h.lawful, hc ▸ h.root, ?_, hr ▸ h.window, ⟨fun l' hl' => ?_, ?_⟩, hlast, fun kind chain hchain => ?_⟩
  · rw [RecursiveSlot, hslot, hc]
    exact h.slot
  · rw [hc]
    obtain hl' | hl' := List.mem_append.1 (hdown ▸ hl')
    · rw [hbase l' hl']
      exact h.tables.1 l' hl'
    · rw [List.mem_singleton.1 hl', hlast]
      exact decide_eq_true hfp
  · rw [map_tableBase_linked h hfresh hm hc hl1 hlink htable, List.nodup_append]
    refine ⟨h.tables.2, List.nodup_singleton _, fun a ha b hb => ?_⟩
    obtain ⟨l', hl', rfl⟩ := List.mem_map.1 ha
    rw [List.mem_singleton.1 hb]
    exact hfne l' hl'
  · rw [hc]
    refine h.accessible kind chain fun d hd => ?_
    obtain rfl | ⟨g, hg⟩ | ⟨l', hl', rfl⟩ := hchain d hd
    · exact .inl hslot
    · exact .inr (.inl ⟨g, hc ▸ hg⟩)
    · rw [levelsAbove_levelBelow hl1] at hl'
      obtain ⟨b, hb, -⟩ := h.table hl'
      rw [pathEntry_of_tableBase ((hbase l' hl').trans hb)]
      obtain hl' | rfl := mem_levelsDownTo.1 hl'
      · rw [entry_above_kept h hfresh hm hl' hb]
        exact .inr (.inr ⟨l', hl', (pathEntry_of_tableBase hb).symm⟩)
      · obtain rfl := Option.some.inj (hb.symm.trans h.base)
        exact .inr (.inl ⟨f, htable.trans (congrArg Except.ok hlink.symm)⟩)

/-- The frames to come are fresh for the longer path. -/
theorem FreshFrames.extend : FreshFrames t p (levelBelow l) fs := by
  refine ⟨(List.nodup_cons.1 hfresh.1).2, List.all_eq_true.2 fun g hg => ?_⟩
  obtain ⟨hga, hgp, hgne⟩ := hfresh.lawful (List.mem_cons_of_mem _ hg)
  have hfg : g ≠ f := fun he => (List.nodup_cons.1 hfresh.1).1 (he ▸ hg)
  rw [map_tableBase_linked h hfresh hm hc hl1 hlink htable, hc]
  simpa [hga, hgp, hfg] using hgne

end

/-! ## A new table on a path -/

section
variable {s : State} {p base f : Word} {l : Level} {fs : List Word} {rest : List (Option Word)} (h : PathTo s p l base)
  (hunused : s.mem.read64 (base.toNat + 8 * (idx l p).toNat) = 0) (hfresh : FreshFrames s p l (f :: fs))
  (hl1 : l ≠ .l1)
include h hfresh

theorem entry_apart_frame : base.toNat + 8 * (idx l p).toNat + 8 ≤ f.toNat ∨
    f.toNat + 4096 ≤ base.toNat + 8 * (idx l p).toNat := by
  have := (idx l p).isLt
  have := hfresh.apart_table h.slot (List.mem_cons_self ..) (self_mem_levelsDownTo l) h.base
  omega

include hunused hl1

/-- Where the path's last entry is unused, the allocator's next frame makes a new table of it. -/
theorem newTable_of_pathTo (hanswers : s.answers = some f :: rest) : ∃ link,
    NewTable s (entryVaOf s l p) (tableVaOf s (levelBelow l) p) (base.toNat + 8 * (idx l p).toNat) f link := by
  obtain ⟨hfa, hfp, -⟩ := hfresh.lawful (List.mem_cons_self ..)
  obtain ⟨link, hlink, -⟩ := tableLink_lawful h.lawful hfa hfp
  have hapart := entry_apart_frame h hfresh
  refine ⟨link, by rw [h.readNow_last, hunused], ?_, hlink, h.reach_last .write, hapart, fun m hm i hi => ?_⟩
  · simp [nextAnswer, hanswers, lawfulFrame_of_lawful h.lawful.2.1 hfa hfp]
  · have hchanged : ChangedAt s m (base.toNat + 8 * (idx l p).toNat) f := fun x hx hxf => by
      rw [hm x hxf, Memory.read_write64_outside _ _ _ _ hx]
    have hread : m.read64 (base.toNat + 8 * (idx l p).toNat) = link := by
      rw [Memory.read64_eq_of_read m (s.mem.write64 (base.toNat + 8 * (idx l p).toNat) link) _
        fun k hk => hm _ (by omega), Memory.read64_write64_same]
    exact (h.extend (t := { s with mem := m }) hfresh hchanged rfl hl1 hread hlink rfl).reach
      (self_mem_levelsDownTo _) (tableBase_linked (t := { s with mem := m }) h hfresh hchanged rfl hl1 hread hlink) hi

end

/-! ## Every missing table (R120, R121, R224) -/

/-- `c` is `s` after `n` Alloc() calls, with the answers `rest` to come, but for PMEM and the histories. -/
def Creates (s c : State) (n : Nat) (rest : List (Option Word)) : Prop :=
  c = { s with mem := c.mem, writes := c.writes, answers := rest, allocCalls := s.allocCalls + n }

theorem Creates.trans {s u c : State} {n k : Nat} {rest rest' : List (Option Word)} (h : Creates s u n rest)
    (h' : Creates u c k rest') : Creates s c (n + k) rest' := by
  rw [Creates, ← Nat.add_assoc]
  refine Eq.trans h' ?_
  rw [h]

/-- `u` is `s` with a new table in the frame `f`, linked by `link` at `pa`. -/
structure TableMade (s u : State) (pa : Nat) (f link : Word) : Prop where
  creates : Creates s u 1 s.answers.tail
  changed : ChangedAt s u.mem pa f
  linked : u.mem.read64 pa = link
  zero : ∀ i, i < 512 → u.mem.read64 (f.toNat + 8 * i) = 0

/-- The link is written after one Alloc() call, whatever PMEM and the histories then become. -/
theorem creates_afterLink (s : State) (pa : Nat) (link : Word) (m : Memory) (ws : List WriteRec) :
    Creates s { afterLink s pa link with mem := m, writes := ws } 1 s.answers.tail := rfl

theorem createNextTable_makes {s t : State} {eva nva f link : Word} {pa : Nat} (ht : coreOf t = coreOf s)
    (h : NewTable s eva nva pa f link) : ∃ u, GoesOn (createNextTable eva nva t) u () ∧ TableMade s u pa f link :=
  ⟨_, createNextTable_creates ht h, creates_afterLink _ _ _ _ _, fun _ => afterTable_outside, afterTable_link h.2.2.2.2.1,
    fun _ => afterTable_entry _ _ _ _⟩

/-- PMEM of `t` is that of `s` but for the entry at `pa`, which holds `e`. -/
def EntrySet (s t : State) (pa : Nat) (e : Word) : Prop :=
  (∀ x, (x < pa ∨ pa + 8 ≤ x) → t.mem.read x = s.mem.read x) ∧ t.mem.read64 pa = e

/-- The tables below a new table make, with it, the tables below its link. -/
theorem TablesCreated.cons {s u t : State} {p base f link e : Word} {l : Level} {fs : List Word} (h : PathTo s p l base)
    (hfresh : FreshFrames s p l (f :: fs)) (hc : u.config = s.config)
    (hmade : TableMade s u (base.toNat + 8 * (idx l p).toNat) f link) (htable : tableLink s.config f = .ok link)
    (hrest : TablesCreated u t p (levelBelow l) f fs e) : TablesCreated s t p l base (f :: fs) e := by
  obtain ⟨hdown, hkept⟩ := hrest
  obtain ⟨-, hm, hlink, hzero⟩ := hmade
  have hilt := (idx l p).isLt
  have hjlt := (idx (levelBelow l) p).isLt
  have hbase := fun g (hg : g ∈ f :: fs) => hfresh.apart_table h.slot hg (self_mem_levelsDownTo l) h.base
  have hbasef := hbase f (List.mem_cons_self ..)
  refine ⟨⟨?_, fun i hi => ?_, hc ▸ hdown⟩, fun x hx hxfs => ?_⟩
  · rw [Memory.read64_eq_of_read t.mem u.mem _ fun k hk => hkept _ (by omega) fun g hg => ?_, hlink, htable]
    have := hbase g (List.mem_cons_of_mem _ hg)
    omega
  · have hine : i.toNat ≠ (idx (levelBelow l) p).toNat := fun he => hi (BitVec.eq_of_toNat_eq he)
    have hi512 := i.isLt
    rw [Memory.read64_eq_of_read t.mem u.mem _ fun k hk => hkept _ (by omega) fun g hg => ?_, hzero _ hi512]
    have := hfresh.apart_frame hg
    omega
  · obtain ⟨hxf, hxfs⟩ := List.forall_mem_cons.1 hxfs
    rw [hkept x (by omega) hxfs, hm x hx hxf]

/-- map_to's descent from the first unused entry on: each level gets the next frame, and the path leads to the last. -/
theorem createPath_creates {p : Word} {rest : List (Option Word)} (fs : List Word) {s t : State} {l : Level} {base : Word}
    (h : PathTo s p l base) (hunused : s.mem.read64 (base.toNat + 8 * (idx l p).toNat) = 0)
    (hfresh : FreshFrames s p l fs) (hanswers : s.answers = fs.map some ++ rest)
    (hl1 : ∀ l' ∈ List.iterate levelBelow l fs.length, l' ≠ .l1) (ht : coreOf t = coreOf s) :
    ∃ c last, GoesOn (createPath p (List.iterate levelBelow l fs.length) t) c () ∧ Creates s c fs.length rest ∧
      PathTo c p (levelBelow^[fs.length] l) last ∧
      c.mem.read64 (last.toNat + 8 * (idx (levelBelow^[fs.length] l) p).toNat) = 0 ∧
      ∀ u e, EntrySet c u (last.toNat + 8 * (idx (levelBelow^[fs.length] l) p).toNat) e →
        TablesCreated s u p l base fs e := by
  induction fs generalizing s t l base with
  | nil =>
    refine ⟨s, base, ⟨t, ht, rfl⟩, ?_, h, hunused, fun u e ⟨hkept, he⟩ => ⟨he, fun x hx _ => hkept x hx⟩⟩
    rw [Creates, ← show s.answers = rest from hanswers]
    rfl
  | cons f fs ih =>
    obtain ⟨hl, hls⟩ := List.forall_mem_cons.1 hl1
    obtain ⟨link, hnew⟩ := newTable_of_pathTo h hunused hfresh hl hanswers
    have htable := hnew.2.2.1
    obtain ⟨s', ⟨u, hu, hnext⟩, hmade⟩ := createNextTable_makes ht hnew
    obtain ⟨hcreates, hm, hlink, hzero⟩ := id hmade
    have hc : s'.config = s.config := by rw [hcreates]
    have hr : s'.ridxReg = s.ridxReg := by rw [hcreates]
    have hanswers' : s'.answers = fs.map some ++ rest := by rw [hcreates, hanswers]; rfl
    obtain ⟨c, last, hpath, hcreates', hto, hlast, hcreated⟩ := ih (h.extend hfresh hm hc hl hlink htable hr)
      (hzero _ (idx (levelBelow l) p).isLt) (hfresh.extend h hm hc hl hlink htable) hanswers' hls hu
    refine ⟨c, last, ?_, ?_, hto, hlast, fun v e hv => (hcreated v e hv).cons h hfresh hc hmade htable⟩
    · rw [List.length_cons, List.iterate, createPath, entryVaOf_core ht, tableVaOf_core ht, hnext]
      exact hpath
    · rw [List.length_cons, Nat.add_comm]
      exact hcreates.trans hcreates'

end Sys2Proof.Machine
end

section
/-! PROOF. A mapping whose path ends (spec/41_mapper_ops.md R120, R121; spec/70_reset_and_hazards.md R215, R224): the tables it
creates, and what it leaves where it fails after some of them. -/

namespace Sys2Proof.Machine

/-! ## The levels of a path that ends -/

/-- A path whose first unused entry is at level L: the levels above, and one for each missing table, down to the leaf. -/
theorem missing_levels {sz : PageSize} {l : Level} (hl : l ∈ nonLeafLevels sz) :
    nonLeafLevels sz = levelsAbove l ++ List.iterate levelBelow l (missingTables sz l) ∧
      levelBelow^[missingTables sz l] l = leafLevel sz ∧
      ∀ l' ∈ List.iterate levelBelow l (missingTables sz l), l' ≠ .l1 := by
  revert hl
  cases sz <;> cases l <;> decide

/-- The levels of the first `n` missing tables, and of the rest. -/
theorem missing_levels_split {sz : PageSize} {l : Level} {n : Nat} (hl : l ∈ nonLeafLevels sz)
    (hn : n < missingTables sz l) : ∃ after, nonLeafLevels sz =
      (levelsAbove l ++ List.iterate levelBelow l n) ++ levelBelow^[n] l :: after := by
  obtain ⟨hlevels, -, -⟩ := missing_levels hl
  obtain ⟨k, hk⟩ : ∃ k, missingTables sz l = n + (k + 1) := ⟨missingTables sz l - n - 1, by omega⟩
  rw [hk, List.iterate_add, List.iterate, ← List.append_assoc] at hlevels
  exact ⟨_, hlevels⟩

theorem missing_levels_ne_l1 {sz : PageSize} {l : Level} {n : Nat} (hl : l ∈ nonLeafLevels sz)
    (hn : n ≤ missingTables sz l) : ∀ l' ∈ List.iterate levelBelow l n, l' ≠ .l1 := by
  obtain ⟨-, -, hne⟩ := missing_levels hl
  obtain ⟨k, hk⟩ := Nat.exists_eq_add_of_le hn
  intro l' hl'
  refine hne l' ?_
  rw [hk, List.iterate_add]
  exact List.mem_append_left _ hl'

/-! ## The path the mapping finds (R213) -/

/-- A table on P's path is reachable from the root, where P is outside the recursive window. -/
theorem tableAt_of_tableBase {s : State} {r : BitVec 9} {p b : Word} {l : Level} (hw : idx .l4 p ≠ r)
    (h : tableBase s p l = some b) : TableAt s r l b.toNat := by
  have hstep : ∀ l', l' ≠ .l1 → (∀ b, tableBase s p l' = some b → TableAt s r l' b.toNat) →
      ∀ b, tableBase s p (levelBelow l') = some b → TableAt s r (levelBelow l') b.toNat := by
    intro l' hl1 ih b hb
    obtain ⟨b', hb', hv, ht, rfl⟩ := tableBase_above hl1 hb
    rw [pathEntry_of_tableBase hb'] at hv ht ⊢
    exact .link l' b'.toNat (idx l' p) (ih b' hb') hl1 (by rintro rfl; exact hw) hv ht
  have h4 : ∀ b, tableBase s p .l4 = some b → TableAt s r .l4 b.toNat := by
    intro b hb
    obtain rfl := Option.some.inj hb
    exact .root
  have h3 := hstep .l4 nofun h4
  have h2 := hstep .l3 nofun h3
  cases l with
  | l4 => exact h4 b h
  | l3 => exact h3 b h
  | l2 => exact h2 b h
  | l1 => exact hstep .l2 nofun h2 b h

/-- The linked part of a path, with an accessible recursive window, leads to its last table. -/
theorem pathTo_of_unusedAt {s : State} {sz : PageSize} {p base : Word} {l : Level} {fs : List Word}
    {rest : List (Option Word)} (h : UnusedAt s sz p l base fs rest) (haccess : RecursiveAccessible s s.ridxReg)
    (hw : idx .l4 p ≠ s.ridxReg) : PathTo s p l base := by
  obtain ⟨hlawful, hroot, hslot, -, htables, hbase, -⟩ := h
  refine ⟨hlawful, hroot, hslot, hw, htables, hbase, fun kind chain hchain => haccess kind chain fun d hd => ?_⟩
  obtain hself | hlink | ⟨l', hl', rfl⟩ := hchain d hd
  · exact .inl hself
  · exact .inr (.inl hlink)
  · have hl1 : l' ≠ .l1 := fun he => (not_mem_levelsAbove l).2 (he ▸ hl')
    obtain ⟨t, ht, -⟩ := (Option.any_eq_true _ _).1 (htables.1 _ (levelBelow_mem hl'))
    obtain ⟨b, hb, hv, htop, -⟩ := tableBase_above hl1 ht
    exact .inr (.inr ⟨l', b.toNat, idx l' p, tableAt_of_tableBase hw hb, hl1, pathEntry_of_tableBase hb, hv, htop⟩)

/-! ## The outcomes -/

section
variable {s : State} {i : Instr} {sz : PageSize} {page base : Word} {l : Level} {fs : List Word}
  {rest : List (Option Word)} (hadm : AdmittedMap s sz page) (hunused : UnusedAt s sz page l base fs rest)
  (haccess : RecursiveAccessible s s.ridxReg)
include hadm hunused haccess

/-- The descent of an admitted mapping passes the tables that stand and creates the first missing ones. -/
theorem maps_createPath (hn : fs.length ≤ missingTables sz l) : ∃ m ws c last,
    c = { beginCommand s with mem := m, writes := ws, answers := rest, allocCalls := s.allocCalls + fs.length } ∧
    GoesOn (createPath page (levelsAbove l ++ List.iterate levelBelow l fs.length) (beginCommand s)) c () ∧
    PathTo c page (levelBelow^[fs.length] l) last ∧
    readNow c (entryVaOf c (levelBelow^[fs.length] l) page) = some 0 ∧
    ∀ u e, EntrySet c u (last.toNat + 8 * (idx (levelBelow^[fs.length] l) page).toNat) e →
      TablesCreated s u page l base fs e := by
  obtain ⟨-, -, -, -, -, -, hw, -⟩ := hadm
  have hpath := (pathTo_of_unusedAt hunused haccess hw).congr (t := beginCommand s) rfl rfl rfl
  obtain ⟨-, -, -, hl, -, -, hzero, hfresh, hanswers⟩ := hunused
  obtain ⟨u, hu, habove⟩ := createPath_linked hpath.linked
  obtain ⟨c, last, hmade, hcreates, hto, hlast, hcreated⟩ :=
    createPath_creates (s := beginCommand s) fs hpath hzero hfresh hanswers (missing_levels_ne_l1 hl hn) hu
  refine ⟨c.mem, c.writes, c, last, hcreates, ?_, hto, by rw [hto.readNow_last, hlast], hcreated⟩
  rw [createPath_append, habove]
  exact hmade

variable (hi : Maps s i sz page)
include hi

/-- With a frame for each missing table and FLAGS of the size's kind, the leaf is installed in the last of them. -/
theorem maps_creates (hn : fs.length = missingTables sz l) (htop : isTop s.inp.flags = (sz == .k4)) :
    ∃ t, exec i s = .next t ∧ t.out = okPorts { tokenOut := some s.nextToken } ∧
      TablesCreated s t page l base fs (mappedLeaf s) ∧ t.allocCalls = s.allocCalls + fs.length ∧ t.answers = rest ∧
      TokenCreated s t page sz ∧ RegistersKept s t := by
  obtain ⟨hlevels, hleaf, -⟩ := missing_levels hunused.2.2.2.1
  obtain ⟨m, ws, c, last, hc, hpath, hto, hread, hcreated⟩ := maps_createPath hadm hunused haccess hn.le
  rw [hn, ← hlevels] at hpath
  rw [hn, hleaf] at hto hread hcreated
  have hv : leafDescriptor sz s.inp.frame c.inp.flags c.inp.attr = .ok (mappedLeaf s) := by
    rw [hc]
    exact leafDescriptor_matching htop hadm.2.2.1 _
  obtain ⟨u, hu, hend⟩ := mapLeaf_installs hpath hread hv (hto.reach_last .write)
  refine ⟨completeCommand _ u, by rw [exec_of_maps hi hadm, hend]; rfl, by rw [hc]; rfl, hcreated _ _ ⟨?_, ?_⟩, ?_⟩
  · intro x hx
    rw [completeCommand_mem, core_mem hu]
    exact Memory.read_write64_outside _ _ _ _ hx
  · rw [completeCommand_mem, core_mem hu]
    exact Memory.read64_write64_same _ _ _
  · simp [TokenCreated, RegistersKept, core_config hu, core_inp hu, core_bound hu, core_ridxReg hu, core_faulted hu,
      core_faultReason hu, core_launchMem hu, core_tokens hu, core_nextToken hu, core_pos hu, core_script hu,
      core_answers hu, core_allocCalls hu, afterMutation, hc]

/-- Where the allocator has no frame for a missing table, the tables created before it stay. -/
theorem maps_lacksFrame (hn : fs.length < missingTables sz l) (hnone : rest.head? = some none) :
    ∃ t, exec i s = .next t ∧ t.out = errPorts .frameAllocationFailed ∧ TablesCreated s t page l base fs 0 ∧
      t.allocCalls = s.allocCalls + fs.length + 1 ∧ t.answers = rest.tail ∧ TokensKept s t ∧ RegistersKept s t := by
  obtain ⟨after, hlevels⟩ := missing_levels_split hunused.2.2.2.1 hn
  obtain ⟨m, ws, c, last, hc, hpath, hto, hread, hcreated⟩ := maps_createPath hadm hunused haccess hn.le
  have hanswer : nextAnswer c = none := by
    obtain ⟨rest', rfl⟩ := List.head?_eq_some_iff.1 hnone
    simp [hc, nextAnswer]
  obtain ⟨u, hu, hend⟩ : ErrsFrom (mapLeaf sz page s.inp.frame (beginCommand s)) (afterAlloc c) .frameAllocationFailed :=
    mapLeaf_errs_table hlevels hpath fun u hu => by
      obtain ⟨w, hw, h⟩ := createNextTable_of_noFrame ((readNow_core hu _).trans hread) ((nextAnswer_core hu).trans hanswer)
      exact ⟨w, hw.trans (congrArg (fun x => coreOf (afterAlloc x)) hu :), h⟩
  refine ⟨returnError _ u, by rw [exec_of_maps hi hadm, hend]; rfl, rfl, hcreated _ _ ⟨fun x _ => ?_, ?_⟩, ?_⟩
  · rw [returnError_mem, core_mem hu]
    rfl
  · rw [returnError_mem, core_mem hu]
    exact Option.some.inj (hto.readNow_last.symm.trans hread)
  · simp [TokensKept, RegistersKept, core_config hu, core_inp hu, core_bound hu, core_ridxReg hu, core_faulted hu,
      core_faultReason hu, core_launchMem hu, core_tokens hu, core_nextToken hu, core_pos hu, core_script hu,
      core_answers hu, core_allocCalls hu, afterAlloc, hc]

/-- With FLAGS of the other kind, the leaf's setter faults and every table created stays. -/
theorem maps_wrongKind (hn : fs.length = missingTables sz l) (htop : isTop s.inp.flags ≠ (sz == .k4)) :
    ∃ t, exec i s = .next t ∧ t.faulted = true ∧ t.out = {} ∧
      t.faultReason = some (.contractViolation (if sz = .k4 then .setFrameWithoutTop else .setBlockWithTop)) ∧
      TablesCreated s t page l base fs 0 ∧ t.allocCalls = s.allocCalls + fs.length ∧ t.answers = rest ∧
      TokensKept s t ∧ t.bound = s.bound ∧ t.ridxReg = s.ridxReg := by
  obtain ⟨hlevels, hleaf, -⟩ := missing_levels hunused.2.2.2.1
  obtain ⟨m, ws, c, last, hc, hpath, hto, hread, hcreated⟩ := maps_createPath hadm hunused haccess hn.le
  rw [hn, ← hlevels] at hpath
  rw [hn, hleaf] at hto hread hcreated
  have hq : leafDescriptor sz s.inp.frame c.inp.flags c.inp.attr =
      .error (.contractViolation (if sz = .k4 then .setFrameWithoutTop else .setBlockWithTop)) := by
    rw [hc]
    exact leafDescriptor_wrongKind htop _
  obtain ⟨u, hu, hend⟩ := mapLeaf_faults_setter hpath hread hq
  refine ⟨takeFault _ u, by rw [exec_of_maps hi hadm, hend]; rfl, rfl, rfl, rfl, hcreated _ _ ⟨fun x _ => ?_, ?_⟩, ?_⟩
  · rw [takeFault_mem, core_mem hu]
  · rw [takeFault_mem, core_mem hu]
    exact Option.some.inj (hto.readNow_last.symm.trans hread)
  · simp [TokensKept, core_bound hu, core_ridxReg hu, core_tokens hu, core_nextToken hu, core_answers hu,
      core_allocCalls hu, hc]

end

/-- Settles O25: each missing table is reached through the link to the one before it, so the descent creates them one by one,
and the leaf, the allocator or the leaf's setter then ends the command. -/
theorem mapCreatesTables : Obligations.MapCreatesTables := by
  unfold Obligations.MapCreatesTables
  refine ⟨by decide, fun s page hempty hw => ⟨rfl, hempty _ hw⟩, ?_⟩
  intro s i sz page l base fs rest hi hadm hunused haccess
  refine ⟨fun hn htop => ?_, maps_lacksFrame hadm hunused haccess hi, fun hn htop => ?_⟩
  · rw [← hn]
    exact maps_creates hadm hunused haccess hi hn htop
  · rw [← hn]
    exact maps_wrongKind hadm hunused haccess hi hn htop

end Sys2Proof.Machine
end

section
/-! PROOF. TableVA (spec/42_recursive_walk.md R146-R149, R162): its closed forms, what RPT.TABLE_VA answers, and the resolution
law. -/

namespace Sys2Proof.Machine

/-! ## The closed forms of TableVA (R146, R148) -/

/-- VA4 as a sum, one summand for each index. -/
theorem va4_eq_sum (a b c d : BitVec 9) : va4 a b c d =
    a.setWidth 64 * 0x8000000000 + b.setWidth 64 * 0x40000000 + c.setWidth 64 * 0x200000 + d.setWidth 64 * 0x1000 := by
  apply BitVec.eq_of_toNat_eq
  rw [va4_toNat]
  bv_omega

/-- Settles O15: VA4 is a sum, and the summands of the indices that are R = 511 add up to the constants of R148. -/
theorem tableVaClosedForms : Obligations.TableVaClosedForms := by
  unfold Obligations.TableVaClosedForms
  refine ⟨fun p => ⟨rfl, ?_, ?_, ?_⟩, by decide⟩
  · exact va4_eq_sum 511 511 511 (idx .l4 p)
  · exact va4_eq_sum 511 511 (idx .l4 p) (idx .l3 p)
  · exact va4_eq_sum 511 (idx .l4 p) (idx .l3 p) (idx .l2 p)

/-! ## RPT.TABLE_VA (R147) -/

/-- The value of the LEVEL port that names a level. -/
def levelPort : Level → BitVec 3
  | .l1 => 1
  | .l2 => 2
  | .l3 => 3
  | .l4 => 4

theorem levelOf_eq_some {v : BitVec 3} {l : Level} (h : levelOf v = some l) : v = levelPort l := by
  revert v
  cases l <;> decide

theorem levelOf_eq_none : ∀ v : BitVec 3, levelOf v = none ↔ v = 0 ∨ 4 < v.toNat := by decide

/-- In a state that is neither faulted nor busy, a command with check 4 of R193 alone to meet. -/
theorem command_needsBound {s : State} (h : Ready s) (body : State → Res OutPorts) :
    command { needsBound := true } body s =
      if s.bound = false then .next (afterRefusal .notBound s) else conclude (body (beginCommand s)) := by
  split
  case isTrue hunbound =>
    obtain ⟨hfaulted, hbusy⟩ := h
    exact command_of_refused (by simp [refusalOf, hfaulted, hbusy, hunbound]) body
  case isFalse hbound =>
    exact command_of_admitted (refusalOf_of_readyBound ⟨h, Bool.eq_true_of_not_eq_false hbound⟩) body

/-- Settles O14: LEVEL is decided before the binding, and the result is a function of the ports and the registers. -/
theorem tableVaAnswers : Obligations.TableVaAnswers := by
  unfold Obligations.TableVaAnswers
  refine ⟨by decide, fun s h => ?_⟩
  rw [exec, execRptTableVa]
  simp only [← levelOf_eq_none]
  cases hl : levelOf s.inp.level with
  | none => exact refuseWord_of_ready h
  | some l =>
    change command { needsBound := true } _ s = _
    rw [if_neg nofun, command_needsBound h, levelOf_eq_some hl]
    cases l <;> rfl

/-! ## The resolution law (R149, R162) -/

theorem entryAt_zero (t : Word) : entryAt t 0 = t := by simp [entryAt]

/-- Settles O17: the law for every entry of TableVA(L, P), whose own address is that of its entry 0. -/
theorem recursiveAddressesResolve : Obligations.RecursiveAddressesResolve := by
  unfold Obligations.RecursiveAddressesResolve
  intro s kind p l base hroot hslot hbase hpmem hperm
  refine ⟨?_, fun i => reach_recursive hroot hslot hpmem hbase hperm i.isLt⟩
  have hoffset : offsetIn (tableVaOf s l p) .k4 = 0 := eq_of_beq (tableVa_aligned ..)
  have hwalk := walkNow_recursive hroot hslot hpmem hbase hperm (i := 0) (by decide)
  rw [entryAt_zero, hoffset] at hwalk
  exact hwalk.trans (congrArg (WalkResult.okay · .k4) (BitVec.add_zero base))

end Sys2Proof.Machine
end

section
/-! PROOF. RPT.BIND and RPT.CREATE_NEXT_TABLE (spec/42_recursive_walk.md R145, R155-R160): how the slot and the entry that are read
decide the command's end, and what it then leaves. -/

namespace Sys2Proof.Machine

/-! ## RPT.BIND (R145, R160) -/

theorem physRead_of_inPmem {a : Nat} {s : State} (h : inPmem s.config a = true) :
    physRead a s = (some (s.mem.read64 a), record (.physRead a (s.mem.read64 a)) s) := if_pos h

theorem slotPointsAt_iff (s : State) (r : BitVec 9) :
    slotPointsAt (rootSlot s r) s.config.rootPa = true ↔ RecursiveSlot s r := by
  simp [slotPointsAt, RecursiveSlot, and_assoc]

/-- The state in which the slot on RIDX has been read and the event recorded. -/
def afterSlotRead (s : State) : State :=
  record (.physRead (s.config.rootPa.toNat + 8 * s.inp.ridx.toNat) (rootSlot s s.inp.ridx)) (beginCommand s)

@[simp] theorem afterSlotRead_config (s : State) : (afterSlotRead s).config = s.config := record_config ..

/-- The slot on RIDX is read once, and decides how RPT.BIND ends. -/
theorem exec_rptBind_of_ready {s : State} (h : Ready s) (hroot : RootTable s.config) : exec .rptBind s =
    if RecursiveSlot s s.inp.ridx then
      .next (completeCommand {} { afterSlotRead s with ridxReg := (afterSlotRead s).inp.ridx, bound := true })
    else .next (takeFault .notRecursivelyMapped (afterSlotRead s)) := by
  have hread : physRead (s.config.rootPa.toNat + 8 * s.inp.ridx.toNat) (beginCommand s) =
      (some (rootSlot s s.inp.ridx), afterSlotRead s) := physRead_of_inPmem (inPmem_entry hroot.2 s.inp.ridx)
  rw [exec, execRptBind, command_unchecked h]
  simp only [beginCommand_config, beginCommand_inp, hread, afterSlotRead_config, slotPointsAt_iff]
  exact apply_ite conclude ..

/-- Settles O16: the slot lies in PMEM, so it is read, and its descriptor decides between the binding and the fault. -/
theorem bindAnswers : Obligations.BindAnswers := by
  unfold Obligations.BindAnswers
  refine ⟨by decide, fun s h hroot => ?_⟩
  rw [exec_rptBind_of_ready h hroot, StopsBlock, exec_rptBind_of_ready h hroot]
  refine ⟨fun hslot => ?_, fun hslot => ?_⟩
  · refine ⟨_, if_pos hslot, ?_⟩
    simp [afterSlotRead, h.1, MemoryKept, TokensKept, AllocatorKept, okPorts, Status.code]
  · refine ⟨_, if_neg hslot, ?_⟩
    simp [afterSlotRead, MemoryKept, TokensKept, AllocatorKept]

/-! ## RPT.CREATE_NEXT_TABLE (R155-R159) -/

/-- Where create_next_table goes on, the command's body goes on with NEXT_VA on VA_OUT. -/
theorem goesOn_nextVa {r : Res Unit} {c : State} (h : GoesOn r c ()) :
    GoesOn (r.bind fun _ t => .done { vaOut := some t.inp.nextVa : OutPorts } t) c { vaOut := some c.inp.nextVa } :=
  h.bind_goesOn fun u hu => ⟨u, hu, by rw [core_inp hu]⟩

/-- The zeros, newest first, as a list over the indices. -/
theorem zeroWrites_eq (a i n : Nat) : zeroWrites a i n =
    (List.range' i n).reverse.map fun k => { pa := a + 8 * k, val := 0, published := false } := by
  induction n generalizing i with
  | zero => rfl
  | succ n ih => rw [zeroWrites, ih, List.range'_succ, List.reverse_cons, List.map_append]; rfl

/-- Settles O19: create_next_table leaves the link and the zeros, and the command adds its results only. -/
theorem createNextTableLinks : Obligations.CreateNextTableLinks := by
  unfold Obligations.CreateNextTableLinks
  refine ⟨by decide, fun s pa f link hadm hnew => ?_⟩
  obtain ⟨-, -, hlink, -, hpa, -⟩ := id hnew
  refine ⟨eq_of_setFrame_ok hlink, ?_⟩
  have hnew : NewTable (beginCommand s) s.inp.entryVa s.inp.nextVa pa f link := hnew
  obtain ⟨u, hu, hbody⟩ := goesOn_nextVa (createNextTable_creates rfl hnew)
  refine ⟨completeCommand _ u, (exec_of_admittedTable hadm).trans (congrArg conclude hbody), rfl, ?_⟩
  have hmem : u.mem = (afterTable (beginCommand s) pa f link).mem := core_mem hu
  rw [completeCommand_mem, hmem]
  refine ⟨afterTable_link hpa, fun i => afterTable_entry _ _ _ _, fun x => afterTable_outside, ?_, ?_⟩
  · rw [completeCommand_writes, core_writes hu, List.range_eq_range', ← zeroWrites_eq]
    rfl
  · simp [TokensKept, RegistersKept, core_config hu, core_inp hu, core_bound hu, core_ridxReg hu, core_faulted hu,
      core_faultReason hu, core_launchMem hu, core_tokens hu, core_nextToken hu, core_pos hu, core_script hu,
      core_answers hu, core_allocCalls hu, afterTable, afterLink, afterAlloc]

/-- Settles O20: one case for each outcome of create_next_table at an entry that is read, none of which writes. -/
theorem createNextTableOutcomes : Obligations.CreateNextTableOutcomes := by
  unfold Obligations.CreateNextTableOutcomes
  intro s e hadm he
  have hexec := exec_of_admittedTable hadm
  have he : readNow (beginCommand s) s.inp.entryVa = some e := he
  refine ⟨fun hv ht => ?_, fun h0 ht => ?_, fun hv ht => ?_, ?_⟩
  · exact answers_of_goesOn hexec (goesOn_nextVa (createNextTable_of_table he hv ht))
  · exact failsWith_of_errs hexec (ErrsFrom.bind (createNextTable_of_block he h0 ht) _)
  · exact stopsBlock_of_faults hexec (FaultsFrom.bind (createNextTable_of_malformed he hv ht) _)
  · rintro rfl hnone
    exact failsAfterAlloc_of_errs hexec (ErrsFrom.bind (createNextTable_of_noFrame he hnone) _)

end Sys2Proof.Machine
end

section
/-! PROOF. The flush tokens (spec/43_flush_token.md R165-R171): how a discharge is decided, what TOK.FLUSH and TOK.IGNORE then leave,
and that outstanding tokens keep distinct identifiers. -/

namespace Sys2Proof.Machine

/-! ## When a discharge is admitted (R171) -/

/-- In a state that is neither faulted nor busy, a discharge has check 9 of R193 alone to meet. -/
theorem command_discharge {s : State} (h : Ready s) (body : State → Res OutPorts) :
    command { token := some s.inp.token } body s =
      if outstanding s s.inp.token = true then conclude (body (beginCommand s))
      else .next (afterRefusal .tokenNotOutstanding s) := by
  obtain ⟨hfaulted, hbusy⟩ := h
  split
  case isTrue hout =>
    refine command_of_admitted ?_ body
    simp [refusalOf_eq_none_iff, hfaulted, hbusy, hout, outOfMask, tooWide, inWindow, notOutstanding]
  case isFalse hout =>
    refine command_of_refused ?_ body
    simp [refusalOf, hfaulted, hbusy, hout, outOfMask, tooWide, inWindow, notOutstanding]

/-- A command that reports OK was admitted: a refusal leaves STATUS without a value. -/
theorem conclude_of_command_okay {c : Checks} {body : State → Res OutPorts} {s t : State}
    (h : command c body s = .next t) (hok : t.out.status = some 0x00) : conclude (body (beginCommand s)) = .next t := by
  cases hr : refusalOf c s with
  | some r =>
    rw [command_of_refused hr] at h
    obtain rfl := Host.Outcome.next.inj h
    cases hok
  | none => rwa [command_of_admitted hr] at h

/-! ## The two discharges (R167, R168, R170) -/

/-- The state TOK.FLUSH of an outstanding token leaves. -/
def afterFlush (s : State) : State :=
  completeCommand {} (discharge s.inp.token .flush (isb (tlbiAllIS (beginCommand s))))

/-- The state TOK.IGNORE of an outstanding token leaves. -/
def afterIgnore (s : State) : State := completeCommand {} (discharge s.inp.token .ignore (beginCommand s))

theorem exec_tokFlush (s : State) : exec .tokFlush s = command { token := some s.inp.token }
    (fun t => .done {} (discharge t.inp.token .flush (isb (tlbiAllIS t)))) s := rfl

theorem exec_tokIgnore (s : State) : exec .tokIgnore s = command { token := some s.inp.token }
    (fun t => .done {} (discharge t.inp.token .ignore t)) s := rfl

theorem exec_tokFlush_of_ready {s : State} (h : Ready s) : exec .tokFlush s =
    if outstanding s s.inp.token = true then .next (afterFlush s) else .next (afterRefusal .tokenNotOutstanding s) := by
  rw [exec_tokFlush, command_discharge h]
  rfl

theorem exec_tokIgnore_of_ready {s : State} (h : Ready s) : exec .tokIgnore s =
    if outstanding s s.inp.token = true then .next (afterIgnore s) else .next (afterRefusal .tokenNotOutstanding s) := by
  rw [exec_tokIgnore, command_discharge h]
  rfl

/-- A TOK.FLUSH that reports OK has flushed. -/
theorem eq_afterFlush {s t : State} (h : exec .tokFlush s = .next t) (hok : t.out.status = some 0x00) :
    t = afterFlush s :=
  (Host.Outcome.next.inj (conclude_of_command_okay ((exec_tokFlush s).symm.trans h) hok)).symm

/-- A TOK.IGNORE that reports OK has discharged its token. -/
theorem eq_afterIgnore {s t : State} (h : exec .tokIgnore s = .next t) (hok : t.out.status = some 0x00) :
    t = afterIgnore s :=
  (Host.Outcome.next.inj (conclude_of_command_okay ((exec_tokIgnore s).symm.trans h) hok)).symm

/-- Either discharge removes the token named on TOKEN, and no other. -/
theorem afterFlush_tokens (s : State) : (afterFlush s).tokens = s.tokens.filter (fun k => k.id != s.inp.token) := by
  simp [afterFlush, discharge, isb, tlbiAllIS]

theorem afterIgnore_tokens (s : State) : (afterIgnore s).tokens = s.tokens.filter (fun k => k.id != s.inp.token) := by
  simp [afterIgnore, discharge]

theorem afterFlush_writes (s : State) : (afterFlush s).writes = publish s.writes := by
  simp [afterFlush, discharge, isb, tlbiAllIS]

/-- With no move to come, nothing is cached after the TlbiAllIS. -/
theorem afterFlush_tlb {s : State} (h : s.slots = []) : (afterFlush s).tlb = [] ∧ (afterFlush s).walks = [] := by
  simp [afterFlush, discharge, isb, tlbiAllIS, record_of_no_moves, h]

/-- TOK.IGNORE leaves what is cached as it is. -/
theorem afterIgnore_tlb {s : State} (h : s.slots = []) :
    (afterIgnore s).tlb = s.tlb ∧ (afterIgnore s).walks = s.walks := by
  simp [afterIgnore, discharge, record_of_no_moves, h]

/-- Settles O38: TlbiAllIS publishes and empties the TLBs, Isb is recorded, and the discharge removes the token. -/
theorem flushAnswers : Obligations.FlushAnswers := by
  unfold Obligations.FlushAnswers
  refine ⟨by decide, fun s hready hout => ⟨afterFlush s, ?_, rfl, afterFlush_tokens s, ?_, afterFlush_writes s, ?_,
    ?_, ?_, ?_, afterFlush_tlb⟩⟩
  · rw [exec_tokFlush_of_ready hready, if_pos hout]
  all_goals simp [RegistersKept, AllocatorKept, afterFlush, discharge, isb, tlbiAllIS]

/-- Settles O39: the discharge is the command's only event. -/
theorem ignoreAnswers : Obligations.IgnoreAnswers := by
  unfold Obligations.IgnoreAnswers
  refine ⟨by decide, fun s hready hout => ⟨afterIgnore s, ?_, rfl, afterIgnore_tokens s, ?_, ?_, ?_, ?_, ?_, ?_,
    afterIgnore_tlb⟩⟩
  · rw [exec_tokIgnore_of_ready hready, if_pos hout]
  all_goals simp [RegistersKept, AllocatorKept, afterIgnore, discharge]

/-- Which identifiers are outstanding once the token `id` is gone. -/
theorem outstanding_of_filter {s t : State} {id : BitVec 32} (h : t.tokens = s.tokens.filter (fun k => k.id != id))
    (k : BitVec 32) : outstanding t k = (outstanding s k && k != id) := by
  rw [Bool.eq_iff_iff]
  simp only [outstanding, h, List.any_eq_true, List.mem_filter, Bool.and_eq_true, bne_iff_ne, beq_iff_eq]
  constructor
  · rintro ⟨x, ⟨hx, hne⟩, rfl⟩
    exact ⟨⟨x, hx, rfl⟩, hne⟩
  · rintro ⟨⟨x, hx, rfl⟩, hne⟩
    exact ⟨x, ⟨hx, hne⟩, rfl⟩

/-- Settles O40: a discharge is admitted for an outstanding token only, which it alone removes. -/
theorem dischargeOnce : Obligations.DischargeOnce := by
  unfold Obligations.DischargeOnce
  refine ⟨fun s hready hout => ?_, fun s t i hi h hok => ?_⟩
  · rw [exec_tokFlush_of_ready hready, exec_tokIgnore_of_ready hready, hout]
    exact ⟨rfl, rfl⟩
  · have htokens : t.tokens = s.tokens.filter (fun k => k.id != s.inp.token) := by
      obtain rfl | rfl := hi
      · rw [eq_afterFlush h hok, afterFlush_tokens]
      · rw [eq_afterIgnore h hok, afterIgnore_tokens]
    exact ⟨by simp [outstanding_of_filter htokens], fun k hk => by simp [outstanding_of_filter htokens, hk]⟩

/-! ## What every step keeps (R165; spec/10_state.md R25) -/

/-- A token is created under an identifier that is free, and a discharge creates none. -/
theorem TokensDistinct.applyPrim {s : State} (p : Prim) (hl : legalPrim p s) (h : TokensDistinct s) :
    TokensDistinct (applyPrim p s) := by
  have hkept : keepsTokens p → TokensDistinct (Machine.applyPrim p s) := fun hk => by
    obtain ⟨htokens, -⟩ := Trace.tokens_eq (A := (· = p)) (by rintro _ rfl; exact hk) (.snoc p (.refl s) rfl hl)
    rwa [TokensDistinct, htokens]
  cases p with
  | token page sz =>
    have hfree : s.nextToken ∉ s.tokens.map Token.id := by
      simpa [legalPrim, outstanding] using hl
    rw [TokensDistinct, Machine.applyPrim, newToken, record_tokens]
    exact List.nodup_cons.2 ⟨hfree, h⟩
  | discharge t how =>
    rw [TokensDistinct, Machine.applyPrim, discharge, record_tokens]
    exact h.sublist (List.filter_sublist.map Token.id)
  | _ => exact hkept trivial

/-- A store keeps the canonical form of PMEM, and no other action touches it. -/
theorem MemoryCanonical.applyPrim {s : State} (p : Prim) (h : MemoryCanonical s) : MemoryCanonical (applyPrim p s) := by
  obtain ⟨hmem, hlaunch⟩ := h
  refine ⟨?_, by rwa [applyPrim_launchMem]⟩
  cases p with
  | store va pa v =>
    rw [Machine.applyPrim, record_mem]
    exact Memory.wf_write64 _ _ _ hmem
  | _ => exact (congrArg Memory.wf (applyPrim_mem s (by simp))).trans hmem

/-- Settles O56: the gaps touch neither, and each action keeps both. -/
theorem stepKeepsTokensAndMemoryLegal : Obligations.StepKeepsTokensAndMemoryLegal := by
  unfold Obligations.StepKeepsTokensAndMemoryLegal
  refine ⟨fun s t hs h => ?_, fun s t hs h => ?_⟩
  · exact step_keeps (Inv := TokensDistinct) (fun u hu => by rwa [TokensDistinct, turn_tokens]) (fun _ _ hu => hu)
      (fun p _ hl hu => TokensDistinct.applyPrim p hl hu) hs h
  · exact step_keeps (Inv := MemoryCanonical) (fun u hu => by rwa [MemoryCanonical, turn_mem, turn_launchMem])
      (fun _ _ hu => hu) (fun p _ _ hu => MemoryCanonical.applyPrim p hu) hs h

end Sys2Proof.Machine
end

section
/-! PROOF. After TOK.FLUSH observers see the current table contents (spec/43_flush_token.md R169, spec/20_memory.md R63): where every
write is published, each window an observer reads is the value PMEM holds. -/

namespace Sys2Proof.Machine

/-! ## The window of an address whose writes are published (spec/20_memory.md R58) -/

theorem windowAt_of_published {s : State} (h : HistoryAgrees s) (hp : ∀ w ∈ s.writes, w.published = true) {a : Nat}
    (ha : a % 8 = 0) : windowAt s a = [s.mem.read64 a] := by
  obtain ⟨-, hlast⟩ := h
  have hlast := hlast a ha
  have hall : ∀ e ∈ histOf s a, e.2 = true := by
    simpa [histOf] using fun _ w hw _ _ => hp w hw
  rw [windowAt]
  cases hhist : histOf s a with
  | nil => simp [hhist] at hlast
  | cons e older =>
    have hpublished : e.2 = true := hall e (by simp [hhist])
    have hval : e.1 = s.mem.read64 a := by simpa [hhist] using hlast
    rw [windowOf, if_pos hpublished, hval]

/-- An observer then reads what PMEM holds, whatever it picks. -/
theorem observerDesc_of_window {s : State} {a : Nat} (h : windowAt s a = [s.mem.read64 a]) (picks read : List Nat) :
    (observerDesc s a picks).1 = (descNow s a read).1 := by
  by_cases ha : inPmem s.config a = true
  · simp [observerDesc, descNow, ha, h]
  · simp [observerDesc, descNow, ha]

/-! ## Walks read 8-aligned addresses (spec/20_memory.md R50) -/

theorem mod_eight_of_aligned {t : Word} (h : aligned t .k4 = true) : t.toNat % 8 = 0 := by
  have := (aligned_k4_iff t).1 h
  omega

/-- Walks from a page-aligned table whose reads answer the same at every 8-aligned address give the same result. -/
theorem walkFrom_result_of_aligned {σ τ : Type} {desc : Nat → σ → Option Word × σ} {desc' : Nat → τ → Option Word × τ}
    {perm : List Word → Bool} {va : Word} (hdesc : ∀ a s t, a % 8 = 0 → (desc a s).1 = (desc' a t).1) (rest : List Level)
    (l : Level) {b : Word} (hb : aligned b .k4 = true) (chain : List Word) (s : σ) (t : τ) :
    (walkFrom desc perm va l rest b chain s).1 = (walkFrom desc' perm va l rest b chain t).1 := by
  have ha : (b.toNat + 8 * (idx l va).toNat) % 8 = 0 := by
    have := mod_eight_of_aligned hb
    omega
  have hd := hdesc _ s t ha
  generalize hx : desc (b.toNat + 8 * (idx l va).toNat) s = x at hd
  generalize hy : desc' (b.toNat + 8 * (idx l va).toNat) t = y at hd
  obtain ⟨d, u⟩ := x
  obtain ⟨d', v⟩ := y
  obtain rfl : d = d' := hd
  cases d with
  | none => rw [walkFrom_of_absent hx, walkFrom_of_absent hy]
  | some d =>
    rw [walkFrom_of_read hx, walkFrom_of_read hy]
    refine (afterDesc_sameResult (R := fun _ _ => True) (fun l' rest' he => ⟨?_, trivial⟩) trivial).1
    subst he
    exact walkFrom_result_of_aligned hdesc rest' l' (aligned_and_addrMask d) _ u v

/-- Where every write is published, a fresh walk of an observer is the walk over the current contents. -/
theorem observerWalk_of_published {s : State} (h : HistoryAgrees s) (hp : ∀ w ∈ s.writes, w.published = true)
    (hroot : RootTable s.config) (kind : Access) (va : Word) (picks : List Nat) :
    observerWalk s kind va picks = (walkNow s kind va).1 :=
  walkFrom_result_of_aligned (fun _ picks read ha => observerDesc_of_window (windowAt_of_published h hp ha) picks read)
    _ _ hroot.1 _ _ _

/-- Settles O41: TlbiAllIS has published every write, and with no move to come it has left nothing cached. -/
theorem flushMakesWritesVisible : Obligations.FlushMakesWritesVisible := by
  unfold Obligations.FlushMakesWritesVisible
  intro s t hs hroot h hok o kind va picks cached unspec
  have hx := exec_traced .tokFlush s t h
  have hagrees : HistoryAgrees t := hx.keeps (fun _ _ hu => hu) (fun p _ _ hl hu => hu.applyPrim p hl) hs
  have hconfig : t.config = s.config := hx.unchanged State.config (fun _ _ => rfl) fun p u _ => applyPrim_config p u
  obtain rfl := eq_afterFlush h hok
  have hpublished : ∀ w ∈ (afterFlush s).writes, w.published = true := by
    simp [afterFlush_writes, publish]
  have hwalk := observerWalk_of_published hagrees hpublished (hconfig ▸ hroot) kind va picks
  refine ⟨hwalk, fun hslots => ?_⟩
  obtain ⟨htlb, -⟩ := afterFlush_tlb hslots
  rw [← hwalk]
  cases cached <;> simp [translation, htlb]

end Sys2Proof.Machine
end

section
/-! PROOF. ATTR.LOOKUP (spec/44_memory_attributes.md R175, R176): the kind that KIND names decides the answer, and the reserved
value is refused. -/

namespace Sys2Proof.Machine

/-- KIND = 3 is the only value that names no kind (R86). -/
theorem memKindOf_of_reserved : ∀ v : BitVec 2, v ≠ 0 → v ≠ 1 → v ≠ 2 → memKindOf v = none := by decide

theorem exec_attrLookup_of_kind {s : State} {k : MemKind} (h : Ready s) (hk : memKindOf s.inp.kind = some k) :
    exec .attrLookup s =
      .next (afterOk { idxOut := some (mairIdx s.config k), val := some (attrBits s.config k) } s) := by
  simp only [exec, execAttrLookup, hk]
  exact command_completes h rfl

theorem exec_attrLookup_of_reserved {s : State} (h : Ready s) (hk : memKindOf s.inp.kind = none) :
    exec .attrLookup s = .next (afterRefusal .illegalCommand s) := by
  simp only [exec, execAttrLookup, hk]
  exact refuseWord_of_ready h

/-- Settles O13: each value of KIND names its kind, of which the results are functions, or is the reserved one. -/
theorem attrLookupAnswers : Obligations.AttrLookupAnswers := by
  unfold Obligations.AttrLookupAnswers
  refine ⟨by decide, fun s h => ?_, attrBits_ok⟩
  split_ifs with h0 h1 h2
  · exact exec_attrLookup_of_kind (k := .normal) h (by rw [h0]; rfl)
  · exact exec_attrLookup_of_kind (k := .device) h (by rw [h1]; rfl)
  · exact exec_attrLookup_of_kind (k := .normalNc) h (by rw [h2]; rfl)
  · exact exec_attrLookup_of_reserved h (memKindOf_of_reserved _ h0 h1 h2)

end Sys2Proof.Machine
end

section
/-! PROOF. How the parts of a command stop (spec/60_exceptions.md R185, R187, R188, R190): with one of the error codes 1 to 7 or
a fault, and with the tokens and the binding as they were, whatever was read, written and allocated before. -/

namespace Sys2Proof.Machine

/-! ## Stopping with nothing touched (R187, R188, R190) -/

/-- What a command that does not complete leaves as it is. -/
structure Untouched (s u : State) : Prop where
  tokens : TokensKept s u
  bound : u.bound = s.bound
  ridxReg : u.ridxReg = s.ridxReg
  faulted : u.faulted = s.faulted

/-- The part `r` of a command that began in `s` goes on in a state with `P`, or stops: with a typed error or a fault, and
every token and the binding as they were. -/
def StopsClean {α : Type} (s : State) (P : State → Prop) : Res α → Prop
  | .done _ u => P u
  | .error c u => c ≠ .okay ∧ Untouched s u
  | .fault _ u => Untouched s u

section
variable {α β : Type} {s t u : State} {P : State → Prop}

theorem untouched_beginCommand (s : State) : Untouched s (beginCommand s) := ⟨⟨rfl, rfl⟩, rfl, rfl, rfl⟩

theorem Untouched.of_core (h : Untouched s t) (hu : coreOf u = coreOf t) : Untouched s u where
  tokens := ⟨(core_tokens hu).trans h.tokens.1, (core_nextToken hu).trans h.tokens.2⟩
  bound := (core_bound hu).trans h.bound
  ridxReg := (core_ridxReg hu).trans h.ridxReg
  faulted := (core_faulted hu).trans h.faulted

theorem Untouched.applyPrim {p : Prim} (hp : tablePrim p) (h : Untouched s t) : Untouched s (applyPrim p t) where
  tokens := by cases p <;> simp_all [tablePrim, TokensKept, Machine.applyPrim, barrier, alloc, h.tokens]
  bound := ((applyPrim_binding t (by rintro rfl; exact hp)).1).trans h.bound
  ridxReg := ((applyPrim_binding t (by rintro rfl; exact hp)).2).trans h.ridxReg
  faulted := (applyPrim_faulted p t).trans h.faulted

theorem StopsClean.bind {r : Res α} {f : α → State → Res β} (hr : StopsClean s (Untouched s) r)
    (hf : ∀ a u, Untouched s u → StopsClean s P (f a u)) : StopsClean s P (r.bind f) := by
  cases r with
  | done a u => exact hf a u hr
  | error c u => exact hr
  | fault q u => exact hr

/-! ## The shared operations -/

theorem memRead_stopsClean (va : Word) (h : Untouched s t) : StopsClean s (Untouched s) (memRead va t) := by
  obtain ⟨pa, u, -, hu, -, hm⟩ | ⟨u, -, hu, -, hm⟩ := memRead_cases va t <;> rw [hm]
  · exact h.of_core ((coreOf_record _ u).trans hu)
  · exact h.of_core hu

theorem memWrite_stopsClean (va v : Word) (h : Untouched s t) : StopsClean s (Untouched s) (memWrite va v t) := by
  obtain ⟨pa, u, -, hu, -, hm⟩ | ⟨u, -, hu, -, hm⟩ := memWrite_cases va v t <;> rw [hm]
  · exact (h.of_core hu).applyPrim (p := .store va pa v) trivial
  · exact h.of_core hu

theorem ofSetter_stopsClean (e : Except FaultReason Word) (h : Untouched s t) :
    StopsClean s (Untouched s) (ofSetter e t) := by
  cases e <;> exact h

theorem zeroFrom_stopsClean (b : Word) (n i : Nat) (h : Untouched s t) :
    StopsClean s (Untouched s) (zeroFrom b i n t) := by
  induction n generalizing i t with
  | zero => exact h
  | succ n ih => exact (memWrite_stopsClean _ _ h).bind fun _ u hu => ih _ hu

theorem createNextTable_stopsClean (eva nva : Word) (h : Untouched s t) :
    StopsClean s (Untouched s) (createNextTable eva nva t) := by
  refine (memRead_stopsClean eva h).bind fun e u hu => ?_
  split_ifs
  · have ha : Untouched s (alloc u).2 := hu.applyPrim (p := .alloc) trivial
    generalize alloc u = a at ha
    obtain ⟨_ | f, w⟩ := a
    · exact ⟨nofun, ha⟩
    · exact (ofSetter_stopsClean _ ha).bind fun link _ hl => (memWrite_stopsClean eva link hl).bind fun _ v hv =>
        zeroFrom_stopsClean nva _ _ (hv.applyPrim (p := .barrier) trivial)
  · exact ⟨nofun, hu⟩
  · exact hu
  · exact hu

theorem createPath_stopsClean (p : Word) (ls : List Level) (h : Untouched s t) :
    StopsClean s (Untouched s) (createPath p ls t) := by
  induction ls generalizing t with
  | nil => exact h
  | cons l ls ih => exact (createNextTable_stopsClean _ _ h).bind fun _ u hu => ih hu

theorem readPath_stopsClean {classify : Word → Option Status} (hc : ∀ e, classify e ≠ some .okay) (p : Word)
    (ls : List Level) (h : Untouched s t) : StopsClean s (Untouched s) (readPath classify p ls t) := by
  induction ls generalizing t with
  | nil => exact h
  | cons l ls ih =>
    refine (memRead_stopsClean _ h).bind fun e u hu => ?_
    cases he : classify e with
    | none => exact ih hu
    | some c => exact ⟨by rintro rfl; exact hc e he, hu⟩

theorem nonLeaf_ne_okay {onBlock : Status} (h : onBlock ≠ .okay) (e : Word) : nonLeaf onBlock e ≠ some .okay := by
  unfold nonLeaf
  split_ifs <;> simp [h]

theorem readWalk_stopsClean {onBlock : Status} (hb : onBlock ≠ .okay) (p : Word) (sz : PageSize) (h : Untouched s t) :
    StopsClean s (Untouched s) (readWalk onBlock p sz t) :=
  (readPath_stopsClean (nonLeaf_ne_okay hb) p _ h).bind fun _ _ hu => hu

theorem afterEntry_stopsClean {v e : Word} {l : Level} {rest : List Level}
    (hrest : ∀ l' rest', rest = l' :: rest' → StopsClean s (Untouched s) (translateFrom v l' rest' t))
    (h : Untouched s t) : StopsClean s (Untouched s) (afterEntry v l rest e t) := by
  unfold afterEntry
  split_ifs
  · exact ⟨nofun, h⟩
  · split
    · exact ⟨nofun, h⟩
    · split_ifs
      · exact h
      · exact ⟨nofun, h⟩
  · split
    · exact h
    · exact hrest _ _ rfl

/-- The descent stops at a level, or goes on to the next. -/
theorem translateFrom_stopsClean (v : Word) (rest : List Level) (l : Level) (h : Untouched s t) :
    StopsClean s (Untouched s) (translateFrom v l rest t) := by
  induction rest generalizing l t with
  | nil =>
    rw [translateFrom_eq]
    exact (memRead_stopsClean _ h).bind fun e u hu => afterEntry_stopsClean nofun hu
  | cons l' rest ih =>
    rw [translateFrom_eq]
    refine (memRead_stopsClean _ h).bind fun e u hu => afterEntry_stopsClean ?_ hu
    rintro _ _ ⟨⟩
    exact ih _ hu

/-! ## The errors are typed (R185) -/

theorem pteFrame_ne_okay {e : Word} {c : Status} (h : pteFrame e = .error c) : c ≠ .okay := by
  rintro rfl
  revert h
  unfold pteFrame
  split_ifs <;> simp

theorem mapperError_ne_okay {c : Status} (h : c ≠ .okay) : mapperError c ≠ .okay := by
  cases c with
  | okay => exact absurd rfl h
  | _ => exact nofun

theorem unmapClassify_ne_okay (e : Word) : unmapClassify e ≠ some .okay := by
  unfold unmapClassify
  split
  · exact nofun
  next c h => exact fun hc => mapperError_ne_okay (pteFrame_ne_okay h) (Option.some.inj hc)

theorem hugeFrame_ne_okay (sz : PageSize) (e : Word) : unmapFrame.hugeFrame sz e ≠ .error .okay := by
  unfold unmapFrame.hugeFrame
  split_ifs <;> exact nofun

theorem unmapFrame_ne_okay (sz : PageSize) (e : Word) : unmapFrame sz e ≠ .error .okay := by
  cases sz with
  | k4 =>
    simp only [unmapFrame]
    split
    · exact nofun
    next c h => exact fun hc => mapperError_ne_okay (pteFrame_ne_okay h) (Except.error.inj hc)
  | m2 | g1 => exact hugeFrame_ne_okay _ e

theorem translateLeaf_ne_okay (sz : PageSize) (e : Word) : translateLeaf sz e ≠ .error .okay := by
  unfold translateLeaf
  split_ifs <;> exact nofun

end

/-! ## The bodies of the commands -/

/-- FAULTED is as it was. -/
abbrev FaultedKept (s u : State) : Prop := u.faulted = s.faulted

section
variable {s t : State} (h : Untouched s t)
include h

/-- The last action of a mutation that completes creates its token. -/
theorem newToken_faultedKept (page : Word) (sz : PageSize) : FaultedKept s (newToken page sz t).2 :=
  (applyPrim_faulted (.token page sz) t).trans h.faulted

theorem ofSetter_done_stopsClean (e : Except FaultReason Word) (f : Word → OutPorts) :
    StopsClean s (FaultedKept s) ((ofSetter e t).bind fun v u => .done (f v) u) :=
  (ofSetter_stopsClean e h).bind fun _ _ hu => hu.faulted

theorem frameAnswer_stopsClean {r : Except Status Word} (hr : r ≠ .error .okay) :
    StopsClean s (FaultedKept s) (frameAnswer r t) := by
  cases r with
  | ok f => exact h.faulted
  | error c => exact ⟨by rintro rfl; exact hr rfl, h⟩

theorem lookupLeaf_stopsClean (sz : PageSize) : StopsClean s (FaultedKept s) (lookupLeaf sz t) := by
  refine (readWalk_stopsClean (onBlock := .parentEntryHugePage) nofun _ sz h).bind fun r u hu =>
    (memRead_stopsClean r hu).bind fun e w hw => ?_
  split_ifs
  · exact ⟨nofun, hw⟩
  · exact hw.faulted

theorem mapLeaf_stopsClean (sz : PageSize) (page frame : Word) :
    StopsClean s (FaultedKept s) (mapLeaf sz page frame t) := by
  refine (createPath_stopsClean page _ h).bind fun _ u hu => (memRead_stopsClean _ hu).bind fun e w hw => ?_
  split_ifs
  · exact (ofSetter_stopsClean _ hw).bind fun new x hx => (memWrite_stopsClean _ new hx).bind fun _ y hy =>
      newToken_faultedKept hy page sz
  · exact ⟨nofun, hw⟩

theorem unmapLeaf_stopsClean (sz : PageSize) : StopsClean s (FaultedKept s) (unmapLeaf sz t) := by
  refine (readPath_stopsClean unmapClassify_ne_okay _ _ h).bind fun _ u hu =>
    (memRead_stopsClean _ hu).bind fun e w hw => ?_
  cases he : unmapFrame sz e with
  | error c => exact ⟨by rintro rfl; exact unmapFrame_ne_okay sz e he, hw⟩
  | ok f => exact (memWrite_stopsClean _ 0 hw).bind fun _ x hx => newToken_faultedKept hx _ sz

theorem updateLeaf_stopsClean (sz : PageSize) : StopsClean s (FaultedKept s) (updateLeaf sz t) := by
  refine (readWalk_stopsClean (onBlock := .parentEntryHugePage) nofun _ sz h).bind fun r u hu =>
    (memRead_stopsClean r hu).bind fun e w hw => ?_
  split_ifs
  · exact ⟨nofun, hw⟩
  · exact (memWrite_stopsClean r _ hw).bind fun _ x hx => newToken_faultedKept hx _ sz

theorem physRead_untouched (a : Nat) : Untouched s (physRead a t).2 := by
  unfold physRead
  split_ifs
  · exact h.of_core (coreOf_record _ t)
  · exact h

end

end Sys2Proof.Machine
end

section
/-! PROOF. The outcomes of commands and steps (spec/60_exceptions.md R183, R187, R190, R193): the first failing check decides
whether a command is refused, every step answers, and every end leaves legal output ports and fault state. -/

namespace Sys2Proof.Machine

/-! ## The first failing check (spec/60_exceptions.md R193) -/

/-- The check that has this reason fails, of those a command asks for. -/
def askedFails (c : Checks) (s : State) : RefuseReason → Bool
  | .blockFaulted => s.faulted
  | .concurrent => s.busy
  | .illegalCommand => c.illegal
  | .notBound => c.needsBound && !s.bound
  | .operandRange => outOfMask flagsMask c.flags || outOfMask attrMask c.attr
  | .addressWidth => tooWide s.config c.address
  | .misaligned => c.misaligned
  | .recursiveWindow => inWindow s c.mutated
  | .tokenNotOutstanding => notOutstanding s c.token
  | .tokenExhausted => c.makesToken && outstanding s s.nextToken

theorem refusalOf_eq_find (c : Checks) (s : State) : refusalOf c s = checkOrder.find? (askedFails c s) := by
  have hcons : ∀ p (r : RefuseReason) rs, List.find? p (r :: rs) = if p r then some r else List.find? p rs := by
    intro p r rs
    rw [List.find?_cons]
    cases p r <;> rfl
  simp only [checkOrder, hcons, List.find?_nil]
  rfl

/-- A command asks for the checks that R193 gives `i`. -/
structure SameChecks (i : Instr) (s : State) (c : Checks) : Prop where
  illegalCommand : askedFails c s .illegalCommand = checkFails i s .illegalCommand := by rfl
  notBound : askedFails c s .notBound = checkFails i s .notBound := by rfl
  operandRange : askedFails c s .operandRange = checkFails i s .operandRange := by rfl
  addressWidth : askedFails c s .addressWidth = checkFails i s .addressWidth := by rfl
  misaligned : askedFails c s .misaligned = checkFails i s .misaligned := by rfl
  recursiveWindow : askedFails c s .recursiveWindow = checkFails i s .recursiveWindow := by rfl
  tokenNotOutstanding : askedFails c s .tokenNotOutstanding = checkFails i s .tokenNotOutstanding := by rfl
  tokenExhausted : askedFails c s .tokenExhausted = checkFails i s .tokenExhausted := by rfl

theorem SameChecks.refusalOf_eq {i : Instr} {s : State} {c : Checks} (h : SameChecks i s c) :
    refusalOf c s = firstRefusal i s := by
  have hall : askedFails c s = checkFails i s := by
    funext r
    cases r with
    | blockFaulted | concurrent => rfl
    | illegalCommand => exact h.illegalCommand
    | notBound => exact h.notBound
    | operandRange => exact h.operandRange
    | addressWidth => exact h.addressWidth
    | misaligned => exact h.misaligned
    | recursiveWindow => exact h.recursiveWindow
    | tokenNotOutstanding => exact h.tokenNotOutstanding
    | tokenExhausted => exact h.tokenExhausted
  rw [refusalOf_eq_find, hall, firstRefusal]

/-- Where check 3 fails, no later check is looked at (R85, R86). -/
theorem refusalOf_eq_of_illegal {i : Instr} {s : State} {c : Checks} (hc : c.illegal = true)
    (hi : illegalFor s i = true) : refusalOf c s = firstRefusal i s := by
  rw [refusalOf_of_illegal hc]
  cases hf : s.faulted <;> cases hb : s.busy <;> simp [firstRefusal, checkOrder, checkFails, hf, hb, hi]

theorem aligned_iff (a : Word) (sz : PageSize) : aligned a sz = true ↔ a.toNat % sizeBytes sz = 0 := by
  have hlt : a.toNat % sizeBytes sz < 2 ^ 64 := (Nat.mod_le _ _).trans_lt a.isLt
  rw [aligned, beq_iff_eq, ← offsetIn, offsetIn_eq, ← BitVec.toNat_inj, BitVec.toNat_ofNat, Nat.mod_eq_of_lt hlt]
  rfl

theorem not_aligned_eq (a : Word) (sz : PageSize) : (!aligned a sz) = (a.toNat % sizeBytes sz != 0) := by
  rw [bne, Bool.not_inj_iff, Bool.eq_iff_iff, aligned_iff, beq_iff_eq]

theorem not_aligned8_eq (a : Word) : (!aligned8 a) = (a.toNat % 8 != 0) := by
  rw [bne, Bool.not_inj_iff, Bool.eq_iff_iff, aligned8_iff, beq_iff_eq]

theorem illegalFor_rptTableVa (s : State) : illegalFor s .rptTableVa = (levelOf s.inp.level).isNone := by
  have h : ∀ v : BitVec 3, (v == 0 || decide (4 < v.toNat)) = (levelOf v).isNone := by decide
  exact h _

theorem illegalFor_attrLookup (s : State) : illegalFor s .attrLookup = (memKindOf s.inp.kind).isNone := by
  have h : ∀ v : BitVec 2, (v == 3) = (memKindOf v).isNone := by decide
  exact h _

/-! ## Every command -/

/-- The outcome is that of a command which is refused by R193's checks of `i`, and whose body completes or stops clean. -/
def RunsChecked (i : Instr) (s : State) (o : Host.Outcome State Fault Refusal) : Prop :=
  ∃ c body, o = command c body s ∧ refusalOf c s = firstRefusal i s ∧
    StopsClean s (FaultedKept s) (body (beginCommand s))

section
variable {i : Instr} {s : State} {c : Checks} {body : State → Res OutPorts}

theorem runsChecked_command (hc : SameChecks i s c)
    (hbody : Untouched s (beginCommand s) → StopsClean s (FaultedKept s) (body (beginCommand s))) :
    RunsChecked i s (command c body s) :=
  ⟨c, body, rfl, hc.refusalOf_eq, hbody (untouched_beginCommand s)⟩

/-- A command that R85 or R86 gives no meaning is refused whatever its body. -/
theorem runsChecked_of_illegal (hc : c.illegal = true) (hi : illegalFor s i = true)
    (hbody : StopsClean s (FaultedKept s) (body (beginCommand s))) : RunsChecked i s (command c body s) :=
  ⟨c, body, rfl, refusalOf_eq_of_illegal hc hi, hbody⟩

end

/-- Every command asks for the checks of R193, and its body completes or stops clean. -/
theorem exec_runsChecked (i : Instr) (s : State) : RunsChecked i s (exec i s) := by
  cases i with
  | pteIsUnused | pteSetUnused | pteFlags | pteAddr | pteAttr | pteIsBlock | pteSetFlags | pteSetAttr =>
    exact runsChecked_command {} fun _ => rfl
  | pteFrame =>
    rw [exec, execPteFrame]
    refine runsChecked_command {} fun hs => ?_
    cases h : pteFrame (beginCommand s).inp.e with
    | ok f => exact hs.faulted
    | error c => exact ⟨pteFrame_ne_okay h, hs⟩
  | pteSetFrame =>
    rw [exec, execPteSetFrame]
    exact runsChecked_command { addressWidth := (Bool.or_false _).symm, misaligned := not_aligned_eq _ .k4 }
      fun hs => ofSetter_done_stopsClean hs _ _
  | pteSetBlock sz =>
    rw [exec, execPteSetBlock]
    cases sz with
    | k4 => exact runsChecked_of_illegal rfl rfl (ofSetter_done_stopsClean (untouched_beginCommand s) _ _)
    | m2 | g1 => exact runsChecked_command {} fun hs => ofSetter_done_stopsClean hs _ _
  | mapMapTo sz =>
    rw [exec, execMapMapTo]
    exact runsChecked_command { addressWidth := (Bool.or_false _).symm,
                                misaligned := congrArg₂ or (not_aligned_eq _ sz) (not_aligned_eq _ sz) }
      fun hs => mapLeaf_stopsClean hs sz _ _
  | mapIdentityMap sz =>
    rw [exec, execMapIdentityMap]
    exact runsChecked_command { addressWidth := (Bool.or_false _).symm,
                                misaligned := (Bool.or_self _).trans (not_aligned_eq _ sz) }
      fun hs => mapLeaf_stopsClean hs sz _ _
  | mapGetEntry sz | mapGetEntryMut sz =>
    exact runsChecked_command { misaligned := not_aligned_eq _ sz } fun hs => lookupLeaf_stopsClean hs sz
  | mapUnmap sz =>
    exact runsChecked_command { misaligned := not_aligned_eq _ sz } fun hs => unmapLeaf_stopsClean hs sz
  | mapUpdateFlags sz =>
    exact runsChecked_command { misaligned := not_aligned_eq _ sz } fun hs => updateLeaf_stopsClean hs sz
  | mapTranslatePage sz =>
    rw [exec, execMapTranslatePage]
    exact runsChecked_command { misaligned := not_aligned_eq _ sz } fun hs =>
      (readWalk_stopsClean (onBlock := .pageNotMapped) nofun _ sz hs).bind fun r _ hu =>
        (memRead_stopsClean r hu).bind fun e _ hw => frameAnswer_stopsClean hw (translateLeaf_ne_okay sz e)
  | mapTranslate | mapTranslateAddr =>
    simp only [exec, execMapTranslate, execMapTranslateAddr]
    exact runsChecked_command {} fun hs => (translateFrom_stopsClean _ _ _ hs).bind fun _ _ hu => hu.faulted
  | rptBind =>
    rw [exec, execRptBind]
    refine runsChecked_command {} fun hs => ?_
    have hread := physRead_untouched hs ((beginCommand s).config.rootPa.toNat + 8 * (beginCommand s).inp.ridx.toNat)
    generalize physRead _ (beginCommand s) = q at hread
    obtain ⟨_ | d, u⟩ := q
    · exact hread
    · dsimp only
      split_ifs
      · exact hread.faulted
      · exact hread
  | rptTableVa =>
    have hi := illegalFor_rptTableVa s
    rw [exec, execRptTableVa]
    cases hl : levelOf s.inp.level with
    | none => exact runsChecked_of_illegal rfl (by rw [hi, hl]; rfl) rfl
    | some l => exact runsChecked_command { illegalCommand := (hi.trans (congrArg _ hl)).symm } fun _ => rfl
  | rptCreateNextTable =>
    rw [exec, execRptCreateNextTable]
    exact runsChecked_command { misaligned := congrArg₂ or (not_aligned8_eq _) (not_aligned_eq _ .k4) } fun hs =>
      (createNextTable_stopsClean _ _ hs).bind fun _ _ hu => hu.faulted
  | tokFlush =>
    rw [exec, execTokFlush]
    exact runsChecked_command {} fun _ => (applyPrim_faulted (.discharge _ .flush) _).trans
      ((applyPrim_faulted .isb _).trans (applyPrim_faulted .tlbi _))
  | tokIgnore =>
    rw [exec, execTokIgnore]
    exact runsChecked_command {} fun _ => applyPrim_faulted (.discharge _ .ignore) _
  | attrLookup =>
    have hi := illegalFor_attrLookup s
    rw [exec, execAttrLookup]
    cases hk : memKindOf s.inp.kind with
    | none => exact runsChecked_of_illegal rfl (by rw [hi, hk]; rfl) rfl
    | some k => exact runsChecked_command { illegalCommand := (hi.trans (congrArg _ hk)).symm } fun _ => rfl

/-! ## The four outcomes (R183, R187, R190, R193) -/

theorem Status.code_le (c : Status) : c.code.toNat ≤ 7 := by cases c <;> decide

theorem Status.code_ne_zero {c : Status} (h : c ≠ .okay) : c.code ≠ 0 := by
  cases c with
  | okay => exact absurd rfl h
  | _ => decide

/-- Settles O45: the checks a command asks for are those of R193 in its order, and its body completes or stops clean. -/
theorem everyOutcomeIsOneOfFour : Obligations.EveryOutcomeIsOneOfFour := by
  unfold Obligations.EveryOutcomeIsOneOfFour
  refine ⟨fun i s r hr => ?_, fun i s t hr hexec => ?_⟩
  · obtain ⟨c, body, h, hc, -⟩ := exec_runsChecked i s
    rw [h, command_of_refused (hc.trans hr), refuseCommand_eq_afterRefusal]
  · obtain ⟨c, body, h, hc, hbody⟩ := exec_runsChecked i s
    have hadm := hc.trans hr
    obtain ⟨hf, -⟩ := ready_of_admitted hadm
    rw [h, command_of_admitted hadm] at hexec
    generalize body (beginCommand s) = q at hbody hexec
    cases q with
    | done res u =>
      obtain rfl := Host.Outcome.next.inj hexec
      exact .inl ⟨rfl, hbody.trans hf⟩
    | error e u =>
      obtain rfl := Host.Outcome.next.inj hexec
      obtain ⟨he, hu⟩ := hbody
      exact .inr (.inl ⟨e.code, e.code_ne_zero he, e.code_le, rfl, hu.faulted.trans hf, hu.tokens, hu.bound,
        hu.ridxReg⟩)
    | fault e u =>
      obtain rfl := Host.Outcome.next.inj hexec
      exact .inr (.inr ⟨rfl, Option.some_ne_none e, rfl, hbody.tokens, hbody.bound, hbody.ridxReg⟩)

/-! ## Every step answers (R183) -/

theorem command_answers (c : Checks) (body : State → Res OutPorts) (s : State) : ∃ t, command c body s = .next t := by
  cases hr : refusalOf c s with
  | some r => exact ⟨_, command_of_refused hr body⟩
  | none =>
    rw [command_of_admitted hr]
    cases body (beginCommand s) <;> exact ⟨_, rfl⟩

theorem step_answers (s : State) : ∃ t, step s = .next t := by
  unfold step
  split
  · exact ⟨_, rfl⟩
  · split
    · obtain ⟨c, body, h, -⟩ := exec_runsChecked _ (present _ _ (turn s))
      rw [h]
      exact command_answers c body _
    · exact command_answers _ _ _

/-- Settles O54: every command answers, and what it leaves of the caller's sequence and of the position is the interface's. -/
theorem everyStepAnswers : Obligations.EveryStepAnswers := by
  unfold Obligations.EveryStepAnswers
  intro s
  obtain ⟨t, h⟩ := step_answers s
  refine ⟨t, h, ?_⟩
  obtain ⟨hs, rfl⟩ | ⟨p, rest, i, hs, hx⟩ := step_cases h
  · simp [hs]
  · obtain ⟨-, hscript, hbusy, hpos⟩ := hx.interface_kept
    simp [hs, hscript, hbusy, hpos]

/-! ## The output ports and the fault state (R185, R187, R190) -/

/-- A command leaves a code of R185 on STATUS or nothing on the ports, and writes FAULT_REASON with FAULTED. -/
theorem Explained.outcome_legal {i : Instr} {s t : State} (h : Explained i s t) (hs : FaultStateLegal s) :
    OutputsLegal t ∧ FaultStateLegal t := by
  obtain ⟨hreason, -⟩ := hs
  obtain ⟨r, rfl⟩ | ⟨⟨hf, -⟩, u, hu, ⟨res, rfl⟩ | ⟨c, rfl⟩ | ⟨q, rfl⟩⟩ := h
  · simp [OutputsLegal, FaultStateLegal, hreason]
  · simp [OutputsLegal, FaultStateLegal, hu.faulted_eq, hu.faultReason_eq, ← hreason, hf, okPorts, Status.code]
  · simp [OutputsLegal, FaultStateLegal, hu.faulted_eq, hu.faultReason_eq, ← hreason, hf, errPorts, c.code_le]
  · simp [OutputsLegal, FaultStateLegal]

/-- Settles O55: a gap leaves the ports and the fault state, and every end of a command leaves them legal. -/
theorem stepKeepsOutcomePortsLegal : Obligations.StepKeepsOutcomePortsLegal := by
  unfold Obligations.StepKeepsOutcomePortsLegal
  intro s t hout hfault h
  obtain ⟨-, rfl⟩ | ⟨p, rest, i, -, hx⟩ := step_cases h
  · simpa [OutputsLegal, FaultStateLegal] using And.intro hout hfault
  · exact hx.outcome_legal (by simpa [FaultStateLegal] using hfault)

end Sys2Proof.Machine
end

section
/-! PROOF. The half-built-table race (spec/70_reset_and_hazards.md R217): the link stands published at the head of its history, and
each zero stands unpublished on a history that is published, so observers read the link alone, and zero or the old value. -/

namespace Sys2Proof.Machine

/-- Writes made since a state stand before its history at each address. -/
theorem histOf_of_writes {s t : State} {new : List WriteRec} (hwrites : t.writes = new ++ s.writes)
    (hlaunch : t.launchMem = s.launchMem) (a : Nat) :
    histOf t a = (new.filter (fun w => w.pa == a)).map (fun w => (w.val, w.published)) ++ histOf s a := by
  simp [histOf, hwrites, hlaunch]

/-- The zeroing of a table writes each of its entries once. -/
theorem zeroWrites_filter_entry (b : Nat) {n i : Nat} (hi : i < n) :
    (zeroWrites b 0 n).filter (fun w => w.pa == b + 8 * i) = [{ pa := b + 8 * i, val := 0, published := false }] := by
  have hindex : (List.range n).filter (· == i) = [i] := by
    rw [List.filter_beq, List.count_eq_one_of_mem List.nodup_range (List.mem_range.2 hi), List.replicate_one]
  have hpa : (fun k => b + 8 * k == b + 8 * i) = (· == i) := by
    funext k
    rw [Bool.eq_iff_iff, beq_iff_eq, beq_iff_eq]
    omega
  rw [zeroWrites_eq, ← List.range_eq_range', List.filter_map, List.filter_reverse, Function.comp_def, hpa, hindex]
  rfl

/-- The zeroing of a table writes nowhere outside it. -/
theorem zeroWrites_filter_outside (b : Nat) {n a : Nat} (ha : a < b ∨ b + 8 * n ≤ a) :
    (zeroWrites b 0 n).filter (fun w => w.pa == a) = [] := by
  rw [zeroWrites_eq, ← List.range_eq_range', List.filter_eq_nil_iff]
  simp only [List.mem_map, List.mem_reverse, List.mem_range, beq_iff_eq]
  rintro _ ⟨k, hk, rfl⟩ (rfl : b + 8 * k = a)
  omega

/-- With every write of the state published, an observer reads what PMEM holds (R60). -/
theorem windowAt_publish {s : State} (h : HistoryAgrees s) {a : Nat} (ha : a % 8 = 0) :
    windowAt { s with writes := publish s.writes } a = [s.mem.read64 a] :=
  windowAt_of_published h.publish (by simp [publish]) ha

/-- Settles O21: the barrier has published the link and all that was written before it, and no zero. -/
theorem newTableRace : Obligations.NewTableRace := by
  unfold Obligations.NewTableRace
  intro s pa f link hadm hagrees hf hnew
  obtain ⟨-, -, -, -, hpa, -⟩ := id hnew
  obtain ⟨-, t, hexec, -, -, -, -, hwrites, -, hreg, -⟩ := createNextTableLinks.2 s pa f link hadm hnew
  obtain ⟨-, -, -, -, -, -, hlaunch, -⟩ := hreg
  have hhist := histOf_of_writes (s := { s with writes := publish s.writes }) (t := t)
    (new := zeroWrites f.toNat 0 512 ++ [{ pa := pa, val := link, published := true }])
    (by rw [hwrites, zeroWrites_eq, List.range_eq_range', List.append_assoc]; rfl) hlaunch
  refine ⟨t, hexec, ?_, fun i hi => ?_⟩
  · rw [windowAt, hhist, List.filter_append, zeroWrites_filter_outside _ (by omega)]
    simp [windowOf]
  · have hne : pa ≠ f.toNat + 8 * i := by omega
    have hold := windowAt_publish hagrees (a := f.toNat + 8 * i) (by omega)
    rw [windowAt, hhist, List.filter_append, zeroWrites_filter_entry _ hi, ← hold]
    simp [windowAt, windowOf, hne]

end Sys2Proof.Machine
end

section
/-! PROOF. What every step keeps of a run: the launch (spec/10_state.md R26), EV as a history (R30), and the mark REFUSED
(spec/60_exceptions.md R193). -/

namespace Sys2Proof.Machine

/-- A part of the state that the interface's side does not bear on, left by the gaps and by every action, is left by every step. -/
theorem step_unchanged {α : Type} (f : State → α) (hturn : ∀ u, f (turn u) = f u)
    (hface : ∀ u v, f (withInterface u v) = f u) (hprim : ∀ p u, f (applyPrim p u) = f u) {s t : State}
    (h : step s = .next t) : f t = f s :=
  step_keeps (Inv := fun u => f u = f s) (fun u hu => (hturn u).trans hu) (fun u v hu => (hface u v).trans hu)
    (fun p u _ hu => (hprim p u).trans hu) rfl h

/-- Every step extends EV. -/
theorem step_extends_ev {s t : State} (h : step s = .next t) : ∃ new, t.ev = new ++ s.ev := by
  obtain ⟨new, hev, -⟩ := step_keeps (Inv := fun u => ∃ new, Recorded s.mem s.ev new u)
    (fun u hu => by simpa only [Recorded, turn_ev, turn_mem] using hu) (fun _ _ hu => hu)
    (fun p u _ hu => applyPrim_recorded p u hu) ⟨[], rfl, rfl⟩ h
  exact ⟨new, hev⟩

/-- An action touches the mark REFUSED by the gap after it only. -/
theorem applyPrim_keeps_refused (p : Prim) (u : State) (h : u.refused = true) : (applyPrim p u).refused = true := by
  cases p with
  | bind => exact h
  | _ => exact turn_keeps_refused _ h

/-- A refusal sets REFUSED, and no end of a command clears it. -/
theorem Explained.keeps_refused {i : Instr} {s t : State} (h : Explained i s t) (hs : s.refused = true) :
    t.refused = true := by
  obtain ⟨r, rfl⟩ | ⟨-, u, hu, he⟩ := h
  · rfl
  · have hrefused : u.refused = true :=
      hu.invariant (Inv := fun u => u.refused = true) (fun p w _ _ hw => applyPrim_keeps_refused p w hw) hs
    obtain ⟨_, rfl⟩ | ⟨_, rfl⟩ | ⟨_, rfl⟩ := he <;> exact hrefused

theorem step_keeps_refused {s t : State} (h : step s = .next t) (hs : s.refused = true) : t.refused = true := by
  have hturn := turn_keeps_refused s hs
  obtain ⟨-, rfl⟩ | ⟨p, rest, i, -, hx⟩ := step_cases h
  · exact hturn
  · exact hx.keeps_refused hturn

/-- Settles O59: the launch is no action's to change, EV grows by what is recorded, and REFUSED is only ever set. -/
theorem runKeepsLaunchAndMarks : Obligations.RunKeepsLaunchAndMarks := by
  unfold Obligations.RunKeepsLaunchAndMarks
  intro s t h
  exact ⟨step_unchanged State.config turn_config (fun _ _ => rfl) applyPrim_config h,
    step_unchanged State.launchMem turn_launchMem (fun _ _ => rfl) applyPrim_launchMem h,
    step_keeps_refused h, step_extends_ev h⟩

end Sys2Proof.Machine
end
